-- ==== Sys2Proof/Word.lean ====
section
/-! DEFINITION. The widths of the machine's values (spec/03_encoding.md R36, spec/00_scope.md R2):
bytes, 32-bit register words, 64-bit words and masks, and one value per lane of a group. -/

namespace Sys2Proof

/-- One byte of memory. -/
abbrev Byte := BitVec 8
/-- The content of one 32-bit register, or of one lane of a vector register (R36). -/
abbrev Word := BitVec 32
/-- A 64-bit value: a pair of registers (R38), an address, a special register. -/
abbrev DWord := BitVec 64
/-- One bit per lane of a group (R17). -/
abbrev Mask := BitVec 64
/-- One value per lane (R17: a group is 64 lanes). -/
abbrev Lanes (α : Type) := Vector α 64

/-- The value of lane `i`, read modulo 64. -/
def Lanes.at {α : Type} (v : Lanes α) (i : Nat) : α := v.get (Fin.ofNat 64 i)

/-- One value per lane, given by a function of the lane number. -/
def Lanes.gen {α : Type} (f : Nat → α) : Lanes α := Vector.ofFn fun i => f i.val

/-- The same value in every lane. -/
def Lanes.const {α : Type} (a : α) : Lanes α := Vector.replicate 64 a

/-- The low word of a 64-bit value: the even register of a pair (R38). -/
def DWord.lo (x : DWord) : Word := x.setWidth 32
/-- The high word of a 64-bit value: the odd register of a pair (R38). -/
def DWord.hi (x : DWord) : Word := (x >>> 32).setWidth 32
/-- A pair's 64-bit value from its even (low) and odd (high) words (R38). -/
def DWord.ofPair (lo hi : Word) : DWord := hi ++ lo

end Sys2Proof
end

