-- ==== Sys2Proof/Machine/Float.lean ====
section
/-! DEFINITION. Number formats and rounding (spec/06_numbers.md R97-R108, R276): values decoded exactly, results rounded
once from an exact real number. -/

namespace Sys2Proof.Machine

/-! ### Flags (R43, R108) -/

/-- The five flags in the order of R43: NX bit 0, UF 1, OF 2, DZ 3, NV 4. -/
abbrev FFlags := BitVec 5
def fNX : FFlags := 1
def fUF : FFlags := 2
def fOF : FFlags := 4
def fDZ : FFlags := 8
def fNV : FFlags := 16

/-! ### Formats and exact values -/

/-- An IEEE format (R97): exponent and fraction widths; the bias is 2^(eb-1) - 1. -/
structure Fmt where
  eb : Nat
  fb : Nat
  deriving DecidableEq, Repr

def fp32 : Fmt := ⟨8, 23⟩
def fp16 : Fmt := ⟨5, 10⟩
def bf16 : Fmt := ⟨8, 7⟩

def Fmt.bias (m : Fmt) : Nat := 2 ^ (m.eb - 1) - 1
/-- The encoding of +∞; larger magnitudes are NaNs. -/
def Fmt.infBits (m : Fmt) : Nat := (2 ^ m.eb - 1) * 2 ^ m.fb
def Fmt.signBit (m : Fmt) : Nat := 2 ^ (m.eb + m.fb)
/-- The canonical NaN (R97, R105). -/
def Fmt.nan (m : Fmt) : Nat := m.infBits + 2 ^ (m.fb - 1)
/-- The largest finite encoding. -/
def Fmt.maxBits (m : Fmt) : Nat := m.infBits - 1

/-- A decoded value: a NaN (signalling or quiet), an infinity, or (-1)^neg · m · 2^e exactly. -/
inductive FV where
  | nan (signalling : Bool)
  | inf (neg : Bool)
  | fin (neg : Bool) (m : Nat) (e : Int)
  deriving DecidableEq, Repr

/-- The value of an encoding (R97). -/
def Fmt.value (m : Fmt) (x : Nat) : FV :=
  let neg := x.testBit (m.eb + m.fb)
  let ex := x / 2 ^ m.fb % 2 ^ m.eb
  let fr := x % 2 ^ m.fb
  if ex = 2 ^ m.eb - 1 then
    if fr = 0 then .inf neg else .nan (!fr.testBit (m.fb - 1))
  else if ex = 0 then .fin neg fr (1 - (m.bias : Int) - m.fb)
  else .fin neg (2 ^ m.fb + fr) ((ex : Int) - m.bias - m.fb)

/-- Whether an encoding is a subnormal. -/
def Fmt.isSub (m : Fmt) (x : Nat) : Bool := x / 2 ^ m.fb % 2 ^ m.eb == 0 && x % 2 ^ m.fb != 0

/-- An operand as `.FTZ` reads it (R107). -/
def Fmt.flush (m : Fmt) (ftz : Bool) (x : Nat) : Nat :=
  if ftz && m.isSub x then x / 2 ^ (m.eb + m.fb) * m.signBit else x

/-- The operand's value under `.FTZ`. -/
def Fmt.read (m : Fmt) (ftz : Bool) (x : Nat) : FV := m.value (m.flush ftz x)

def FV.isNan : FV → Bool
  | .nan _ => true
  | _ => false
def FV.isSNan : FV → Bool
  | .nan s => s
  | _ => false
def FV.neg : FV → Bool
  | .nan _ => false
  | .inf s => s
  | .fin s _ _ => s
def FV.isZero : FV → Bool
  | .fin _ 0 _ => true
  | _ => false
def FV.isInf : FV → Bool
  | .inf _ => true
  | _ => false

/-- NV for the signalling NaNs among the operands (R105). -/
def nvOf (xs : List FV) : FFlags := if xs.any FV.isSNan then fNV else 0

/-! ### Rounding -/

/-- A positive real number x, as the floor of x · 2^k for any k and whether that is exact. -/
abbrev Scale := Int → Nat × Bool

/-- x · 2^k for a rational n / d · 2^e. -/
def ratScale (n d : Nat) (e : Int) : Scale := fun k =>
  let s := k + e
  let num := if 0 ≤ s then n * 2 ^ s.toNat else n
  let den := if 0 ≤ s then d else d * 2 ^ (-s).toNat
  (num / den, num % den == 0)

/-- ⌊log2 (n / d · 2^e)⌋ for n, d > 0. -/
def ratLog (n d : Nat) (e : Int) : Int :=
  let l : Int := (Nat.log2 n : Int) - Nat.log2 d
  let ge := if 0 ≤ l then decide (d * 2 ^ l.toNat ≤ n) else decide (d ≤ n * 2 ^ (-l).toNat)
  (if ge then l else l - 1) + e

/-- Integer square root by Newton's method, `fuel` steps. -/
def isqrt (n : Nat) : Nat :=
  let rec go : Nat → Nat → Nat
    | 0, x => x
    | fuel + 1, x => let y := (x + n / x) / 2; if x ≤ y then x else go fuel y
  if n = 0 then 0 else go (Nat.log2 n + 2) (2 ^ (Nat.log2 n / 2 + 1))

/-- The square root of a rational. -/
def sqrtScale (n d : Nat) (e : Int) : Scale := fun k =>
  let (q, ex) := ratScale n d e (2 * k)
  let r := isqrt q
  (r, ex && r * r == q)

/-- Whether the magnitude N + rest rounds up (R104): `half` says that the rest is at least a half, `rest` that it is
neither zero nor exactly a half. -/
def roundsUp (rnd : Nat) (neg : Bool) (n : Nat) (half rest : Bool) : Bool :=
  match rnd with
  | 0 => half && (rest || n % 2 == 1)
  | 1 => false
  | 2 => !neg && (half || rest)
  | _ => neg && (half || rest)

/-- The overflow result of R104 as a magnitude. -/
def Fmt.overflow (m : Fmt) (rnd : Nat) (neg : Bool) : Nat :=
  match rnd with
  | 0 => m.infBits
  | 1 => m.maxBits
  | 2 => if neg then m.maxBits else m.infBits
  | _ => if neg then m.infBits else m.maxBits

/-- A positive real of binary exponent `lg` rounded once into the format (R104, R107): encoding and flags. Under `sat` a
finite overflow becomes the largest finite value (R123). -/
def Fmt.round (m : Fmt) (rnd : Nat) (ftz sat neg : Bool) (lg : Int) (x : Scale) : Nat × FFlags :=
  let emin : Int := 1 - m.bias
  let cut (q : Int) : Nat × Bool × Bool × Nat :=   -- at quantum 2^q: rounded magnitude, inexact, and its parts
    let (t, ex) := x (1 - q)
    let n := t / 2
    let half := t % 2 == 1
    (if roundsUp rnd neg n half (!ex) then n + 1 else n, half || !ex, half, n)
  let q := max (lg - m.fb) (emin - m.fb)
  let (n, inexact, _, _) := cut q
  let enc := ((q + m.fb + m.bias).toNat - 1) * 2 ^ m.fb + n
  let s := if neg then m.signBit else 0
  if m.infBits ≤ enc then
    (s + (if sat then m.maxBits else m.overflow rnd neg), fOF ||| fNX)
  else
    let tiny := decide (lg < emin - 1) || (decide (lg = emin - 1) && decide ((cut (lg - m.fb)).1 < 2 ^ (m.fb + 1)))
    if ftz && m.isSub enc then (s, fUF ||| fNX)
    else (s + enc, (if inexact then fNX else 0) ||| (if tiny && inexact then fUF else 0))

/-- An exact rational number with a sign for zero: (-1)^neg · n / d · 2^e. -/
structure Exact where
  neg : Bool
  n : Nat
  d : Nat := 1
  e : Int := 0
  deriving DecidableEq, Repr

/-- Rounding an exact number (R104); zero keeps its sign and raises nothing. -/
def Fmt.roundExact (m : Fmt) (rnd : Nat) (ftz sat : Bool) (x : Exact) : Nat × FFlags :=
  if x.n = 0 then (if x.neg then m.signBit else 0, 0)
  else m.round rnd ftz sat x.neg (ratLog x.n x.d x.e) (ratScale x.n x.d x.e)

/-! ### Exact arithmetic with infinities (R106, R116, R276) -/

/-- A value of the extended reals in an expression, or an invalid step; `dz` records x / 0 of a finite x. -/
inductive XV where
  | bad
  | inf (neg : Bool)
  | num (x : Exact)
  deriving DecidableEq, Repr

def FV.toX : FV → XV
  | .nan _ => .bad
  | .inf s => .inf s
  | .fin s m e => .num { neg := s, n := m, e := e }

def XV.negate : XV → XV
  | .bad => .bad
  | .inf s => .inf (!s)
  | .num x => .num { x with neg := !x.neg }

def Exact.mul (x y : Exact) : Exact := { neg := x.neg != y.neg, n := x.n * y.n, d := x.d * y.d, e := x.e + y.e }

/-- The exact sum; a zero sum of non-zero or opposite-signed operands is +0, or -0 under `.RM` (R106). -/
def Exact.add (rm : Bool) (x y : Exact) : Exact :=
  if x.n = 0 && y.n = 0 then { neg := if x.neg == y.neg then x.neg else rm, n := 0 }
  else
    let e := min x.e y.e
    let p : Int := (x.n * y.d * 2 ^ (x.e - e).toNat : Nat)
    let q : Int := (y.n * x.d * 2 ^ (y.e - e).toNat : Nat)
    let t : Int := (if x.neg then -p else p) + (if y.neg then -q else q)
    if t = 0 then { neg := rm, n := 0 } else { neg := decide (t < 0), n := t.natAbs, d := x.d * y.d, e }

def XV.mul : XV → XV → XV
  | .bad, _ | _, .bad => .bad
  | .inf s, .inf t => .inf (s != t)
  | .inf s, .num y => if y.n = 0 then .bad else .inf (s != y.neg)
  | .num x, .inf t => if x.n = 0 then .bad else .inf (x.neg != t)
  | .num x, .num y => .num (x.mul y)

def XV.add (rm : Bool) : XV → XV → XV
  | .bad, _ | _, .bad => .bad
  | .inf s, .inf t => if s == t then .inf s else .bad
  | .inf s, .num _ => .inf s
  | .num _, .inf t => .inf t
  | .num x, .num y => .num (x.add rm y)

/-- The quotient, with DZ for a finite non-zero number over zero. -/
def XV.div : XV → XV → XV × FFlags
  | .bad, _ | _, .bad => (.bad, 0)
  | .inf _, .inf _ => (.bad, 0)
  | .inf s, .num y => (.inf (s != y.neg), 0)
  | .num x, .inf t => (.num { neg := x.neg != t, n := 0 }, 0)
  | .num x, .num y =>
    if y.n = 0 then (if x.n = 0 then (.bad, 0) else (.inf (x.neg != y.neg), fDZ))
    else (.num { neg := x.neg != y.neg, n := x.n * y.d, d := x.d * y.n, e := x.e - y.e }, 0)

/-- Delivering an expression's result: an invalid step gives the canonical NaN with NV (R105, R276). -/
def Fmt.deliver (m : Fmt) (rnd : Nat) (ftz : Bool) (v : XV) : Nat × FFlags :=
  match v with
  | .bad => (m.nan, fNV)
  | .inf s => ((if s then m.signBit else 0) + m.infBits, 0)
  | .num x => m.roundExact rnd ftz false x

/-! ### Conversions to integers -/

/-- A finite value rounded to an integer in the direction of R104, and whether that changed it. -/
def roundInt (rnd : Nat) (neg : Bool) (m : Nat) (e : Int) : Int × Bool :=
  let (t, ex) := ratScale m 1 e 1
  let n := t / 2
  let half := t % 2 == 1
  let r := if roundsUp rnd neg n half (!ex) then n + 1 else n
  (if neg then -(r : Int) else r, half || !ex)

/-! ### Tapered formats (R100-R103) -/

/-- A regime run of magnitude bits: how many of the top bits of the `w`-bit `m` equal the top bit. -/
def regimeRun (m : Nat) : Nat → Nat
  | 0 => 0
  | w + 1 =>
    let top := m.testBit w
    let rec go : Nat → Nat
      | 0 => 0
      | j + 1 => if m.testBit j == top then go j + 1 else 0
    go w + 1

/-- Decoding a tapered magnitude of `w` bits (T8: w = 7 with an exponent bit; T6: w = 5 without), as m · 2^e (R100). -/
def taperMag (w : Nat) (hasE : Bool) (m : Nat) : Nat × Int :=
  let n := regimeRun m w
  let ones := m.testBit (w - 1)
  let k : Int := if ones then (n : Int) - 1 else -(n : Int)
  let rest := w - min w (n + 1)             -- bits after the terminator
  let (eb, fbits) := if hasE then (if rest = 0 then (0, 0) else ((m >>> (rest - 1)) % 2, rest - 1)) else (0, rest)
  let f := m % 2 ^ fbits
  (2 ^ fbits + f, (if hasE then 2 * k + eb else k) - fbits)

/-- The value of a T8 or T6 encoding (R100). -/
def taperValue (w : Nat) (hasE : Bool) (x : Nat) : FV :=
  let s := x.testBit w
  let m := x % 2 ^ w
  if m = 0 then (if s then .nan false else .fin false 0 0)
  else let (n, e) := taperMag w hasE m; .fin s n e

/-- Comparing two positive dyadic numbers. -/
def dyadicLe (a : Nat) (ea : Int) (b : Nat) (eb : Int) : Bool :=
  let e := min ea eb
  decide (a * 2 ^ (ea - e).toNat ≤ b * 2 ^ (eb - e).toNat)

/-- The largest tapered magnitude at most n · 2^e, among `m ≤ top`. -/
def taperFloor (w : Nat) (hasE : Bool) (n : Nat) (e : Int) : Nat → Nat
  | 0 => 0
  | m + 1 => let (a, ea) := taperMag w hasE (m + 1); if dyadicLe a ea n e then m + 1 else taperFloor w hasE n e m

/-- Encoding into T8 or T6 (R103): always nearest, always saturating. -/
def taperEncode (w : Nat) (hasE : Bool) (v : FV) : Nat × FFlags :=
  let top := 2 ^ w - 1
  let sgn (s : Bool) := if s then 2 ^ w else 0
  match v with
  | .nan s => (2 ^ w, if s then fNV else 0)
  | .inf s => (sgn s + top, 0)
  | .fin s n e =>
    if n = 0 then (0, 0)
    else
      let (a, ea) := taperMag w hasE top
      if !dyadicLe n e a ea then (sgn s + top, fOF ||| fNX)
      else
        let (b, eb) := taperMag w hasE 1
        if !dyadicLe b eb n e then
          if dyadicLe b (eb - 1) n e then (sgn s + 1, fUF ||| fNX) else (0, fUF ||| fNX)
        else
          let m := taperFloor w hasE n e top
          let (lo, elo) := taperMag w hasE m
          if dyadicLe n e lo elo then (sgn s + m, 0)
          else
            let (hi, ehi) := taperMag w hasE (m + 1)
            let ee := min elo ehi
            let mid := lo * 2 ^ (elo - ee).toNat + hi * 2 ^ (ehi - ee).toNat   -- twice the midpoint
            let up := if dyadicLe n (e + 1) mid ee then dyadicLe mid ee n (e + 1) && m % 2 == 1 else true
            (sgn s + (if up then m + 1 else m), fNX)

def t8Value (x : Nat) : FV := taperValue 7 true x
def t6Value (x : Nat) : FV := taperValue 5 false x
def t8Encode (v : FV) : Nat × FFlags := taperEncode 7 true v
def t6Encode (v : FV) : Nat × FFlags := taperEncode 5 false v

/-- The exact FP32 encoding of a T8 encoding: half immediates (R56). -/
def t8ToFp32 (x : Nat) : Nat :=
  match t8Value x with
  | .nan _ => fp32.nan
  | .inf _ => fp32.infBits
  | .fin s n e => (fp32.roundExact 0 false false { neg := s, n, e }).1

end Sys2Proof.Machine
end

