-- ==== Sys2Proof/Machine/Transc.lean ====
section
/-! DEFINITION. The transcendentals, correctly rounded over the whole FP32 domain (spec/06_numbers.md R127), and their
tangents rounded once from the exact expression (spec/14_dual.md R276, R277). A positive real is known by intervals
at growing precision; `ivScale` takes the first that decides the wanted bits. -/

namespace Sys2Proof.Machine

/-- An interval at precision P: lo / 2^P ≤ x ≤ hi / 2^P. -/
abbrev Iv := Nat → Nat × Nat

/-- The sum of a series of `n` terms: `step i t` gives term i + 1 from term i; signs alternate when `alt`. -/
def series (step : Nat → Nat → Nat) (alt : Bool) : Nat → Nat → Nat → Int → Nat
  | 0, _, _, acc => acc.toNat
  | fuel + 1, i, t, acc =>
    if t = 0 then acc.toNat
    else series step alt fuel (i + 1) (step i t) (if alt && i % 2 == 1 then acc - t else acc + t)

/-- arctan (1 / n) or artanh (1 / n), times 2^P. -/
def atanInv (alt : Bool) (n p : Nat) : Nat :=
  -- powers x^(2i+1) are carried, each divided by 2i + 1 when added
  let rec go : Nat → Nat → Nat → Nat → Nat
    | 0, _, _, acc => acc
    | fuel + 1, i, t, acc =>
      if t = 0 then acc
      else
        let u := t / (2 * i + 1)
        go fuel (i + 1) (t / (n * n)) (if alt && i % 2 == 1 then acc - u else acc + u)
  go (p + 2) 0 (2 ^ p / n) 0

/-- ln 2 times 2^P. -/
def ln2At (p : Nat) : Nat :=
  let q := p + 32
  (18 * atanInv false 26 q + 8 * atanInv false 8749 q - 2 * atanInv false 4801 q) / 2 ^ 32

/-- π / 2 times 2^P. -/
def halfPiAt (p : Nat) : Nat :=
  let q := p + 32
  (8 * atanInv true 5 q - 2 * atanInv true 239 q) / 2 ^ 32

/-- e^r times 2^P for r = x / 2^P in [0, 1). -/
def expAt (p x : Nat) : Nat := series (fun i t => t * x / 2 ^ p / (i + 1)) false (p + 2) 0 (2 ^ p) 0
/-- sin r times 2^P for r = x / 2^P in [0, π / 2]. -/
def sinAt (p x : Nat) : Nat :=
  series (fun i t => t * x / 2 ^ p * x / 2 ^ p / ((2 * i + 2) * (2 * i + 3))) true (p + 2) 0 x 0
/-- cos r times 2^P. -/
def cosAt (p x : Nat) : Nat :=
  series (fun i t => t * x / 2 ^ p * x / 2 ^ p / ((2 * i + 1) * (2 * i + 2))) true (p + 2) 0 (2 ^ p) 0
/-- ln (n / d) times 2^P for 1 ≤ n / d < 2, by 2 artanh ((n - d) / (n + d)). -/
def lnAt (p n d : Nat) : Nat :=
  let y := (n - d) * 2 ^ p / (n + d)
  let rec go : Nat → Nat → Nat → Nat → Nat
    | 0, _, _, acc => acc
    | fuel + 1, i, t, acc => if t = 0 then acc else go fuel (i + 1) (t * y / 2 ^ p * y / 2 ^ p) (acc + t / (2 * i + 1))
  2 * go (p + 2) 0 y 0

/-- An interval around a computed approximation: the series above err by fewer than 2^12 units at precision P + 16. -/
def around (f : Nat → Nat) : Iv := fun p => let v := f (p + 16) / 2 ^ 16; (v - 2, v + 2)

/-- c · x for a rational c = n / d · 2^e and x by intervals. -/
def ivScale (n d : Nat) (e : Int) (x : Iv) : Scale := fun k =>
  let rec go : List Nat → Nat
    | [] => 0
    | p :: ps =>
      let (lo, hi) := x p
      let a := (ratScale (n * lo) d (e - p) k).1
      let b := (ratScale (n * hi) d (e - p) k).1
      if a = b || ps.isEmpty then a else go ps
  (go [128, 256, 640, 1400], false)

/-- Its binary exponent. -/
def ivLog (n d : Nat) (e : Int) (x : Iv) : Int := ratLog (n * max (x 640).1 1) d (e - 640)

/-- x · 2^P for a dyadic m · 2^e. -/
def dyadicAt (m : Nat) (e : Int) (p : Nat) : Nat := (ratScale m 1 e p).1

/-- An upper bound of x - c at precision P, from x = m · 2^e exactly or rounded up. -/
def topOf (m : Nat) (e : Int) (p c : Nat) : Nat :=
  let (x, exact) := ratScale m 1 e p
  if exact then x - c else x + 1

/-- Whether m · 2^e lies below 2^-30 (and is positive). -/
def tinyArg (m : Nat) (e : Int) : Bool := decide ((Nat.log2 m : Int) + e < -30)

/-- 2^(±m·2^e): an integer power of two and an interval that shrinks with the precision. -/
def exp2Iv (neg : Bool) (m : Nat) (e : Int) : Int × Iv :=
  -- arguments beyond ±2000 round as ±2000 do
  let (m, e) := if dyadicLe m e 2000 0 then (m, e) else (2000, 0)
  let q := dyadicAt m e 0
  let i : Int := if neg then -(q : Int) - 1 else q
  (i, around fun p =>
    let f := dyadicAt m e p - q * 2 ^ p
    let f := if neg then 2 ^ p - f else f
    expAt p (f * ln2At p / 2 ^ p))

/-- An interval for the value alone: next to 1 it lies within the last place whatever its width. -/
def exp2Value (neg : Bool) (m : Nat) (e : Int) : Int × Iv :=
  if tinyArg m e then
    if neg then (0, fun p => let x := dyadicAt m e p; (2 ^ p - x - 1, 2 ^ p - x / 2))
    else (0, fun p => let x := dyadicAt m e p; (2 ^ p + x / 2, 2 ^ p + x + 1))
  else exp2Iv neg m e

/-- |log2 (m · 2^e)| and whether it is negative; not for powers of two. -/
def log2Iv (m : Nat) (e : Int) : Bool × Iv :=
  let l := Nat.log2 m
  let i : Int := l + e
  if i < 0 then
    (true, around fun p => (-i).toNat * 2 ^ p - lnAt p m (2 ^ l) * 2 ^ p / ln2At p)
  else (false, around fun p => i.toNat * 2 ^ p + lnAt p m (2 ^ l) * 2 ^ p / ln2At p)

/-- |sin x|, |cos x| with their signs for x = m · 2^e > 0. -/
def sinCosIv (m : Nat) (e : Int) : (Bool × Iv) × (Bool × Iv) :=
  if tinyArg m e then
    ((false, fun p => let x := dyadicAt m e p; let c := x * x / 2 ^ p * x / 2 ^ p; (x - c / 5 - 1, topOf m e p (c / 7))),
     (false, fun p => let x := dyadicAt m e p; let c := x * x / 2 ^ p; (2 ^ p - c - 1, 2 ^ p - c / 4)))
  else
    let big := ((Nat.log2 m : Int) + e).toNat + 8
    let red (p : Nat) : Nat × Nat :=   -- quadrant and remainder at precision p
      let q := p + big
      let h := halfPiAt q
      let x := dyadicAt m e q
      (x / h % 4, x % h / 2 ^ big)
    let qd := (red 256).1
    let s : Iv := around fun p => let r := (red p).2; if qd % 2 = 0 then sinAt p r else cosAt p r
    let c : Iv := around fun p => let r := (red p).2; if qd % 2 = 0 then cosAt p r else sinAt p r
    ((decide (2 ≤ qd), s), (qd == 1 || qd == 2, c))

/-- e^(2x) times 2^P for 0 < x ≤ 100. -/
def exp2xAt (m : Nat) (e : Int) (p : Nat) : Nat :=
  let q := p + 320
  let y := dyadicAt m (e + 1) q
  let l := ln2At q
  expAt q (y % l) * 2 ^ (y / l) / 2 ^ 320

/-- tanh x and 1 - tanh² x for x = m · 2^e > 0. -/
def tanhIv (m : Nat) (e : Int) : Iv × Iv :=
  if tinyArg m e then
    (fun p => let x := dyadicAt m e p; let c := x * x / 2 ^ p * x / 2 ^ p; (x - c / 2 - 1, topOf m e p (c / 4)),
     fun p => let x := dyadicAt m e p; let c := x * x / 2 ^ p; (2 ^ p - 2 * c - 1, 2 ^ p - c / 2))
  else if dyadicLe m e 100 0 then
    (around fun p => let t := exp2xAt m e p; (t - 2 ^ p) * 2 ^ p / (t + 2 ^ p),
     around fun p => let t := exp2xAt m e p; let u := t + 2 ^ p; 4 * t * 2 ^ (2 * p) / (u * u))
  else (fun p => (2 ^ p - 2 ^ (p - 100), 2 ^ p - 1), fun p => (2 ^ (p - 120) / 2 ^ 280, 2 ^ (p - 120) / 2 ^ 279))

/-- The transcendentals of class 5 (R127). -/
inductive TFn where
  | exp2 | log2 | rcp | rsqrt | sqrt | sin | cos | tanh
  deriving DecidableEq, Repr

def isPow2 (m : Nat) : Bool := m == 2 ^ Nat.log2 m

/-- The value of a transcendental with its flags (R127). -/
def TFn.apply (fn : TFn) (ftz : Bool) (a : Nat) : Nat × FFlags :=
  let nan := (fp32.nan, fNV)
  let sgn (s : Bool) : Nat := if s then fp32.signBit else 0
  let rnd (neg : Bool) (n d : Nat) (e : Int) (x : Iv) := fp32.round 0 ftz false neg (ivLog n d e x) (ivScale n d e x)
  match fp32.read ftz a with
  | .nan s => (fp32.nan, if s then fNV else 0)
  | .inf s =>
    match fn with
    | .exp2 => (if s then 0 else fp32.infBits, 0)
    | .log2 | .sqrt => if s then nan else (fp32.infBits, 0)
    | .rcp => (sgn s, 0)
    | .rsqrt => if s then nan else (0, 0)
    | .sin | .cos => nan
    | .tanh => (sgn s + 0x3F800000, 0)
  | .fin s m e =>
    if m = 0 then
      match fn with
      | .exp2 | .cos => (0x3F800000, 0)
      | .log2 => (fp32.signBit + fp32.infBits, fDZ)
      | .rcp | .rsqrt => (sgn s + fp32.infBits, fDZ)
      | .sqrt | .sin | .tanh => (sgn s, 0)
    else
      match fn with
      | .exp2 =>
        if decide (0 ≤ e) || m % 2 ^ (-e).toNat == 0 then
          let (c, _) := roundInt 1 s m e
          let c := max (-2000) (min 2000 c)
          fp32.roundExact 0 ftz false { neg := false, n := 1, e := c }
        else let (i, x) := exp2Value s m e; rnd false 1 1 i x
      | .log2 =>
        if s then nan
        else if isPow2 m then
          let l : Int := Nat.log2 m + e
          fp32.roundExact 0 ftz false { neg := decide (l < 0), n := l.natAbs }
        else let (neg, x) := log2Iv m e; rnd neg 1 1 0 x
      | .rcp => fp32.roundExact 0 ftz false { neg := s, n := 1, d := m, e := -e }
      | .sqrt => if s then nan else fp32.round 0 ftz false false (ratLog m 1 e / 2) (sqrtScale m 1 e)
      | .rsqrt => if s then nan else fp32.round 0 ftz false false (ratLog 1 m (-e) / 2) (sqrtScale 1 m (-e))
      | .sin => let ((neg, x), _) := sinCosIv m e; rnd (neg != s) 1 1 0 x
      | .cos => let (_, (neg, x)) := sinCosIv m e; rnd neg 1 1 0 x
      | .tanh => rnd s 1 1 0 (tanhIv m e).1

/-- ta × x for a positive irrational x known by intervals times 2^i. -/
def tanMul (ftz neg : Bool) (ta : FV) (i : Int) (x : Iv) : Nat × FFlags :=
  match ta with
  | .nan s => (fp32.nan, if s then fNV else 0)
  | .inf s => ((if s != neg then fp32.signBit else 0) + fp32.infBits, 0)
  | .fin s m e =>
    if m = 0 then (if s != neg then fp32.signBit else 0, 0)
    else fp32.round 0 ftz false (s != neg) (ivLog m 1 (e + i) x) (ivScale m 1 (e + i) x)

/-- A tangent component of a transcendental (R276, R277): `a` and `ta` are encodings. -/
def TFn.tangent (fn : TFn) (ftz : Bool) (a ta : Nat) : Nat × FFlags :=
  let t := fp32.read ftz ta
  let nvT : FFlags := nvOf [t]
  let v := fp32.read ftz a
  let valueNan := (fp32.read false (fn.apply ftz a).1).isNan
  if valueNan || t.isNan then (fp32.nan, nvT)
  else
    let one : XV := .num { neg := false, n := 1 }
    let out (r : XV × FFlags) : Nat × FFlags := let (x, fl) := fp32.deliver 0 ftz r.1; (x, fl ||| r.2)
    let root (neg : Bool) (n d : Nat) (e : Int) := fp32.round 0 ftz false neg (ratLog n d e / 2) (sqrtScale n d e)
    match v with
    | .nan _ => (fp32.nan, nvT)
    | .inf s =>
      match fn with
      | .exp2 => out (t.toX.mul (if s then .num { neg := false, n := 0 } else .inf false), 0)
      | .log2 | .sqrt => out (t.toX.div (.inf false))
      | .rcp | .rsqrt => out (t.toX.negate.div (.inf false))
      | .sin | .cos => (fp32.nan, nvT)
      | .tanh => out (t.toX.mul (.num { neg := false, n := 0 }), 0)
    | .fin s m e =>
      if m = 0 then
        match fn with
        | .exp2 => tanMul ftz false t 0 (around ln2At)
        | .log2 | .sqrt => out (t.toX.div (.num { neg := s, n := 0 }))
        | .rcp | .rsqrt => out (t.toX.negate.div (.num { neg := false, n := 0 }))
        | .sin | .tanh => out (t.toX.mul one, 0)
        | .cos => out (t.toX.negate.mul (.num { neg := s, n := 0 }), 0)
      else
        match fn with
        | .exp2 =>
          let (i, x) := exp2Iv s m e
          let integral := decide (0 ≤ e) || m % 2 ^ (-e).toNat == 0
          let (i, y) : Int × Iv := if integral then (max (-2000) (min 2000 (roundInt 1 s m e).1), fun p => (2 ^ p, 2 ^ p)) else (i, x)
          tanMul ftz false t i (fun p => let (a, b) := y p; let l := around ln2At p; (a * l.1 / 2 ^ p, b * l.2 / 2 ^ p + 1))
        | .log2 =>
          -- ta / (a ln 2) = ta × (1 / (m ln 2)) × 2^-e
          tanMul ftz false t (-e - Nat.log2 m - 1)
            (fun p => let l := around ln2At p; let sc := 2 ^ (Nat.log2 m + 1); (2 ^ (2 * p) * sc / (m * l.2), 2 ^ (2 * p) * sc / (m * l.1) + 1))
        | .rcp => out (t.toX.negate.div (.num { neg := false, n := m * m, e := 2 * e }))
        | .sqrt =>
          match t with
          | .fin ts tm te => if tm = 0 then (if ts then fp32.signBit else 0, 0) else root ts (tm * tm) (4 * m) (2 * te - e)
          | _ => out (t.toX, 0)
        | .rsqrt =>
          match t with
          | .fin ts tm te => if tm = 0 then (if ts then 0 else fp32.signBit, 0) else root (!ts) (tm * tm) (4 * m * m * m) (2 * te - 3 * e)
          | _ => out (t.toX.negate, 0)
        | .sin => let (_, (neg, x)) := sinCosIv m e; tanMul ftz neg t 0 x
        | .cos => let ((neg, x), _) := sinCosIv m e; tanMul ftz (!(neg != s)) t 0 x
        | .tanh => tanMul ftz false t 0 (tanhIv m e).2

end Sys2Proof.Machine
end

