-- ==== Sys2Proof/Machine/FloatOps.lean ====
section
/-! DEFINITION. The floating operations on encodings (spec/06_numbers.md R115-R126) and their tangents
(spec/14_dual.md R276, R277). Every function answers an encoding with the flags it raises. -/

namespace Sys2Proof.Machine

/-! ### Arithmetic (R116) -/

def Fmt.addF (m : Fmt) (rnd : Nat) (ftz : Bool) (a b : Nat) : Nat × FFlags :=
  let x := m.read ftz a
  let y := m.read ftz b
  if x.isNan || y.isNan then (m.nan, nvOf [x, y]) else m.deliver rnd ftz (x.toX.add (rnd == 3) y.toX)

/-- An encoding with its sign inverted. -/
def Fmt.flip (m : Fmt) (a : Nat) : Nat := a ^^^ m.signBit

def Fmt.subF (m : Fmt) (rnd : Nat) (ftz : Bool) (a b : Nat) : Nat × FFlags := m.addF rnd ftz a (m.flip b)

def Fmt.mulF (m : Fmt) (rnd : Nat) (ftz : Bool) (a b : Nat) : Nat × FFlags :=
  let x := m.read ftz a
  let y := m.read ftz b
  if x.isNan || y.isNan then (m.nan, nvOf [x, y]) else m.deliver rnd ftz (x.toX.mul y.toX)

/-- a × b + c with one rounding; 0 × ∞ is invalid even when c is a quiet NaN (R116). -/
def Fmt.fmaF (m : Fmt) (rnd : Nat) (ftz : Bool) (a b c : Nat) : Nat × FFlags :=
  let x := m.read ftz a
  let y := m.read ftz b
  let z := m.read ftz c
  if x.isNan || y.isNan then (m.nan, nvOf [x, y, z])
  else
    let p := x.toX.mul y.toX
    if p == .bad then (m.nan, fNV)
    else if z.isNan then (m.nan, nvOf [z])
    else m.deliver rnd ftz (p.add (rnd == 3) z.toX)

def Fmt.divF (m : Fmt) (rnd : Nat) (ftz : Bool) (a b : Nat) : Nat × FFlags :=
  let x := m.read ftz a
  let y := m.read ftz b
  if x.isNan || y.isNan then (m.nan, nvOf [x, y])
  else
    let (q, fl) := x.toX.div y.toX
    let (r, fl') := m.deliver rnd ftz q
    (r, fl ||| fl')

/-- An order-preserving integer for a non-NaN encoding: -0 below +0 (R106). -/
def Fmt.key (m : Fmt) (a : Nat) : Int := if m.signBit ≤ a then -1 - ((a - m.signBit : Nat) : Int) else a

/-- R117: which operand FMIN or FMAX returns: 0 the first, 1 the second, 2 neither (both NaN). -/
def Fmt.pick (m : Fmt) (isMax : Bool) (a b : Nat) : Nat :=
  match (m.value a).isNan, (m.value b).isNan with
  | true, true => 2
  | true, false => 1
  | false, true => 0
  | false, false => if isMax then (if m.key b ≤ m.key a then 0 else 1) else (if m.key a ≤ m.key b then 0 else 1)

def Fmt.minmaxF (m : Fmt) (isMax ftz : Bool) (a b : Nat) : Nat × FFlags :=
  let a := m.flush ftz a
  let b := m.flush ftz b
  let nv := nvOf [m.value a, m.value b]
  (match m.pick isMax a b with | 0 => a | 1 => b | _ => m.nan, nv)

def Fmt.absF (m : Fmt) (a : Nat) : Nat × FFlags :=
  let v := m.value a
  if v.isNan then (m.nan, nvOf [v]) else (a % m.signBit, 0)

def Fmt.negF (m : Fmt) (a : Nat) : Nat × FFlags :=
  let v := m.value a
  if v.isNan then (m.nan, nvOf [v]) else (m.flip a, 0)

def Fmt.sgnF (m : Fmt) (a b : Nat) : Nat × FFlags :=
  let v := m.value a
  if v.isNan then (m.nan, nvOf [v]) else (a % m.signBit + b / m.signBit * m.signBit, 0)

/-- FRND (R116): an integral value in the rounding direction; no NX. -/
def frndF (rnd : Nat) (ftz : Bool) (a : Nat) : Nat × FFlags :=
  let a := fp32.flush ftz a
  match fp32.value a with
  | .nan s => (fp32.nan, if s then fNV else 0)
  | .inf _ => (a, 0)
  | .fin s m e =>
    if m = 0 || 0 ≤ e then (a, 0)
    else let (i, _) := roundInt rnd s m e; ((fp32.roundExact 0 false false { neg := s, n := i.natAbs }).1, 0)

/-- FSAT (R116): min(max(a, +0), 1.0); -0 and NaN give +0. -/
def fsatF (ftz : Bool) (a : Nat) : Nat × FFlags :=
  let a := fp32.flush ftz a
  match fp32.value a with
  | .nan s => (0, if s then fNV else 0)
  | v => (if v.neg then 0 else if fp32.key 0x3F800000 ≤ fp32.key a then 0x3F800000 else a, 0)

/-- FCLASS (R119). -/
def fclassF (a : Nat) : Nat :=
  match fp32.value a with
  | .nan s => if s then 2 ^ 8 else 2 ^ 9
  | .inf s => if s then 2 ^ 0 else 2 ^ 7
  | .fin s m _ =>
    let sub := fp32.isSub a
    if m = 0 then (if s then 2 ^ 3 else 2 ^ 4)
    else if sub then (if s then 2 ^ 2 else 2 ^ 5) else (if s then 2 ^ 1 else 2 ^ 6)

/-- A comparison (R118); conditions 0-7 are EQ, NE, LT, LE, GT, GE, UN, ORD. -/
def Fmt.cmpF (m : Fmt) (cond : Nat) (ftz : Bool) (a b : Nat) : Bool × FFlags :=
  let a := m.flush ftz a
  let b := m.flush ftz b
  let x := m.value a
  let y := m.value b
  let un := x.isNan || y.isNan
  let key (v : FV) (z : Nat) : Int := if v.isZero then 0 else m.key z
  let ka := key x a
  let kb := key y b
  let nv := if un && 2 ≤ cond && cond ≤ 5 then fNV else nvOf [x, y]
  (match cond with
    | 0 => !un && ka == kb
    | 1 => un || ka != kb
    | 2 => !un && decide (ka < kb)
    | 3 => !un && decide (ka ≤ kb)
    | 4 => !un && decide (kb < ka)
    | 5 => !un && decide (kb ≤ ka)
    | 6 => un
    | _ => !un, nv)

/-- A product 0 × ∞ (R108); a NaN factor is none. -/
def mulInvalid (x y : FV) : Bool := !x.isNan && !y.isNan && x.toX.mul y.toX == .bad

/-- ∞ − ∞ among the terms of a sum (R108, R122), whatever else is among them. -/
def sumInvalid (ts : List XV) : Bool := ts.contains (.inf true) && ts.contains (.inf false)

/-- HDOT2 (R122): c + a0 b0 + a1 b1, rounded once into FP32. -/
def hdot2F (m : Fmt) (rnd : Nat) (ftz : Bool) (a b c : Nat) : Nat × FFlags :=
  let rd (x : Nat) := m.read ftz x
  let x0 := rd (a % 65536)
  let x1 := rd (a / 65536)
  let y0 := rd (b % 65536)
  let y1 := rd (b / 65536)
  let z := fp32.read ftz c
  let p := x0.toX.mul y0.toX
  let q := x1.toX.mul y1.toX
  match (p.add (rnd == 3) q).add (rnd == 3) z.toX with
  | .bad =>
    (fp32.nan, nvOf [x0, x1, y0, y1, z]
      ||| (if mulInvalid x0 y0 || mulInvalid x1 y1 || sumInvalid [p, q, z.toX] then fNV else 0))
  | r => fp32.deliver rnd ftz r

/-! ### Conversions (R123-R125) -/

/-- A signed or unsigned integer's bounds. -/
def intMin (w : Nat) (signed : Bool) : Int := if signed then -(2 ^ (w - 1) : Int) else 0
def intMax (w : Nat) (signed : Bool) : Int := if signed then 2 ^ (w - 1) - 1 else 2 ^ w - 1

def clampInt (w : Nat) (signed : Bool) (x : Int) : Int := max (intMin w signed) (min (intMax w signed) x)

/-- Float to integer: clamped with NV outside the range, NX when the rounding changed it (R123). -/
def toIntF (v : FV) (w : Nat) (signed : Bool) (rnd : Nat) : Int × FFlags :=
  match v with
  | .nan _ => (0, fNV)
  | .inf s => (if s then intMin w signed else intMax w signed, fNV)
  | .fin s m e =>
    let (i, ch) := roundInt rnd s m e
    let j := clampInt w signed i
    if i = j then (i, if ch then fNX else 0) else (j, fNV)

/-- Integer to float (R123): an overflow, into FP16 only, is R104's whatever `.SAT` says. -/
def Fmt.ofInt (m : Fmt) (rnd : Nat) (ftz : Bool) (x : Int) : Nat × FFlags :=
  m.roundExact rnd ftz false { neg := decide (x < 0), n := x.natAbs }

/-- Float to narrower (or equal) float: rounding under RND; under `sat`, ±∞ becomes ±max with no flag (R123). -/
def Fmt.narrow (m : Fmt) (rnd : Nat) (ftz sat : Bool) (v : FV) : Nat × FFlags :=
  match v with
  | .nan s => (m.nan, if s then fNV else 0)
  | .inf s => ((if s then m.signBit else 0) + (if sat then m.maxBits else m.infBits), 0)
  | .fin s n e => m.roundExact rnd ftz sat { neg := s, n, e }

/-- The integer types of R52: width and signedness of TYPE 0-7. -/
def tyWidth (ty : Nat) : Nat := match ty / 2 with | 0 => 32 | 1 => 8 | 2 => 16 | _ => 64
def tySigned (ty : Nat) : Bool := ty % 2 == 0

/-- The low `w` bits of x as a signed or unsigned integer. -/
def asInt (w : Nat) (signed : Bool) (x : Nat) : Int :=
  let y := x % 2 ^ w
  if signed && y.testBit (w - 1) then (y : Int) - 2 ^ w else y

/-- An exact integer result reduced or clamped to W bits and extended to the destination's width (R80): 32 bits, or 64
under 64-bit types. -/
def fitInt (w : Nat) (signed sat : Bool) (x : Int) : Nat :=
  let dw : Nat := if w = 64 then 64 else 32
  let y := if sat then clampInt w signed x else x
  let z := asInt w signed (y % 2 ^ w).toNat
  (z % 2 ^ dw).toNat

/-- CVT.dt.st (R123): st in the code of sub. -/
def cvtF (dt st rnd : Nat) (ftz sat : Bool) (a : Nat) : Nat × FFlags :=
  let floatFmt (t : Nat) : Fmt := if t = 8 then fp32 else if t = 9 then fp16 else bf16
  let srcFmt : Fmt := if st = 4 then fp32 else if st = 5 then fp16 else bf16
  if st ≤ 3 then
    let w := if st ≤ 1 then 32 else 64
    let x := asInt w (st % 2 == 0) a
    if dt ≤ 7 then (fitInt (tyWidth dt) (tySigned dt) sat x, 0) else (floatFmt dt).ofInt rnd ftz x
  else
    let a := if srcFmt == fp32 then a else a % 65536
    let v := srcFmt.read ftz a
    if dt ≤ 7 then
      let (i, fl) := toIntF v (tyWidth dt) (tySigned dt) rnd
      (fitInt (tyWidth dt) (tySigned dt) false i, fl)
    else
      let d := floatFmt dt
      if d == srcFmt || d == fp32 then
        -- wider or equal: exact
        match v with
        | .nan s => (d.nan, if s then fNV else 0)
        | .inf s => ((if s then d.signBit else 0) + d.infBits, 0)
        | .fin s n e => ((d.roundExact rnd false false { neg := s, n, e }).1, 0)
      else d.narrow rnd ftz sat v

/-! ### Format slots (R111-R113, R124, R125) -/

/-- A format slot (R111). -/
structure Slot where
  fmt : Nat
  block : Nat
  rnd : Nat
  sat : Bool
  tscale : Nat
  deriving DecidableEq, Repr

/-- The slot held in a launch-record word (R111). -/
def Slot.ofWord (w : DWord) : Slot :=
  { fmt := (w.extractLsb' 0 4).toNat, block := (w.extractLsb' 4 2).toNat, rnd := (w.extractLsb' 8 2).toNat
    sat := w.getLsbD 10, tscale := (w.extractLsb' 32 32).toNat }

/-- Elements in a block: 16, 32, or none (R111). -/
def Slot.blockSize (s : Slot) : Nat := match s.block with | 1 => 16 | 2 => 32 | _ => 0

/-- Bits of an element. -/
def Slot.bits (s : Slot) : Nat := match s.fmt with | 0 => 32 | 1 | 2 => 16 | 4 => 6 | _ => 8

/-- Decoding an element in the low bits of x (R125). -/
def Slot.decode (s : Slot) (x : Nat) : FV :=
  match s.fmt with
  | 0 => fp32.value (x % 2 ^ 32)
  | 1 => fp16.value (x % 65536)
  | 2 => bf16.value (x % 65536)
  | 3 => t8Value (x % 256)
  | 4 => t6Value (x % 64)
  | 5 => let i := asInt 8 true x; .fin (decide (i < 0)) i.natAbs 0
  | _ => .fin false (x % 256) 0

def Slot.emax (s : Slot) : Int := match s.fmt with | 1 => 15 | 2 => 127 | 3 => 12 | 4 => 4 | 5 => 6 | _ => 7

/-- An integer element (R124): clamped or wrapped with NV outside the range. -/
def intElem (signed sat : Bool) (rnd : Nat) (v : FV) : Nat × FFlags :=
  match v with
  | .nan _ => (0, fNV)
  | .inf s => (if sat then ((if s then intMin 8 signed else intMax 8 signed) % 256).toNat else 0, fNV)
  | .fin s m e =>
    let (i, ch) := roundInt rnd s m e
    let j := clampInt 8 signed i
    if i = j then ((i % 256).toNat, if ch then fNX else 0) else (((if sat then j else i) % 256).toNat, fNV)

/-- Encoding an element into the slot's format (R124). -/
def Slot.encode (s : Slot) (v : FV) : Nat × FFlags :=
  match s.fmt with
  | 0 => fp32.narrow s.rnd false s.sat v
  | 1 => fp16.narrow s.rnd false s.sat v
  | 2 => bf16.narrow s.rnd false s.sat v
  | 3 => t8Encode v
  | 4 => t6Encode v
  | 5 => intElem true s.sat s.rnd v
  | _ => intElem false s.sat s.rnd v

/-- se of a block from its values (R113): finite values that take part. -/
def Slot.blockSe (s : Slot) (vs : List FV) : Int :=
  let lg := vs.filterMap fun v => match v with
    | .fin _ m e => if m = 0 then none else some ((Nat.log2 m : Int) + e)
    | _ => none
  match lg with
  | [] => 0
  | l :: ls => max (-127) (min 127 (ls.foldl max l - s.emax))

/-- x × 2^k, exactly. -/
def FV.scale (k : Int) : FV → FV
  | .fin s m e => .fin s m (e + k)
  | v => v

/-- Decoding with a block scale byte (R125), rounded once into FP32. -/
def Slot.decodeScaled (s : Slot) (x : Nat) : Nat × FFlags :=
  let e : Nat := x / 2 ^ 24 % 256
  if s.block != 0 && e == 255 then (fp32.nan, 0)
  else
    match (s.decode x).scale (if s.block == 0 then 0 else ((e : Nat) : Int) - 127) with
    | .nan _ => (fp32.nan, 0)
    | .inf n => ((if n then fp32.signBit else 0) + fp32.infBits, 0)
    | .fin n m e => fp32.roundExact 0 false false { neg := n, n := m, e }

/-! ### Tangents (R276, R277) -/

/-- The rules of R276 around an expression: a NaN value or component gives the canonical NaN; the rest of the expression then
raises nothing, an invalid step of another term included (log 96). -/
def tanGuard (m : Fmt) (valueNan : Bool) (ts : List FV) (k : Unit → Nat × FFlags) : Nat × FFlags :=
  if valueNan || ts.any FV.isNan then (m.nan, nvOf ts) else k ()

/-- A component that is moved with an optional sign inversion (R277), read under `.FTZ` as any operand (R276). -/
def tanMove (m : Fmt) (ftz valueNan flip : Bool) (t : Nat) : Nat × FFlags :=
  let t := m.flush ftz t
  let v := m.value t
  if valueNan || v.isNan then (m.nan, nvOf [v]) else (if flip then m.flip t else t, 0)

end Sys2Proof.Machine
end

