-- ==== Sys2Proof/Syntax.lean ====
section
/-! DEFINITION. The machine's operations as syntax: the fields of the four word formats (spec/03_encoding.md R48-R58)
and `Instr`, one constructor for each row of spec/opcode_table.json. -/

namespace Sys2Proof

/-- The fields of an FR word below its opcode (R49). `md` is the modifier field mod [12:0]. -/
structure FR where
  sub : BitVec 3 := 0
  s : Bool := false
  d : BitVec 7 := 0
  a : BitVec 7 := 0
  b : BitVec 7 := 0
  c : BitVec 7 := 0
  pm : BitVec 3 := 0
  pn : Bool := false
  ea : BitVec 3 := 0
  md : BitVec 13 := 0
  deriving DecidableEq, Repr, Inhabited

/-- The fields of an FI word below its opcode (R53). -/
structure FI where
  pm : BitVec 3 := 0
  s : Bool := false
  d : BitVec 7 := 0
  a : BitVec 7 := 0
  ea : Bool := false
  pn : Bool := false
  imm : Word := 0
  deriving DecidableEq, Repr, Inhabited

/-- The half-opcodes of R57. -/
inductive HalfOp where
  | hnop | fadd | fsub | fmul | fmin | fmax | frsub
  | iadd | isub | imul | imin | imax | irsub
  | and | or | xor | andn | shl | shr | sra | mov
  | exp2 | log2 | rcp | rsqrt | sqrt | sin | cos | tanh | lds
  deriving DecidableEq, Repr, Inhabited

/-- The fields of a half-instruction below its half-opcode (R54). -/
structure HalfArgs where
  d : BitVec 6 := 0
  a : BitVec 6 := 0
  imm8 : BitVec 8 := 0
  mod5 : BitVec 5 := 0
  deriving DecidableEq, Repr, Inhabited

/-- A half-instruction (R54). -/
structure HalfWord where
  op : HalfOp
  args : HalfArgs
  deriving DecidableEq, Repr, Inhabited

/-- A queue (R207, R208): a local queue of a workgroup, or the memory queue whose control block lies at an IA. -/
inductive QKey where
  | loc (wg n : Nat)
  | mem (ia : Nat)
  deriving DecidableEq, Repr, Inhabited

/-- The sender of a request to the memory side: part `part` of access `acc` of a group (R155); a message already on its
way that belongs to no group's register work (`posted`: host writes, completion records, trace and series records,
bottled stores, vat snapshots); or the claim of one destination line by a copy channel (R164). An error response may also
answer a fragment's instruction fetch, and the dispatcher's read for a launch (R370). -/
inductive Src where
  | lane (wg grp acc part : Nat)
  | posted (id : Nat)
  | claim (core ch line : Nat)
  | remote (pkg : Nat)
  | fetch (wg grp ent : Nat)
  | launch (lid : Nat)
  deriving DecidableEq, Repr, Inhabited

/-- Which waiting `.COMM` requests of a line are combined into one update, and in which binary tree (R171): a leaf
names a waiting request by its place in the line's write queue. -/
inductive CombTree where
  | leaf (at_ : Nat)
  | node (l r : CombTree)
  deriving DecidableEq, Repr, Inhabited

/-- A PCIe AtomicOp (R308). -/
inductive PcieAtomic where
  | fetchAdd | swap | cas
  deriving DecidableEq, Repr, Inhabited

/-- The register spaces that a register write reaches: BAR0 (R310), the debug block (R324), the recovery mailbox
(R394), and the registers that the service firmware writes (WINBASE, LQIA, queue domains, import windows). -/
inductive RegSpace where
  | bar0 | debug | recovery | firmware | peer
  deriving DecidableEq, Repr, Inhabited

/-- The outcome of port training at boot step 4 (R16): DEVINFO.ABSENT (R311), PORTABS (R312), and the items of the
record that the root firmware reads at step 2. -/
structure Training where
  absent : BitVec 16 := 0
  trabs : BitVec 18 := 0
  lqia : Nat := 0
  reserved : List Nat := []
  deriving DecidableEq, Repr, Inhabited

/-- One row of the domain table (R12, R304): clusters as die × 12 + cluster, slices as die × 48 + slice, HBM channel
groups as stack × 4 + group, the hold reserve in units of 64 KiB, the latency-class mark. -/
structure DomainRow where
  clusters : List Nat := []
  slices : List Nat := []
  groups : List Nat := []
  hold : Nat := 0
  latency : Bool := false
  deriving DecidableEq, Repr, Inhabited

/-- Where an array error strikes (R376). -/
inductive ArraySite where
  | vreg (wg grp reg lane : Nat)
  | sreg (wg grp reg : Nat)
  | control (wg grp : Nat)
  | spad (wg sector : Nat)
  | l1 (core line : Nat)
  | accum (wg row col : Nat)
  | cellar (wg word : Nat)
  | l2 (sector : Nat) (dirty : Bool)
  | hbm (burst : Nat)
  | link (port : Nat)
  deriving DecidableEq, Repr, Inhabited


/-- What a step of an agent other than the issuing fragment is about: which object steps, and what comes from outside.
Each event constructor of `Instr` names the fields it reads; the others are ignored. The machine holds the argument of
the present event (`State.arg`). `core` is 144 × DIE + 12 × CLU + CORE; `wg` names a placed workgroup by its run number,
`lid` a launch by its acceptance number; `line` is a line number (IA / 128) or a copy's line. -/
structure Arg where
  wg : Nat := 0
  grp : Nat := 0
  ent : Nat := 0
  acc : Nat := 0
  lid : Nat := 0
  wgx : Nat := 0
  core : Nat := 0
  die : Nat := 0
  ch : Nat := 0
  line : Nat := 0
  dom : Nat := 0
  port : Nat := 0
  lq : Nat := 0
  ia : Nat := 0
  level : Nat := 0
  off : Nat := 0
  size : Nat := 0
  num : Nat := 0
  word : Nat := 0
  reason : Nat := 0
  flag : Bool := false
  flag2 : Bool := false
  word32 : Word := 0
  v : DWord := 0
  w : DWord := 0
  ppm : BitVec 10 := 0
  withheld : BitVec 8 := 0
  bytes : List Byte := []
  src : Src := .posted 0
  q : QKey := .mem 0
  comb : CombTree := .leaf 0
  /-- Further trees, of the other lanes of one scratchpad atomic (R171). -/
  combs : List CombTree := []
  op : PcieAtomic := .fetchAdd
  space : RegSpace := .bar0
  row : DomainRow := {}
  tr : Training := {}
  site : ArraySite := .control 0 0
  deriving DecidableEq, Repr, Inhabited

/-- One constructor for each row of spec/opcode_table.json: first the instruction words in FR format (`FR`), FI format
(`FI`, the `Imm` forms; BRA, BRC, CALL and TRAP have the FI form under the plain name), and the paired words, named by
their half A, which carry half A's fields and the whole half B (R54); then the steps of agents other than the issuing
fragment, whose parameters stand in an `Arg`. -/
inductive Instr where

  | iadd (f : FR)
  | iaddImm (f : FI)
  | isub (f : FR)
  | isubImm (f : FI)
  | iaddc (f : FR)
  | isubb (f : FR)
  | imul (f : FR)
  | imulImm (f : FI)
  | imulh (f : FR)
  | imulw (f : FR)
  | imad (f : FR)
  | imin (f : FR)
  | iminImm (f : FI)
  | imax (f : FR)
  | imaxImm (f : FI)
  | iclamp (f : FR)
  | iabs (f : FR)
  | ineg (f : FR)
  | isad (f : FR)
  | idot4 (f : FR)
  | iadd3 (f : FR)
  | ishadd (f : FR)
  | icmp (f : FR)
  | icmpImm (f : FI)
  | and (f : FR)
  | andImm (f : FI)
  | or (f : FR)
  | orImm (f : FI)
  | xor (f : FR)
  | xorImm (f : FI)
  | andn (f : FR)
  | andnImm (f : FI)
  | not (f : FR)
  | tern (f : FR)
  | shl (f : FR)
  | shlImm (f : FI)
  | shr (f : FR)
  | shrImm (f : FI)
  | sra (f : FR)
  | sraImm (f : FI)
  | rot (f : FR)
  | rotImm (f : FI)
  | bfe (f : FR)
  | bfi (f : FR)
  | popc (f : FR)
  | clz (f : FR)
  | brev (f : FR)
  | bfind (f : FR)
  | mov (f : FR)
  | movi (f : FI)
  | sel (f : FR)
  | rdsr (f : FR)
  | wrsr (f : FR)
  | mlog (f : FR)
  | mrd (f : FR)
  | mwr (f : FR)
  | lanerd (f : FR)
  | lanewr (f : FR)
  | fadd (f : FR)
  | faddImm (f : FI)
  | fsub (f : FR)
  | fsubImm (f : FI)
  | fmul (f : FR)
  | fmulImm (f : FI)
  | ffma (f : FR)
  | fmin (f : FR)
  | fminImm (f : FI)
  | fmax (f : FR)
  | fmaxImm (f : FI)
  | fabs (f : FR)
  | fneg (f : FR)
  | fcmp (f : FR)
  | fcmpImm (f : FI)
  | fdiv (f : FR)
  | frnd (f : FR)
  | fclass (f : FR)
  | fsgn (f : FR)
  | fsat (f : FR)
  | hadd2 (f : FR)
  | hsub2 (f : FR)
  | hmul2 (f : FR)
  | hfma2 (f : FR)
  | hmin2 (f : FR)
  | hmax2 (f : FR)
  | hcmp2 (f : FR)
  | hdot2 (f : FR)
  | cvt (f : FR)
  | cvtq (f : FR)
  | cvtd (f : FR)
  | pack (f : FR)
  | unpk (f : FR)
  | exp2 (f : FR)
  | log2 (f : FR)
  | rcp (f : FR)
  | rsqrt (f : FR)
  | sqrt (f : FR)
  | sin (f : FR)
  | cos (f : FR)
  | tanh (f : FR)
  | topk (f : FR)
  | shfl (f : FR)
  | vote (f : FR)
  | ballot (f : FR)
  | redux (f : FR)
  | scan (f : FR)
  | segscan (f : FR)
  | segred (f : FR)
  | bcast (f : FR)
  | perm (f : FR)
  | bra (f : FI)
  | braReg (f : FR)
  | brc (f : FI)
  | brcReg (f : FR)
  | jmpi (f : FR)
  | call (f : FI)
  | callReg (f : FR)
  | calli (f : FR)
  | ret (f : FR)
  | jset (f : FR)
  | join (f : FR)
  | jarv (f : FR)
  | yield (f : FR)
  | sleep (f : FR)
  | sleepImm (f : FI)
  | nop (f : FR)
  | ld (f : FR)
  | ldImm (f : FI)
  | st (f : FR)
  | stImm (f : FI)
  | lds (f : FR)
  | ldsImm (f : FI)
  | sts (f : FR)
  | stsImm (f : FI)
  | ldu (f : FR)
  | lduImm (f : FI)
  | pref (f : FR)
  | prefImm (f : FI)
  | waitc (f : FR)
  | waitm (f : FR)
  | atom (f : FR)
  | atoms (f : FR)
  | red (f : FR)
  | fence (f : FR)
  | qbind (f : FR)
  | qpush (f : FR)
  | qpop (f : FR)
  | qstat (f : FR)
  | qinit (f : FR)
  | qinitMem (f : FR)
  | binit (f : FR)
  | barv (f : FR)
  | bwait (f : FR)
  | mma (f : FR)
  | mzero (f : FR)
  | mfence (f : FR)
  | mwait (f : FR)
  | mread (f : FR)
  | msts (f : FR)
  | wraccw (f : FR)
  | ldx (f : FR)
  | stx (f : FR)
  | ldxs (f : FR)
  | stxs (f : FR)
  | probe (f : FR)
  | unpin (f : FR)
  | become (f : FR)
  | tmov (f : FR)
  | tzero (f : FR)
  | trap (f : FI)
  | trapReg (f : FR)
  | rett (f : FR)
  | bkpt (f : FR)
  | bkptImm (f : FI)
  | sigchk (f : FI)
  | dx (f : FR)
  | hnop (x : HalfArgs) (y : HalfWord)
  | halfFadd (x : HalfArgs) (y : HalfWord)
  | halfFsub (x : HalfArgs) (y : HalfWord)
  | halfFmul (x : HalfArgs) (y : HalfWord)
  | halfFmin (x : HalfArgs) (y : HalfWord)
  | halfFmax (x : HalfArgs) (y : HalfWord)
  | halfFrsub (x : HalfArgs) (y : HalfWord)
  | halfIadd (x : HalfArgs) (y : HalfWord)
  | halfIsub (x : HalfArgs) (y : HalfWord)
  | halfImul (x : HalfArgs) (y : HalfWord)
  | halfImin (x : HalfArgs) (y : HalfWord)
  | halfImax (x : HalfArgs) (y : HalfWord)
  | halfIrsub (x : HalfArgs) (y : HalfWord)
  | halfAnd (x : HalfArgs) (y : HalfWord)
  | halfOr (x : HalfArgs) (y : HalfWord)
  | halfXor (x : HalfArgs) (y : HalfWord)
  | halfAndn (x : HalfArgs) (y : HalfWord)
  | halfShl (x : HalfArgs) (y : HalfWord)
  | halfShr (x : HalfArgs) (y : HalfWord)
  | halfSra (x : HalfArgs) (y : HalfWord)
  | halfMov (x : HalfArgs) (y : HalfWord)
  | halfExp2 (x : HalfArgs) (y : HalfWord)
  | halfLog2 (x : HalfArgs) (y : HalfWord)
  | halfRcp (x : HalfArgs) (y : HalfWord)
  | halfRsqrt (x : HalfArgs) (y : HalfWord)
  | halfSqrt (x : HalfArgs) (y : HalfWord)
  | halfSin (x : HalfArgs) (y : HalfWord)
  | halfCos (x : HalfArgs) (y : HalfWord)
  | halfTanh (x : HalfArgs) (y : HalfWord)
  | halfLds (x : HalfArgs) (y : HalfWord)
  /-- R16. Reads tr of `Arg`. -/
  | powerOnReset
  /-- R393. -/
  | runtimeMeasurementFailure
  /-- R394. Reads num (arg) of `Arg`. -/
  | stage
  /-- R394. Reads num (arg) flag (the flash write fails) of `Arg`. -/
  | commit
  /-- R394. Reads tr of `Arg`. -/
  | reset
  /-- R14. Reads bytes (nonce) of `Arg`. -/
  | attestationRequest
  /-- R12. Reads dom row flag (approved) of `Arg`. -/
  | domainTableWrite
  /-- R221. Reads ia op flag (64 bits) v (operand) w (compare) of `Arg`. -/
  | hostAtomicop
  /-- R314. Reads off size of `Arg`. -/
  | hostBar2Read
  /-- R314. Reads off bytes of `Arg`. -/
  | hostBar2Write
  /-- R313. Reads lq word32 (seq) of `Arg`. -/
  | launchctlPreempt
  /-- R313. Reads lq word32 (seq) of `Arg`. -/
  | launchctlCancel
  /-- R310. Reads num v of `Arg`. -/
  | completionCounterWrite
  /-- R318. Reads num word v of `Arg`. -/
  | classifierEntryWrite
  /-- R321. Reads num word v of `Arg`. -/
  | transmitQueueRegisterWrite
  /-- R3. Reads space off v of `Arg`. -/
  | registerWrite
  /-- R325. -/
  | debugHalt
  /-- R329. -/
  | debugResume
  /-- R329. -/
  | debugStep
  /-- R325. -/
  | debugStepComplete
  /-- R364. Reads ia flag (large) of `Arg`. -/
  | faultResolveReplay
  /-- R364. Reads ia flag (large) of `Arg`. -/
  | faultResolveAbort
  /-- R365. Reads src of `Arg`. -/
  | faultReplayResend
  /-- R390. Reads lq ia of `Arg`. -/
  | saveFetch
  /-- R387. Reads port of `Arg`. -/
  | linkRestore
  /-- R136. Reads ia flag (large) of `Arg`. -/
  | translationInvalidate
  /-- R136. Reads ia flag (large) of `Arg`. -/
  | translationInvalidateComplete
  /-- R288. Reads dom of `Arg`. -/
  | launchAccept
  /-- R290. Reads lid of `Arg`. -/
  | launchWaitsSatisfied
  /-- R26. Reads lid of `Arg`. -/
  | indirectCountRead
  /-- R291. Reads lid die of `Arg`. -/
  | launchStartTime
  /-- R30. Reads lid of `Arg`. -/
  | workgroupPlace
  /-- R32. Reads wg of `Arg`. -/
  | workgroupRetire
  /-- R307. Reads lid flag flag2 of `Arg`: uncorrectable errors of the save (R390). -/
  | launchComplete
  /-- R307. Reads lid of `Arg`. -/
  | completionCounterBump
  /-- R301. Reads lid of `Arg`. -/
  | class0PreemptTimeout
  /-- R218. Reads lid core of `Arg`. -/
  | preemptRequestAtCore
  /-- R301. Reads lid of `Arg`. -/
  | graceExpiry
  /-- R353. Reads wg of `Arg`. -/
  | workgroupKillRelease
  /-- R295. Reads lid of `Arg`. -/
  | holdReserveRollback
  /-- R296. Reads lid of `Arg`. -/
  | quantumEnd
  /-- R298. Reads wg grp of `Arg`. -/
  | syncOperationTurn
  /-- R386. Reads lid wgx of `Arg`. -/
  | redundantCompare
  /-- R294. Reads core of `Arg`. -/
  | urgencyPrediction
  /-- R185. Reads wg grp of `Arg`. -/
  | joinStuckRelease
  /-- R175. Reads wg grp ent of `Arg`. -/
  | splitTableSwap
  /-- R187. Reads wg grp ent of `Arg`. -/
  | sleepExpiry
  /-- R187. Reads wg grp ent of `Arg`. -/
  | yieldExpiry
  /-- R151. Reads wg grp ent of `Arg`. -/
  | waitmTimeout
  /-- R156. Reads core line of `Arg`. -/
  | leaseExpiry
  /-- R156. Reads src of `Arg`. -/
  | homeFill
  /-- R157. Reads src of `Arg`. -/
  | homeWriteArrival
  /-- R157. Reads line comb of `Arg`. -/
  | homeWriteApply
  /-- R157. Reads src of `Arg`. -/
  | writeAcknowledgement
  /-- R143. Reads wg grp acc of `Arg`. -/
  | loadReturn
  /-- R361. Reads src of `Arg`. -/
  | acceptanceArrival
  /-- R136. Reads src flag (cached) of `Arg`. -/
  | translationWalk
  /-- R164. Reads core ch line of `Arg`. -/
  | engineLineFinish
  /-- R240. Reads core ch of `Arg`. -/
  | copyFetch
  /-- R240. Reads core ch of `Arg`. -/
  | copyClaimsComplete
  /-- R238. Reads core ch of `Arg`. -/
  | copyChunkLand
  /-- R166. Reads core ch of `Arg`. -/
  | copyCycleFault
  /-- R259. Reads core of `Arg`. -/
  | gatherWindowClose
  /-- R250. Reads core of `Arg`. -/
  | pressOperationStart
  /-- R248. Reads core of `Arg`. -/
  | pressOperationComplete
  /-- R213. Reads q of `Arg`. -/
  | queuePushGrant
  /-- R214. Reads q of `Arg`. -/
  | queuePopGrant
  /-- R214. Reads q of `Arg`. -/
  | queuePopCommit
  /-- R213. Reads q of `Arg`. -/
  | queueTailAdvance
  /-- R226. Reads wg grp of `Arg`. -/
  | barrierArrival
  /-- R193. Reads wg of `Arg`. -/
  | regroup
  /-- R370. Reads src reason of `Arg`. -/
  | errorResponse
  /-- R376. Reads site flag (correctable) of `Arg`. -/
  | arrayError
  /-- R387. Reads port of `Arg`. -/
  | linkIsolate
  /-- R319. Reads port bytes flag (fcsOk) of `Arg`. -/
  | frameArrival
  /-- R321. Reads port of `Arg`. -/
  | frameTransmit
  /-- R322. Reads port of `Arg`. -/
  | ptpEventTimestamp
  /-- R323. Reads v (time) word32 (offs) of `Arg`. -/
  | ptpFirstLock
  /-- R332. -/
  | seriesLatch
  /-- R46. Reads wg grp acc (id) of `Arg`. -/
  | longLatencyComplete
  /-- R317. Reads line of `Arg`. -/
  | remoteLineCopyDrop
  /-- R11. Reads withheld of `Arg`. -/
  | powerGovernorAdjust
  /-- R136. Reads ia level v (entry) of `Arg`. -/
  | translationEntryWrite
  /-- R374. Reads num (n) of `Arg`. -/
  | launchQueueReinit
  /-- R310. Reads off bytes of `Arg`. -/
  | hostBar0QueueWrite
  /-- R323. Reads word32 (offs) ppm flag (faster) flag2 (bc) of `Arg`. -/
  | ptpServoUpdate
  /-- R323. -/
  | ptpMasterLoss
  /-- R389. Reads port of `Arg`. -/
  | droppedWriteLogClear
  deriving DecidableEq, Repr

/-- An instruction by its word format (R48): FR or FI with the opcode of R60, a paired word with half A's half-opcode,
or a step of another agent, which has no word. -/
inductive Form where
  | fr (code : Nat) (f : FR)
  | fi (code : Nat) (f : FI)
  | pair (op : HalfOp) (x : HalfArgs) (y : HalfWord)
  | event
  deriving DecidableEq, Repr

end Sys2Proof
end

