-- ==== Sys2Proof/Decode.lean ====
section
/-! DEFINITION. Instruction words: the fields of the four formats (spec/03_encoding.md R48-R58), the opcode map (R60),
the words that are not instructions (R61), `parse` and `decode`, and after them the encoder `encode`. -/

namespace Sys2Proof

/-- The forms that R60 gives an opcode: FR, FI, scalar, long-latency producer, takes DX. -/
structure Forms where
  r : Bool
  i : Bool
  s : Bool
  l : Bool
  d : Bool
  deriving DecidableEq, Repr

/-- The forms that the opcode map gives an opcode (R60); `none` for a code that the map does not list (R61 case 1). -/
def forms : Nat → Option Forms
  | 0x000 => some ⟨true, true, true, false, true⟩  -- IADD
  | 0x001 => some ⟨true, true, true, false, true⟩  -- ISUB
  | 0x002 => some ⟨true, false, true, false, true⟩  -- IADDC
  | 0x003 => some ⟨true, false, true, false, true⟩  -- ISUBB
  | 0x004 => some ⟨true, true, true, false, true⟩  -- IMUL
  | 0x005 => some ⟨true, false, true, false, true⟩  -- IMULH
  | 0x006 => some ⟨true, false, true, false, true⟩  -- IMULW
  | 0x007 => some ⟨true, false, true, false, true⟩  -- IMAD
  | 0x008 => some ⟨true, true, true, false, true⟩  -- IMIN
  | 0x009 => some ⟨true, true, true, false, true⟩  -- IMAX
  | 0x00A => some ⟨true, false, true, false, true⟩  -- ICLAMP
  | 0x00B => some ⟨true, false, true, false, true⟩  -- IABS
  | 0x00C => some ⟨true, false, true, false, true⟩  -- INEG
  | 0x00D => some ⟨true, false, true, false, true⟩  -- ISAD
  | 0x00E => some ⟨true, false, true, false, true⟩  -- IDOT4
  | 0x00F => some ⟨true, false, true, false, true⟩  -- IADD3
  | 0x010 => some ⟨true, false, true, false, true⟩  -- ISHADD
  | 0x011 => some ⟨true, true, true, false, true⟩  -- ICMP
  | 0x040 => some ⟨true, true, true, false, true⟩  -- AND
  | 0x041 => some ⟨true, true, true, false, true⟩  -- OR
  | 0x042 => some ⟨true, true, true, false, true⟩  -- XOR
  | 0x043 => some ⟨true, true, true, false, true⟩  -- ANDN
  | 0x044 => some ⟨true, false, true, false, true⟩  -- NOT
  | 0x045 => some ⟨true, false, true, false, true⟩  -- TERN
  | 0x046 => some ⟨true, true, true, false, true⟩  -- SHL
  | 0x047 => some ⟨true, true, true, false, true⟩  -- SHR
  | 0x048 => some ⟨true, true, true, false, true⟩  -- SRA
  | 0x049 => some ⟨true, true, true, false, true⟩  -- ROT
  | 0x04A => some ⟨true, false, true, false, true⟩  -- BFE
  | 0x04B => some ⟨true, false, true, false, true⟩  -- BFI
  | 0x04C => some ⟨true, false, true, false, true⟩  -- POPC
  | 0x04D => some ⟨true, false, true, false, true⟩  -- CLZ
  | 0x04E => some ⟨true, false, true, false, true⟩  -- BREV
  | 0x04F => some ⟨true, false, true, false, true⟩  -- BFIND
  | 0x080 => some ⟨true, false, true, false, true⟩  -- MOV
  | 0x081 => some ⟨false, true, true, false, true⟩  -- MOVI
  | 0x082 => some ⟨true, false, true, false, true⟩  -- SEL
  | 0x083 => some ⟨true, false, true, false, false⟩  -- RDSR
  | 0x084 => some ⟨true, false, true, false, false⟩  -- WRSR
  | 0x085 => some ⟨true, false, false, false, false⟩  -- MLOG
  | 0x086 => some ⟨true, false, false, false, false⟩  -- MRD
  | 0x087 => some ⟨true, false, false, false, false⟩  -- MWR
  | 0x088 => some ⟨true, false, false, false, true⟩  -- LANERD
  | 0x089 => some ⟨true, false, false, false, true⟩  -- LANEWR
  | 0x0C0 => some ⟨true, true, true, false, true⟩  -- FADD
  | 0x0C1 => some ⟨true, true, true, false, true⟩  -- FSUB
  | 0x0C2 => some ⟨true, true, true, false, true⟩  -- FMUL
  | 0x0C3 => some ⟨true, false, true, false, true⟩  -- FFMA
  | 0x0C4 => some ⟨true, true, true, false, true⟩  -- FMIN
  | 0x0C5 => some ⟨true, true, true, false, true⟩  -- FMAX
  | 0x0C6 => some ⟨true, false, true, false, true⟩  -- FABS
  | 0x0C7 => some ⟨true, false, true, false, true⟩  -- FNEG
  | 0x0C8 => some ⟨true, true, true, false, true⟩  -- FCMP
  | 0x0C9 => some ⟨true, false, true, false, true⟩  -- FDIV
  | 0x0CA => some ⟨true, false, true, false, true⟩  -- FRND
  | 0x0CB => some ⟨true, false, true, false, true⟩  -- FCLASS
  | 0x0CC => some ⟨true, false, true, false, true⟩  -- FSGN
  | 0x0CD => some ⟨true, false, true, false, true⟩  -- FSAT
  | 0x100 => some ⟨true, false, true, false, true⟩  -- HADD2
  | 0x101 => some ⟨true, false, true, false, true⟩  -- HSUB2
  | 0x102 => some ⟨true, false, true, false, true⟩  -- HMUL2
  | 0x103 => some ⟨true, false, true, false, true⟩  -- HFMA2
  | 0x104 => some ⟨true, false, true, false, true⟩  -- HMIN2
  | 0x105 => some ⟨true, false, true, false, true⟩  -- HMAX2
  | 0x106 => some ⟨true, false, true, false, true⟩  -- HCMP2
  | 0x107 => some ⟨true, false, true, false, true⟩  -- HDOT2
  | 0x108 => some ⟨true, false, true, false, true⟩  -- CVT
  | 0x109 => some ⟨true, false, false, false, true⟩  -- CVTQ
  | 0x10A => some ⟨true, false, false, false, true⟩  -- CVTD
  | 0x10B => some ⟨true, false, true, false, true⟩  -- PACK
  | 0x10C => some ⟨true, false, true, false, true⟩  -- UNPK
  | 0x140 => some ⟨true, false, true, true, true⟩  -- EXP2
  | 0x141 => some ⟨true, false, true, true, true⟩  -- LOG2
  | 0x142 => some ⟨true, false, true, true, true⟩  -- RCP
  | 0x143 => some ⟨true, false, true, true, true⟩  -- RSQRT
  | 0x144 => some ⟨true, false, true, true, true⟩  -- SQRT
  | 0x145 => some ⟨true, false, true, true, true⟩  -- SIN
  | 0x146 => some ⟨true, false, true, true, true⟩  -- COS
  | 0x147 => some ⟨true, false, true, true, true⟩  -- TANH
  | 0x148 => some ⟨true, false, false, false, true⟩  -- TOPK
  | 0x180 => some ⟨true, false, false, false, true⟩  -- SHFL
  | 0x181 => some ⟨true, false, false, false, false⟩  -- VOTE
  | 0x182 => some ⟨true, false, false, false, false⟩  -- BALLOT
  | 0x183 => some ⟨true, false, false, false, true⟩  -- REDUX
  | 0x184 => some ⟨true, false, false, false, true⟩  -- SCAN
  | 0x185 => some ⟨true, false, false, false, true⟩  -- SEGSCAN
  | 0x186 => some ⟨true, false, false, false, true⟩  -- SEGRED
  | 0x187 => some ⟨true, false, false, false, true⟩  -- BCAST
  | 0x188 => some ⟨true, false, false, false, true⟩  -- PERM
  | 0x1C0 => some ⟨true, true, false, false, false⟩  -- BRA
  | 0x1C1 => some ⟨true, true, false, false, false⟩  -- BRC
  | 0x1C2 => some ⟨true, false, false, false, false⟩  -- JMPI
  | 0x1C3 => some ⟨true, true, false, false, false⟩  -- CALL
  | 0x1C4 => some ⟨true, false, false, false, false⟩  -- CALLI
  | 0x1C5 => some ⟨true, false, false, false, false⟩  -- RET
  | 0x1C6 => some ⟨true, false, false, false, false⟩  -- JSET
  | 0x1C7 => some ⟨true, false, false, false, false⟩  -- JOIN
  | 0x1C8 => some ⟨true, false, false, false, false⟩  -- JARV
  | 0x1C9 => some ⟨true, false, false, false, false⟩  -- YIELD
  | 0x1CA => some ⟨true, true, false, false, false⟩  -- SLEEP
  | 0x1CB => some ⟨true, false, false, false, false⟩  -- NOP
  | 0x200 => some ⟨true, true, false, true, true⟩  -- LD
  | 0x201 => some ⟨true, true, false, false, true⟩  -- ST
  | 0x202 => some ⟨true, true, false, true, true⟩  -- LDS
  | 0x203 => some ⟨true, true, false, false, true⟩  -- STS
  | 0x204 => some ⟨true, true, false, true, true⟩  -- LDU
  | 0x205 => some ⟨true, true, false, false, false⟩  -- PREF
  | 0x206 => some ⟨true, false, false, false, false⟩  -- WAITC
  | 0x207 => some ⟨true, false, false, false, false⟩  -- WAITM
  | 0x240 => some ⟨true, false, true, true, false⟩  -- ATOM
  | 0x241 => some ⟨true, false, true, true, false⟩  -- ATOMS
  | 0x242 => some ⟨true, false, true, false, false⟩  -- RED
  | 0x243 => some ⟨true, false, false, false, false⟩  -- FENCE
  | 0x280 => some ⟨true, false, false, false, false⟩  -- QBIND
  | 0x281 => some ⟨true, false, true, false, false⟩  -- QPUSH
  | 0x282 => some ⟨true, false, true, true, false⟩  -- QPOP
  | 0x283 => some ⟨true, false, true, false, false⟩  -- QSTAT
  | 0x284 => some ⟨true, false, true, false, false⟩  -- QINIT
  | 0x285 => some ⟨true, false, false, false, false⟩  -- BINIT
  | 0x286 => some ⟨true, false, false, false, false⟩  -- BARV
  | 0x287 => some ⟨true, false, false, false, false⟩  -- BWAIT
  | 0x2C0 => some ⟨true, false, false, false, true⟩  -- MMA
  | 0x2C1 => some ⟨true, false, false, false, true⟩  -- MZERO
  | 0x2C2 => some ⟨true, false, false, false, false⟩  -- MFENCE
  | 0x2C3 => some ⟨true, false, false, false, false⟩  -- MWAIT
  | 0x2C4 => some ⟨true, false, false, true, true⟩  -- MREAD
  | 0x2C5 => some ⟨true, false, false, false, true⟩  -- MSTS
  | 0x2C6 => some ⟨true, false, false, false, false⟩  -- WRACCW
  | 0x300 => some ⟨true, false, false, true, true⟩  -- LDX
  | 0x301 => some ⟨true, false, false, false, true⟩  -- STX
  | 0x302 => some ⟨true, false, false, true, true⟩  -- LDXS
  | 0x303 => some ⟨true, false, false, false, true⟩  -- STXS
  | 0x304 => some ⟨true, false, false, false, false⟩  -- PROBE
  | 0x305 => some ⟨true, false, false, false, false⟩  -- UNPIN
  | 0x340 => some ⟨true, false, false, false, false⟩  -- BECOME
  | 0x341 => some ⟨true, false, false, false, false⟩  -- TMOV
  | 0x342 => some ⟨true, false, false, false, false⟩  -- TZERO
  | 0x380 => some ⟨true, true, false, false, false⟩  -- TRAP
  | 0x381 => some ⟨true, false, false, false, false⟩  -- RETT
  | 0x382 => some ⟨true, true, false, false, false⟩  -- BKPT
  | 0x383 => some ⟨false, true, false, false, false⟩  -- SIGCHK
  | 0x3C0 => some ⟨true, false, false, false, false⟩  -- DX
  | _ => none

/-- The instruction of an FR word with this opcode (R60). QINIT has two rows, told apart by MEM (R209). -/
def frInstr (code : Nat) (f : FR) : Option Instr :=
  match code with
  | 0x000 => some (.iadd f)
  | 0x001 => some (.isub f)
  | 0x002 => some (.iaddc f)
  | 0x003 => some (.isubb f)
  | 0x004 => some (.imul f)
  | 0x005 => some (.imulh f)
  | 0x006 => some (.imulw f)
  | 0x007 => some (.imad f)
  | 0x008 => some (.imin f)
  | 0x009 => some (.imax f)
  | 0x00A => some (.iclamp f)
  | 0x00B => some (.iabs f)
  | 0x00C => some (.ineg f)
  | 0x00D => some (.isad f)
  | 0x00E => some (.idot4 f)
  | 0x00F => some (.iadd3 f)
  | 0x010 => some (.ishadd f)
  | 0x011 => some (.icmp f)
  | 0x040 => some (.and f)
  | 0x041 => some (.or f)
  | 0x042 => some (.xor f)
  | 0x043 => some (.andn f)
  | 0x044 => some (.not f)
  | 0x045 => some (.tern f)
  | 0x046 => some (.shl f)
  | 0x047 => some (.shr f)
  | 0x048 => some (.sra f)
  | 0x049 => some (.rot f)
  | 0x04A => some (.bfe f)
  | 0x04B => some (.bfi f)
  | 0x04C => some (.popc f)
  | 0x04D => some (.clz f)
  | 0x04E => some (.brev f)
  | 0x04F => some (.bfind f)
  | 0x080 => some (.mov f)
  | 0x082 => some (.sel f)
  | 0x083 => some (.rdsr f)
  | 0x084 => some (.wrsr f)
  | 0x085 => some (.mlog f)
  | 0x086 => some (.mrd f)
  | 0x087 => some (.mwr f)
  | 0x088 => some (.lanerd f)
  | 0x089 => some (.lanewr f)
  | 0x0C0 => some (.fadd f)
  | 0x0C1 => some (.fsub f)
  | 0x0C2 => some (.fmul f)
  | 0x0C3 => some (.ffma f)
  | 0x0C4 => some (.fmin f)
  | 0x0C5 => some (.fmax f)
  | 0x0C6 => some (.fabs f)
  | 0x0C7 => some (.fneg f)
  | 0x0C8 => some (.fcmp f)
  | 0x0C9 => some (.fdiv f)
  | 0x0CA => some (.frnd f)
  | 0x0CB => some (.fclass f)
  | 0x0CC => some (.fsgn f)
  | 0x0CD => some (.fsat f)
  | 0x100 => some (.hadd2 f)
  | 0x101 => some (.hsub2 f)
  | 0x102 => some (.hmul2 f)
  | 0x103 => some (.hfma2 f)
  | 0x104 => some (.hmin2 f)
  | 0x105 => some (.hmax2 f)
  | 0x106 => some (.hcmp2 f)
  | 0x107 => some (.hdot2 f)
  | 0x108 => some (.cvt f)
  | 0x109 => some (.cvtq f)
  | 0x10A => some (.cvtd f)
  | 0x10B => some (.pack f)
  | 0x10C => some (.unpk f)
  | 0x140 => some (.exp2 f)
  | 0x141 => some (.log2 f)
  | 0x142 => some (.rcp f)
  | 0x143 => some (.rsqrt f)
  | 0x144 => some (.sqrt f)
  | 0x145 => some (.sin f)
  | 0x146 => some (.cos f)
  | 0x147 => some (.tanh f)
  | 0x148 => some (.topk f)
  | 0x180 => some (.shfl f)
  | 0x181 => some (.vote f)
  | 0x182 => some (.ballot f)
  | 0x183 => some (.redux f)
  | 0x184 => some (.scan f)
  | 0x185 => some (.segscan f)
  | 0x186 => some (.segred f)
  | 0x187 => some (.bcast f)
  | 0x188 => some (.perm f)
  | 0x1C0 => some (.braReg f)
  | 0x1C1 => some (.brcReg f)
  | 0x1C2 => some (.jmpi f)
  | 0x1C3 => some (.callReg f)
  | 0x1C4 => some (.calli f)
  | 0x1C5 => some (.ret f)
  | 0x1C6 => some (.jset f)
  | 0x1C7 => some (.join f)
  | 0x1C8 => some (.jarv f)
  | 0x1C9 => some (.yield f)
  | 0x1CA => some (.sleep f)
  | 0x1CB => some (.nop f)
  | 0x200 => some (.ld f)
  | 0x201 => some (.st f)
  | 0x202 => some (.lds f)
  | 0x203 => some (.sts f)
  | 0x204 => some (.ldu f)
  | 0x205 => some (.pref f)
  | 0x206 => some (.waitc f)
  | 0x207 => some (.waitm f)
  | 0x240 => some (.atom f)
  | 0x241 => some (.atoms f)
  | 0x242 => some (.red f)
  | 0x243 => some (.fence f)
  | 0x280 => some (.qbind f)
  | 0x281 => some (.qpush f)
  | 0x282 => some (.qpop f)
  | 0x283 => some (.qstat f)
  | 0x284 => some (if f.md.getLsbD 4 then .qinitMem f else .qinit f)
  | 0x285 => some (.binit f)
  | 0x286 => some (.barv f)
  | 0x287 => some (.bwait f)
  | 0x2C0 => some (.mma f)
  | 0x2C1 => some (.mzero f)
  | 0x2C2 => some (.mfence f)
  | 0x2C3 => some (.mwait f)
  | 0x2C4 => some (.mread f)
  | 0x2C5 => some (.msts f)
  | 0x2C6 => some (.wraccw f)
  | 0x300 => some (.ldx f)
  | 0x301 => some (.stx f)
  | 0x302 => some (.ldxs f)
  | 0x303 => some (.stxs f)
  | 0x304 => some (.probe f)
  | 0x305 => some (.unpin f)
  | 0x340 => some (.become f)
  | 0x341 => some (.tmov f)
  | 0x342 => some (.tzero f)
  | 0x380 => some (.trapReg f)
  | 0x381 => some (.rett f)
  | 0x382 => some (.bkpt f)
  | 0x3C0 => some (.dx f)
  | _ => none

/-- The instruction of an FI word with this opcode (R60). -/
def fiInstr (code : Nat) (f : FI) : Option Instr :=
  match code with
  | 0x000 => some (.iaddImm f)
  | 0x001 => some (.isubImm f)
  | 0x004 => some (.imulImm f)
  | 0x008 => some (.iminImm f)
  | 0x009 => some (.imaxImm f)
  | 0x011 => some (.icmpImm f)
  | 0x040 => some (.andImm f)
  | 0x041 => some (.orImm f)
  | 0x042 => some (.xorImm f)
  | 0x043 => some (.andnImm f)
  | 0x046 => some (.shlImm f)
  | 0x047 => some (.shrImm f)
  | 0x048 => some (.sraImm f)
  | 0x049 => some (.rotImm f)
  | 0x081 => some (.movi f)
  | 0x0C0 => some (.faddImm f)
  | 0x0C1 => some (.fsubImm f)
  | 0x0C2 => some (.fmulImm f)
  | 0x0C4 => some (.fminImm f)
  | 0x0C5 => some (.fmaxImm f)
  | 0x0C8 => some (.fcmpImm f)
  | 0x1C0 => some (.bra f)
  | 0x1C1 => some (.brc f)
  | 0x1C3 => some (.call f)
  | 0x1CA => some (.sleepImm f)
  | 0x200 => some (.ldImm f)
  | 0x201 => some (.stImm f)
  | 0x202 => some (.ldsImm f)
  | 0x203 => some (.stsImm f)
  | 0x204 => some (.lduImm f)
  | 0x205 => some (.prefImm f)
  | 0x380 => some (.trap f)
  | 0x382 => some (.bkptImm f)
  | 0x383 => some (.sigchk f)
  | _ => none

/-- The half-opcode map of R57. -/
def HalfOp.ofCode : Nat → Option HalfOp
  | 0x00 => some .hnop
  | 0x01 => some .fadd
  | 0x02 => some .fsub
  | 0x03 => some .fmul
  | 0x04 => some .fmin
  | 0x05 => some .fmax
  | 0x06 => some .frsub
  | 0x10 => some .iadd
  | 0x11 => some .isub
  | 0x12 => some .imul
  | 0x13 => some .imin
  | 0x14 => some .imax
  | 0x15 => some .irsub
  | 0x18 => some .and
  | 0x19 => some .or
  | 0x1A => some .xor
  | 0x1B => some .andn
  | 0x1C => some .shl
  | 0x1D => some .shr
  | 0x1E => some .sra
  | 0x20 => some .mov
  | 0x30 => some .exp2
  | 0x31 => some .log2
  | 0x32 => some .rcp
  | 0x33 => some .rsqrt
  | 0x34 => some .sqrt
  | 0x35 => some .sin
  | 0x36 => some .cos
  | 0x37 => some .tanh
  | 0x38 => some .lds
  | _ => none

/-- The code of a half-opcode (R57). -/
def HalfOp.code : HalfOp → BitVec 6
  | .hnop => 0x00
  | .fadd => 0x01
  | .fsub => 0x02
  | .fmul => 0x03
  | .fmin => 0x04
  | .fmax => 0x05
  | .frsub => 0x06
  | .iadd => 0x10
  | .isub => 0x11
  | .imul => 0x12
  | .imin => 0x13
  | .imax => 0x14
  | .irsub => 0x15
  | .and => 0x18
  | .or => 0x19
  | .xor => 0x1A
  | .andn => 0x1B
  | .shl => 0x1C
  | .shr => 0x1D
  | .sra => 0x1E
  | .mov => 0x20
  | .exp2 => 0x30
  | .log2 => 0x31
  | .rcp => 0x32
  | .rsqrt => 0x33
  | .sqrt => 0x34
  | .sin => 0x35
  | .cos => 0x36
  | .tanh => 0x37
  | .lds => 0x38

/-- The instruction of a paired word whose half A has this half-opcode. -/
def pairInstr (op : HalfOp) (x : HalfArgs) (y : HalfWord) : Instr :=
  match op with
  | .hnop => .hnop x y
  | .fadd => .halfFadd x y
  | .fsub => .halfFsub x y
  | .fmul => .halfFmul x y
  | .fmin => .halfFmin x y
  | .fmax => .halfFmax x y
  | .frsub => .halfFrsub x y
  | .iadd => .halfIadd x y
  | .isub => .halfIsub x y
  | .imul => .halfImul x y
  | .imin => .halfImin x y
  | .imax => .halfImax x y
  | .irsub => .halfIrsub x y
  | .and => .halfAnd x y
  | .or => .halfOr x y
  | .xor => .halfXor x y
  | .andn => .halfAndn x y
  | .shl => .halfShl x y
  | .shr => .halfShr x y
  | .sra => .halfSra x y
  | .mov => .halfMov x y
  | .exp2 => .halfExp2 x y
  | .log2 => .halfLog2 x y
  | .rcp => .halfRcp x y
  | .rsqrt => .halfRsqrt x y
  | .sqrt => .halfSqrt x y
  | .sin => .halfSin x y
  | .cos => .halfCos x y
  | .tanh => .halfTanh x y
  | .lds => .halfLds x y

/-- The word format of an instruction, the inverse of `frInstr`, `fiInstr` and `pairInstr`. -/
def Instr.form : Instr → Form
  | .iadd f => .fr 0x000 f
  | .iaddImm f => .fi 0x000 f
  | .isub f => .fr 0x001 f
  | .isubImm f => .fi 0x001 f
  | .iaddc f => .fr 0x002 f
  | .isubb f => .fr 0x003 f
  | .imul f => .fr 0x004 f
  | .imulImm f => .fi 0x004 f
  | .imulh f => .fr 0x005 f
  | .imulw f => .fr 0x006 f
  | .imad f => .fr 0x007 f
  | .imin f => .fr 0x008 f
  | .iminImm f => .fi 0x008 f
  | .imax f => .fr 0x009 f
  | .imaxImm f => .fi 0x009 f
  | .iclamp f => .fr 0x00A f
  | .iabs f => .fr 0x00B f
  | .ineg f => .fr 0x00C f
  | .isad f => .fr 0x00D f
  | .idot4 f => .fr 0x00E f
  | .iadd3 f => .fr 0x00F f
  | .ishadd f => .fr 0x010 f
  | .icmp f => .fr 0x011 f
  | .icmpImm f => .fi 0x011 f
  | .and f => .fr 0x040 f
  | .andImm f => .fi 0x040 f
  | .or f => .fr 0x041 f
  | .orImm f => .fi 0x041 f
  | .xor f => .fr 0x042 f
  | .xorImm f => .fi 0x042 f
  | .andn f => .fr 0x043 f
  | .andnImm f => .fi 0x043 f
  | .not f => .fr 0x044 f
  | .tern f => .fr 0x045 f
  | .shl f => .fr 0x046 f
  | .shlImm f => .fi 0x046 f
  | .shr f => .fr 0x047 f
  | .shrImm f => .fi 0x047 f
  | .sra f => .fr 0x048 f
  | .sraImm f => .fi 0x048 f
  | .rot f => .fr 0x049 f
  | .rotImm f => .fi 0x049 f
  | .bfe f => .fr 0x04A f
  | .bfi f => .fr 0x04B f
  | .popc f => .fr 0x04C f
  | .clz f => .fr 0x04D f
  | .brev f => .fr 0x04E f
  | .bfind f => .fr 0x04F f
  | .mov f => .fr 0x080 f
  | .movi f => .fi 0x081 f
  | .sel f => .fr 0x082 f
  | .rdsr f => .fr 0x083 f
  | .wrsr f => .fr 0x084 f
  | .mlog f => .fr 0x085 f
  | .mrd f => .fr 0x086 f
  | .mwr f => .fr 0x087 f
  | .lanerd f => .fr 0x088 f
  | .lanewr f => .fr 0x089 f
  | .fadd f => .fr 0x0C0 f
  | .faddImm f => .fi 0x0C0 f
  | .fsub f => .fr 0x0C1 f
  | .fsubImm f => .fi 0x0C1 f
  | .fmul f => .fr 0x0C2 f
  | .fmulImm f => .fi 0x0C2 f
  | .ffma f => .fr 0x0C3 f
  | .fmin f => .fr 0x0C4 f
  | .fminImm f => .fi 0x0C4 f
  | .fmax f => .fr 0x0C5 f
  | .fmaxImm f => .fi 0x0C5 f
  | .fabs f => .fr 0x0C6 f
  | .fneg f => .fr 0x0C7 f
  | .fcmp f => .fr 0x0C8 f
  | .fcmpImm f => .fi 0x0C8 f
  | .fdiv f => .fr 0x0C9 f
  | .frnd f => .fr 0x0CA f
  | .fclass f => .fr 0x0CB f
  | .fsgn f => .fr 0x0CC f
  | .fsat f => .fr 0x0CD f
  | .hadd2 f => .fr 0x100 f
  | .hsub2 f => .fr 0x101 f
  | .hmul2 f => .fr 0x102 f
  | .hfma2 f => .fr 0x103 f
  | .hmin2 f => .fr 0x104 f
  | .hmax2 f => .fr 0x105 f
  | .hcmp2 f => .fr 0x106 f
  | .hdot2 f => .fr 0x107 f
  | .cvt f => .fr 0x108 f
  | .cvtq f => .fr 0x109 f
  | .cvtd f => .fr 0x10A f
  | .pack f => .fr 0x10B f
  | .unpk f => .fr 0x10C f
  | .exp2 f => .fr 0x140 f
  | .log2 f => .fr 0x141 f
  | .rcp f => .fr 0x142 f
  | .rsqrt f => .fr 0x143 f
  | .sqrt f => .fr 0x144 f
  | .sin f => .fr 0x145 f
  | .cos f => .fr 0x146 f
  | .tanh f => .fr 0x147 f
  | .topk f => .fr 0x148 f
  | .shfl f => .fr 0x180 f
  | .vote f => .fr 0x181 f
  | .ballot f => .fr 0x182 f
  | .redux f => .fr 0x183 f
  | .scan f => .fr 0x184 f
  | .segscan f => .fr 0x185 f
  | .segred f => .fr 0x186 f
  | .bcast f => .fr 0x187 f
  | .perm f => .fr 0x188 f
  | .braReg f => .fr 0x1C0 f
  | .bra f => .fi 0x1C0 f
  | .brcReg f => .fr 0x1C1 f
  | .brc f => .fi 0x1C1 f
  | .jmpi f => .fr 0x1C2 f
  | .callReg f => .fr 0x1C3 f
  | .call f => .fi 0x1C3 f
  | .calli f => .fr 0x1C4 f
  | .ret f => .fr 0x1C5 f
  | .jset f => .fr 0x1C6 f
  | .join f => .fr 0x1C7 f
  | .jarv f => .fr 0x1C8 f
  | .yield f => .fr 0x1C9 f
  | .sleep f => .fr 0x1CA f
  | .sleepImm f => .fi 0x1CA f
  | .nop f => .fr 0x1CB f
  | .ld f => .fr 0x200 f
  | .ldImm f => .fi 0x200 f
  | .st f => .fr 0x201 f
  | .stImm f => .fi 0x201 f
  | .lds f => .fr 0x202 f
  | .ldsImm f => .fi 0x202 f
  | .sts f => .fr 0x203 f
  | .stsImm f => .fi 0x203 f
  | .ldu f => .fr 0x204 f
  | .lduImm f => .fi 0x204 f
  | .pref f => .fr 0x205 f
  | .prefImm f => .fi 0x205 f
  | .waitc f => .fr 0x206 f
  | .waitm f => .fr 0x207 f
  | .atom f => .fr 0x240 f
  | .atoms f => .fr 0x241 f
  | .red f => .fr 0x242 f
  | .fence f => .fr 0x243 f
  | .qbind f => .fr 0x280 f
  | .qpush f => .fr 0x281 f
  | .qpop f => .fr 0x282 f
  | .qstat f => .fr 0x283 f
  | .qinit f => .fr 0x284 f
  | .qinitMem f => .fr 0x284 f
  | .binit f => .fr 0x285 f
  | .barv f => .fr 0x286 f
  | .bwait f => .fr 0x287 f
  | .mma f => .fr 0x2C0 f
  | .mzero f => .fr 0x2C1 f
  | .mfence f => .fr 0x2C2 f
  | .mwait f => .fr 0x2C3 f
  | .mread f => .fr 0x2C4 f
  | .msts f => .fr 0x2C5 f
  | .wraccw f => .fr 0x2C6 f
  | .ldx f => .fr 0x300 f
  | .stx f => .fr 0x301 f
  | .ldxs f => .fr 0x302 f
  | .stxs f => .fr 0x303 f
  | .probe f => .fr 0x304 f
  | .unpin f => .fr 0x305 f
  | .become f => .fr 0x340 f
  | .tmov f => .fr 0x341 f
  | .tzero f => .fr 0x342 f
  | .trapReg f => .fr 0x380 f
  | .trap f => .fi 0x380 f
  | .rett f => .fr 0x381 f
  | .bkpt f => .fr 0x382 f
  | .bkptImm f => .fi 0x382 f
  | .sigchk f => .fi 0x383 f
  | .dx f => .fr 0x3C0 f
  | .hnop x y => .pair .hnop x y
  | .halfFadd x y => .pair .fadd x y
  | .halfFsub x y => .pair .fsub x y
  | .halfFmul x y => .pair .fmul x y
  | .halfFmin x y => .pair .fmin x y
  | .halfFmax x y => .pair .fmax x y
  | .halfFrsub x y => .pair .frsub x y
  | .halfIadd x y => .pair .iadd x y
  | .halfIsub x y => .pair .isub x y
  | .halfImul x y => .pair .imul x y
  | .halfImin x y => .pair .imin x y
  | .halfImax x y => .pair .imax x y
  | .halfIrsub x y => .pair .irsub x y
  | .halfAnd x y => .pair .and x y
  | .halfOr x y => .pair .or x y
  | .halfXor x y => .pair .xor x y
  | .halfAndn x y => .pair .andn x y
  | .halfShl x y => .pair .shl x y
  | .halfShr x y => .pair .shr x y
  | .halfSra x y => .pair .sra x y
  | .halfMov x y => .pair .mov x y
  | .halfExp2 x y => .pair .exp2 x y
  | .halfLog2 x y => .pair .log2 x y
  | .halfRcp x y => .pair .rcp x y
  | .halfRsqrt x y => .pair .rsqrt x y
  | .halfSqrt x y => .pair .sqrt x y
  | .halfSin x y => .pair .sin x y
  | .halfCos x y => .pair .cos x y
  | .halfTanh x y => .pair .tanh x y
  | .halfLds x y => .pair .lds x y
  | .powerOnReset => .event
  | .runtimeMeasurementFailure => .event
  | .stage => .event
  | .commit => .event
  | .reset => .event
  | .attestationRequest => .event
  | .domainTableWrite => .event
  | .hostAtomicop => .event
  | .hostBar2Read => .event
  | .hostBar2Write => .event
  | .launchctlPreempt => .event
  | .launchctlCancel => .event
  | .completionCounterWrite => .event
  | .classifierEntryWrite => .event
  | .transmitQueueRegisterWrite => .event
  | .registerWrite => .event
  | .debugHalt => .event
  | .debugResume => .event
  | .debugStep => .event
  | .debugStepComplete => .event
  | .faultResolveReplay => .event
  | .faultResolveAbort => .event
  | .faultReplayResend => .event
  | .saveFetch => .event
  | .linkRestore => .event
  | .translationInvalidate => .event
  | .translationInvalidateComplete => .event
  | .launchAccept => .event
  | .launchWaitsSatisfied => .event
  | .indirectCountRead => .event
  | .launchStartTime => .event
  | .workgroupPlace => .event
  | .workgroupRetire => .event
  | .launchComplete => .event
  | .completionCounterBump => .event
  | .class0PreemptTimeout => .event
  | .preemptRequestAtCore => .event
  | .graceExpiry => .event
  | .workgroupKillRelease => .event
  | .holdReserveRollback => .event
  | .quantumEnd => .event
  | .syncOperationTurn => .event
  | .redundantCompare => .event
  | .urgencyPrediction => .event
  | .joinStuckRelease => .event
  | .splitTableSwap => .event
  | .sleepExpiry => .event
  | .yieldExpiry => .event
  | .waitmTimeout => .event
  | .leaseExpiry => .event
  | .homeFill => .event
  | .homeWriteArrival => .event
  | .homeWriteApply => .event
  | .writeAcknowledgement => .event
  | .loadReturn => .event
  | .acceptanceArrival => .event
  | .translationWalk => .event
  | .engineLineFinish => .event
  | .copyFetch => .event
  | .copyClaimsComplete => .event
  | .copyChunkLand => .event
  | .copyCycleFault => .event
  | .gatherWindowClose => .event
  | .pressOperationStart => .event
  | .pressOperationComplete => .event
  | .queuePushGrant => .event
  | .queuePopGrant => .event
  | .queuePopCommit => .event
  | .queueTailAdvance => .event
  | .barrierArrival => .event
  | .regroup => .event
  | .errorResponse => .event
  | .arrayError => .event
  | .linkIsolate => .event
  | .frameArrival => .event
  | .frameTransmit => .event
  | .ptpEventTimestamp => .event
  | .ptpFirstLock => .event
  | .seriesLatch => .event
  | .longLatencyComplete => .event
  | .remoteLineCopyDrop => .event
  | .powerGovernorAdjust => .event
  | .translationEntryWrite => .event
  | .launchQueueReinit => .event
  | .hostBar0QueueWrite => .event
  | .ptpServoUpdate => .event
  | .ptpMasterLoss => .event
  | .droppedWriteLogClear => .event

/-! ### Operands -/

/-- What a word does with a register that a field names. -/
inductive Role where
  | src   -- read at issue (R47)
  | dst   -- written
  | both  -- read and written (SEGSCAN's sB, a half's d)
  deriving DecidableEq, Repr

/-- Which of the values 64 and above a scalar position may name (R45, R50). -/
inductive ReadOnly where
  | none    -- no read-only source
  | single  -- any of 64-81
  | pair    -- `zero` or `ones`
  | zero    -- `zero` only
  deriving DecidableEq, Repr

/-- A register operand: `fld` is the field (0 a, 1 b, 2 c, 3 d), `num` the register number it names, `n` how many
consecutive registers from there, `ea` its empty-action bit, `align` the multiple that `num` must be (R38, R168). -/
structure Opnd where
  fld : Nat
  num : Nat
  scal : Bool
  role : Role := .src
  n : Nat := 1
  ea : Bool := false
  align : Nat := 1
  ro : ReadOnly := .single
  deriving DecidableEq, Repr

/-- Case 5 of R61: the operand lies within VREGS or SREGS (R37), an even register starts a pair (R38), and a
read-only source stands only where R45 and R50 allow it. -/
def Opnd.ok (vregs sregs : Nat) (o : Opnd) : Bool :=
  if o.scal && decide (64 ≤ o.num) then
    match o.ro with
    | .none => false
    | .single => decide (o.num ≤ 81)
    | .pair => decide (o.num ≤ 65)
    | .zero => o.num == 64
  else decide (o.num + o.n ≤ (if o.scal then sregs else vregs)) && o.num % o.align == 0

/-- What decoding finds out about a word besides its operands: which of the cases 3, 4, 7 of R61 it falls under,
whether it breaks R283 (`bad12`), whether it has S = 1, and its predicate fields. -/
structure Shape where
  ops : List Opnd := []
  bad3 : Bool := false
  bad4 : Bool := false
  bad7 : Bool := false
  s : Bool := false
  pm : BitVec 3 := 0
  pn : Bool := false
  deriving DecidableEq, Repr

/-- How many registers an operand takes: one, a pair, or a pair exactly under the types `.I64` and `.N64` (R80). -/
inductive Width where
  | one | two | byType
  deriving DecidableEq, Repr

/-- What a source field of a common-layout opcode names. -/
inductive Src3 where
  | no            -- unused: field, empty action and select must be zero
  | reg (w : Width)
  | scal (w : Width)  -- a scalar position that must be selected (SB = 1, SA = 1)
  | vec (w : Width)   -- always a vector register
  | mask          -- a mask number, upper bits zero
  | sreg          -- a scalar register s0-s63, read and written
  deriving DecidableEq, Repr

/-- What the destination field names. -/
inductive Dst3 where
  | no
  | reg (w : Width)
  | sreg (w : Width) (zeroOk : Bool)  -- always a scalar position (R50)
  | vec (w : Width)
  | mask
  | cmp   -- the compare field of R83
  | cmp2  -- HCMP2's: masks 0, 1, 3 or 5 (R121)
  deriving DecidableEq, Repr

def Width.regs (ty : Nat) : Width → Nat
  | .one => 1
  | .two => 2
  | .byType => if ty == 6 || ty == 7 then 2 else 1

def Src3.opnds (ty fld num : Nat) (ea scal : Bool) : Src3 → List Opnd
  | .no | .mask => []
  | .reg w =>
    let n := w.regs ty
    [{ fld, num, scal, n, ea, align := n, ro := if n == 2 then .pair else .single }]
  | .scal w =>
    let n := w.regs ty
    [{ fld, num, scal := true, n, ea, align := n, ro := if n == 2 then .pair else .single }]
  | .vec w =>
    let n := w.regs ty
    [{ fld, num, scal := false, n, ea, align := n }]
  | .sreg => [{ fld, num, scal := true, role := .both, ea, ro := .none }]

/-- Case 3 for a source field: a field, empty-action bit or select that it does not use is set. -/
def Src3.bad3 (num : Nat) (ea sel : Bool) : Src3 → Bool
  | .no => num != 0 || ea || sel
  | .mask => decide (7 < num) || ea || sel
  | .vec _ | .sreg => sel
  | .reg _ | .scal _ => false

def Dst3.opnds (ty num : Nat) (s : Bool) : Dst3 → List Opnd
  | .no | .mask | .cmp | .cmp2 => []
  | .reg w => let n := w.regs ty; [{ fld := 3, num, scal := s, role := .dst, n, align := n, ro := .zero }]
  | .sreg w z =>
    let n := w.regs ty
    [{ fld := 3, num, scal := true, role := .dst, n, align := n, ro := if z then .zero else .none }]
  | .vec w => let n := w.regs ty; [{ fld := 3, num, scal := false, role := .dst, n, align := n }]

def Dst3.bad3 (num : Nat) : Dst3 → Bool
  | .no => num != 0
  | .mask => decide (7 < num)
  | .cmp | .cmp2 => num.testBit 3
  | _ => false

def Dst3.bad4 (num : Nat) : Dst3 → Bool
  | .cmp2 => let m := num % 8; !(m == 0 || m == 1 || m == 3 || m == 5)
  | _ => false

/-! ### Fields of the modifier layouts -/

namespace FR
def an (f : FR) : Nat := f.a.toNat
def bn (f : FR) : Nat := f.b.toNat
def cn (f : FR) : Nat := f.c.toNat
def dn (f : FR) : Nat := f.d.toNat
def subn (f : FR) : Nat := f.sub.toNat
/-- The empty-action bits ea [15], [14], [13] (R49). -/
def eaA (f : FR) : Bool := f.ea.getLsbD 2
def eaB (f : FR) : Bool := f.ea.getLsbD 1
def eaC (f : FR) : Bool := f.ea.getLsbD 0
/-- Bits [lo + n - 1 : lo] of mod. -/
def mods (f : FR) (lo n : Nat) : Nat := (f.md.extractLsb' lo n).toNat
/-- The common modifier layout of R52. -/
def sa (f : FR) : Bool := f.md.getLsbD 12
def sb (f : FR) : Bool := f.md.getLsbD 11
def sc (f : FR) : Bool := f.md.getLsbD 10
def ty (f : FR) : Nat := f.mods 6 4
def rnd (f : FR) : Nat := f.mods 4 2
def ftz (f : FR) : Bool := f.md.getLsbD 3
def opx (f : FR) : Nat := f.mods 0 3
end FR

/-- Shape of an opcode with the common modifier layout (R52): which types, roundings, FTZ and OPX values it accepts,
what its fields name, and whether it uses sub. -/
def common (f : FR) (types : List Nat) (d : Dst3) (a b c : Src3) (rnd : Bool := false) (ftz : Bool := false)
    (opxOk : Nat → Bool := (· == 0)) (useSub : Bool := false) : Shape :=
  { ops := d.opnds f.ty f.dn f.s ++ a.opnds f.ty 0 f.an f.eaA (f.s || f.sa) ++ b.opnds f.ty 1 f.bn f.eaB (f.s || f.sb)
      ++ c.opnds f.ty 2 f.cn f.eaC (f.s || f.sc)
    bad3 := a.bad3 f.an f.eaA f.sa || b.bad3 f.bn f.eaB f.sb || c.bad3 f.cn f.eaC f.sc || d.bad3 f.dn
      || (!useSub && f.subn != 0) || (f.s && (f.sa || f.sb || f.sc)) || (!ftz && f.ftz)
    bad4 := !types.contains f.ty || (!rnd && f.rnd != 0) || !opxOk f.opx || d.bad4 f.dn
      || (match a with | .scal _ => !(f.s || f.sa) | _ => false)
      || (match b with | .scal _ => !(f.s || f.sb) | _ => false)
    s := f.s, pm := f.pm, pn := f.pn }

/-- Shape of an opcode whose modifier bits are all its own: `a`, `b`, `c` with their select bits already resolved, `used`
the mod bits it may set. -/
def plain (f : FR) (ty : Nat) (used : Nat) (d : Dst3) (a b c : Src3) (selA : Bool := false) (selB : Bool := false)
    (selC : Bool := false) (useSub : Bool := false) (bad4 : Bool := false) : Shape :=
  { ops := d.opnds ty f.dn f.s ++ a.opnds ty 0 f.an f.eaA (f.s || selA) ++ b.opnds ty 1 f.bn f.eaB (f.s || selB)
      ++ c.opnds ty 2 f.cn f.eaC (f.s || selC)
    bad3 := a.bad3 f.an f.eaA false || b.bad3 f.bn f.eaB false || c.bad3 f.cn f.eaC false || d.bad3 f.dn
      || (!useSub && f.subn != 0) || (f.md &&& ~~~ (BitVec.ofNat 13 used)) != 0
    bad4 := bad4 || d.bad4 f.dn
    s := f.s, pm := f.pm, pn := f.pn }

/-- The 64-bit special registers (R41). -/
def sr64 (n : Nat) : Bool := [0x00, 0x01, 0x0D, 0x0E, 0x0F, 0x13, 0x15, 0x16, 0x19].contains n
/-- The special registers with access RW (R41). -/
def srRW (n : Nat) : Bool := [0x00, 0x09, 0x10, 0x13, 0x14, 0x15, 0x16, 0x18, 0x19].contains n

def tI : List Nat := [0, 1, 2, 3, 4, 5, 6, 7]
def tW : List Nat := [0, 1, 6, 7]
def tMov : List Nat := [0, 1, 6, 7, 8]
def tN : List Nat := [0, 1]
def tH : List Nat := [9, 10]
/-- OPX values: only [0], used as `.SAT` or `.SX`. -/
def opx1 (x : Nat) : Bool := decide (x ≤ 1)
def opxAny (_ : Nat) : Bool := true

/-- A base address field: an even register of a pair, or `zero` (R145). -/
def baseOpnd (f : FR) : List Opnd := [{ fld := 0, num := f.an, scal := true, n := 2, ea := f.eaA, align := 2, ro := .zero }]

/-- A scalar pair position, which `zero` and `ones` may fill (R45). -/
def pairOpnd (fld num : Nat) (ea : Bool) : Opnd := { fld, num, scal := true, n := 2, ea, align := 2, ro := .pair }

/-- Global address operands a (base) and b (offset) of R145; `sb` selects a scalar offset. -/
def globAddr (f : FR) (sb : Bool) : List Opnd :=
  baseOpnd f ++ [{ fld := 1, num := f.bn, scal := sb, ea := f.eaB }]

/-- Scratchpad address operands of R145. -/
def spadAddr (f : FR) (sb : Bool) : List Opnd :=
  [{ fld := 0, num := f.an, scal := true, ea := f.eaA }, { fld := 1, num := f.bn, scal := sb, ea := f.eaB }]

/-- LD, ST, LDU, LDS, STS, PREF (R144, R145). `store`: d is the data, read; `ords`: the ORD values accepted. -/
def memShape (f : FR) (glob store scalDst : Bool) (ords : List Nat) (attrs : Bool) (pref : Bool := false) : Shape :=
  let ty := f.mods 6 4
  let n := if ty == 6 || ty == 7 then 2 else 1
  let sb := f.md.getLsbD 1
  let dOp : List Opnd :=
    if pref then []
    else if store then [{ fld := 3, num := f.dn, scal := false, n, ea := f.eaC, align := n }]
    else if scalDst then [{ fld := 3, num := f.dn, scal := true, role := .dst, n, align := n, ro := .zero }]
    else [{ fld := 3, num := f.dn, scal := false, role := .dst, n, align := n }]
  { ops := dOp ++ (if glob then globAddr f (sb || scalDst) else spadAddr f sb)
    bad3 := f.cn != 0 || f.subn != 0 || f.md.getLsbD 0 || (!store && f.eaC) || (pref && f.dn != 0)
    bad4 := decide (7 < ty) || (pref && ty != 0) || !ords.contains (f.mods 2 2) || decide (4 < f.mods 10 3)
      || (f.mods 2 2 == 0 && f.mods 10 3 != 0) || f.mods 4 2 == 3 || (!attrs && f.mods 4 2 != 0) || (scalDst && !sb)
    s := f.s, pm := f.pm, pn := f.pn }

/-- ATOM, ATOMS, RED (R167-R169). -/
def atomShape (f : FR) (glob ret : Bool) : Shape :=
  let op := f.subn
  let ty := f.mods 7 3
  let wide := ty == 2 || ty == 3
  let vc := f.md.getLsbD 6
  let n := (if wide then 2 else 1) * (if op == 7 then 2 else 1)
  let nd := if wide then 2 else 1
  let cs := f.s && !vc
  { ops := (if ret then [{ fld := 3, num := f.dn, scal := f.s, role := .dst, n := nd, align := nd, ro := .zero }] else [])
      ++ (if glob then globAddr f (f.s || f.md.getLsbD 0) else spadAddr f (f.s || f.md.getLsbD 0))
      ++ [{ fld := 2, num := f.cn, scal := cs, n, ea := f.eaC, align := n
            ro := if n == 1 then .single else if n == 2 then .pair else .none }]
    bad3 := (!ret && f.dn != 0) || f.mods 4 2 != 0 || (f.s && f.md.getLsbD 0)
    bad4 := decide (5 < ty) || decide (4 < f.mods 10 3) || (!glob && decide (1 < f.mods 10 3)) || f.mods 2 2 == 3
      || (!ret && f.mods 2 2 == 1) || (decide (3 ≤ op) && decide (op ≤ 5) && decide (3 < ty))
      || (decide (6 ≤ op) && (decide (4 < ty) || !ret || f.md.getLsbD 1)) || (!f.s && vc)
    s := f.s, pm := f.pm, pn := f.pn }

/-- The class-10 opcodes (R209). -/
def queueShape (code : Nat) (f : FR) : Shape :=
  let obj := f.mods 8 5
  let opf := f.mods 0 2
  let sp := f.md.getLsbD 3
  let mem := f.md.getLsbD 4
  let try_ := opf == 1
  let one (fld num : Nat) (ea : Bool) : Opnd := { fld, num, scal := true, ea }
  let status : Opnd := { fld := 1, num := f.bn, scal := true, role := .dst, ro := .zero }
  let off : Opnd := { fld := 0, num := f.an, scal := f.s || f.md.getLsbD 2, ea := f.eaA }
  let base : Shape := { s := f.s, pm := f.pm, pn := f.pn }
  match code with
  | 0x280 => { base with
      ops := baseOpnd f
      bad3 := f.dn != 0 || f.bn != 0 || f.cn != 0 || f.subn != 0 || f.eaB || f.eaC || f.mods 0 8 != 0
      bad4 := decide (obj < 16) }
  | 0x281 => { base with
      ops := [if sp then off else { fld := 0, num := f.an, scal := f.s, n := 2, ea := f.eaA, align := 2, ro := .pair }, status]
      bad3 := f.dn != 0 || f.cn != 0 || f.subn != 0 || f.eaB || f.eaC || mem || (!sp && f.md.getLsbD 2) || (!try_ && f.mods 5 3 != 0)
      bad4 := decide (1 < opf) }
  | 0x282 => { base with
      ops := (if sp then [off] else [{ fld := 3, num := f.dn, scal := f.s, role := .dst, n := 2, align := 2, ro := .zero }]) ++ [status]
      bad3 := (if sp then f.dn != 0 else f.an != 0 || f.eaA) || f.cn != 0 || f.subn != 0 || f.eaB || f.eaC || mem
        || (!sp && f.md.getLsbD 2) || (!try_ && f.mods 5 3 != 0)
      bad4 := decide (1 < opf) }
  | 0x283 => { base with
      ops := [{ fld := 3, num := f.dn, scal := true, role := .dst, n := 2, align := 2, ro := .none }]
      bad3 := f.an != 0 || f.bn != 0 || f.cn != 0 || f.ea != 0 || f.mods 0 8 != 0 }
  | 0x284 => { base with
      ops := if mem then [pairOpnd 0 f.an f.eaA, pairOpnd 1 f.bn f.eaB, one 2 f.cn f.eaC]
        else [one 0 f.an f.eaA, one 1 f.bn f.eaB, one 2 f.cn f.eaC]
      bad3 := f.dn != 0 || f.subn != 0 || f.mods 0 4 != 0 || f.mods 5 3 != 0
      bad4 := if mem then obj != 0 else decide (15 < obj) }
  | 0x285 => { base with
      ops := [one 0 f.an f.eaA, one 1 f.bn f.eaB]
      bad3 := f.dn != 0 || f.cn != 0 || f.subn != 0 || f.eaC || f.mods 0 8 != 0
      bad4 := decide (15 < obj) }
  | 0x286 => { base with
      ops := [one 0 f.an f.eaA]
      bad3 := f.dn != 0 || f.bn != 0 || f.cn != 0 || f.subn != 0 || f.eaB || f.eaC || f.mods 0 8 != 0
      bad4 := decide (15 < obj) }
  | _ => { base with
      ops := [one 0 f.an f.eaA, status] ++ (if opf == 2 then [one 2 f.cn f.eaC] else [])
      bad3 := f.dn != 0 || f.subn != 0 || f.eaB || (opf != 2 && (f.cn != 0 || f.eaC)) || f.mods 2 6 != 0
      bad4 := decide (15 < obj) || opf == 3 }

/-- LDX, STX, LDXS, STXS, PROBE (R262, R263, R267). -/
def gatherShape (f : FR) (glob store probe : Bool) : Shape :=
  let ty := f.mods 6 4
  let n := if ty == 6 || ty == 7 then 2 else 1
  { ops := (if probe then []
      else [{ fld := 3, num := f.dn, scal := false, role := if store then .src else .dst, n, ea := store && f.eaC, align := n }])
      ++ (if glob then baseOpnd f else [{ fld := 0, num := f.an, scal := true, ea := f.eaA }])
      ++ [{ fld := 1, num := f.bn, scal := false, ea := f.eaB }]
    bad3 := f.cn != 0 || f.subn != 0 || f.mods 0 4 != 0 || (!store && f.eaC)
      || (probe && (decide (7 < f.dn) || f.mods 4 6 != 0))
    bad4 := !probe && (decide (7 < ty) || f.mods 4 2 == 3 || (!glob && f.mods 4 2 != 0))
    s := f.s, pm := f.pm, pn := f.pn }

/-- TMOV and TZERO (R283). -/
def tanShape (f : FR) (zero : Bool) : Shape :=
  let n := if zero then f.mods 0 7 + 1 else 1
  let sc := if zero then f.md.getLsbD 7 else f.md.getLsbD 1
  { ops := [{ fld := 3, num := f.dn, scal := sc, role := .dst, n, ro := .none }]
      ++ (if zero then [] else [{ fld := 0, num := f.an, scal := sc, ea := f.eaA, ro := .none }])
    bad3 := f.bn != 0 || f.cn != 0 || f.eaB || f.eaC || (if zero then f.an != 0 || f.eaA || f.mods 8 5 != 0 else f.mods 2 11 != 0)
    bad4 := decide (4 < f.subn) || (!zero && f.subn == 0)
    s := f.s, pm := f.pm, pn := f.pn }

/-- The shape of an FR word (R50, R52 and the encoding rule of each instruction). -/
def frShape (code : Nat) (f : FR) : Shape :=
  let bt := Width.byType
  let noPred (x : Shape) : Shape := { x with bad3 := x.bad3 || f.pm != 0 || f.pn }
  let two := Src3.reg bt
  match code with
  -- integer arithmetic (R80-R83)
  | 0x000 | 0x001 => common f tI (.reg bt) two two .no (opxOk := opx1)
  | 0x002 | 0x003 => common f tN (.reg .one) (.reg .one) (.reg .one) .mask (opxOk := opxAny)
  | 0x004 | 0x008 | 0x009 => common f tI (.reg bt) two two .no
  | 0x005 => common f tW (.reg bt) two two .no
  | 0x006 => common f tN (.reg .two) (.reg .one) (.reg .one) .no
  | 0x007 | 0x00F => common f tI (.reg bt) two two two (opxOk := opx1)
  | 0x00A => common f tI (.reg bt) two two two
  | 0x00B | 0x00C => common f tI (.reg bt) two .no .no (opxOk := opx1)
  | 0x00D => common f tN (.reg .one) (.reg .one) (.reg .one) (.reg .one)
  | 0x00E => common f tN (.reg .one) (.reg .one) (.reg .one) (.reg .one) (opxOk := opx1)
  | 0x010 => common f tW (.reg bt) two two .no (opxOk := opxAny)
  | 0x011 => let x := common f tI .cmp two two .no
             { x with bad4 := x.bad4 || decide (5 < f.dn / 16) }
  -- logic, shifts, bit fields (R84)
  | 0x040 | 0x041 | 0x042 | 0x043 => common f tW (.reg bt) two two .no
  | 0x044 | 0x04E => common f tW (.reg bt) two .no .no
  | 0x045 => plain f 0 0xFF (.reg .one) (.reg .one) (.reg .one) (.reg .one)
  | 0x046 | 0x047 | 0x048 | 0x049 => common f tW (.reg bt) two two .no
  | 0x04A => common f tW (.reg bt) two (.reg .one) (.reg .one) (opxOk := opx1)
  | 0x04B => common f tW (.reg bt) two (.reg .one) two
  | 0x04C | 0x04D | 0x04F => common f tW (.reg .one) two .no .no
  -- moves, special registers, masks (R85-R89)
  | 0x080 => common f tMov (.reg bt) two .no .no
  | 0x082 => common f tMov (.reg bt) two two .mask
  | 0x083 =>
    let w := if sr64 f.an then Width.two else Width.one
    let x := plain f 0 0 (.reg w) .no .no .no
    { x with bad3 := f.bn != 0 || f.cn != 0 || f.ea != 0 || f.subn != 0 || f.md != 0, bad7 := decide (0x19 < f.an) }
  | 0x084 =>
    let w := if sr64 f.dn then Width.two else Width.one
    let x := plain f 0 0 .no (.reg w) .no .no
    { x with bad3 := f.bn != 0 || f.cn != 0 || f.eaB || f.eaC || f.subn != 0 || f.md != 0, bad7 := !srRW f.dn }
  | 0x085 => plain f 0 0xF .mask .mask .mask .no
  | 0x086 => plain f 0 0 (.sreg .two false) .mask .no .no
  | 0x087 => plain f 0 0 .mask (.scal .two) .no .no
  | 0x088 => common f tMov (.sreg bt false) (.vec bt) two .no
  | 0x089 => common f tMov (.vec bt) (.scal bt) two .no
  -- FP32 (R115-R119)
  | 0x0C0 | 0x0C1 | 0x0C2 | 0x0C4 | 0x0C5 | 0x0C9 => common f [8] (.reg .one) (.reg .one) (.reg .one) .no (rnd := true) (ftz := true)
  | 0x0C3 => common f [8] (.reg .one) (.reg .one) (.reg .one) (.reg .one) (rnd := true) (ftz := true)
  | 0x0C6 | 0x0C7 | 0x0CB => common f [8] (.reg .one) (.reg .one) .no .no
  | 0x0C8 => common f [8] .cmp (.reg .one) (.reg .one) .no (ftz := true)
  | 0x0CA | 0x0CD => common f [8] (.reg .one) (.reg .one) .no .no (rnd := true) (ftz := true)
  | 0x0CC => common f [8] (.reg .one) (.reg .one) (.reg .one) .no
  -- packed and conversions (R120-R126)
  | 0x100 | 0x101 | 0x102 | 0x104 | 0x105 => common f tH (.reg .one) (.reg .one) (.reg .one) .no (rnd := true) (ftz := true)
  | 0x103 | 0x107 => common f tH (.reg .one) (.reg .one) (.reg .one) (.reg .one) (rnd := true) (ftz := true)
  | 0x106 => common f tH .cmp2 (.reg .one) (.reg .one) .no (ftz := true)
  | 0x108 =>
    let wa := if f.subn == 2 || f.subn == 3 then Width.two else Width.one
    let x := common f [0, 1, 2, 3, 4, 5, 6, 7, 8, 9, 10] (.reg bt) (.reg wa) .no .no (rnd := true) (ftz := true) (opxOk := opx1) (useSub := true)
    { x with bad4 := x.bad4 || f.subn == 7 }
  | 0x109 | 0x10A =>
    let x := common f [8] (.vec .one) (.vec .one) .no .no (useSub := true)
    x
  | 0x10B =>
    let w := if [2, 3, 11, 12].contains f.ty then Width.two else Width.one
    common f [2, 3, 4, 5, 9, 10, 11, 12] (.reg .one) (.reg w) (.reg w) .no
  | 0x10C => common f [2, 3, 4, 5, 9, 10, 11, 12] (.reg .one) (.reg .one) (.reg .one) .no
  -- transcendentals, TOPK (R127, R128)
  | 0x140 | 0x141 | 0x142 | 0x143 | 0x144 | 0x145 | 0x146 | 0x147 => common f [8] (.reg .one) (.reg .one) .no .no (ftz := true)
  | 0x148 => common f [0, 1, 8] (.vec .one) (.reg .one) (.scal .one) .mask (opxOk := opx1)
  -- cross-lane (R90-R95)
  | 0x180 => plain f 0 0x803 (.vec .one) (.vec .one) (.reg .one) .no (selB := f.sb)
  | 0x181 => plain f 0 0x3 .mask .mask .no .no
  | 0x182 => plain f 0 0 (.sreg .two false) (.vec .one) .no .no
  | 0x183 | 0x184 | 0x185 | 0x186 =>
    let seg := code == 0x185 || code == 0x186
    let excl := code == 0x184 || code == 0x185
    let x := plain f 0 (if excl then 0x13FF else 0x3FF) (.vec .one) (.vec .one) (if seg then .sreg else .no) (if seg then .mask else .no)
    { x with
      bad4 := x.bad4 || !([0, 1, 8].contains f.ty) || decide (5 < f.opx) || (f.ty == 8 && decide (2 < f.opx)) || (f.ty != 8 && f.rnd != 0)
      bad3 := x.bad3 || (f.ty != 8 && f.ftz) }
  | 0x187 => plain f 0 0 (.vec .one) (.vec .one) (.scal .one) .no
  | 0x188 => plain f 0 0 (.vec .one) (.vec .one) (.vec .one) (.vec .one)
  -- control (R178)
  | 0x1C0 => plain f 0 0 .no (.scal .two) .no .no
  | 0x1C1 => let x := plain f 0 0 .no (.scal .two) .mask .no
             x
  | 0x1C2 | 0x1C4 => noPred (plain f 0 0 .no (.vec .two) .no .no)
  | 0x1C3 => noPred (plain f 0 0 .no (.scal .two) .no .no)
  | 0x1C5 | 0x1C9 | 0x1CB => noPred (plain f 0 0 .no .no .no .no)
  | 0x1C6 => noPred (plain f 0 0 .mask .mask .no .no)
  | 0x1C7 | 0x1C8 => noPred (plain f 0 0 .mask .no .no .no)
  | 0x1CA => noPred (plain f 0 0 .no (.scal .one) .no .no)
  -- memory (R144-R151)
  | 0x200 => memShape f true false false [0, 1] true
  | 0x201 => memShape f true true false [0, 2] true
  | 0x202 => let x := memShape f false false false [0] false
             { x with bad4 := x.bad4 || f.mods 10 3 != 0 }
  | 0x203 => let x := memShape f false true false [0] false
             { x with bad4 := x.bad4 || f.mods 10 3 != 0 }
  | 0x204 => memShape f true false true [0, 1] true
  | 0x205 => memShape f true false false [0] true (pref := true)
  | 0x206 => plain f 0 0x3 .no (.scal .one) .no .no
  | 0x207 =>
    let x := plain f 0 0 (.sreg .one true) .no (.scal .one) .no
    { x with ops := x.ops ++ [pairOpnd 0 f.an f.eaA], bad3 := f.cn != 0 || f.eaC || f.subn != 0 || f.md != 0 }
  -- atomics and fence (R162, R167)
  | 0x240 => atomShape f true true
  | 0x241 => atomShape f false true
  | 0x242 => atomShape f true false
  | 0x243 =>
    let x := plain f 0 0x1C0C .no .no .no .no
    { x with bad4 := x.bad4 || decide (4 < f.mods 10 3) || f.mods 2 2 == 3 }
  | 0x280 | 0x281 | 0x282 | 0x283 | 0x284 | 0x285 | 0x286 | 0x287 => queueShape code f
  -- matrix (R246)
  | 0x2C0 => plain f 0 0 .no (.scal .one) (.scal .one) (.scal .one) (useSub := true)
  | 0x2C1 => plain f 0 0 .no (.scal .one) (.scal .one) .no
  | 0x2C2 => plain f 0 0 (.sreg .one true) .no .no .no
  | 0x2C3 => plain f 0 0 .no (.scal .one) .no .no
  | 0x2C4 =>
    let x := plain f 0 0x7 .no (.scal .one) (.scal .one) .no (useSub := true)
    { x with ops := { fld := 3, num := f.dn, scal := false, role := .dst, n := f.mods 0 3 + 1 } :: x.ops, bad3 := f.cn != 0 || f.eaC || f.mods 3 10 != 0 }
  | 0x2C5 => plain f 0 0 .no (.scal .one) (.scal .one) .no (useSub := true)
  | 0x2C6 => plain f 0 0 .no (.scal .one) (.scal .one) (.scal .one)
  -- gather and scatter (R262-R269)
  | 0x300 => gatherShape f true false false
  | 0x301 => gatherShape f true true false
  | 0x302 => gatherShape f false false false
  | 0x303 => gatherShape f false true false
  | 0x304 => gatherShape f true false true
  | 0x305 => plain f 0 0 .no .no .no .no
  -- streams and dual (R190, R283)
  | 0x340 => noPred (plain f 0 0x1000 .no (.reg .one) .no .no (selA := f.sa))
  | 0x341 => tanShape f false
  | 0x342 => tanShape f true
  -- system (R326, R337, R338, R58)
  | 0x380 => plain f 0 0 .no (.scal .one) .no .no
  | 0x381 => noPred (plain f 0 0 .no .no .no .no)
  | 0x382 => plain f 0 0 .no .no .no .no
  | _ => noPred (plain f 0 0 .no .no .no .no (useSub := true))

/-- The TYPE of a memory FI word: imm32 [30:28] (R145). -/
def FI.memType (f : FI) : Nat := (f.imm.extractLsb' 28 3).toNat

/-- The shape of an FI word (R53 and the encoding rule of each instruction). -/
def fiShape (code : Nat) (f : FI) : Shape :=
  let an := f.a.toNat
  let dn := f.d.toNat
  let base : Shape := { s := f.s, pm := f.pm, pn := f.pn }
  let da (d : Dst3) : Shape := { base with
    ops := d.opnds 0 dn f.s ++ [{ fld := 0, num := an, scal := f.s, ea := f.ea }], bad3 := d.bad3 dn, bad4 := d.bad4 dn }
  let n := if f.memType == 6 || f.memType == 7 then 2 else 1
  let gbase : Opnd := { fld := 0, num := an, scal := true, n := 2, ea := f.ea, align := 2, ro := .zero }
  let sbase : Opnd := { fld := 0, num := an, scal := true, ea := f.ea }
  let hi := f.imm.getLsbD 31
  let none3 := an != 0 || dn != 0 || f.ea
  match code with
  | 0x011 => let x := da .cmp
             { x with bad4 := decide (5 < dn / 16) }
  | 0x0C8 => da .cmp
  | 0x081 => { base with ops := Dst3.opnds 0 dn f.s (.reg .one), bad3 := an != 0 || f.ea }
  | 0x1C0 | 0x380 | 0x382 => { base with bad3 := none3 }
  | 0x1C1 => { base with bad3 := dn != 0 || f.ea || decide (7 < an) }
  | 0x1C3 | 0x1CA | 0x383 => { base with bad3 := none3 || f.pm != 0 || f.pn }
  | 0x200 => { base with ops := [{ fld := 3, num := dn, scal := false, role := .dst, n, align := n }, gbase], bad3 := hi }
  | 0x201 => { base with ops := [{ fld := 3, num := dn, scal := false, n, align := n }, gbase], bad3 := hi }
  | 0x202 => { base with ops := [{ fld := 3, num := dn, scal := false, role := .dst, n, align := n }, sbase], bad3 := hi }
  | 0x203 => { base with ops := [{ fld := 3, num := dn, scal := false, n, align := n }, sbase], bad3 := hi }
  | 0x204 => { base with ops := [{ fld := 3, num := dn, scal := true, role := .dst, n, align := n, ro := .zero }, gbase], bad3 := hi }
  | 0x205 => { base with ops := [gbase], bad3 := hi || dn != 0, bad4 := f.memType != 0 }
  | _ => da (.reg .one)

/-- Whether a half-opcode is a long-latency half, 0x30-0x38 (R46). -/
def HalfOp.long (op : HalfOp) : Bool := decide (0x30 ≤ op.code.toNat)

/-- The register that a half's field names: 2 × field in half A, 2 × field + 1 in half B (R55). -/
def halfReg (half : Nat) (x : BitVec 6) : Nat := 2 * x.toNat + half

/-- Case 3 of a half: the bits that R55 and R56 require to be zero. -/
def halfBad3 (op : HalfOp) (x : HalfArgs) : Bool :=
  let c := op.code.toNat
  let i := x.mod5.getLsbD 4
  let b3 := x.mod5.getLsbD 3
  let b2 := x.mod5.getLsbD 2
  let b1 := x.mod5.getLsbD 1
  let b0 := x.mod5.getLsbD 0
  if c == 0 then x.d != 0 || x.a != 0 || x.imm8 != 0 || x.mod5 != 0
  else
    (i && x.a != 0) || (!i && c != 0x38 && x.imm8 != 0)
    || (if c ≤ 0x06 then b0
        else if c ≤ 0x15 then
          b2 || b1 || (if c == 0x12 then b3 || b0 else if c == 0x13 || c == 0x14 then b3 else b0 && !b3)
        else if c ≤ 0x20 then b3 || b2 || b1 || b0
        else if c ≤ 0x37 then b3 || b2 || b0
        else b3 || b2 || b1 || b0)

/-- Register operands of a half (R54, R55). -/
def halfOpnds (half : Nat) (op : HalfOp) (x : HalfArgs) : List Opnd :=
  if op == .hnop then []
  else
    let keep := op == .mov || op.long
    { fld := 3, num := halfReg half x.d, scal := false, role := if keep then .dst else .both } ::
      (if x.mod5.getLsbD 4 then [] else [{ fld := 0, num := halfReg half x.a, scal := false }])

/-- The shape of any instruction word. -/
def Form.shape : Form → Shape
  | .fr code f => frShape code f
  | .fi code f => fiShape code f
  | .pair op x y => { ops := halfOpnds 0 op x ++ halfOpnds 1 y.op y.args, bad3 := halfBad3 op x || halfBad3 y.op y.args }
  | .event => {}

/-- Whether the word's form exists for its opcode (cases 1 and 2 of R61); a paired word always has its form. -/
def Form.badForm (fm : Form) : Option Nat :=
  match fm with
  | .fr code f =>
    match forms code with
    | none => some 1
    | some g => if g.r && (g.s || !f.s) then none else some 2
  | .fi code f =>
    match forms code with
    | none => some 1
    | some g => if g.i && (g.s || !f.s) then none else some 2
  | _ => none

/-- The lowest case of R61, or reason 12 of R343, that applies to a word in a launch with these register counts
(`none`: the word is an instruction). `bit0` says that bit 0 of a paired word is set. -/
def illegalForm (vregs sregs ktan : Nat) (bit0 : Bool) (fm : Form) : Option Nat :=
  let x := fm.shape
  match fm.badForm with
  | some n => some n
  | none =>
    if x.bad3 then some 3
    else if x.bad4 then some 4
    else if !x.ops.all (Opnd.ok vregs sregs) then some 5
    else if x.pn && x.pm == 0 then some 6
    else if x.bad7 then some 7
    else match fm with
      | .pair op _ y => if bit0 || (op.long && y.op.long) then some 8 else none
      | .fr 0x341 f | .fr 0x342 f => if ktan == 0 || decide (ktan < f.subn) then some 12 else none
      | .fr 0x3C0 f => if f.subn == 0 || decide (ktan < f.subn) then some 9 else none
      | _ => none

/-- `illegalForm` of an instruction. -/
def illegalCase (vregs sregs ktan : Nat) (i : Instr) : Option Nat := illegalForm vregs sregs ktan false i.form

/-- Whether the word is a long-latency producer (R46). -/
def Form.long : Form → Bool
  | .fr code _ | .fi code _ => match forms code with | some g => g.l | none => false
  | .pair op _ y => op.long || y.op.long
  | .event => false

/-- Whether the word takes a DX prefix (R59). -/
def Form.dual : Form → Bool
  | .fr code _ | .fi code _ => match forms code with | some g => g.d | none => false
  | .pair _ _ _ => true
  | .event => false

/-! ### Reading words -/

/-- The FR fields of a word (R49). -/
def FR.ofWord (w : DWord) : FR :=
  { sub := w.extractLsb' 49 3, s := w.getLsbD 48, d := w.extractLsb' 41 7, a := w.extractLsb' 34 7
    b := w.extractLsb' 27 7, c := w.extractLsb' 20 7, pm := w.extractLsb' 17 3, pn := w.getLsbD 16
    ea := w.extractLsb' 13 3, md := w.extractLsb' 0 13 }

/-- The FI fields of a word (R53). -/
def FI.ofWord (w : DWord) : FI :=
  { pm := w.extractLsb' 49 3, s := w.getLsbD 48, d := w.extractLsb' 41 7, a := w.extractLsb' 34 7
    ea := w.getLsbD 33, pn := w.getLsbD 32, imm := w.extractLsb' 0 32 }

/-- The half whose bit 0 is bit `lo` of the word (R54). -/
def HalfArgs.ofWord (w : DWord) (lo : Nat) : HalfArgs :=
  { d := w.extractLsb' (lo + 19) 6, a := w.extractLsb' (lo + 13) 6, imm8 := w.extractLsb' (lo + 5) 8
    mod5 := w.extractLsb' lo 5 }

/-- What a word reads as, before its fields are checked. -/
inductive Parsed where
  | word (i : Instr) (bit0 : Bool)  -- `bit0`: bit 0 of a paired word is set, case 8 of R61
  | bad (case : Nat)                -- case 1 or 2 of R61
  deriving DecidableEq, Repr

/-- Reading a word by its format bits, opcode and half-opcodes (R48, R60, R57): cases 1 and 2 of R61 but for S. -/
def parse (w : DWord) : Parsed :=
  if w.getLsbD 63 then
    match HalfOp.ofCode (w.extractLsb' 57 6).toNat, HalfOp.ofCode (w.extractLsb' 26 6).toNat with
    | some a, some b => .word (pairInstr a (HalfArgs.ofWord w 32) { op := b, args := HalfArgs.ofWord w 1 }) (w.getLsbD 0)
    | _, _ => .bad 1
  else
    let code := (w.extractLsb' 52 10).toNat
    match forms code with
    | none => .bad 1
    | some _ =>
      if w.getLsbD 62 then (match fiInstr code (FI.ofWord w) with | some i => .word i false | none => .bad 2)
      else (match frInstr code (FR.ofWord w) with | some i => .word i false | none => .bad 2)

/-- Why `decode` refuses bytes: fewer than eight, or the case of R61 (1-9) or reason of R343 (12) that the word falls
under in the launch with the most registers (VREGS = 128, SREGS = 64, KTAN = 4). -/
inductive DecodeError where
  | tooShort
  | unlistedOpcode        -- case 1
  | noSuchForm            -- case 2
  | unusedBitSet          -- case 3
  | valueNotAccepted      -- case 4
  | badRegister           -- case 5
  | negatedNoPredicate    -- case 6
  | badSpecialRegister    -- case 7
  | badPairedWord         -- case 8
  | badPrefix             -- case 9
  | badTangentComponent   -- reason 12
  deriving DecidableEq, Repr

/-- The refusal of each case of R61. -/
def DecodeError.ofCase : Nat → DecodeError
  | 1 => .unlistedOpcode
  | 2 => .noSuchForm
  | 3 => .unusedBitSet
  | 4 => .valueNotAccepted
  | 5 => .badRegister
  | 6 => .negatedNoPredicate
  | 7 => .badSpecialRegister
  | 8 => .badPairedWord
  | 9 => .badPrefix
  | _ => .badTangentComponent

/-- The largest register counts that a launch can have (R36, R271). -/
def maxVregs : Nat := 128
def maxSregs : Nat := 64
def maxKtan : Nat := 4

/-- Decoding one word under the largest register counts. -/
def decodeWord (w : DWord) : Except DecodeError Instr :=
  match parse w with
  | .bad n => .error (.ofCase n)
  | .word i bit0 =>
    match illegalForm maxVregs maxSregs maxKtan bit0 i.form with
    | some n => .error (.ofCase n)
    | none => .ok i

/-- A little-endian number from bytes, the first the lowest (R2). -/
def leNat : List Byte → Nat
  | [] => 0
  | b :: bs => b.toNat + 256 * leNat bs

/-- The `n` bytes of a number, the lowest first (R2). -/
def leBytes : Nat → Nat → List Byte
  | 0, _ => []
  | n + 1, x => BitVec.ofNat 8 x :: leBytes n (x / 256)

/-- Decoding the first instruction of a byte string (R48: eight bytes, little-endian), with the bytes after it. -/
def decode (bytes : List Byte) : Except DecodeError (Instr × List Byte) :=
  if bytes.length < 8 then .error .tooShort
  else match decodeWord (BitVec.ofNat 64 (leNat (bytes.take 8))) with
    | .ok i => .ok (i, bytes.drop 8)
    | .error e => .error e

/-! ### Writing words -/

/-- The FR word of these fields (R49). -/
def FR.word (code : Nat) (f : FR) : DWord :=
  0#2 ++ BitVec.ofNat 10 code ++ f.sub ++ BitVec.ofBool f.s ++ f.d ++ f.a ++ f.b ++ f.c ++ f.pm ++ BitVec.ofBool f.pn ++ f.ea ++ f.md

/-- The FI word of these fields (R53). -/
def FI.word (code : Nat) (f : FI) : DWord :=
  1#2 ++ BitVec.ofNat 10 code ++ f.pm ++ BitVec.ofBool f.s ++ f.d ++ f.a ++ BitVec.ofBool f.ea ++ BitVec.ofBool f.pn ++ f.imm

/-- The 31 bits of a half-instruction (R54). -/
def halfBits (op : HalfOp) (x : HalfArgs) : BitVec 31 := op.code ++ x.d ++ x.a ++ x.imm8 ++ x.mod5

/-- The word of a form; a step of another agent has none. -/
def Form.word : Form → Option DWord
  | .fr code f => some (f.word code)
  | .fi code f => some (f.word code)
  | .pair op x y => some (1#1 ++ halfBits op x ++ halfBits y.op y.args ++ 0#1)
  | .event => none

/-- The encoder: the word of an instruction, from the same encoding tables (R48-R58). -/
def encode (i : Instr) : Option DWord := i.form.word

/-- The bytes of an instruction's word as they lie in memory (R48). -/
def encodeBytes (i : Instr) : Option (List Byte) := (encode i).map fun w => leBytes 8 w.toNat

/-- The instruction that `decode` reads from bytes whose bits are those of `w`, bit 0 the least significant bit of the
first byte; bits at and above `nbits` are zero. -/
def decodeTableWord (nbits w : Nat) : Option Instr :=
  match decode (leBytes 8 (w % 2 ^ nbits)) with
  | .ok (i, _) => some i
  | .error _ => none

end Sys2Proof
end

