-- ==== Sys2Proof/Config.lean ====
section
/-! DEFINITION. What the spec leaves open and this model does not choose: constants with no body, so that no proof can see
their values. Each is named in a log entry under notes/assumptions/. -/

namespace Sys2Proof

/-- What the signed configuration record holds (spec/01_device.md R15, R8, R311, spec/20_reliability.md R394). -/
structure ConfigRecord where
  pkg : BitVec 11
  sku : BitVec 8
  rev : BitVec 8
  /-- RSVSZ in units of 2 MiB (R8). -/
  rsvsz : Nat
  /-- The minimum version of each image kind 1-3 (R394). -/
  minVersion : List Nat
  /-- Whether the root firmware grants debug for the whole package (R324). -/
  debugOn : Bool
  /-- The number of the service image that the record names (R16). -/
  image : Nat
  /-- The latency-class licence (R1, R15). -/
  licence : Bool
  /-- The working unit behind each logical position (R6), and trims of the analogue parts (R15). -/
  spares : List (Nat × Nat)
  trims : List Nat
  /-- The package that the record is for (R15). -/
  identity : List Byte
  deriving DecidableEq, Repr, Inhabited

/-- What an image signs, and its signature (r, s). The image format is not in the spec. -/
opaque Config.signed : List Byte → List Byte × (Nat × Nat)

/-- The public key with which the boot step of an image kind 1-3 (root extension, configuration record, service image)
verifies (R14, R16, R394): a point of the curve. -/
opaque Config.publicKey : Nat → Nat × Nat

/-- The number of a service image, by which a configuration record names it (R16). -/
opaque Config.imageNumber : List Byte → Nat

/-- What the identity binding of a configuration record names in this package (R15). -/
opaque Config.identity : List Byte

/-- The version of an image (R394). -/
opaque Config.version : List Byte → Nat

/-- The content of a configuration record image (R15). -/
opaque Config.record : List Byte → ConfigRecord

/-- The identity key, which the root firmware alone holds (R13), and the secret number that ECDSA draws for a message. -/
opaque Config.identityKey : Nat
opaque Config.secret : List Byte → Nat

/-- What a unit counted between two latches of the performance series where the model does not count it (R332, R333): latch,
unit in record order, counter. -/
opaque Config.seriesCount : Nat → Nat → Nat → BitVec 32

/-- Where the alternate save areas lie in device-reserved HBM (R390): the physical address of launch queue 0's, in units of 64
bytes. -/
opaque Config.altArea : Nat

end Sys2Proof
end

