-- ==== Sys2Proof/Machine/State.lean ====
section
/-! DEFINITION. The machine's state as plain data, and the state after reset. The fields are those of INVENTORY.md's
'## State'; docstrings cite the rule of spec/ that names each piece. -/

namespace Sys2Proof.Machine

/-- A finite map from numbers with a default value: keys strictly rising, no entry equal to the default. -/
abbrev Map (α : Type) := List (Nat × α)

/-- Bytes by address in the same form, the default zero (log 2). -/
abbrev Memory := List Host.Cell

/-! ### Fragments and groups -/

/-- The sleep state of a fragment (R175). `ready`, `stalled`, `reading`, `waitc`, `mwait` and `other` fragments issue again when
their word can; the rest are woken by the event that each names. -/
inductive FragSt where
  | ready
  /-- STATE 1, asleep at join `j`; `ord` orders arrivals (R183). -/
  | join (j ord : Nat)
  /-- STATE 2: BWAIT.form at barrier `b` with operand `a`, threshold `c`, status register `dst` (R227). -/
  | bwait (b form : Nat) (a c : Word) (dst : Nat)
  /-- STATE 3: asleep at a regroup with each lane's count (R191). -/
  | regroup (n : List Nat)
  /-- STATE 4: until DTIME reaches `till` (R187). -/
  | sleep (till : Nat)
  /-- STATE 5: parked by the page fault of access `acc` (R362). -/
  | parked (acc : Nat)
  /-- STATE 6: stalled on its destination, or on the paired halves' registers (R47). -/
  | stalled
  /-- STATE 6: stalled at the source read; the word is kept and its checks start there again (R342). -/
  | reading
  /-- STATE 7, WKIND 0: WAITM on a sector, with its access and time limit (R151). -/
  | waitm (acc : Nat) (till : Option Nat)
  /-- STATE 7, WKIND 1: WAITC on counter `p` (R150). -/
  | waitc (p : Nat)
  /-- STATE 7, WKIND 2 (R253). -/
  | mwait
  /-- STATE 7, WKIND 3: blocked in the queue operation of access `acc` (R216). -/
  | queue (acc : Nat)
  /-- STATE 7, WKIND 5: YIELD, since partition cycle `cyc`, at issue stamp `stamp` (R187). -/
  | yield (cyc stamp : Nat)
  /-- STATE 7, WKIND 5: a FENCE waits (R162); no other fragment of the group issues meanwhile. -/
  | fence
  /-- STATE 7, WKIND 5: a store waits for room in the launch's hold reserve (R295). -/
  | held
  /-- STATE 7, WKIND 5: a BWAIT that has completed waits as FENCE.ACQ.WG (R227). -/
  | acquire
  /-- STATE 7, WKIND 5: another issue stall (R175). -/
  | other
  deriving DecidableEq, Repr

/-- A fragment (R174). `fid` is its identity, `shadow` the core's copy of EXEC (R384), `stamp` when it last issued or
came into being (R176). -/
structure Frag where
  fid : Nat
  pc : DWord
  f : Mask
  exec : Mask
  shadow : Mask
  link : DWord := 0
  /-- Address of the word that last moved the PC: TINFO of the instruction-fetch trap (R339). -/
  sent : DWord := 0
  st : FragSt := .ready
  stamp : Nat := 0
  /-- Lanes of a stalled trigger store whose trigger has its place (R232). -/
  begun : Mask := 0
  /-- The word that a fragment stalled at its source read keeps, behind its prefix where it has one (R342). -/
  kept : List DWord := []
  deriving DecidableEq, Repr

/-- A join register (R36, R182): expected and arrived masks, and when its JSET executed. -/
structure Join where
  exp : Mask := 0
  arr : Mask := 0
  ord : Nat := 0
  deriving DecidableEq, Repr

/-- How far a lane's access has come. -/
inductive PartSt where
  | issued              -- sent to its home, no translation yet
  | window              -- in an open gather window (R259)
  | walked              -- the home holds a valid translation (R361)
  | faulted (reason : Nat)  -- page fault, unfinished in the replay entry (R362)
  | queued              -- in the home's write queue (R157)
  | served              -- read, or applied, at its home; not yet returned or acknowledged
  | done                -- returned or acknowledged
  deriving DecidableEq, Repr

/-- One lane and plane of an access (R153, R155). `dat` is store data or the operand, `cmp` the compare value,
`pa` the physical key, `res` the value returned, `w` the completion time. -/
structure Part where
  lane : Nat
  plane : Nat := 0
  va : Nat := 0
  ia : Nat := 0
  size : Nat
  dat : Nat := 0
  cmp : Nat := 0
  st : PartSt := .issued
  accepted : Bool := false
  pa : Nat := 0
  res : Nat := 0
  bad : Bool := false
  w : Nat := 0
  win : Nat := 0   -- the gather window that closed over it (R260)
  deriving DecidableEq, Repr

/-- What an access in flight is. -/
inductive AccKind where
  | load | store | gather | scatter
  /-- An atomic: operation 0-7, type 0-5 (R167), with a returned value or not. -/
  | atomic (op ty : Nat) (ret comm : Bool)
  | waitm | fetch | probe
  | lds      -- scratchpad load or atomic with return: data captured at issue
  | push     -- queue element writes (R213)
  | pop      -- queue slot reads (R214)
  | qinit    -- the store of a control block (R212)
  | qblock   -- the control block of a memory queue, to be accepted before its operation (R361)
  | pref
  | unpin    -- no access: where an UNPIN that waits was issued (R269)
  /-- The acceptance of held stores or REDs, with the KIND of its record (R361, R363). -/
  | accept (kind : Nat)
  | trigger (core ch : Nat)   -- aperture store (R233)
  | snapshot                  -- vat write (R199)
  deriving DecidableEq, Repr

/-- The registers that a pending result writes: `n` registers from `num`. -/
structure Dest where
  scal : Bool := false
  num : Nat := 0
  n : Nat := 1
  deriving DecidableEq, Repr

/-- A queue operation in flight (R213-R216). -/
structure QOp where
  key : QKey
  pop : Bool
  /-- The selected lanes, ascending; a scalar form has the one entry 0. -/
  lanes : List Nat
  scal : Bool := false
  spad : Bool := false
  /-- Element data (push) or scratchpad offsets (pop under SP), one for each lane. -/
  data : List Nat := []
  /-- Poisoned 16-byte sectors of each lane's element, one bit each (R377). -/
  bads : List Nat := []
  offs : List Nat := []
  status : Nat := 64
  tm : Nat := 0
  tryForm : Bool := false
  granted : Bool := false
  seq : Nat := 0
  lesz : Nat := 3
  deriving DecidableEq, Repr

/-- An access in flight (R155, R361): which word issued it, its lanes and planes, where its value goes. -/
structure Access where
  id : Nat
  kind : AccKind
  pc : DWord
  fid : Nat
  ent : Nat := 0
  exec : Mask := 0
  parts : List Part := []
  ty : Nat := 0            -- TYPE of R52, for the extension of a loaded value
  dest : Option Dest := none
  k : Nat := 0             -- tangent planes that the access covers (R153)
  glob : Bool := true
  acq : Bool := false
  rel : Bool := false
  hint : Nat := 0
  sel : Mask := 0
  scalar : Bool := false
  q : Option QOp := none
  probeMask : Nat := 0
  probeOut : Mask := 0
  word : DWord := 0        -- the word, where it has still to retire (R213)
  recorded : Bool := false -- the fault record of this issue is written (R362)
  replay : Bool := false   -- a replay command named it (R364)
  deriving DecidableEq, Repr

/-- A pending long-latency result that needs no memory: transcendentals and MREAD (R46), with its flags. -/
structure Long where
  id : Nat
  dests : List (Bool × Nat)
  writes : List (Nat × Lanes Word)    -- (register + 128 × component, values of a vector register)
  swrites : List (Nat × Word)         -- (register + 64 × component, value)
  sel : Mask
  flags : BitVec 5
  deriving DecidableEq, Repr

/-- A BARV whose arrival waits for the accesses that were outstanding at its issue (R226). -/
structure Barv where
  bar : Nat
  bytes : Nat
  waits : List Nat
  deriving DecidableEq, Repr

/-- Per-group state (R17, R36, R41). Registers and special registers in canonical maps with default zero; component c of
vN is key N + 128 c, of sN key N + 64 c (R274). -/
structure Group where
  grp : Nat
  part : Nat
  frags : Map Frag := []
  live : Mask := 0
  vregs : Map (Lanes Word) := []
  sregs : Map Word := []
  emptyV : List Nat := []
  emptyS : List Nat := []
  badV : List Nat := []   -- poisoned lane words: register × 64 + lane (R377)
  badS : List Nat := []
  masks : Vector Mask 8 := Vector.replicate 8 0
  joins : Vector Join 8 := Vector.replicate 8 {}
  wid : Lanes DWord := Lanes.const 0
  spos : Lanes Word := Lanes.const 0
  ord : Lanes Word := Lanes.const 0
  flags : BitVec 5 := 0
  sig : Word := 0xFFFFFFFF
  accb : Nat := 0
  accl : Nat := 0
  tpc : DWord := 0
  tcode : Word := 0
  tinfo : DWord := 0
  tmask : DWord := 0
  lostj : Bool := false
  /-- The fragment that runs the trap handler (GSTAT.INTRAP). -/
  trap : Option Nat := none
  lclk : Nat := 0
  /-- The in-flight counters G, S, X, Q as the accesses counted, oldest first, with whether each has returned (R143). -/
  ctrs : Vector (List (Nat × Bool)) 4 := Vector.replicate 4 []
  accs : List Access := []
  maxw : Nat := 0
  longs : List Long := []
  pins : List Nat := []
  nextBatch : Nat := 1
  barvs : List Barv := []
  urgent : Bool := false
  retired : Nat := 0
  lastIssue : Nat := 0
  issuedAt : Option Nat := none   -- the cycle in which it last issued a word (R293)
  readySince : Nat := 0
  avail : Bool := false    -- it had a fragment that could issue in the cycle before (R293)
  atEnd : Bool := false    -- counted at the quantum end (R296)
  turn : Bool := false     -- its synchronising operation may act (R298)
  deriving DecidableEq, Repr

/-! ### Workgroups -/

/-- A barrier register (R223). -/
structure Barrier where
  phase : BitVec 16 := 0
  expm : Nat := 0
  arvm : Nat := 0
  expb : Nat := 0
  arvb : Nat := 0
  deriving DecidableEq, Repr

/-- A parked parent (R197): its slot, FIRST and N as recorded at parking, its BECOME's address, and the place of its snapshot in
the order of holding. -/
structure Parent where
  slot : Nat
  first : Nat
  n : Nat
  wid : DWord
  pc : DWord
  ord : Nat := 0
  deriving DecidableEq, Repr

/-- A level with parked parents: N′ and the next chunk to materialise (R198). -/
structure Level where
  total : Nat
  next : Nat
  parents : List Parent
  deriving DecidableEq, Repr

/-- A held store, RED, copy chunk or aperture trigger (R173, R233, R295, R297), in issue order. -/
structure Held where
  grp : Nat
  ia : Nat
  size : Nat
  dat : Nat
  /-- `none`: a store. `some (op, ty)`: a RED; `comm`: a `.COMM` one. -/
  red : Option (Nat × Nat) := none
  comm : Bool := false
  /-- The hint of the store, and that of its fill: an urgent group's counts as EL (R142). -/
  hint : Nat := 0
  fill : Nat := 0
  /-- Poisoned data of a copy (R377). -/
  bad : Bool := false
  /-- A scratchpad store (deterministic mode): `ia` is the offset. -/
  spad : Bool := false
  /-- A write of the atomic view of deterministic mode (R298), which only atomics see before the quantum end. -/
  view : Bool := false
  /-- Order of holding. -/
  ord : Nat := 0
  /-- The store instruction that it is a lane of, 0 for none: lanes that cover a sector between them write it whole (R377). -/
  store : Nat := 0
  /-- An aperture trigger: channel, trigger word, address of its store. -/
  trigger : Option (Nat × DWord × DWord) := none
  deriving DecidableEq, Repr

/-- The life of a workgroup (R32). -/
inductive Life where
  | running | draining | retiring | killed | retired
  deriving DecidableEq, Repr

/-- A placed workgroup (R20). `run` is its key; `copy` which of the runs of redundant mode it is (R300). -/
structure Workgroup where
  run : Nat
  lid : Nat
  wgx : Nat
  core : Nat
  copy : Nat := 0
  tries : Nat := 1       -- runs so far, for the limit of R380
  life : Life := .running
  groups : List Group := []
  spad : Memory := []
  spadBad : List Nat := []
  cellBase : Nat := 0
  cell : Memory := []      -- key slice × 16384 + byte offset within the allocation
  cellBad : List Nat := []
  poolBase : Nat := 0
  accum : Map Word := []   -- key row × 128 + column, rows of the core's file
  tags : Map Nat := []     -- row ↦ slot + 1 of the latest MMA
  accBad : List Nat := []
  bars : Vector Barrier 16 := Vector.replicate 16 {}
  locq : Vector (Option Nat) 16 := Vector.replicate 16 none
  binds : Vector (Option Nat) 16 := Vector.replicate 16 none
  lvl : Nat := 0
  levels : List Level := []   -- innermost first
  vatFaults : List (Nat × DWord) := []   -- pending page faults of vat snapshots, each with its parent's WID (R365)
  held : List Held := []
  heldOver : List Nat := []   -- groups whose copy's chunk waits for the hold reserve (R295)
  rolled : Bool := false
  deriving DecidableEq, Repr

/-! ### Cores -/

/-- A line of L1 or of the fetch buffer (R139, R140): valid sectors with their bytes, lease expiry, hint state. -/
structure CacheLine where
  line : Nat
  sectors : List (Nat × List Byte)
  e : Nat
  ut : Bool
  hint : Nat := 0
  stamp : Nat := 0
  /-- Lanes that this copy of a UT line serves no longer, each with the bytes that it has written since: workgroup, group, lane,
  IA, size (R147, R372). -/
  passed : List (Nat × Nat × Nat × Nat × Nat) := []
  deriving DecidableEq, Repr

/-- A trigger accepted by a copy channel (R231, R232). -/
structure Trigger where
  wg : Nat
  grp : Nat
  acc : Nat
  pc : DWord
  word : DWord
  acked : Bool := false
  deriving DecidableEq, Repr

/-- The state of a copy channel (R240). -/
inductive ChanSt where
  | idle | fetch | claim | move | signal
  deriving DecidableEq, Repr

/-- A copy channel (R232, R240): the record in use, the lines to claim, the next chunk, faults that pause it. -/
structure Channel where
  trigs : List Trigger := []
  st : ChanSt := .idle
  done : Word := 0
  record : List DWord := []
  claims : List (Nat × Nat) := []    -- destination lines with their claim time W, 0 while not claimed
  claimedW : Nat := 0
  next : Nat := 0                    -- chunks read, written and counted so far (R238)
  pending : List (Nat × List Byte × Bool) := []   -- lines of the chunk under way: address, bytes, poison
  got : List (Nat × List (Byte × Bool)) := []   -- pieces of the next chunk's source that are read: place, bytes with poison (R166)
  due : List (Nat × List Nat) := []  -- chunks written and not yet counted: bytes, lines still owned (R164, R238)
  paused : Option (Nat × Nat × Nat) := none  -- page fault: KIND, IA, reason (R368)
  order : Nat := 0                   -- age of the copy, for R166
  deriving DecidableEq, Repr

/-- A press operation (R246-R250). -/
structure PressOp where
  id : Nat
  wg : Nat
  grp : Nat
  pc : DWord
  mma : Bool            -- MMA or MZERO
  slot : Nat := 0
  row : Nat
  count : Nat := 64
  aoff : Nat := 0
  brow : Nat := 0
  k : Nat := 0
  batch : Nat := 0
  deriving DecidableEq, Repr

/-- A core's units (R7). -/
structure CoreSt where
  spadsz : Nat := 0              -- SPADSZ of the launch that last divided the core SRAM, 0 before any (R139, log 82)
  l1 : List CacheLine := []
  fetchBuf : List CacheLine := []
  window : List (Nat × Nat × Nat × Nat) := []   -- (workgroup, group, access, lanes) of the open gather window
  windowAt : Nat := 0
  chans : Vector Channel 16 := Vector.replicate 16 {}
  press : List PressOp := []
  running : Bool := false       -- the head of `press` runs
  endCyc : Nat := 0
  t6 : Nat := 0                 -- place in a T6 run (R249)
  t6At : Nat := 0               -- the cycle at which that run's last member ended
  copyWaits : List (Nat × Nat × Nat) := []   -- core, channel and age of the copies whose cellar chunk waits for the port (R242)
  lastCh : Nat := 15            -- the channel that moved the engine's last chunk (R238)
  pred : Nat := 0               -- the period of 256 cycles of the last prediction of urgency (R294)
  spent : List Nat := []        -- partitions that a workgroup used, in cycle `spentAt`, in which it left (R293)
  spentAt : Nat := 0
  deriving DecidableEq, Repr

/-! ### Homes and memory -/

/-- A request in a home's write queue (R157). -/
structure Req where
  src : Src
  w : Nat
  deriving DecidableEq, Repr

/-- An engine that can own a line (R155, R164, R166): a copy channel, or the NIC for the landing message that claimed it. -/
inductive Engine where
  | copy (core ch : Nat)
  | nic (msg : Nat)
  deriving DecidableEq, Repr

/-- A home's state for a line (R155): H, the write queue, the owner field. -/
structure Home where
  h : Nat := 0
  queue : List Req := []
  owner : Option Engine := none
  deriving DecidableEq, Repr

/-- An L2 line (R141): its slice (die × 48 + slice), physical place, valid sectors and hint state; `land`: it is in a way
reserved for landing (R319). Dirty data stands in `mem` at once; the mark says that HBM lacks it. `lost`: clean valid sectors
whose burst in HBM is lost to an error; they are poisoned when the line goes (R376). -/
structure L2Line where
  line : Nat
  pa : Nat
  slice : Nat := 0
  land : Bool := false
  valid : List Nat := []
  dirty : List Nat := []
  lost : List Nat := []
  hint : Nat := 0
  stamp : Nat := 0
  fillAt : Nat := 0
  deriving DecidableEq, Repr

/-- A message that belongs to no group's register work: see `Src.posted`. `acts` says what its acknowledgement does. -/
inductive MsgUse where
  | host | hostAtomic | complete (lid : Nat) | trace (run grp : Nat) | series | bottle (lid wgx : Nat) | save (lid : Nat) | element (q : QKey) | remote (pkg : Nat)
  deriving DecidableEq, Repr

structure Msg where
  id : Nat
  use_ : MsgUse
  part : Part
  red : Option (Nat × Nat) := none
  comm : Bool := false
  hint : Nat := 0   -- the hint of a bottled store, and that of its fill (R142)
  fill : Nat := 0
  deriving DecidableEq, Repr

/-- A queue controller's state beyond the control block (R213-R216, R374). -/
structure QCtl where
  key : QKey
  frozen : Nat := 0         -- the failed check of R373, 0 while not frozen
  pushW : List (Nat × Nat × Nat) := []   -- waiting pushes (workgroup, group, access), oldest first
  popW : List (Nat × Nat × Nat) := []
  pushes : List (Nat × Nat × Nat × Nat × Nat) := []  -- granted pushes: workgroup, group, access (or 0,0,message), first sequence, count
  pop : Option (Nat × Nat × Nat) := none
  stale : List (Nat × Nat × Nat) := []   -- pops granted before a QINIT or reinitialisation of the block (log 22)
  requeue : Bool := false   -- a QINIT store was applied: set NPUSHW and NPOPW at the next operation (R212)
  deriving DecidableEq, Repr

/-- Translation state (R136): level-1 entries, walkers' cached entries (level, index, entry), pending invalidates, and the
translations that pins hold (R135, R268): first 64 KiB page, pages, PA. An entry counts while a pin names its first page. -/
structure Xlat where
  lev1 : Map DWord := []
  cache : List (Nat × Nat × DWord) := []
  invals : List (Nat × Bool) := []
  pinned : List (Nat × Nat × Nat) := []
  deriving DecidableEq, Repr

/-! ### Launches -/

/-- The states of a launch (R289). -/
inductive Phase where
  | waiting | counting | holding | placing | running | draining | completing | recording | done
  deriving DecidableEq, Repr

/-- A launch (R286-R307): the record's 64 words as read at acceptance, and the dispatcher's state for it. -/
structure Launch where
  lid : Nat
  lq : Nat
  seq : Nat
  record : List DWord
  phase : Phase := .waiting
  ext : List Nat := []          -- extents E0-E5 in use
  next : Nat := 0               -- lowest WGX neither placed nor discarded
  redo : List (Nat × Nat) := [] -- (WGX, run of redundant mode) to place first (R300, R303, R380)
  late : List Nat := []         -- WGX rolled back by a full hold reserve: placed after every lower WGX has retired (R295)
  avoid : List (Nat × Nat × Nat) := []  -- (WGX, run, cluster) where a run was placed that others must avoid (R380, R386)
  tries : Map Nat := []         -- 4 × WGX + run ↦ how often it has been placed and rolled back (R380)
  dies : List Nat := []         -- dies whose DTIME has reached START (R291)
  status : List Nat := []       -- reasons of R306 met so far
  clamp : Bool := false
  flags : BitVec 5 := 0
  lostj : Bool := false
  tfirst : Option Nat := none
  tlast : Nat := 0
  ndone : Nat := 0
  ndisc : Nat := 0
  nkill : Nat := 0
  nroll : Nat := 0
  lowwid : Option DWord := none
  killed : List Nat := []       -- WGX killed at grace expiry
  retired : List Nat := []      -- WGX retired, of a contained launch with cohorts, which roll back whole (R380)
  drainAt : Option Nat := none  -- arrival of the request
  cancel : Bool := false
  readyAt : Nat := 0            -- when the next workgroup first failed to fit (R301)
  order : Nat := 0
  recW : Option Nat := none     -- W of the completion record's acknowledgement
  pins : List Nat := []
  runs : List (Nat × Nat × List Byte) := []  -- retired redundant runs: WGX, copy, hash
  streams : List (Nat × Nat × List Held) := []
  wrote : List Nat := []        -- sectors that the last quantum end wrote (R298)
  ending : Bool := false        -- a quantum end is under way (R296)
  victims : List Nat := []      -- launches whose pre-emption was requested to make room for this one (R301)
  bottleW : Nat := 0            -- the largest W of a bottled store that is acknowledged (R32)
  saving : Nat := 0             -- a save outside HBM: 0 not begun, 1 MAGIC cleared, 2 the lines behind the first, 3 the first (R302)
  saveBad : Bool := false       -- a store of that save met an error (R390)
  deriving DecidableEq, Repr

/-! ### The package -/

/-- PTP state (R323). -/
structure Ptp where
  offs : Word := 0
  bc : Bool := false
  ever : Bool := false
  lock : Bool := false
  ppm : Nat := 0
  faster : Bool := false
  frac : Nat := 0
  servo : Bool := false         -- started at boot step 4 (R16)
  twoStep : Bool := false
  peerDelay : Bool := false
  transport : Nat := 0          -- 0 UDP on IPv4, 1 UDP on IPv6, 2 IEEE 802.3 (R322)
  stamps : List (Nat × Nat) := []
  deriving DecidableEq, Repr

/-- What the package answers to a non-posted request of the host (R314, R374): data with its poison, Unsupported Request,
Completer Abort. -/
inductive Answer where
  | data (bytes : List Byte) (bad : Bool)
  | unsupported
  | abort
  deriving DecidableEq, Repr

/-- Registers and tables of the I/O die, the dispatcher and the service firmware (R12, R310-R321). -/
structure Dev where
  ready : Nat := 0              -- DEVINFO.RDY
  absent : BitVec 16 := 0
  pkg : BitVec 11 := 0
  sku : BitVec 8 := 0
  rev : BitVec 8 := 0
  rsvsz : Nat := 0
  reserved : List Nat := []     -- PAs at which the reserved regions of the stacks begin (R8)
  winbase : DWord := 0
  lqia : Nat := 0
  portabs : BitVec 18 := 0
  lqdom : Map Nat := []         -- launch queue ↦ domain
  counters : Map DWord := []    -- completion counters, 48 bits
  domains : Map DomainRow := []
  wanted : List (Nat × DomainRow) := []
  classifier : Map DWord := []
  unmatched : Map Nat := []
  drops : Map Nat := []
  txregs : Map DWord := []
  txturn : Map Nat := []
  sent : List (Nat × List Byte) := []
  imports : Map DWord := []     -- import windows: 4 × window + 0 source package, 1 IA, 2 size (R317)
  routed : List (Nat × Nat) := []  -- the routing table: package and the trellis port that its flits take
  allow : Map Nat := []         -- send allowances in flits: 4 × port + virtual lane (R316)
  remote : List (Nat × Answer) := []  -- answers to requests of other packages (R317)
  windows : Map DWord := []     -- mediated windows of the service firmware: 4 × window + 0 IA, 1 size, 2 permissions (R13)
  spares : List (Nat × Nat) := []
  trims : List Nat := []
  licence : Bool := false
  isolated : List Nat := []
  msix : List Nat := []
  answers : List Answer := []
  withheld : BitVec 8 := 0
  /-- Ways of every L2 slice of domain d that are taken for landing (key 2 d, R319) and for held stores (2 d + 1, R295). -/
  ways : Map Nat := []
  lqturn : Map Nat := []
  deriving DecidableEq, Repr

/-- Firmware, boot and recovery state (R13-R16, R390-R394). -/
structure Firmware where
  booted : Bool := false
  recovery : Bool := false
  step : Nat := 0
  reason : Nat := 0
  result : Nat := 0
  argReg : BitVec 24 := 0
  rdata : List Byte := List.replicate 256 0
  staging : Map (List Byte) := []   -- blocks of 256 bytes by ARG
  rootExt : List Byte := []
  config : List Byte := []
  services : Map (List Byte) := []  -- the service images in flash, by number
  measured : List Byte := []    -- the hashes of R14 items 1-3, taken at boot
  responses : List (List Byte) := []
  deriving DecidableEq, Repr

/-- The debug block and series state (R324-R333). -/
structure Debug where
  en : Bool := false
  frozen : Bool := false
  frozenAt : Nat := 0
  srec : Nat := 0
  ovf : Bool := false
  bps : Map DWord := []
  wbase : Map DWord := []
  wctl : Map DWord := []
  unfrozen : Bool := false   -- partitions may still reach a stop of their own (R328, R329)
  stops : List (List DWord) := []
  stopped : List (Nat × Nat) := []   -- the workgroup and group of each stop record
  halted : List (Nat × Nat) := []    -- the groups that stopped, those without a record included
  stepping : Option (Nat × Nat) := none   -- workgroup and group of CMD = 3
  stepFid : Option Nat := none       -- the fragment that the step runs
  stepDone : Bool := false
  stepFrom : Nat := 0      -- accesses of the step have at least this identity
  trctl : DWord := 0
  trbase : DWord := 0
  trsize : DWord := 0
  trptr : DWord := 0
  serctl : DWord := 0
  serbase : DWord := 0
  sersize : DWord := 0
  seq : Nat := 0           -- number of the next latch
  serpos : Nat := 0
  perf : Map Nat := []     -- counts since the last latch: place of the unit's record × 12 + counter (R333)
  latchCyc : Nat := 0      -- the cycle of the last latch
  deferred : List (Bool × Nat × Bool) := []   -- FAULT_RESOLVE commands given while frozen: abort, IA, 2 MiB
  deriving DecidableEq, Repr

/-- Records kept for the host (R351, R363, R381, R389). -/
structure Logs where
  faults : List (Nat × List DWord) := []   -- (domain, record)
  kills : List (List DWord) := []
  errors : List (List DWord) := []
  drops : List (Nat × Nat × Nat × List Nat) := []  -- port, NDROP, TISO, addresses
  telemetry : Map Nat := []
  training : List Nat := []     -- items that failed training: bits of ABSENT, 32 + bits of PORTABS (R16)
  unsupported : Nat := 0
  deriving DecidableEq, Repr

/-! ### The whole -/

/-- Which agent moves next (the model's own, log 1): a fragment issues its next word, an event of another agent happens
with its argument, time passes, or the machine follows its own schedule for `n` steps. -/
inductive Turn where
  | issue (wg grp ent : Nat)
  | event (i : Instr) (arg : Arg)
  | advance (ns : Nat) (skews : List Nat)
  | auto (n : Nat)
  deriving DecidableEq, Repr

/-- The fragment whose word is executing (the model's own, log 1): workgroup, group, split-table entry; `pc` the address
of the word; `dx` the prefix's count with the prefix's address; `words` those of the unit that have been fetched. -/
structure Cursor where
  wg : Nat := 0
  grp : Nat := 0
  ent : Nat := 0
  pc : DWord := 0
  dx : Option (Nat × DWord) := none
  words : List DWord := []
  deriving DecidableEq, Repr

/-- The machine's state. -/
structure State where
  agenda : List Turn
  cursor : Cursor
  arg : Arg
  fresh : Nat
  dtime : Nat
  cyc : Nat
  skews : List Nat
  ptp : Ptp
  mem : Memory
  bad : List Nat
  l2 : List L2Line
  homes : Map Home
  xlat : Xlat
  cores : Map CoreSt
  wgs : List Workgroup
  launches : List Launch
  msgs : List Msg
  queues : List QCtl
  dev : Dev
  fw : Firmware
  dbg : Debug
  logs : Logs
  deriving DecidableEq, Repr

/-- The reasons for which a step can stop the machine: none. Every failure that the spec describes is a state (a trap, a
park, a kill, a record), so no step of this model ends in a fault. -/
inductive Fault where
  deriving DecidableEq, Repr

/-- The reasons for which a step is refused. -/
inductive Refusal where
  /-- Raised by `exec` for an instruction that has no meaning yet. Safe: nothing is said of what the machine does. -/
  | notModelled (mnemonic : String)
  deriving DecidableEq, Repr

/-- The machine right after reset, before it boots (R16): nothing resident, every register of the package at the value
that spec/ states, and where it states none at zero (log 3). -/
def State.reset : State where
  agenda := []
  cursor := {}
  arg := {}
  fresh := 1
  dtime := 0
  cyc := 0
  skews := []
  ptp := {}
  mem := []
  bad := []
  l2 := []
  homes := []
  xlat := {}
  cores := []
  wgs := []
  launches := []
  msgs := []
  queues := []
  dev := {}
  fw := {}
  dbg := {}
  logs := {}

end Sys2Proof.Machine
end

