-- ==== Sys2Proof/Machine/Base.lean ====
section
/-! DEFINITION. Shared small operations: finite maps, memory bytes, masks, the fields of a launch record, and how the
parts of the state are found and put back. -/

namespace Sys2Proof

/-! ### Masks and lanes -/

/-- The mask whose bit `i` is `p i`. -/
def bitsOf (p : Nat → Bool) : (n : Nat) → BitVec n
  | 0 => 0#0
  | n + 1 => BitVec.cons (p n) (bitsOf p n)

def Mask.of (p : Nat → Bool) : Mask := bitsOf p 64

/-- The lanes of a mask, ascending. -/
def Mask.lanes (m : Mask) : List Nat := (List.range 64).filter fun i => m.getLsbD i

/-- The lowest lane of a mask, 0 for the empty mask. -/
def Mask.low (m : Mask) : Nat := (Mask.lanes m).headD 0

def Mask.count (m : Mask) : Nat := (Mask.lanes m).length

def Mask.bit (i : Nat) : Mask := Mask.of fun j => j == i

/-- The value of lane `i` replaced where `m` selects the lane. -/
def Lanes.merge {α : Type} (m : Mask) (new old : Lanes α) : Lanes α :=
  Lanes.gen fun i => if m.getLsbD i then new.at i else old.at i

end Sys2Proof

namespace Sys2Proof.Machine

/-! ### Finite maps -/

/-- The value at key `k`. -/
def Map.look {α : Type} (d : α) : Map α → Nat → α
  | [], _ => d
  | (i, v) :: t, k => if i = k then v else Map.look d t k

def Map.erase {α : Type} (m : Map α) (k : Nat) : Map α := m.filter fun p => p.1 != k

def Map.ins {α : Type} (k : Nat) (v : α) : Map α → Map α
  | [] => [(k, v)]
  | (i, x) :: t => if k < i then (k, v) :: (i, x) :: t else (i, x) :: Map.ins k v t

/-- The map with value `v` at key `k`, in canonical form. -/
def Map.put {α : Type} [DecidableEq α] (d : α) (m : Map α) (k : Nat) (v : α) : Map α :=
  if v = d then Map.erase m k else Map.ins k v (Map.erase m k)

/-- The entry at key `k`, for maps whose absent keys stand for nothing. -/
def Map.get? {α : Type} : Map α → Nat → Option α
  | [], _ => none
  | (i, v) :: t, k => if i = k then some v else Map.get? t k

/-- The map with entry `v` at key `k`. -/
def Map.set {α : Type} (m : Map α) (k : Nat) (v : α) : Map α := Map.ins k v (Map.erase m k)

/-- Keys rise strictly and no entry holds the default. -/
def Map.wf {α : Type} [DecidableEq α] (d : α) : Map α → Bool
  | [] => true
  | [(_, v)] => decide (v ≠ d)
  | (i, v) :: (j, w) :: t => decide (i < j) && decide (v ≠ d) && Map.wf d ((j, w) :: t)

/-! ### Memory (log 2) -/

/-- What a byte that nothing has written reads as (log 2). -/
def Memory.fill : Byte := 0

def Memory.byte (m : Memory) (a : Nat) : Byte := Map.look Memory.fill m a

def Memory.setByte (m : Memory) (a : Nat) (b : Byte) : Memory := Map.put Memory.fill m a b

/-- `n` bytes from address `a`, ascending. -/
def Memory.read (m : Memory) (a : Nat) : Nat → List Byte
  | 0 => []
  | n + 1 => Memory.byte m a :: Memory.read m (a + 1) n

def Memory.write (m : Memory) (a : Nat) : List Byte → Memory
  | [] => m
  | b :: t => Memory.write (Memory.setByte m a b) (a + 1) t

/-- The little-endian value of `n` bytes (R2). -/
def Memory.le (m : Memory) (a n : Nat) : Nat := leNat (Memory.read m a n)

def Memory.setLe (m : Memory) (a n v : Nat) : Memory := Memory.write m a (leBytes n v)

/-- The canonical form of a memory. -/
def Memory.wf (m : Memory) : Bool := Map.wf Memory.fill m

/-- A number as a signed value of `w` bits. -/
def signed (w n : Nat) : Int := if n % 2 ^ w < 2 ^ (w - 1) then (n % 2 ^ w : Nat) else (n % 2 ^ w : Nat) - (2 ^ w : Nat)

/-- A list with the first element that satisfies `p` replaced. -/
def replaceFirst {α : Type} (p : α → Bool) (f : α → α) : List α → List α
  | [] => []
  | x :: t => if p x then f x :: t else x :: replaceFirst p f t

/-- The elements of `a` and those of `b` that `a` lacks. -/
def union (a b : List Nat) : List Nat := b.foldl (fun a x => if a.contains x then a else a ++ [x]) a

/-- Insertion sort. -/
def sortBy {α : Type} (le : α → α → Bool) (l : List α) : List α := l.foldr ins []
where
  ins (x : α) : List α → List α
    | [] => [x]
    | y :: t => if le x y then x :: y :: t else y :: ins x t

/-! ### The launch record (R286) -/

/-- Bits [lo + n - 1 : lo] of the record's word at byte offset `off`. -/
def Launch.bits (l : Launch) (off lo n : Nat) : Nat := ((l.record.getD (off / 8) 0).extractLsb' lo n).toNat

def Launch.word (l : Launch) (off : Nat) : DWord := l.record.getD (off / 8) 0

def Launch.vregs (l : Launch) : Nat := l.bits 0x190 0 8
def Launch.sregs (l : Launch) : Nat := l.bits 0x190 8 8
def Launch.spadsz (l : Launch) : Nat := l.bits 0x190 16 3
def Launch.arows (l : Launch) : Nat := 64 * l.bits 0x190 24 4
def Launch.spad (l : Launch) : Nat := l.bits 0x190 32 19
def Launch.cell (l : Launch) : Nat := l.bits 0x190 56 5
def Launch.ktan (l : Launch) : Nat := l.bits 0x198 12 3
def Launch.cont (l : Launch) : Bool := (l.word 0x198).getLsbD 0
def Launch.det (l : Launch) : Bool := (l.word 0x198).getLsbD 1
def Launch.redn (l : Launch) : Bool := (l.word 0x198).getLsbD 2
def Launch.lat (l : Launch) : Bool := (l.word 0x198).getLsbD 3
def Launch.resume (l : Launch) : Bool := (l.word 0x198).getLsbD 4
def Launch.dom (l : Launch) : Nat := l.bits 0x198 8 3
def Launch.depth (l : Launch) : Nat := l.bits 0x198 16 3
def Launch.lease (l : Launch) : Nat := let n := l.bits 0x198 32 32; if n == 0 then 2000 else n
def Launch.quantum (l : Launch) : Nat := l.bits 0x1A0 0 17
def Launch.hold (l : Launch) : Nat := l.bits 0x1A0 32 32
def Launch.grace (l : Launch) : Nat := let n := l.bits 0x1D8 0 32; if n == 0 then 100000 else n
def Launch.entry (l : Launch) : DWord := l.word 0x140
def Launch.trapv (l : Launch) : DWord := l.word 0x148
def Launch.argp (l : Launch) : DWord := l.word 0x150
def Launch.ttab (l : Launch) : Nat := (l.word 0x158).toNat
def Launch.ntpl (l : Launch) : Nat := l.bits 0x160 32 9
def Launch.widths (l : Launch) : Word := (l.word 0x160).setWidth 29 |>.setWidth 32
/-- w0-w5 (R22). -/
def Launch.width (l : Launch) (k : Nat) : Nat := if k == 0 then l.bits 0x160 0 4 else l.bits 0x160 (5 * k - 1) 5
/-- The extents E0-E5 of the record (R21). -/
def Launch.extents (l : Launch) : List Nat :=
  [l.bits 0x168 0 32, l.bits 0x168 32 32, l.bits 0x170 0 32, l.bits 0x170 32 32, l.bits 0x178 0 32, l.bits 0x178 32 32]
def Launch.icnt (l : Launch) : Nat := (l.word 0x180).toNat
def Launch.vatsz (l : Launch) : Nat := l.bits 0x188 32 32
def Launch.maxwg (l : Launch) : Nat := l.bits 0x188 0 32
def Launch.crec (l : Launch) : Nat := (l.word 0x1A8).toNat
def Launch.vat (l : Launch) : Nat := (l.word 0x1B0).toNat
def Launch.save (l : Launch) : Nat := (l.word 0x1B8).toNat
def Launch.tplane (l : Launch) : DWord := l.word 0x1C0
def Launch.splane (l : Launch) : Nat := l.bits 0x1C8 0 32
def Launch.cplane (l : Launch) : Nat := l.bits 0x1C8 32 32
def Launch.start (l : Launch) : Nat := (l.word 0x1D0).toNat
/-- NG = ⌈E0 / 64⌉ (R20). -/
def Launch.ng (l : Launch) : Nat := (l.bits 0x168 0 32 + 63) / 64
/-- The extent in use of field k (R21, R26). -/
def Launch.extent (l : Launch) (k : Nat) : Nat := l.ext.getD k 1
/-- The number of workgroups within the extents (R23). -/
def Launch.total (l : Launch) : Nat := l.extent 1 * l.extent 2 * l.extent 3 * l.extent 4 * l.extent 5
/-- The WID of the thread at position `pos` of a workgroup at dispatch (R21, R23). -/
def Launch.widOf (l : Launch) (wgx pos : Nat) : DWord :=
  let f := [1, 2, 3, 4, 5].foldl (fun (x : Nat × Nat × Nat) k =>
    (x.1 + x.2.1 % l.extent k * 2 ^ x.2.2, x.2.1 / l.extent k, x.2.2 + l.width k)) (pos, wgx, l.width 0)
  BitVec.ofNat 64 f.1
/-- The class of a launch queue (R287). -/
def Launch.cls (l : Launch) : Nat := l.lq / 16
/-- Whether global stores are held (R173, R295, R297). -/
def Launch.holds (l : Launch) : Bool := l.cont || l.redn || l.det
/-- Format slot n (R111). -/
def Launch.slot (l : Launch) (n : Nat) : DWord := l.word (0x100 + 8 * n)

/-- A range register (R131). -/
structure Range where
  base : Nat
  size : Nat
  ia : Nat
  attr : Nat
  deriving DecidableEq, Repr

def Range.r (x : Range) : Bool := x.attr.testBit 0
def Range.w (x : Range) : Bool := x.attr.testBit 1
def Range.x (x : Range) : Bool := x.attr.testBit 2
def Range.ms (x : Range) : Bool := x.attr.testBit 3
def Range.ut (x : Range) : Bool := x.attr.testBit 4
def Range.pin (x : Range) : Bool := x.attr.testBit 5

def Launch.range (l : Launch) (i : Nat) : Range :=
  { base := (l.word (32 * i)).toNat, size := (l.word (32 * i + 8)).toNat, ia := (l.word (32 * i + 16)).toNat
    attr := (l.word (32 * i + 24)).toNat }

def Launch.ranges (l : Launch) : List Range := (List.range 8).map l.range |>.filter fun x => x.size != 0

/-- The range that holds a VA (R132). -/
def Launch.rangeOf (l : Launch) (va : Nat) : Option Range :=
  l.ranges.find? fun x => decide (x.base ≤ va) && decide (va < x.base + x.size)

def Range.iaOf (x : Range) (va : Nat) : Nat := x.ia + (va - x.base)

/-- The IA of a VA, 0 for one in no range. -/
def Launch.iaOf (l : Launch) (va : Nat) : Nat := match l.rangeOf va with | some x => x.iaOf va | none => 0

/-! ### Regions (R134) -/

inductive Region where
  | hbm | tier2 | package | host | none
  deriving DecidableEq, Repr

def region (ia : Nat) : Region :=
  if ia < 0x80_0000_0000 then .hbm
  else if 0x1000_0000_0000 ≤ ia ∧ ia < 0x1C00_0000_0000 then .tier2
  else if 0x4_0000_0000_0000 ≤ ia ∧ ia < 0x8_0000_0000_0000 then .package
  else if 0x8_0000_0000_0000 ≤ ia ∧ ia < 0x10_0000_0000_0000 then .host
  else .none

/-! ### Finding and putting back -/

def State.wg? (s : State) (run : Nat) : Option Workgroup := s.wgs.find? fun w => w.run == run

def State.putWg (s : State) (w : Workgroup) : State :=
  { s with wgs := s.wgs.map fun x => if x.run == w.run then w else x }

/-- A pre-emption request has reached the workgroup's core: GSTAT.PEND (R33, R44). -/
def Workgroup.pend (w : Workgroup) : Bool := w.life == .draining

def Workgroup.group? (w : Workgroup) (grp : Nat) : Option Group := w.groups.find? fun g => g.grp == grp

def Workgroup.putGroup (w : Workgroup) (g : Group) : Workgroup :=
  { w with groups := w.groups.map fun x => if x.grp == g.grp then g else x }

def State.launch? (s : State) (lid : Nat) : Option Launch := s.launches.find? fun l => l.lid == lid

def State.putLaunch (s : State) (l : Launch) : State :=
  { s with launches := s.launches.map fun x => if x.lid == l.lid then l else x }

def State.group? (s : State) (run grp : Nat) : Option Group := (s.wg? run).bind (·.group? grp)

def State.putGroup (s : State) (run : Nat) (g : Group) : State :=
  match s.wg? run with
  | some w => s.putWg (w.putGroup g)
  | none => s

/-- The workgroup `run` changed by `f`. -/
def State.onWg (s : State) (run : Nat) (f : Workgroup → Workgroup) : State :=
  { s with wgs := s.wgs.map fun w => if w.run == run then f w else w }

/-- The group changed by `f`. -/
def State.onGroup (s : State) (run grp : Nat) (f : Group → Group) : State :=
  s.onWg run fun w => { w with groups := w.groups.map fun g => if g.grp == grp then f g else g }

def State.onLaunch (s : State) (lid : Nat) (f : Launch → Launch) : State :=
  { s with launches := s.launches.map fun l => if l.lid == lid then f l else l }

def State.core (s : State) (c : Nat) : CoreSt := Map.look {} s.cores c
def State.setCore (s : State) (c : Nat) (x : CoreSt) : State := { s with cores := Map.put {} s.cores c x }
def State.home (s : State) (line : Nat) : Home := Map.look {} s.homes line
def State.setHome (s : State) (line : Nat) (h : Home) : State := { s with homes := Map.put {} s.homes line h }
def State.onCore (s : State) (c : Nat) (f : CoreSt → CoreSt) : State := s.setCore c (f (s.core c))
def State.onHome (s : State) (line : Nat) (f : Home → Home) : State := s.setHome line (f (s.home line))

def Group.frag? (g : Group) (ent : Nat) : Option Frag := Map.get? g.frags ent
def Group.putFrag (g : Group) (ent : Nat) (f : Frag) : Group := { g with frags := Map.set g.frags ent f }

/-- A fresh identity number (the model's own, log 1). -/
def State.new (s : State) : Nat × State := (s.fresh, { s with fresh := s.fresh + 1 })

/-- The service firmware runs: the boot has passed step 3, which verifies its image, and the device is not in recovery mode
(R16). -/
def State.serviceRuns (s : State) : Bool := !s.fw.recovery && decide (3 ≤ s.dev.ready)

/-- Units may still act after the first stop: fewer than 300 ns have passed (R328, log 9). -/
def Debug.late (d : Debug) (now : Nat) : Bool := d.unfrozen && decide (now < d.frozenAt + 300)

/-- A freeze holds the homes, base dies and queue controllers: they accept no request (R328). -/
def State.homesHold (s : State) : Bool := s.dbg.frozen && !s.dbg.late s.dtime

/-- An answer to the host. -/
def State.answer (s : State) (a : Answer) : State := { s with dev := { s.dev with answers := s.dev.answers ++ [a] } }

/-! ### Position and clocks -/

def coreDie (c : Nat) : Nat := c / 144
def coreClu (c : Nat) : Nat := c % 144 / 12
def coreIdx (c : Nat) : Nat := c % 12

/-- DTIME on die `d`'s clock (R156, log 4). -/
def State.now (s : State) (d : Nat) : Nat := (s.dtime + s.skews.getD d 0) % 2 ^ 64

/-! ### Queue of a domain's homes (R138) -/

/-! ### The series counters (R333, log 49) -/

/-- `n` more at counter `i` of the unit whose record stands at place `unit` of a latch. -/
def State.perfUnit (s : State) (unit i n : Nat) : State :=
  { s with dbg := { s.dbg with perf := Map.put 0 s.dbg.perf (12 * unit + i) (Map.look 0 s.dbg.perf (12 * unit + i) + n) } }

/-- The places of a core, an L2 slice (die × 48 + slice), an HBM stack and a port. -/
def coreUnit (core : Nat) : Nat := 192 * (core / 144) + core % 144
def sliceUnit (slice : Nat) : Nat := 192 * (slice / 48) + 144 + slice % 48
def stackUnit (stack : Nat) : Nat := 768 + stack % 8
def portUnit (port : Nat) : Nat := 776 + port

def State.perf (s : State) (core i n : Nat) : State := s.perfUnit (coreUnit core) i n
def State.perfSlice (s : State) (slice i n : Nat) : State := s.perfUnit (sliceUnit slice) i n
/-- A counter of the stack that a PA names. -/
def State.perfStack (s : State) (pa i n : Nat) : State := s.perfUnit (stackUnit (pa / 2 ^ 36)) i n
/-- The stack whose walker serves an IA: that of IA [23:21], or the lowest present one above it, counting on from 7 to 0
(R136, R312). -/
def State.walker (s : State) (ia : Nat) : Nat :=
  (((List.range 8).map fun i => (ia / 2 ^ 21 + i) % 8).find? fun k => !s.dev.absent.getLsbD (8 + k)).getD (ia / 2 ^ 21 % 8)

/-- A counter of the stack whose walker serves an IA. -/
def State.perfWalker (s : State) (ia i : Nat) : State := s.perfUnit (stackUnit (s.walker ia)) i 1

/-- The home slice of an IA's line among the `n` slices of a domain. -/
def homeIndex (ia n : Nat) : Nat :=
  let x := ia / 128
  ((x % 65536) ^^^ (x / 65536 % 65536) ^^^ (x / 2 ^ 32 % 8192)) % n

/-- The die of the home of an IA for a domain's slices, die × 48 + slice; 0 where no slice is listed. -/
def homeDie (slices : List Nat) (ia : Nat) : Nat :=
  if slices.length == 0 then 0 else slices.getD (homeIndex ia slices.length) 0 / 48

end Sys2Proof.Machine
end

