-- ==== Sys2Proof/Machine/Memory.lean ====
section
/-! DEFINITION. The memory side: translation of IAs (spec/07_memory.md R136, R137), where bytes lie, poison of sectors
(spec/20_reliability.md R377), the lines of L2, and what each core's L1 holds. -/

namespace Sys2Proof.Machine

/-! ### Translation (R136, R137) -/

/-- The layout of R137 holds for an entry of level 1 or 2. -/
def entryOk (level : Nat) (e : DWord) : Bool :=
  e.extractLsb' 39 25 == 0 && e.extractLsb' 2 6 == 0 &&
    (if level == 1 then !e.getLsbD 1 || e.extractLsb' 8 13 == 0 else !e.getLsbD 1 && e.extractLsb' 8 8 == 0)

/-- ADDR of an entry: PA bits [38:8]. -/
def entryAddr (e : DWord) : Nat := (e.extractLsb' 8 31).toNat * 256

/-- The entry that a walker sees: a cached one where `cached` and it holds one, else the table's. -/
def State.entry (s : State) (cached : Bool) (level idx : Nat) (table : DWord) : DWord :=
  match (if cached then s.xlat.cache.find? fun x => x.1 == level && x.2.1 == idx else none) with
  | some x => x.2.2
  | none => table

/-- A pin names page `p`: of a launch, or of a group (R268). -/
def State.pinHeld (s : State) (p : Nat) : Bool :=
  s.launches.any (fun l => l.pins.contains p) || s.wgs.any fun w => w.groups.any fun g => g.pins.contains p

/-- The held translation that covers an IA: its first page and the PA of the IA. -/
def State.pinnedAt (s : State) (ia : Nat) : Option (Nat × Nat) :=
  (s.xlat.pinned.find? fun x => decide (x.1 ≤ ia / 65536) && decide (ia / 65536 < x.1 + x.2.1) && s.pinHeld x.1).map fun x =>
    (x.1, x.2.2 + (ia - 65536 * x.1))

/-- The entries of both levels that a walk of the table reads for an HBM IA. -/
def State.walkEntries (s : State) (cached : Bool) (ia : Nat) : DWord × DWord :=
  let e1 := s.entry cached 1 (ia / 2 ^ 21) (Map.look 0 s.xlat.lev1 (ia / 2 ^ 21))
  (e1, s.entry cached 2 (ia / 65536) (BitVec.ofNat 64 (s.mem.le (entryAddr e1 + 8 * (ia / 65536 % 32)) 8)))

/-- A walk for an HBM IA: the PA, or the reason of the page fault (1 level 1, 2 level 2, 3 malformed; R363). A pinned
page keeps its translation (R135, R268). -/
def State.walk (s : State) (cached : Bool) (ia : Nat) : Except Nat Nat :=
  match s.pinnedAt ia with
  | some x => .ok x.2
  | none =>
    let (e1, e2) := s.walkEntries cached ia
    if !e1.getLsbD 0 then .error 1
    else if !entryOk 1 e1 then .error 3
    else if e1.getLsbD 1 then .ok (entryAddr e1 + ia % 2 ^ 21)
    else if !e2.getLsbD 0 then .error 2
    else if !entryOk 2 e2 then .error 3
    else .ok (entryAddr e2 + ia % 65536)

/-- A page by its first 64 KiB of IA, as a walk gives it: a 2 MiB page counts once, and where no level-1 entry is valid
the page counts as one of 64 KiB (log 83). -/
def State.pageOf (s : State) (ia : Nat) (cached : Bool := false) : Nat :=
  match s.pinnedAt ia with
  | some x => x.1
  | none => let e := (s.walkEntries cached ia).1; if e.getLsbD 0 && e.getLsbD 1 then ia / 2 ^ 21 * 32 else ia / 65536

/-- The translation of a page that is about to be pinned, held as the walk gave it. -/
def State.pinPage (s : State) (cached : Bool) (ia : Nat) : State :=
  match s.pinnedAt ia, s.walk cached ia with
  | none, .ok pa =>
    let e := (s.walkEntries cached ia).1
    let n := if e.getLsbD 1 then 32 else 1
    let first := ia / 65536 / n * n
    { s with xlat := { s.xlat with
        pinned := s.xlat.pinned.filter (fun x => x.1 != first) ++ [(first, n, pa - (ia - 65536 * first))] } }
  | _, _ => s

/-- The IA of a PA in a stack's reserved region: the regions take the top of the HBM region in ascending stack (R8,
log 84). -/
def State.reservedIa (s : State) (pa : Nat) : Option Nat :=
  let n := s.dev.rsvsz * 2 ^ 21
  (s.dev.reserved.zipIdx.find? fun x => decide (x.1 ≤ pa) && decide (pa < x.1 + n)).map fun x => 2 ^ 39 - 8 * n + x.2 * n + (pa - x.1)

/-- The PA of a reserved IA. -/
def State.reservedPa (s : State) (ia : Nat) : Option Nat :=
  let n := s.dev.rsvsz * 2 ^ 21
  if decide (2 ^ 39 ≤ ia + 8 * n) && decide (ia < 2 ^ 39) then
    (s.dev.reserved[(ia + 8 * n - 2 ^ 39) / n]?).map fun r => r + (ia + 8 * n - 2 ^ 39) % n
  else none

/-- The region of an IA as the package stands: the reserved IAs of R8 belong to none (R134). -/
def State.regionAt (s : State) (ia : Nat) : Region :=
  if decide (2 ^ 39 ≤ ia + 8 * s.dev.rsvsz * 2 ^ 21) && decide (ia < 2 ^ 39) then .none else region ia

/-! ### L2 lines (R141) -/

def State.l2? (s : State) (line : Nat) : Option L2Line := s.l2.find? fun x => x.line == line

/-- The PA of an HBM IA: that of its line in L2, else what a walk gives, else, while the entry's invalidate is still to
complete, what a walker's cached entry gives (R136). Until then a translation may use the old entry or the new one: for a
line that L2 does not hold the model takes the new one where it is valid (log 99). -/
def State.place (s : State) (ia : Nat) : Option Nat :=
  match s.l2? (ia / 128) with
  | some x => some (x.pa + ia % 128)
  | none => match s.reservedPa ia, s.walk false ia with
    | some pa, _ | none, .ok pa => some pa
    | none, .error _ => match s.walk true ia with | .ok pa => some pa | .error _ => none

/-- The key in memory of an IA: its PA for HBM, the IA itself elsewhere. An HBM IA with no valid translation has a key of
its own that nothing else reaches. -/
def State.key (s : State) (ia : Nat) : Nat :=
  match region ia with
  | .hbm => (s.place ia).getD (2 ^ 60 + ia)
  | _ => ia

/-! ### Bytes and poison -/

/-- The sectors of 16 bytes that `n` bytes from key `k` touch. -/
def sectorsOf (k n : Nat) : List Nat := (List.range ((k % 16 + n + 15) / 16)).map fun i => k / 16 + i

/-- Sectors of a line that `n` bytes at `ia` touch. -/
def lineSectors (ia n : Nat) : List Nat := (sectorsOf ia n).map (· % 8)

/-- The sectors that several writes, each an address and a size, cover whole between them. -/
def coveredSectors (ws : List (Nat × Nat)) : List Nat :=
  (ws.flatMap fun x => sectorsOf x.1 x.2).eraseDups.filter fun k =>
    (List.range 16).all fun i => ws.any fun x => decide (x.1 ≤ 16 * k + i) && decide (16 * k + i < x.1 + x.2)

/-- Poison after writing `n` bytes at `k`: a sector written whole takes `poison`, one written in part keeps its own or
becomes poisoned (R377). -/
def writePoison (bad : List Nat) (k n : Nat) (poison : Bool) : List Nat :=
  (sectorsOf k n).foldl (fun b x =>
    if poison then (if b.contains x then b else b ++ [x])
    else if k ≤ 16 * x ∧ 16 * x + 16 ≤ k + n then b.filter (· != x) else b) bad

def isPoisoned (bad : List Nat) (k n : Nat) : Bool := (sectorsOf k n).any bad.contains

/-- `n` bytes at IA `ia`, within one page. -/
def State.readIA (s : State) (ia n : Nat) : List Byte := s.mem.read (s.key ia) n

def State.badIA (s : State) (ia n : Nat) : Bool := isPoisoned s.bad (s.key ia) n

/-- Bytes written at IA `ia`, within one page. -/
def State.writeIA (s : State) (ia : Nat) (bs : List Byte) (poison : Bool := false) : State :=
  let k := s.key ia
  { s with mem := s.mem.write k bs, bad := writePoison s.bad k bs.length poison }

def State.leIA (s : State) (ia n : Nat) : Nat := leNat (s.readIA ia n)

/-! ### L1 and the fetch buffer (R139, R140, R142) -/

/-- The live line of a list that holds a sector. -/
def cacheHit (ls : List CacheLine) (now ia : Nat) : Option (List Byte) :=
  match ls.find? fun x => x.line == ia / 128 && (x.ut || decide (now < x.e)) with
  | some x => (x.sectors.find? fun y => y.1 == ia / 16 % 8).map (·.2)
  | none => none

/-- Sets of L1: one for each KiB of the core's 512 KiB that is no scratchpad (R139). -/
def l1Sets (spadsz : Nat) : Nat := 512 - 64 * spadsz

/-- The victim among the valid lines of a set, as (line, hint, stamp), by R142: the least recently used EF line, else
normal, else EL. -/
def victim (set : List (Nat × Nat × Nat)) : Option Nat :=
  let best (h : Nat) := (set.filter fun x => x.2.1 == h).foldl
    (fun (b : Option (Nat × Nat × Nat)) x => match b with | none => some x | some y => if x.2.2 < y.2.2 then some x else b) none
  let v := match best 1 with
    | some x => some x
    | none => match best 0 with
      | some x => some x
      | none => best 2
  v.map fun x => x.1

/-- A fill of one sector: a live line keeps its other sectors and extends its lease (R140), and a UT line every sector that it
holds, since a copy goes by eviction or an acquire alone (R372); lines of the set whose lease has
ended are invalid ways, which are taken before any valid line (R142). Answers the lines, and those that left: dead lines of
the set, and the valid line that a full set had to give up. -/
def cacheFill (ls : List CacheLine) (sets now ia : Nat) (bs : List Byte) (e : Nat) (ut : Bool) (hint stamp : Nat) :
    List CacheLine × List Nat :=
  let line := ia / 128
  let sec := ia / 16 % 8
  let sameSet (x : CacheLine) : Bool := x.line == line || (sets != 0 && x.line % sets == line % sets)
  match ls.find? fun x => x.line == line && (x.ut || decide (now < x.e)) with
  | some x =>
    let y : CacheLine := { x with
      sectors := if x.ut && (Map.get? x.sectors sec).isSome then x.sectors else Map.set x.sectors sec bs, e := max x.e e, hint := max x.hint hint, stamp }
    (ls.map fun z => if z.line == line then y else z, [])
  | none =>
    let dead (x : CacheLine) : Bool := sameSet x && !(x.ut || decide (now < x.e))
    let gone := (ls.filter dead).map (·.line)
    let ls := ls.filter fun x => !dead x
    let y : CacheLine := { line, sectors := [(sec, bs)], e, ut, hint, stamp }
    let set := ls.filter sameSet
    if sets == 0 || decide (set.length < 8) then (ls ++ [y], gone)
    else match victim (set.map fun x => (x.line, x.hint, x.stamp)) with
      | some v => (ls.filter (fun x => x.line != v) ++ [y], gone ++ [v])
      | none => (ls ++ [y], gone)

/-- A store updates the valid sectors of the core's L1 that it covers (R140). -/
def cacheStore (ls : List CacheLine) (now ia : Nat) (bs : List Byte) : List CacheLine :=
  ls.map fun x =>
    if x.line == ia / 128 && (x.ut || decide (now < x.e)) then
      { x with sectors := x.sectors.map fun y =>
          (y.1, (List.range 16).map fun i =>
            let a := 16 * (8 * x.line + y.1) + i
            if ia ≤ a ∧ a < ia + bs.length then bs.getD (a - ia) 0 else y.2.getD i 0) }
    else x

/-- An acquire drops every UT line of the core's L1 and fetch buffer (R135, R139, R163). -/
def State.dropUt (s : State) (core : Nat) : State :=
  s.onCore core fun c => { c with l1 := c.l1.filter (!·.ut), fetchBuf := c.fetchBuf.filter (!·.ut) }

/-- A lane's write is acknowledged that left `bs` at `ia`: where its core's L1 holds a copy of a UT line with other bytes there,
the copy stays (R372), and serves the lane no longer, which reads its own write or a later value (R147, log 85). -/
def State.passOld (s : State) (core run grp lane ia : Nat) (bs : List Byte) : State :=
  let differs (x : CacheLine) : Bool := (List.range bs.length).any fun i =>
    decide ((ia + i) / 128 = x.line) && (match Map.get? x.sectors ((ia + i) / 16 % 8) with
      | some y => y.getD ((ia + i) % 16) 0 != bs.getD i 0
      | none => false)
  let own := (run, grp, lane, ia, bs.length)
  let mark (x : CacheLine) : CacheLine := if x.ut && differs x then { x with passed := x.passed.filter (· != own) ++ [own] } else x
  s.onCore core fun c => { c with l1 := c.l1.map mark }

/-- The core's L1 copy may not serve these bytes to the lane. -/
def CoreSt.passes (c : CoreSt) (run grp lane ia n : Nat) : Bool :=
  c.l1.any fun x => x.passed.any fun y =>
    y.1 == run && y.2.1 == grp && y.2.2.1 == lane && decide (y.2.2.2.1 < ia + n) && decide (ia < y.2.2.2.1 + y.2.2.2.2)

/-- Bytes written at a PA of HBM. -/
def State.writePa (s : State) (pa : Nat) (bs : List Byte) : State :=
  { s with mem := s.mem.write pa bs, bad := writePoison s.bad pa bs.length false }

/-- The PA of a launch queue's alternate save area: one lies behind the other (R390, log 37). -/
def altPa (lq : Nat) : Nat := (64 * Config.altArea + 40960 * lq) % 2 ^ 39

/-- The core SRAM is divided anew where a launch brings another SPADSZ: L1 starts empty (R139, log 82). -/
def State.divide (s : State) (core spadsz : Nat) : State :=
  s.onCore core fun c => if c.spadsz == spadsz then c else { c with spadsz, l1 := [] }

end Sys2Proof.Machine
end

