-- ==== Sys2Proof/Machine/Blocks.lean ====
section
/-! DEFINITION. Queue control blocks (spec/11_queues.md R203-R206) and their checks (spec/19_memfaults.md R373, R374). -/

namespace Sys2Proof.Machine

/-- One byte into a CRC-16 with polynomial 0x1021, no reflection (R205). -/
def crc16Byte (c : Nat) (b : Byte) : Nat :=
  (List.range 8).foldl (fun c _ => if c.testBit 15 then (c * 2 % 65536) ^^^ 0x1021 else c * 2 % 65536)
    (c ^^^ (b.toNat * 256))

/-- CHK: the CRC-16 of CFG and BASE in memory order (R205). -/
def crc16 (bs : List Byte) : Nat := bs.foldl crc16Byte 0xFFFF

/-- A control block (R203): the fields at offsets 0x00 to 0x38, and whether 0x3A-0x7F hold only zero. -/
structure QBlock where
  head : Nat
  tail : Nat
  resv : Nat
  cfg : Nat
  base : Nat
  free : Nat
  wait : Nat
  chk : Nat
  zero : Bool := true
  deriving DecidableEq, Repr

def QBlock.lslot (b : QBlock) : Nat := b.cfg % 32
def QBlock.lesz (b : QBlock) : Nat := b.cfg / 256 % 16
def QBlock.slots (b : QBlock) : Nat := 2 ^ b.lslot
def QBlock.esz (b : QBlock) : Nat := 2 ^ b.lesz
def QBlock.wide (b : QBlock) : Bool := b.cfg.testBit 16
def QBlock.npushw (b : QBlock) : Nat := b.wait % 65536
def QBlock.npopw (b : QBlock) : Nat := b.wait / 65536 % 65536
def QBlock.ppend (b : QBlock) : Bool := b.wait.testBit 63
/-- The address of element `n` (R206). -/
def QBlock.slot (b : QBlock) (n : Nat) : Nat := b.base + n % b.slots * b.esz

def QBlock.ofBytes (bs : List Byte) : QBlock :=
  let w (i : Nat) : Nat := leNat ((bs.drop (8 * i)).take 8)
  { head := w 0, tail := w 1, resv := w 2, cfg := w 3, base := w 4, free := w 5, wait := w 6
    chk := leNat ((bs.drop 0x38).take 2), zero := (bs.drop 0x3A).all (· == 0) }

/-- The bytes of a block whose reserved bytes are zero. -/
def QBlock.bytes (b : QBlock) : List Byte :=
  leBytes 8 b.head ++ leBytes 8 b.tail ++ leBytes 8 b.resv ++ leBytes 8 b.cfg ++ leBytes 8 b.base ++ leBytes 8 b.free
    ++ leBytes 8 b.wait ++ leBytes 2 b.chk ++ List.replicate 70 0

/-- FREE by its definition (R203). -/
def QBlock.refree (b : QBlock) : QBlock := { b with free := (b.slots + b.head - b.resv) % 2 ^ 64 }

/-- FREE after `n` elements have left the queue; what a plain store left there is not repaired (R203). -/
def QBlock.addFree (b : QBlock) (n : Nat) : QBlock := { b with free := (b.free + n) % 2 ^ 64 }

/-- NPUSHW and NPOPW set; the bits above them are kept. -/
def QBlock.setWaiters (b : QBlock) (npush npop : Nat) : QBlock :=
  { b with wait := b.wait / 2 ^ 32 * 2 ^ 32 + min npush 0xFFFF + min npop 0xFFFF * 65536 }

/-- The block that QINIT writes (R212). -/
def QBlock.fresh (cfg base : Nat) : QBlock :=
  { head := 0, tail := 0, resv := 0, cfg, base, free := 2 ^ (cfg % 32), wait := 0
    chk := crc16 (leBytes 8 cfg ++ leBytes 8 base) }

/-- CFG of a queue of this kind and place (R204). -/
def cfgOf (lslot lesz : Nat) (loc wide : Bool) (home : Nat) : Nat :=
  lslot + lesz * 256 + (if wide then 2 ^ 16 else 0) + (if loc then 2 ^ 17 else 0) + home * 2 ^ 32

/-- What the controller knows of a queue's kind and place, for check 5: LOC, HOME and WIDE as they should be, SPAD of the
workgroup for a local queue. -/
structure QPlace where
  loc : Bool
  home : Nat
  wide : Bool
  spad : Nat := 0
  deriving DecidableEq, Repr

/-- The lowest check of R373 that a block fails, 0 for none. `poison` is a poisoned block: code 7 (R377). -/
def QBlock.check (b : QBlock) (p : QPlace) (poison : Bool) : Nat :=
  if b.tail < b.head then 1
  else if b.resv < b.tail then 2
  else if b.slots < b.resv - b.head then 3
  else if b.free != b.slots - (b.resv - b.head) then 4
  else if b.lslot < 1 ∨ 16 < b.lslot ∨ b.lesz < 3 ∨ 10 < b.lesz
      ∨ b.cfg != cfgOf b.lslot b.lesz p.loc p.wide p.home then 5
  else if b.base % 128 != 0 ∨ (p.loc ∧ p.spad < b.base + b.slots * b.esz) then 6
  else if poison || b.chk != crc16 (leBytes 8 b.cfg ++ leBytes 8 b.base) then 7
  else if b.wait / 2 ^ 32 % 2 ^ 31 != 0 || !b.zero then 8
  else 0

/-! ### Where a queue's block lies -/

/-- The workgroup of a local queue and the offset of its block. -/
def State.locBlock (s : State) (wg n : Nat) : Option (Workgroup × Nat) :=
  match s.wg? wg with
  | some w => (w.locq.toList.getD n none).map fun off => (w, off)
  | none => none

/-- The control block of a queue with whether it is poisoned; `none` for a local queue with no block. -/
def State.block? (s : State) (q : QKey) : Option (QBlock × Bool) :=
  match q with
  | .loc wg n => (s.locBlock wg n).map fun x => (QBlock.ofBytes (x.1.spad.read x.2 128), isPoisoned x.1.spadBad x.2 128)
  | .mem ia => some (QBlock.ofBytes (s.readIA ia 128), s.badIA ia 128)

/-! ### L2 lines (R138, R141, R142, R319) -/

/-- The domain's slices in ascending (DIE, slice) (R138). -/
def State.slices (s : State) (dom : Nat) : List Nat :=
  sortBy (fun a b => decide (a ≤ b)) (union [] (Map.look {} s.dev.domains dom).slices)

/-- The domain that owns the memory of an IA, by its HBM channel group (R12); none owns a reserved region (R8, log 100). -/
def State.ownerDom (s : State) (ia : Nat) : Option Nat :=
  (s.dev.domains.find? fun x => s.regionAt ia == .hbm && x.2.groups.contains (s.key ia / 2 ^ 34)).map (·.1)

/-- The domain in whose slices an IA has its home: its owner, or for memory that no domain owns that of a launch which
maps it. -/
def State.homeDom (s : State) (ia : Nat) : Option Nat :=
  match s.ownerDom ia with
  | some d => some d
  | none => (s.launches.find? fun l => l.ranges.any fun r => decide (r.ia ≤ ia) && decide (ia < r.ia + r.size)).map (·.dom)

/-- The home slice of an IA for an access of a domain: one of its owner's slices, else of the accessing domain's (R138,
R304); 0 where no domain has one. -/
def State.homeSlice (s : State) (ia : Nat) (dom : Option Nat := none) : Nat :=
  match (match s.ownerDom ia, dom with | none, some d => some d | _, _ => s.homeDom ia) with
  | some d => let xs := s.slices d; xs.getD (homeIndex ia xs.length) 0
  | none => 0

/-- The time at the home of a line for an access of a domain. Host memory has no home, and there the model reads the clock
of the die that the hash names (log 55). -/
def State.homeNow (s : State) (dom : Option Nat) (ia : Nat) : Nat :=
  s.now (match (match dom with | some d => some d | none => s.ownerDom ia) with | some d => homeDie (s.slices d) ia | none => 0)

/-- W of a request that a home takes at time `now` (R157): UT lines have no leases to wait for. -/
def State.complete (s : State) (ia now : Nat) : Nat := if region ia == .hbm then max now (s.home (ia / 128)).h else now

/-- The line is free of queued requests and of an owner. -/
def State.lineFree (s : State) (ia : Nat) : Bool :=
  let h := s.home (ia / 128)
  h.queue.isEmpty && h.owner.isNone

/-- The owner leaves a line: every request held behind it has its W computed now (R165). -/
def State.release (s : State) (line now : Nat) : State :=
  let w := s.complete (128 * line) now
  s.onHome line fun h => { h with owner := none, queue := h.queue.map fun r => { r with w } }

/-- The ways of a set of 16 that lines of one kind may fill: those reserved for landing, or those that neither landing nor
held stores take. -/
def State.l2Ways (s : State) (dom : Option Nat) (land : Bool) : Nat :=
  let r (i : Nat) : Nat := match dom with | some d => Map.look 0 s.dev.ways (2 * d + i) | none => 0
  if land then r 0 else 16 - r 0 - r 1

/-- The control blocks of the landing rings: the queues that the classifier's entries name, and the report queues that the
NIC pushes departure reports to (R319, R321). -/
def State.landBlocks (s : State) : List QBlock :=
  ((s.dev.classifier.filter fun x => x.1 % 4 == 3).map (·.2) ++ (s.dev.txregs.filter fun x => x.1 % 2 == 1).map (·.2)).filterMap fun x =>
    if x == 0 then none else (s.block? (.mem (x.toNat / 128 * 128))).map (·.1)

/-- The line belongs to a landing ring. -/
def State.landRing (s : State) (line : Nat) : Bool :=
  s.landBlocks.any fun b => decide (b.base < 128 * line + 128) && decide (128 * line < b.base + b.slots * b.esz)

/-- A landing ring's line whose slot lies between HEAD and TAIL: it is not evicted (R319). -/
def State.landHeld (s : State) (line : Nat) : Bool :=
  s.landBlocks.any fun b => (List.range (b.tail - b.head)).any fun i =>
    let a := b.slot (b.head + i)
    decide (a < 128 * line + 128) && decide (128 * line < a + b.esz)

/-- The sectors of memory that are lost behind a line of L2. -/
def L2Line.lostAt (x : L2Line) : List Nat := x.lost.map (x.pa / 16 + ·)

/-- The line leaves L2; its dirty sectors are written back, and those whose burst is lost are poisoned (R376). -/
def State.dropL2 (s : State) (line : Nat) : State :=
  let t := match s.l2? line with
    | some x =>
      let s := { s with bad := union s.bad x.lostAt }
      if x.dirty.isEmpty || region (128 * line) != Region.hbm then s else s.perfStack x.pa 1 x.dirty.length
    | none => s
  { t with l2 := t.l2.filter fun x => x.line != line }

/-- Room for a line in its set of the slice: the victim of a full set leaves; `none` where every way holds a line that may
not be evicted. -/
def State.l2Room (s : State) (slice line ways : Nat) (land : Bool) : Option State :=
  let set := s.l2.filter fun y => y.slice == slice && y.line % 1024 == line % 1024 && y.land == land
  if set.length < ways then some s
  else (victim ((set.filter fun y => !s.landHeld y.line).map fun y => (y.line, y.hint, y.stamp))).map fun x =>
    (s.dropL2 x).perfSlice slice 7 1

/-- The line that L2 holds for an access of a domain. -/
def State.l2At (s : State) (dom : Option Nat) (ia : Nat) : Option L2Line :=
  s.l2.find? fun x => x.line == ia / 128 && x.slice == s.homeSlice ia dom

/-- L2 holds every sector of `n` bytes at an IA: the home serves a read without its memory. -/
def State.heldIn (s : State) (dom : Option Nat) (ia n : Nat) : Bool :=
  match s.l2At dom ia with | some x => (lineSectors ia n).all x.valid.contains | none => false

/-- Sectors of a line that an access of `n` bytes fills into L2 and that HBM is read for: those which it does not write
whole. -/
def fillReads (ia n : Nat) (write : Bool) (fills : List Nat) : List Nat :=
  fills.filter fun i => let a := ia / 128 * 128 + 16 * i; !(write && decide (ia ≤ a) && decide (a + 16 ≤ ia + n))

/-- Line `y` takes its place in L2: where `old` stands already, else in room that is made for it. `land`: in a way kept for
landing; where none is free, a line that stands elsewhere stays there. -/
def State.keepL2 (s : State) (ways : Option Nat) (old : Option L2Line) (land : Bool) (y : L2Line) : State :=
  let mine (z : L2Line) : Bool := z.line == y.line && z.slice == y.slice
  let put (t : State) : State := { t with l2 := t.l2.filter (fun z => !mine z) ++ [y] }
  if old.any fun x => x.land || !land then put s
  else match s.l2Room y.slice y.line (s.l2Ways ways land) land with
    | some t => put t
    | none => { s with l2 := s.l2.map fun z => if mine z then { y with land := z.land } else z }

/-- `n` bytes of a line read or written in L2 by an access of a domain (R141, R142): missing sectors are filled, a write
leaves its sectors dirty, `hint` is 1 EF, 2 EL, and `fill` takes its place where a sector is filled. A landing ring's line goes
to the ways kept for landing (R319). Host memory is not cached (R134), and a write to another package's line is performed there
(R317). -/
def State.touchL2 (s : State) (dom : Option Nat) (ia n : Nat) (write : Bool) (hint : Nat := 0) (fill : Nat := hint) : State :=
  if region ia == .host || region ia == .none || (write && region ia == .package) then s
  else
    let line := ia / 128
    let slice := s.homeSlice ia dom
    let ways := match s.ownerDom ia, dom with | none, some d => some d | _, _ => s.homeDom ia
    let old := s.l2At dom ia
    let secs := lineSectors ia n
    let fills := secs.filter fun i => match old with | some x => !x.valid.contains i | none => true
    let land := s.landRing line && decide (0 < s.l2Ways ways true)
    let s := s.perfSlice slice (if fills.isEmpty then 0 else 1) 1
    let s := if region ia == .hbm then s.perfStack (s.key ia) 0 (fillReads ia n write fills).length else s
    let x : L2Line := old.getD { line, pa := s.key (line * 128), slice, fillAt := s.dtime }
    s.keepL2 ways old land { x with
      valid := union x.valid secs, dirty := union x.dirty (if write then secs else []), stamp := s.cyc
      lost := if write then x.lost.filter fun i => !secs.contains i else x.lost
      hint := max x.hint (if fills.isEmpty then hint else fill), land := x.land || land }

/-- What a walk leaves: its valid entries in the walkers' caches (R362), the level-2 block's sector that it read in L2
(R136), and its count. The block stands in slices of the domain that the walk is for, so that it takes no L2 of another (R12,
log 100): that of the access, else the owner of the page; a walk for no domain leaves nothing in L2. -/
def State.cacheWalk (s : State) (ia : Nat) (cached : Bool := false) (dom : Option Nat := none) : State :=
  let dom := match dom with | some d => some d | none => s.ownerDom ia
  let (e1, e2) := s.walkEntries cached ia
  let has (level idx : Nat) : Bool := s.xlat.cache.any fun y => y.1 == level && y.2.1 == idx
  let add (c : List (Nat × Nat × DWord)) (x : Nat × Nat × DWord) : List (Nat × Nat × DWord) :=
    if !x.2.2.getLsbD 0 || !entryOk x.1 x.2.2 || has x.1 x.2.1 then c else c ++ [x]
  let leaf := e1.getLsbD 0 && entryOk 1 e1 && !e1.getLsbD 1
  let c := add s.xlat.cache (1, ia / 2 ^ 21, e1)
  let c := if leaf then add c (2, ia / 65536, e2) else c
  let reads1 := !(cached && has 1 (ia / 2 ^ 21))
  let reads2 := leaf && !(cached && has 2 (ia / 65536))
  let t := { s.perfUnit (stackUnit (s.walker ia)) 3 (if reads1 || reads2 then 1 else 0) with xlat := { s.xlat with cache := c } }
  match (if reads2 && dom.isSome then s.reservedIa (entryAddr e1 + 8 * (ia / 65536 % 32)) else none) with
  | some x => t.touchL2 dom x 8 false
  | none => t

/-- The first 64 bytes of a block written back; the bytes above are zero on every block that passes its check. -/
def State.putBlock (s : State) (q : QKey) (b : QBlock) : State :=
  match q with
  | .loc wg n =>
    match s.locBlock wg n with
    | some (_, off) => s.onWg wg fun w => { w with
        spad := w.spad.write off (b.bytes.take 58), spadBad := writePoison w.spadBad off 58 false }
    | none => s
  | .mem ia => (s.writeIA ia (b.bytes.take 58)).touchL2 none ia 58 true

/-! ### Mediated windows (R13) -/

/-- A window that the root firmware granted the service firmware holds the span with a permission: bit 0 read, bit 1
write. -/
def State.windowed (s : State) (perm ia n : Nat) : Bool :=
  (List.range 128).any fun w =>
    let x (i : Nat) : DWord := Map.look 0 s.dev.windows (4 * w + i)
    (x 2).getLsbD perm && decide ((x 0).toNat ≤ ia) && decide (ia + n ≤ (x 0).toNat + (x 1).toNat)

/-! ### Ports and errors of a place (R312, R315, R317, R370, R387) -/

/-- The port that carries accesses to an IA: a trellis port 0-17, a CXL port 18-19, or PCIe, 22 (R376, log 103). -/
def State.carrier (s : State) (ia : Nat) : Option Nat :=
  match region ia with
  | .tier2 => some (if ia - 0x1000_0000_0000 < 6 * 2 ^ 40 then 18 else 19)
  | .package => (s.dev.routed.find? fun x => x.1 == ia / 2 ^ 39 % 2048).map (·.2)
  | .host => some 22
  | _ => none

def State.isolatedAt (s : State) (ia : Nat) : Bool := match s.carrier ia with | some p => s.dev.isolated.contains p | none => false

/-- The send allowance of a virtual lane: 0 requests, 1 responses, 2 store data, 3 queue traffic (R316). -/
def State.allowance (s : State) (port lane : Nat) : Nat := Map.look 0 s.dev.allow (4 * port + lane)

/-- A flit for another package's memory may leave: its port's lane has allowance and the package is not frozen, or the port
is isolated and answers by itself (R316, R328, R388). -/
def State.maySend (s : State) (ia lane : Nat) : Bool :=
  match region ia, s.carrier ia with
  | .package, some port => s.dev.isolated.contains port || (decide (0 < s.allowance port lane) && !s.dbg.frozen)
  | _, _ => true

/-- The flit has left. -/
def State.spend (s : State) (ia lane : Nat) : State :=
  match region ia, s.carrier ia with
  | .package, some port =>
    if s.dev.isolated.contains port then s
    else { s.perfUnit (portUnit port) 0 1 with
      dev := { s.dev with allow := Map.put 0 s.dev.allow (4 * port + lane) (s.allowance port lane - 1) } }
  | _, _ => s

/-- A flit has come from another package by its port (R333). -/
def State.received (s : State) (ia : Nat) : State :=
  match region ia, s.carrier ia with
  | .package, some port => s.perfUnit (portUnit port) 1 1
  | _, _ => s

/-- The home serves a read of `n` bytes from L2, so that no port carries it. An acquire and an access of another package's
line that L2 does not hold go out (R317). -/
def State.servedAt (s : State) (dom : Option Nat) (ia n : Nat) (acq : Bool := false) : Bool :=
  s.heldIn dom ia n && !(acq && region ia == .package)

/-- The read goes out by an isolated port, which answers with poison (R388, log 33). -/
def State.cutOff (s : State) (dom : Option Nat) (ia n : Nat) (acq : Bool := false) : Bool :=
  s.isolatedAt ia && !s.servedAt dom ia n acq

/-- A read of `n` bytes may be sent, where a flit has to leave for it (R316). -/
def State.mayRead (s : State) (dom : Option Nat) (ia n lane : Nat) (acq : Bool := false) : Bool :=
  s.servedAt dom ia n acq || s.maySend ia lane

/-- The read's flits, the request and its answer; none where L2 holds the bytes. -/
def State.carry (s : State) (dom : Option Nat) (ia n lane : Nat) (acq : Bool := false) : State :=
  if s.servedAt dom ia n acq then s else (s.spend ia lane).received ia

/-- Reads of several places in L2 by an agent that acts for a domain, where no isolated port cuts them off (R333). -/
def State.touchAll (s : State) (dom : Option Nat) (ps : List (Nat × Nat)) : State :=
  ps.foldl (fun s p => if s.cutOff dom p.1 p.2 then s else s.touchL2 dom p.1 p.2 false) s

/-- Reads of several places, each an IA and a size, one after the other; `none` where one of them cannot be sent. -/
def State.carryAll (s : State) (dom : Option Nat) (lane : Nat) (ps : List (Nat × Nat)) : Option State :=
  ps.foldl (fun o p => o.bind fun s => if s.mayRead dom p.1 p.2 lane then some (s.carry dom p.1 p.2 lane) else none) (some s)

/-- The error response that an access of a launch's domain meets by its address alone: reason 1 or 6 of R370. An IA of no
region has its home in no domain (log 60). -/
def State.errorAt (s : State) (dom : Option Nat) (ia : Nat) : Option Nat :=
  match s.regionAt ia with
  | .hbm =>
    match s.place ia with
    | none => none
    | some pa =>
      if s.dev.absent.getLsbD (8 + pa / 2 ^ 36 % 8) then some 6
      else match dom with
        | some d => if (Map.look ({} : DomainRow) s.dev.domains d).groups.contains (pa / 2 ^ 34) then none else some 1
        | none => none
  | .tier2 => if s.dev.absent.getLsbD (if ia - 0x1000_0000_0000 < 6 * 2 ^ 40 then 6 else 7) then some 6 else none
  | .package =>
    match s.carrier ia with
    | some p => if s.dev.portabs.getLsbD p then some 6 else none
    | none => some 6
  | .host => none
  | .none => some 1

/-- The first line of a span whose access meets an error response, with the reason. -/
def State.spanError (s : State) (dom : Option Nat) (ia n : Nat) : Option (Nat × Nat) :=
  (List.range ((ia % 128 + n + 127) / 128)).findSome? fun i =>
    let x := if i == 0 then ia else (ia / 128 + i) * 128
    (s.errorAt dom x).map fun r => (x, r)

/-! ### Controllers -/

def State.qctl (s : State) (q : QKey) : QCtl := (s.queues.find? fun x => x.key == q).getD { key := q }

def State.setQctl (s : State) (x : QCtl) : State :=
  let rest := s.queues.filter fun y => y.key != x.key
  { s with queues := if x == { key := x.key } then rest else rest ++ [x] }

end Sys2Proof.Machine
end

