-- ==== Sys2Proof/Machine/Ops.lean ====
section
/-! DEFINITION. The named operations over the machine: registers, flags of a launch, records for the host, posted stores,
kill and rollback of a workgroup, taking a trap (spec/18_traps.md R334, R336) and returning from one (R337). -/

namespace Sys2Proof.Machine

/-! ### Registers (R36, R274) -/

/-- Component `c` of vector register `n`, component 0 its value. -/
def Group.v (g : Group) (n c : Nat) : Lanes Word := Map.look (Lanes.const 0) g.vregs (n + 128 * c)
def Group.setV (g : Group) (n c : Nat) (x : Lanes Word) : Group :=
  { g with vregs := Map.put (Lanes.const 0) g.vregs (n + 128 * c) x }
def Group.s (g : Group) (n c : Nat) : Word := Map.look 0 g.sregs (n + 64 * c)
def Group.setS (g : Group) (n c : Nat) (x : Word) : Group := { g with sregs := Map.put 0 g.sregs (n + 64 * c) x }

/-- Mask `n`: m0 reads as all ones (R39). -/
def Group.mask (g : Group) (n : Nat) : Mask := if n % 8 == 0 then BitVec.allOnes 64 else g.masks.get (Fin.ofNat 8 n)
/-- A write of mask `n`; one to m0 is ignored (R39). -/
def Group.setMask (g : Group) (n : Nat) (x : Mask) : Group :=
  if n % 8 == 0 then g else { g with masks := g.masks.set (n % 8) x (Nat.mod_lt n (by decide)) }

def Group.join (g : Group) (n : Nat) : Join := g.joins.get (Fin.ofNat 8 n)
def Group.setJoin (g : Group) (n : Nat) (x : Join) : Group :=
  { g with joins := g.joins.set (n % 8) x (Nat.mod_lt n (by decide)) }

/-- The lane of `m` with the lowest (WID, lane) (R110, R340); 0 for the empty mask. -/
def Group.lowLane (g : Group) (m : Mask) : Nat :=
  match m.lanes with
  | [] => 0
  | i :: t => t.foldl (fun b j => if (g.wid.at j).toNat < (g.wid.at b).toNat then j else b) i

def Group.full (g : Group) (scal : Bool) (n : Nat) : Bool := if scal then !g.emptyS.contains n else !g.emptyV.contains n

/-- KTAN of a workgroup's launch (R271). -/
def State.ktan (s : State) (w : Workgroup) : Nat := match s.launch? w.lid with | some l => l.ktan | none => 0

/-! ### Flags of the launch (R109) -/

def State.raise (s : State) (lid : Nat) (f : BitVec 5) : State := s.onLaunch lid fun l => { l with flags := l.flags ||| f }

/-- LOWWID takes a lower WID (R110). -/
def lower (x : Option DWord) (w : DWord) : Option DWord :=
  match x with
  | none => some w
  | some y => if w.toNat < y.toNat then some w else some y

/-- The launch has a reason for a status (R306). -/
def Launch.reason (l : Launch) (st : Nat) : Launch := { l with status := union l.status [st] }

def Launch.fault (l : Launch) (w : Option DWord) : Launch :=
  let l := l.reason 3
  match w with
  | some w => { l with lowwid := lower l.lowwid w }
  | none => l

/-! ### Records -/

/-- The word of a record from (lowest bit, value) pairs. -/
def fields (fs : List (Nat × Nat)) : DWord := fs.foldl (fun a f => a ||| BitVec.ofNat 64 (f.2 * 2 ^ f.1)) 0

/-- The fields WGX, DIE, CLU, CORE, GRP of the records' positions. -/
def posFields (wgx core grp : Nat) : List (Nat × Nat) :=
  [(32, wgx), (30, coreDie core), (26, coreClu core), (22, coreIdx core), (17, grp)]

/-- A fault or error record of 64 bytes appended to the domain's fault ring (R363). -/
def State.faultRecord (s : State) (dom kind disp reason ia : Nat) (va wid mask : DWord) (pc : DWord) (wgx core grp ent chan : Nat)
    (engine : Bool) : State :=
  let seq := (s.logs.faults.filter fun x => x.1 == dom).length + 1
  let r : List DWord := [BitVec.ofNat 64 (s.now (coreDie core)), fields [(60, kind), (56, disp), (52, reason), (0, ia % 2 ^ 52)],
    va, wid, mask, pc &&& 0x1FF_FFFF_FFFF_FFFF, fields (posFields wgx core grp ++ [(13, ent), (9, chan), (8, if engine then 1 else 0)]),
    fields [(32, seq % 2 ^ 32)]]
  { s with logs := { s.logs with faults := s.logs.faults ++ [(dom, r)] } }

/-- A record of the service firmware's error log (R381). -/
def State.errorRecord (s : State) (array action ia : Nat) (wid : DWord) (wgx core grp index : Nat) (pc : DWord) : State :=
  let r : List DWord := [BitVec.ofNat 64 (s.now (coreDie core)), fields [(56, array), (52, action), (0, ia % 2 ^ 52)], wid,
    fields (posFields wgx core grp ++ [(0, index % 2 ^ 17)]), pc &&& 0x1FF_FFFF_FFFF_FFFF, 0, 0, 0]
  { s with logs := { s.logs with errors := s.logs.errors ++ [r] } }

/-! ### Posted stores -/

/-- A store that belongs to no group's register work leaves for its home (`MsgUse`); `bad`: with poisoned data (R377); `hint`,
`fill`: the hints of the store and of its fill (R142). -/
def State.post (s : State) (use_ : MsgUse) (ia : Nat) (bs : List Byte) (red : Option (Nat × Nat) := none) (comm bad : Bool := false)
    (hint fill : Nat := 0) : State :=
  let (id, s) := s.new
  { s with msgs := s.msgs ++ [{ id, use_, part := { lane := 0, ia, size := bs.length, dat := leNat bs, bad }, red, comm, hint, fill }] }

/-- A trace record for an event of kind 4-7 where tracing enables it (R331); `pc` is that of the event's instruction. -/
def State.trace (s : State) (kind : Nat) (pc : DWord) (run grp ent : Nat) : State :=
  if s.dbg.trctl.getLsbD 0 && s.dbg.trctl.getLsbD kind then
    match s.wg? run, s.group? run grp with
    | some w, some g =>
      let f := (g.frag? ent).getD { fid := 0, pc := 0, f := 0, exec := 0, shadow := 0 }
      let bs := leBytes 8 (fields [(60, kind), (0, (pc &&& 0x1FF_FFFF_FFFF_FFFF).toNat)]).toNat ++ leBytes 8 (g.wid.at f.exec.low).toNat
        ++ leBytes 8 f.exec.toNat ++ leBytes 8 (fields [(32, s.now (coreDie w.core) % 2 ^ 32), (27, grp), (23, ent)]).toNat
      let ia := (s.dbg.trbase + s.dbg.trptr).toNat
      let size := s.dbg.trsize.toNat
      let next := s.dbg.trptr.toNat + 32
      let s := { s with dbg := { s.dbg with trptr := BitVec.ofNat 64 (if size ≤ next then 0 else next) } }
      s.post (.trace run grp) ia bs
    | _, _ => s
  else s


/-! ### Copy channels and kills -/

/-- The claims of a channel are released without writing (R369, R353). -/
def State.releaseClaims (s : State) (core ch : Nat) : State :=
  (s.homes.map (·.1)).foldl (fun s line =>
    let s := s.onHome line fun h => { h with
      queue := h.queue.filter fun r => match r.src with | .claim c k _ => !(c == core && k == ch) | _ => true }
    if (s.home line).owner == some (.copy core ch) then s.release line (s.homeNow none (128 * line)) else s) s

def CoreSt.chan (c : CoreSt) (n : Nat) : Channel := c.chans.get (Fin.ofNat 16 n)
def CoreSt.setChan (c : CoreSt) (n : Nat) (x : Channel) : CoreSt :=
  { c with chans := c.chans.set (n % 16) x (Nat.mod_lt n (by decide)) }

/-- The channel ends its copy: DONE + 1, IDLE, the next trigger at the head of the queue (R240). -/
def Channel.finish (x : Channel) : Channel := { trigs := x.trigs.drop 1, done := x.done + 1 }

/-- A trigger's aperture store is acknowledged where it was not yet, carrying `w` (R164). -/
def State.ackTrigger (s : State) (t : Trigger) (w : Nat) : State :=
  if t.acked then s
  else s.onGroup t.wg t.grp fun g => { g with
    maxw := max g.maxw w
    accs := g.accs.filter fun a => a.id != t.acc }

/-- The copy of a channel ends without finishing: claims released, its trigger acknowledged, DONE + 1. -/
def State.dropCopy (s : State) (core ch : Nat) : State :=
  let x := (s.core core).chan ch
  let s := s.releaseClaims core ch
  let s := match x.trigs.head? with | some t => s.ackTrigger t x.claimedW | none => s
  s.onCore core fun c => c.setChan ch x.finish

/-- Step 4 of R353 for one channel: queued triggers of the workgroup are dropped, and its running copy stops unless a
chunk is landing (that chunk completes, and COPY_CHUNK_LAND stops the copy after it). -/
def State.killChannel (s : State) (run core ch : Nat) : State :=
  let x := (s.core core).chan ch
  match x.trigs with
  | [] => s
  | t :: rest =>
    let s := (rest.filter fun u => u.wg == run).foldl (fun s u => s.ackTrigger u 0) s
    let s := s.onCore core fun c => c.setChan ch { x with trigs := t :: rest.filter fun u => u.wg != run }
    if t.wg == run && x.pending.isEmpty then s.dropCopy core ch else s

/-! ### Waiting queue operations (R214, R216) -/

/-- The access of a waiting operation. -/
def State.waiter (s : State) (x : Nat × Nat × Nat) : Option (Group × Access) :=
  (s.group? x.1 x.2.1).bind fun g => (g.accs.find? fun a => a.id == x.2.2).map fun a => (g, a)

/-- Its number of elements, and whether it is a `.TRY` form. -/
def State.waiterSize (s : State) (x : Nat × Nat × Nat) : Nat × Bool :=
  match (s.waiter x).bind fun y => y.2.q with
  | some q => (q.lanes.length, q.tryForm)
  | none => (0, false)

/-- The waiting pops that cannot be granted as things stand; waiting for PPEND alone is not blocking (R214). `left`: the
elements committed and not taken. -/
def State.blockedPops (s : State) : (left : Nat) → (stuck : Bool) → List (Nat × Nat × Nat) → List (Nat × Nat × Nat)
  | _, _, [] => []
  | left, stuck, x :: t =>
    let (k, try_) := s.waiterSize x
    if try_ then s.blockedPops (left - min k left) stuck t
    else if stuck || decide (left < k) then x :: s.blockedPops left true t
    else s.blockedPops (left - k) false t

/-- The elements that the pop which holds PPEND was granted; a `.TRY` form may have fewer than its lanes (R215). -/
def State.popTaken (s : State) (q : QKey) : Nat :=
  match ((s.qctl q).pop.bind s.waiter).bind fun y => y.2.q with
  | some op => op.data.headD 0
  | none => 0

/-- Elements committed and not granted. -/
def State.popLeft (s : State) (q : QKey) (b : QBlock) : Nat := b.tail - b.head - s.popTaken q

/-- The `.TRY` pops that stand behind a blocked pop: such a one takes nothing (R215). -/
def State.beatenTries (s : State) : (left : Nat) → (stuck : Bool) → List (Nat × Nat × Nat) → List (Nat × Nat × Nat)
  | _, _, [] => []
  | left, stuck, x :: t =>
    let (k, try_) := s.waiterSize x
    if try_ then (if stuck then x :: s.beatenTries left true t else s.beatenTries (left - min k left) false t)
    else if stuck || decide (left < k) then s.beatenTries left true t
    else s.beatenTries (left - k) false t

/-- NPUSHW and NPOPW as the controller holds its waiters (R216). -/
def State.note (s : State) (q : QKey) : State :=
  match s.block? q with
  | none => s
  | some (b, _) =>
    let x := s.qctl q
    s.putBlock q (b.setWaiters x.pushW.length (s.blockedPops (s.popLeft q b) false x.popW).length)

/-- The blocked pops of a queue. -/
def State.stuckPops (s : State) (q : QKey) : List (Nat × Nat × Nat) :=
  match s.block? q with
  | some (b, _) => s.blockedPops (s.popLeft q b) false (s.qctl q).popW
  | none => []

/-! ### Kills (R353) -/

/-- Whether an access still waits ungranted at a queue controller. -/
def Access.waiting (a : Access) : Bool := match a.q with | some q => !q.granted | none => false

/-- An ungranted queue waiter of the workgroup leaves its controller (R353 step 1). -/
def State.removeWaiters (s : State) (run : Nat) : State :=
  s.queues.foldl (fun s (x : QCtl) =>
    if x.pushW.any (·.1 == run) || x.popW.any (·.1 == run) then
      (s.setQctl { x with pushW := x.pushW.filter (·.1 != run), popW := x.popW.filter (·.1 != run) }).note x.key
    else s) s

/-- An access of a killed workgroup: unfinished faults are withdrawn, gathers in a window are dropped, and everything else
that has issued goes on (R353 step 2). -/
def Access.afterKill (a : Access) : Access :=
  { a with parts := a.parts.map fun p =>
      match p.st with
      | .faulted _ => { p with st := .done }
      | .window => { p with st := if a.kind == .gather then .done else if p.accepted then .walked else .issued }
      | _ => p }

/-- Accesses that a kill ends at once: waits, probes, fetches, and stores of which nothing is left. -/
def Access.endsAtKill (a : Access) : Bool :=
  match a.kind with
  | .waitm | .probe | .fetch | .qblock | .snapshot | .unpin | .accept _ => true
  | .store | .scatter | .qinit | .pref => a.parts.all fun p => p.st == .done
  | .atomic _ _ ret _ => !ret && a.parts.all fun p => p.st == .done
  | _ => false

/-- A group of a killed workgroup: no fragment is left, faulted parts and ungranted queue operations are withdrawn, and
everything sent goes on (R353 steps 1 and 2). -/
def Group.kill (g : Group) : Group :=
  { g with
    frags := [], trap := none, barvs := [], longs := []
    accs := ((g.accs.filter fun a => !a.waiting).map Access.afterKill).filter fun a => !a.endsAtKill }

/-- The launch's hold reserve has room again: what stalled for it tries anew (R295). -/
def State.reserveFreed (s : State) (lid : Nat) : State :=
  { s with wgs := s.wgs.map fun w => if w.lid != lid then w else { w with
    heldOver := []
    groups := w.groups.map fun g => { g with frags := g.frags.map fun x => if x.2.st == .held then (x.1, { x.2 with st := .ready }) else x } } }

/-- Issue stops in a workgroup, what waits is removed and held data is dropped (R353 steps 1, 2 and 4). -/
def State.stopWg (s : State) (run : Nat) : State :=
  match s.wg? run with
  | none => s
  | some w =>
    if w.life == .killed then s else
    let s := s.removeWaiters run
    let s := (s.onWg run fun w => { w with life := .killed, groups := w.groups.map Group.kill, held := [] }).reserveFreed w.lid
    let s := s.onCore w.core fun c => { c with window := c.window.filter fun x => x.1 != run }
    (List.range 16).foldl (fun s ch => s.killChannel run w.core ch) s

/-- The workgroup limit (R27). -/
def Launch.limit (l : Launch) : Nat := if l.maxwg == 0 then l.total else min l.maxwg l.total

/-- Members of the cohort of a workgroup, within the limit; the workgroup alone where E1 = 1. -/
def Launch.cohortOf (l : Launch) (wgx : Nat) : List Nat :=
  let e1 := l.extent 1
  if e1 ≤ 1 then [wgx]
  else
    let first := wgx / e1 * e1 + wgx % e1 / 12 * 12
    ((List.range (min 12 (e1 - wgx % e1 / 12 * 12))).map fun i => first + i).filter fun x => decide (x < l.limit)

/-- The hash of a retired run of redundant mode (R300). -/
def Launch.hash? (l : Launch) (wgx copy : Nat) : Option (List Byte) := (l.runs.find? fun r => r.1 == wgx && r.2.1 == copy).map (·.2.2)

/-- The first and second runs have retired and differ (R386). -/
def Launch.mismatched (l : Launch) (wgx : Nat) : Bool :=
  match l.hash? wgx 0, l.hash? wgx 1 with | some a, some b => a != b | _, _ => false

/-- The record of a mismatch: ACTION 5 where a stream is bottled, 4 where none is (R386). -/
def State.mismatchRecord (s : State) (l : Launch) (wgx : Nat) (bottled : Bool) : State :=
  s.errorRecord 13 (if bottled then 5 else 4) 0 (l.widOf wgx 0) wgx 0 0 0 0

/-- A mismatch whose third run will not decide: nothing of the workgroup is bottled (R386). -/
def State.undecided (s : State) (l : Launch) (wgx : Nat) : State :=
  if l.redn && l.mismatched wgx then s.mismatchRecord l wgx false else s

/-- A workgroup is killed, and in redundant mode with it every run of it (R353, R359). `wid`: what LOWWID takes; `fault`
false for a kill at grace expiry, which is recorded as a pre-emption kill (R301, R358). -/
def State.kill (s : State) (run : Nat) (wid : Option DWord) (fault : Bool := true) : State :=
  match s.wg? run with
  | none => s
  | some w =>
    if w.life == .killed && !w.rolled then s else
    let red := match s.launch? w.lid with | some l => l.redn | none => false
    let runs := if red then (s.wgs.filter fun x => x.lid == w.lid && x.wgx == w.wgx).map (·.run) else [run]
    let s := runs.foldl (fun s r => (s.stopWg r).onWg r fun w => { w with rolled := false }) s
    let s := match s.launch? w.lid with | some l => (s.undecided l w.wgx).reserveFreed l.lid | none => s
    s.onLaunch w.lid fun l =>
      let l := { l with nkill := l.nkill + 1, redo := l.redo.filter (·.1 != w.wgx), runs := l.runs.filter (·.1 != w.wgx), streams := l.streams.filter (·.1 != w.wgx) }
      if fault then l.fault wid else { l with killed := union l.killed [w.wgx] }

/-- Members of a workgroup's cohort that have retired in a run and that the run's rollback takes back (R380). -/
def Launch.retiredMates (l : Launch) (w : Workgroup) : List Nat :=
  (l.cohortOf w.wgx).filter fun x => x != w.wgx && (if l.redn then (l.hash? x w.copy).isSome else l.retired.contains x)

/-- Retired members of a cohort are to be placed again, with the runs that they have had; of a launch that drains they count as
not run. -/
def Launch.again (l : Launch) (w : Workgroup) (xs : List Nat) : Launch :=
  let l := if l.redn then { l with
      runs := l.runs.filter fun r => !(xs.contains r.1 && r.2.1 == w.copy), streams := l.streams.filter fun r => !(xs.contains r.1 && r.2.1 == w.copy) }
    else { l with ndone := l.ndone - xs.length, retired := l.retired.filter fun x => !xs.contains x }
  if l.phase == .draining then { l with killed := union l.killed xs }
  else { l with
    redo := l.redo ++ xs.map fun x => (x, w.copy), tries := xs.foldl (fun m x => Map.put 0 m (4 * x + w.copy) w.tries) l.tries
    avoid := (l.avoid.filter fun a => !(xs.contains a.1 && a.2.1 == w.copy)) ++ xs.map fun x => (x, w.copy, w.core / 12) }

/-- A workgroup is rolled back: its held stores are dropped and it is placed again after its contexts are free (R295,
R379); a cohort rolls back whole, members that have retired included, where `cohort` asks for it (R380). -/
def State.rollback (s : State) (run : Nat) (cohort : Bool) : State :=
  match (s.wg? run).bind fun w => (s.launch? w.lid).map fun l => (w, l) with
  | none => s
  | some (w, l) =>
    let mates := if cohort then l.cohortOf w.wgx else []
    let runs := (s.wgs.filter fun x => x.run == run ||
      (x.lid == w.lid && x.copy == w.copy && mates.contains x.wgx && !(x.life == .killed && !x.rolled))).map (·.run)
    let retired := if cohort then l.retiredMates w else []
    let s := runs.foldl (fun s r => (s.stopWg r).onWg r fun w => { w with rolled := true }) s
    let s := if l.phase == .draining && w.copy == 2 then retired.foldl (fun s x => s.undecided l x) s else s
    s.onLaunch w.lid fun l => { l.again w retired with nroll := l.nroll + 1 }

/-- A workgroup consumes poison (R378, R379): rolled back in contained and redundant mode until its third run, else
killed; one that is stopped already consumes nothing (R353). The record names the array (R376), the consuming word, and in
INDEX the register, accumulator row or cellar word; its IA is that of the sector (R381). -/
def State.consume (s : State) (run grp : Nat) (lanes : Mask) (array ia : Nat) (pc : DWord) (index : Nat := 0) : State :=
  match s.wg? run with
  | none => s
  | some w =>
    if w.life == .killed then s else
    match s.launch? w.lid, w.group? grp with
    | some l, some g =>
      let wid := g.wid.at (g.lowLane (if lanes == 0 then g.live else lanes))
      let roll := (l.cont || l.redn) && decide (w.tries < 3)
      let s := s.errorRecord array (if roll then 3 else 4) (ia / 16 * 16) wid w.wgx w.core grp index pc
      if roll then s.rollback run true else s.kill run (some wid)
    | _, _ => s

/-! ### Taking a trap and returning (R334-R337) -/

/-- What trap entry sets in the group: TPC, TCODE, TINFO, TMASK, INTRAP, and the fragment's PC ← TRAPV. -/
def Group.enterTrap (g : Group) (ent : Nat) (trapv tpc : DWord) (code : Nat) (info mask : DWord) : Group :=
  match g.frag? ent with
  | none => g
  | some f =>
    let g := g.putFrag ent { f with pc := trapv &&& ~~~ 7, sent := f.pc, st := .ready }
    { g with tpc, tcode := BitVec.ofNat 32 code, tinfo := info, tmask := mask, trap := some f.fid }

/-- The kill record of a trap inside the handler (R351). -/
def State.killRecord (s : State) (w : Workgroup) (g : Group) (wid kpc : DWord) (code : Nat) (info : DWord) : State :=
  let r : List DWord := [wid, kpc &&& 0x1FF_FFFF_FFFF_FFFF,
    fields [(32, w.wgx), (24, code), (16, g.tcode.toNat % 256), (11, g.grp)], info]
  { s with logs := { s.logs with kills := s.logs.kills ++ [r] } }

/-- A fragment takes a trap: entry where INTRAP = 0 (R334), a kill with its record where it is 1 (R336). `kpc` is the word
that caused it. A kill whose TMASK is empty, as an illegal word's under an empty EXEC, names the fragment's lowest lane (log 109). -/
def State.trap (s : State) (run grp ent : Nat) (tpc kpc : DWord) (code : Nat) (info mask : DWord) : State :=
  match s.wg? run with
  | none => s
  | some w =>
    match w.group? grp, s.launch? w.lid with
    | some g, some l =>
      let s := { s with cursor := { s.cursor with dx := none } }
      if g.trap.isSome then
        let f := (g.frag? ent).getD { fid := 0, pc := 0, f := 0, exec := 0, shadow := 0 }
        let lanes := if code == 0x0B then f.exec else mask
        let wid := g.wid.at (g.lowLane (if lanes == 0 then f.f else lanes))
        (s.killRecord w g wid kpc code info).kill run (some wid)
      else
        (s.putGroup run (g.enterTrap ent l.trapv tpc code info mask)).trace 7 kpc run grp ent
    | _, _ => s

/-- RETT: PC ← TPC with bits [2:0] ignored, INTRAP ← 0; the suspended fragments may issue again (R337). -/
def Group.leaveTrap (g : Group) (ent : Nat) : Group :=
  match g.frag? ent with
  | none => g
  | some f => { g.putFrag ent { f with pc := g.tpc &&& ~~~ 7, shadow := f.exec, sent := f.pc } with trap := none }

end Sys2Proof.Machine
end

