-- ==== Sys2Proof/Machine/Operands.lean ====
section
/-! DEFINITION. Operand forms (spec/03_encoding.md R45, R50-R56, spec/14_dual.md R271-R275): the context of a word at
issue, how its sources read and how its results are written, with tangents. -/

namespace Sys2Proof.Machine

/-- A value with its tangent components 1 to k, each of up to 64 bits (R274). -/
structure Dual where
  v : DWord := 0
  t : List DWord := []
  deriving DecidableEq, Repr

/-- Component `c`, component 0 the value. -/
def Dual.comp (x : Dual) (c : Nat) : DWord := if c == 0 then x.v else x.t.getD (c - 1) 0

/-- The low word of the value. -/
def Dual.w (x : Dual) : Word := x.v.setWidth 32

def Dual.ofWord (w : Word) : Dual := { v := w.setWidth 64 }

/-- A word about to issue: the state it reads, its fragment, `tpc` the address of the word or of its prefix (R58), `k` its
count of tangent components (R271), `sel` EXEC AND the predicate (R51). -/
structure Ctx where
  s : State
  w : Workgroup
  g : Group
  f : Frag
  l : Launch
  ent : Nat
  pc : DWord
  tpc : DWord
  k : Nat
  fm : Form
  sh : Shape
  sel : Mask
  deriving DecidableEq, Repr

/-- What a word comes to. -/
inductive Out where
  | regs (g : Group) (fl : BitVec 5)       -- it retires having changed its group only, and raised these flags
  | done (s : State)                       -- it retires, the rest of its effect being in the state
  | flow (s : State) (sig : Word)          -- it retires; it has placed the PCs itself; SIG takes this value (R383)
  | trap (code : Nat) (info mask : DWord)  -- it has no effect and takes the trap (R334)
  | stall (st : FragSt)                    -- it does not issue; the fragment waits in this state
  | wait (s : State) (st : FragSt)         -- the same, part of its effect being in the state already
  | state (s : State)                      -- it does not retire; everything is in the state
  | poison (lanes : Mask) (array ia : Nat) (index : Nat := 0) -- it has no effect and consumes poison (R378), INDEX of R381
  | stop (hit : Mask) (addr : Nat)         -- it has no effect and stops at a watchpoint (R327)
  deriving DecidableEq, Repr

/-! ### Sources -/

/-- The read-only sources of R45 as lane `lane` reads them. -/
def Ctx.readOnly (c : Ctx) (n lane : Nat) : Word :=
  match n with
  | 64 => 0
  | 65 => 0xFFFFFFFF
  | 66 => BitVec.ofNat 32 lane
  | 67 => BitVec.ofNat 32 c.g.grp
  | 68 => BitVec.ofNat 32 c.w.wgx
  | 69 => c.f.exec.setWidth 32
  | 70 => DWord.hi c.f.exec
  | 71 => DWord.lo (c.g.wid.at lane)
  | 72 => DWord.hi (c.g.wid.at lane)
  | 73 => 1
  | 74 => 0x3F800000
  | 75 => 0xBF800000
  | 76 => 0x3F000000
  | 77 => 0x40000000
  | 78 => 0x7F800000
  | 79 => 0x7F7FFFFF
  | 80 => 0x7FC00000
  | _ => 0x80000000

/-- The lane whose values an instruction that executes once reads: the lowest selected one (R45). -/
def Ctx.low (c : Ctx) : Nat := c.sel.low

/-- Component `j` of register `r` of an operand, as lane `lane` reads it. Read-only sources have zero tangents. -/
def Ctx.reg (c : Ctx) (o : Opnd) (r j lane : Nat) : Word :=
  if o.scal then
    if 64 ≤ o.num then (if j == 0 then c.readOnly o.num lane else 0)
    else c.g.s (o.num + r) j
  else (c.g.v (o.num + r) j).at lane

/-- Component `j` of an operand of one register or a pair. -/
def Ctx.comp (c : Ctx) (o : Opnd) (j lane : Nat) : DWord :=
  if o.n == 1 then (c.reg o 0 j lane).setWidth 64
  else DWord.ofPair (c.reg o 0 j lane) (c.reg o 1 j lane)

/-- An operand with its `k` tangent components. -/
def Ctx.get (c : Ctx) (o : Opnd) (lane : Nat) : Dual :=
  { v := c.comp o 0 lane, t := (List.range c.k).map fun j => c.comp o (j + 1) lane }

/-- The operand that field `fld` names (0 a, 1 b, 2 c, 3 d); a register that no word reads where the field names none. -/
def Ctx.opnd (c : Ctx) (fld : Nat) : Opnd := (c.sh.ops.find? fun o => o.fld == fld).getD { fld, num := 64, scal := true }

/-- The value of field `fld` in lane `lane`; imm32 takes the place of source b in an FI word (R53). -/
def Ctx.src (c : Ctx) (fld lane : Nat) : Dual :=
  match c.fm, fld with
  | .fi _ f, 1 => Dual.ofWord f.imm
  | _, _ => c.get (c.opnd fld) lane

/-- The fields of the common modifier layout (R52); an FI word runs with their defaults (R53). -/
def Ctx.ty (c : Ctx) : Nat := match c.fm with | .fr _ f => f.ty | _ => 0
def Ctx.opx (c : Ctx) : Nat := match c.fm with | .fr _ f => f.opx | _ => 0
def Ctx.rnd (c : Ctx) : Nat := match c.fm with | .fr _ f => f.rnd | _ => 0
def Ctx.ftz (c : Ctx) : Bool := match c.fm with | .fr _ f => f.ftz | _ => false
/-- Field d as a number: a compare field or the number of a mask or special register. -/
def Ctx.dnum (c : Ctx) : Nat := match c.fm with | .fr _ f => f.dn | .fi _ f => f.d.toNat | _ => 0
def Ctx.anum (c : Ctx) : Nat := match c.fm with | .fr _ f => f.an | .fi _ f => f.a.toNat | _ => 0
def Ctx.bnum (c : Ctx) : Nat := match c.fm with | .fr _ f => f.bn | _ => 0
def Ctx.cnum (c : Ctx) : Nat := match c.fm with | .fr _ f => f.cn | _ => 0
def Ctx.subn (c : Ctx) : Nat := match c.fm with | .fr _ f => f.subn | _ => 0
/-- Bits [lo + n - 1 : lo] of mod. -/
def Ctx.mods (c : Ctx) (lo n : Nat) : Nat := match c.fm with | .fr _ f => f.mods lo n | _ => 0

/-- A scalar operand's value, 32 or 64 bits, read in the lowest selected lane; where none is selected, as for SLEEP under an empty
EXEC, in lane 0 (R187 names no lane of a per-lane source, log 107). -/
def Ctx.scalar (c : Ctx) (fld : Nat) : DWord := c.comp (c.opnd fld) 0 c.low

/-! ### Results -/

/-- Word `r` of a component. -/
def wordPart (r : Nat) (x : DWord) : Word := if r == 0 then DWord.lo x else DWord.hi x

/-- Component `j` of a result with `k` components; the components above `k` are +0 (R271, R275). -/
def Dual.out (x : Dual) (k j : Nat) : DWord := if j ≤ k then x.comp j else 0

/-- Registers and components of a destination, `n` registers with `ktan` shadows each. -/
def destCells (n ktan : Nat) : List (Nat × Nat) :=
  (List.range n).flatMap fun r => (List.range (ktan + 1)).map fun j => (r, j)

/-- A vector destination written in the selected lanes (R51, R274). -/
def Group.writeV (g : Group) (num n ktan k : Nat) (sel : Mask) (x : Nat → Dual) : Group :=
  let g := (destCells n ktan).foldl (fun (h : Group) c =>
    h.setV (num + c.1) c.2 (Lanes.merge sel (Lanes.gen fun i => wordPart c.1 ((x i).out k c.2)) (h.v (num + c.1) c.2))) g
  { g with badV := g.badV.filter fun b => !(decide (num ≤ b / 64) && decide (b / 64 < num + n) && sel.getLsbD (b % 64)) }

/-- A scalar destination written once; 64 (`zero`) discards (R50). -/
def Group.writeS (g : Group) (num n ktan k : Nat) (x : Dual) : Group :=
  if 64 ≤ num then g
  else
    let g := (destCells n ktan).foldl (fun (h : Group) c => h.setS (num + c.1) c.2 (wordPart c.1 (x.out k c.2))) g
    { g with badS := g.badS.filter fun b => !(decide (num ≤ b) && decide (b < num + n)) }

/-- The destination of field d written: lane by lane, or once from the lowest selected lane. -/
def Ctx.writeTo (c : Ctx) (g : Group) (o : Opnd) (x : Nat → Dual) : Group :=
  if c.sel == 0 then g
  else if o.scal then g.writeS o.num o.n c.l.ktan c.k (x c.low)
  else g.writeV o.num o.n c.l.ktan c.k c.sel x

/-- Mask `n` written in the selected lanes, or in all 64 bits by a form that executes once (R82, R83). -/
def Ctx.writeMask (c : Ctx) (g : Group) (n : Nat) (once : Bool) (p : Nat → Bool) : Group :=
  if c.sel == 0 then g
  else g.setMask n (Mask.of fun i =>
    if once then p c.low else if c.sel.getLsbD i then p i else (g.mask n).getLsbD i)

/-- The lanes that a form computes in: the selected lanes, or the lowest of them where it executes once. -/
def Ctx.work (c : Ctx) : List Nat :=
  if c.sel == 0 then [] else if c.sh.s then [c.low] else c.sel.lanes

/-- An instruction that computes its destination lane by lane from its sources, with each lane's flags (R51, R109). -/
def Ctx.lanewise (c : Ctx) (fn : Nat → Dual × BitVec 5) : Out :=
  let r : Lanes (Dual × BitVec 5) := Lanes.gen fun i => if c.work.contains i then fn i else ({}, 0)
  .regs (c.writeTo c.g (c.opnd 3) fun i => (r.at i).1) (c.work.foldl (fun f i => f ||| (r.at i).2) 0)

/-- The same for results that raise no flag and have zero tangents: `fn` gives the value of one lane. -/
def Ctx.values (c : Ctx) (fn : Nat → DWord) : Out := .regs (c.writeTo c.g (c.opnd 3) fun i => { v := fn i }) 0

end Sys2Proof.Machine
end

