-- ==== Sys2Proof/Machine/Flags.lean ====
section
/-! DEFINITION. FLAGS (spec/03_encoding.md R43), the conditions of compares (spec/05_catalogue.md R83), and the signature
register (spec/20_reliability.md R382, R383). -/

namespace Sys2Proof.Machine

/-- FLAGS accumulate (R109). -/
def Group.raise (g : Group) (f : BitVec 5) : Group := { g with flags := g.flags ||| f }

/-- The condition of d [6:4] on two integers (R83); `.UN` and `.ORD` are illegal there. -/
def intCond (n : Nat) (a b : Int) : Bool :=
  match n with
  | 0 => a == b
  | 1 => a != b
  | 2 => decide (a < b)
  | 3 => decide (a ≤ b)
  | 4 => decide (b < a)
  | _ => decide (b ≤ a)

/-- One byte into a CRC-32C: polynomial 0x1EDC_6F41, bit-reflected (R382). -/
def crc32cByte (c : Word) (b : Byte) : Word :=
  (List.range 8).foldl (fun c _ => if c.getLsbD 0 then (c >>> 1) ^^^ 0x82F63B78 else c >>> 1) (c ^^^ b.setWidth 32)

/-- SIG after a word: bits [63:32] of the word as four bytes, low byte first (R382). -/
def sigFold (c : Word) (word : DWord) : Word := (leBytes 4 (DWord.hi word).toNat).foldl crc32cByte c

/-- What a word does to SIG beside folding itself in (R383, R382). -/
inductive SigRule where
  | fold | keep | reset
  deriving DecidableEq, Repr

/-- Class-7 words, SIGCHK, BECOME and WRSR of EXEC set SIG; WRSR of SIG is not folded in. -/
def sigRule : Form → SigRule
  | .fr 0x340 _ => .reset
  | .fr 0x084 f => if f.d == 0 then .reset else if f.d == 0x10 then .keep else .fold
  | .fr code _ => if code / 64 == 7 then .reset else .fold
  | .fi 0x383 _ => .reset
  | .fi code _ => if code / 64 == 7 then .reset else .fold
  | .pair _ _ _ => .fold
  | .event => .keep

/-- The DX prefix with count k (R58). -/
def dxWord (k : Nat) : DWord := (Form.word (.fr 0x3C0 { sub := BitVec.ofNat 3 k })).getD 0

/-- SIG after a word that retired; `one` is: the group held exactly one fragment and ran no handler. -/
def sigNext (sig : Word) (one : Bool) (dx : Option Nat) (fm : Form) : Word :=
  match sigRule fm with
  | .reset => 0xFFFFFFFF
  | .keep => sig
  | .fold =>
    if one then sigFold (match dx with | some k => sigFold sig (dxWord k) | none => sig) (fm.word.getD 0) else sig

end Sys2Proof.Machine
end

