-- ==== Sys2Proof/Machine/Issue.lean ====
section
/-! DEFINITION. How a word issues: the checks before it (spec/18_traps.md R341, R342, spec/03_encoding.md R46, R47,
spec/19_memfaults.md R361, spec/08_ordering.md R163), its retirement, and stops (spec/17_debug.md R325, R330). -/

namespace Sys2Proof.Machine

/-! ### Stops -/

/-- A stop record of a group, workgroup and number, in the order of R329; a 17th sets OVF and is not kept. Keys: core and
group. -/
def Debug.addStop (d : Debug) (who : Nat × Nat) (r : List DWord) : Debug :=
  let d := { d with halted := d.halted ++ [who] }
  if 16 ≤ d.stops.length then { d with ovf := true }
  else
    let key (x : List DWord) : Nat :=
      let p := x.getD 5 0
      ((p.extractLsb' 30 2).toNat * 144 + (p.extractLsb' 26 4).toNat * 12 + (p.extractLsb' 22 4).toNat) * 32 + (p.extractLsb' 17 5).toNat
    let (lo, hi) := d.stops.span fun x => decide (key x ≤ key r)
    { d with stops := lo ++ [r] ++ hi, stopped := d.stopped.take lo.length ++ [who] ++ d.stopped.drop lo.length }

/-- A group's stop record replaced at the end of its step (R325, R329). -/
def Debug.setStop (d : Debug) (who : Nat × Nat) (r : List DWord) : Debug :=
  { d with
    stops := d.stops.mapIdx fun i x => if d.stopped[i]? == some who then r else x
    stepping := none, stepDone := false, stepFid := none }

/-- The stop of a group: of one that a step runs, the step's own. -/
def Debug.stopGroup (d : Debug) (who : Nat × Nat) (r : List DWord) : Debug :=
  if d.stepping == some who then d.setStop who r else d.addStop who r

/-- The stop record of a fragment (R330). -/
def State.stopRecord (s : State) (w : Workgroup) (g : Group) (ent : Nat) (f : Frag) (cause : Nat) (pc hit : DWord) (code : Word)
    (addr : Nat) : List DWord :=
  [BitVec.ofNat 64 (s.now (coreDie w.core)), fields [(60, cause), (0, (pc &&& 0x1FF_FFFF_FFFF_FFFF).toNat)],
    g.wid.at f.exec.low, f.exec, hit,
    fields (posFields w.wgx w.core g.grp ++ [(13, ent), (0, if g.trap.isSome then 1 else 0)]), fields [(32, code.toNat)],
    BitVec.ofNat 64 addr]

/-- A fragment stops: its record is kept and the package freezes, the other partitions within 300 ns of the first stop
(R325, R328, R329). -/
def State.stopAt (s : State) (run grp ent : Nat) (cause : Nat) (pc hit : DWord) (code : Word) (addr : Nat) : State :=
  match s.wg? run, s.group? run grp with
  | some w, some g =>
    match g.frag? ent with
    | some f =>
      { s with dbg := { s.dbg.stopGroup (run, grp) (s.stopRecord w g ent f cause pc hit code addr) with
                  frozen := true, frozenAt := if s.dbg.frozen then s.dbg.frozenAt else s.dtime
                  unfrozen := !s.dbg.frozen || s.dbg.unfrozen }
               cursor := { s.cursor with dx := none } }
    | none => s
  | _, _ => s

/-! ### Checks before issue -/

/-- EXEC-independent predicate mask of a word (R49, R179). -/
def predMask (g : Group) (pm : BitVec 3) (pn : Bool) : Mask :=
  if pn then ~~~ g.mask pm.toNat else g.mask pm.toNat

/-- The count k of a word (R271): KTAN, or the prefix's count, for D-marked and paired words; else 0. -/
def countK (fm : Form) (ktan : Nat) (dx : Option Nat) : Nat :=
  if fm.dual then (match dx with | some j => j | none => ktan) else 0

/-- The context of a word at the cursor. -/
def State.ctx? (s : State) (fm : Form) : Option Ctx :=
  match s.wg? s.cursor.wg, s.group? s.cursor.wg s.cursor.grp with
  | some w, some g =>
    match g.frag? s.cursor.ent, s.launch? w.lid with
    | some f, some l =>
      let sh := fm.shape
      some { s, w, g, f, l, ent := s.cursor.ent, pc := s.cursor.pc
             tpc := (match s.cursor.dx with | some x => x.2 | none => s.cursor.pc)
             k := countK fm l.ktan (s.cursor.dx.map (·.1)), fm, sh, sel := f.exec &&& predMask g sh.pm sh.pn }
    | _, _ => none
  | _, _ => none

/-- The lanes that a BRA or BRC word sends to its target (R179). -/
def Ctx.taken (c : Ctx) : Mask :=
  let m := match c.fm with
    | .fr 0x1C1 f => c.g.mask f.bn
    | .fi 0x1C1 f => c.g.mask f.a.toNat
    | _ => BitVec.allOnes 64
  c.f.f &&& predMask c.g c.sh.pm c.sh.pn &&& m

def formCode : Form → Nat
  | .fr code _ | .fi code _ => code
  | _ => 0xFFFF

/-- The ILLEGAL reason of a word (R61, R343), 0 for none: its own lowest case, case 9 for a word that cannot take its
prefix, and what the handler forbids or requires (R335, R337, R202). -/
def Ctx.illegal (c : Ctx) (bit0 : Bool) : Nat :=
  let own := (illegalForm (min c.l.vregs maxVregs) (min c.l.sregs maxSregs) c.l.ktan bit0 c.fm).getD 0
  let dx := if c.s.cursor.dx.isSome && !c.fm.dual then 9 else 0
  if own != 0 && dx != 0 then min own dx
  else if own + dx != 0 then own + dx
  else
    let code := formCode c.fm
    if c.g.trap.isSome then
      if code == 0x1C6 || code == 0x1C7 || code == 0x1C8 then 10
      else if (code == 0x1C0 || code == 0x1C1) && c.taken != 0 && c.taken != c.f.f then 10
      else if code == 0x340 then 13
      else 0
    else if code == 0x381 then 11
    else 0

/-- The words that R361 holds back while an access of the fragment is not accepted. -/
def heldWord (code : Nat) : Bool :=
  [0x200, 0x201, 0x204, 0x207, 0x240, 0x242, 0x243, 0x300, 0x301, 0x304, 0x305, 0x340].contains code || code / 64 == 10

/-- A replayable access with a lane not yet accepted that the fragment issued, or that covers lanes which it holds since a
split or a fusion (R361, R366). -/
def Group.unaccepted (g : Group) (f : Frag) : Option Access :=
  g.accs.find? fun a => (a.fid == f.fid || (a.exec &&& f.f) != 0) && a.parts.any fun p => !p.accepted

/-- A fragment held by R361: parked where a lane has faulted (R362), else stalled. -/
def Access.holdState (a : Access) : FragSt :=
  if a.parts.any fun p => (match p.st with | .faulted _ => true | _ => false) then .parked a.id else .other

/-- An acquire of the group has not returned (R163, R172): nothing issues. -/
def Group.acqHold (g : Group) : Bool := g.accs.any (·.acq)

/-- A trap has suspended the fragment: another one runs the handler (R334). -/
def Group.suspends (g : Group) (f : Frag) : Bool := match g.trap with | some fid => f.fid != fid | none => false

/-- A FENCE, or the acquire of a completed BWAIT, of another fragment waits (R162, R227). A fragment that a trap has suspended
holds back nothing (R334). -/
def Group.fenceHold (g : Group) (ent : Nat) : Bool :=
  g.frags.any fun p => p.1 != ent && (p.2.st == .fence || p.2.st == .acquire) && !g.suspends p.2

/-- Every in-flight counter of the group is 0. -/
def Group.drained (g : Group) : Bool := g.ctrs.toList.all (·.isEmpty)

/-- The acquires of completed BWAITs end in the group at the cursor once the counters are 0, of fragments in the reserve too,
which could not come on chip while their acquire holds the group (R162, R175, R227). -/
def State.passAcquire (s : State) : State :=
  match s.wg? s.cursor.wg, s.group? s.cursor.wg s.cursor.grp with
  | some w, some g =>
    let waits (x : Nat × Frag) : Bool := g.frag? x.1 == some x.2 && x.2.st == .acquire && !g.suspends x.2
    if g.frags.any waits && g.drained then
      (s.dropUt w.core).putGroup w.run { g with frags := g.frags.map fun x => if waits x then (x.1, { x.2 with st := .ready }) else x }
    else s
  | _, _ => s

/-- The synchronising operations of deterministic mode (R298). -/
def syncWord (code : Nat) : Bool :=
  [0x207, 0x240, 0x241, 0x281, 0x282, 0x283, 0x286, 0x287, 0x2C0, 0x2C1].contains code

def isDest (o : Opnd) : Bool := match o.role with | .src => false | _ => true

/-- Whether a register that an operand names is empty (R46); read-only sources are always full. -/
def Group.emptyOpnd (g : Group) (o : Opnd) : Bool :=
  if o.scal && decide (64 ≤ o.num) then false
  else (List.range o.n).any fun r => !g.full o.scal (o.num + r)

/-- The lanes of an operand's registers that are poisoned (R378); a scalar register's are all of the group's lanes (R379). -/
def Group.badLanes (g : Group) (o : Opnd) : Mask :=
  if o.scal then
    if 64 ≤ o.num then 0
    else if (List.range o.n).any fun r => g.badS.contains (o.num + r) then g.live else 0
  else Mask.of fun i => (List.range o.n).any fun r => g.badV.contains ((o.num + r) * 64 + i)

/-- The registers of an operand that are poisoned (R381). -/
def Group.badRegs (g : Group) (o : Opnd) : List Nat :=
  ((List.range o.n).map (o.num + ·)).filter fun r =>
    if o.scal then decide (o.num < 64) && g.badS.contains r else g.badV.any fun b => b / 64 == r

/-- TINFO of EMPTY for an operand (R344). -/
def emptyInfo (o : Opnd) : DWord :=
  fields [(0, if o.fld == 3 then 2 else o.fld), (2, o.num), (9, if o.scal then 1 else 0)]

/-- What stands before a word's own effect, in the order of R341: the hold of an acquire, ILLEGAL, the hold of R361,
the destination interlock, EMPTY, empty sources, poisoned sources, and the turn of a synchronising operation. Of several empty
sources whose empty action is 1, EMPTY reports the first of a, b, c (log 110). -/
def Ctx.blocked (c : Ctx) (bit0 : Bool) : Option Out :=
  if c.f.st == .acquire then some (.stall .acquire)
  else if c.g.acqHold || c.g.fenceHold c.ent then some (.stall .other)
  else if c.illegal bit0 != 0 then some (.trap 0x01 (BitVec.ofNat 64 (c.illegal bit0)) c.sel)
  else
    match (if heldWord (formCode c.fm) then c.g.unaccepted c.f else none) with
    | some a => some (.stall a.holdState)
    | none =>
      if c.sh.ops.any fun o => isDest o && c.g.emptyOpnd o then some (.stall .stalled)
      else
        let srcs := c.sh.ops.filter fun o => !isDest o
        match srcs.find? fun o => o.ea && c.g.emptyOpnd o with
        | some o =>
          let best := srcs.foldl (fun (b : Opnd) x =>
            if x.ea && c.g.emptyOpnd x && decide (x.fld < b.fld) then x else b) o
          some (.trap 0x03 (emptyInfo best) c.sel)
        | none =>
          if srcs.any c.g.emptyOpnd then some (.stall .reading)
          else
            let ops := c.sh.ops.filter fun o => o.role != .dst
            let bad := ops.foldl (fun (m : Mask) o => m ||| c.g.badLanes o) 0
            if bad != 0 then some (.poison bad 1 0 ((ops.flatMap c.g.badRegs).min?.getD 0))
            else if c.l.det && syncWord (formCode c.fm) && !c.g.turn && c.sel != 0 then some (.stall .other)
            else none

/-! ### Long-latency results without memory (R46) -/

/-- The registers of a destination marked empty, both registers of a pair included. -/
def Group.setEmpty (g : Group) (scal : Bool) (num n : Nat) : Group :=
  if scal then (if 64 ≤ num then g else { g with emptyS := union g.emptyS ((List.range n).map (num + ·)) })
  else { g with emptyV := union g.emptyV ((List.range n).map (num + ·)) }

def Group.setFull (g : Group) (scal : Bool) (num n : Nat) : Group :=
  let out (l : List Nat) := l.filter fun r => !(decide (num ≤ r) && decide (r < num + n))
  if scal then { g with emptyS := out g.emptyS } else { g with emptyV := out g.emptyV }

/-- The registers that a group written by `w` holds for a destination: what the pending result will write. -/
def Group.cells (g : Group) (o : Opnd) (ktan : Nat) : List (Nat × Lanes Word) × List (Nat × Word) :=
  let cs := destCells o.n ktan
  if o.scal then ([], if 64 ≤ o.num then [] else cs.map fun c => (o.num + c.1 + 64 * c.2, g.s (o.num + c.1) c.2))
  else (cs.map fun c => (o.num + c.1 + 128 * c.2, g.v (o.num + c.1) c.2), [])

/-- The result of a pending long-latency operation, as the group `h` holds it in the registers `os`. -/
def Ctx.pend (c : Ctx) (s : State) (g h : Group) (os : List Opnd) (fl : BitVec 5) : State :=
  let (id, s) := s.new
  let cs := os.map fun o => h.cells o c.l.ktan
  let g := os.foldl (fun (g : Group) o => g.setEmpty o.scal o.num o.n) g
  s.putGroup c.w.run { g with longs := g.longs ++ [{
    id, dests := os.flatMap fun o => if o.scal && decide (64 ≤ o.num) then [] else (List.range o.n).map fun r => (o.scal, o.num + r)
    writes := cs.flatMap (·.1), swrites := cs.flatMap (·.2), sel := c.sel, flags := fl }] }

/-- A long-latency word whose lanes compute `fn`: without a selected lane it has no effect (R46). -/
def Ctx.long (c : Ctx) (fn : Nat → Dual × BitVec 5) : Out :=
  if c.sel == 0 then .regs c.g 0
  else
    match c.lanewise fn with
    | .regs h fl => .done (c.pend c.s c.g h [c.opnd 3] fl)
    | x => x

/-! ### Retirement -/

/-- A fragment that goes on behind the word at `pc`. -/
def Frag.pass (f : Frag) (pc : DWord) : Frag :=
  { f with
    pc := pc + 8, sent := pc
    st := match f.st with | .stalled | .reading | .waitc _ | .mwait | .fence | .held | .other => .ready | x => x }

/-- A fragment issues a word: what R176, R187 and R293 look at. -/
def Group.countIssue (g : Group) (ent cyc : Nat) : Group :=
  let g := match g.frag? ent with
    | some f => g.putFrag ent { f with stamp := cyc }
    | none => g
  { g with lastIssue := cyc, issuedAt := some cyc }

/-- The counts and the signature of a group whose fragment completed a word; `pc` moves it past the word there. -/
def Group.advance (g : Group) (l : Launch) (ent : Nat) (pc : Option DWord) (sig : Word) : Group :=
  let g := match g.frag? ent, pc with
    | some f, some p => g.putFrag ent (f.pass p)
    | _, _ => g
  let lclk := g.lclk + 1
  { g with lclk, retired := g.retired + 1, turn := false, sig, atEnd := l.det && decide (lclk % l.quantum = 0) }

/-- A word that completes as it issues. -/
def Group.retire (g : Group) (l : Launch) (ent cyc : Nat) (pc : Option DWord) (sig : Word) : Group :=
  (g.countIssue ent cyc).advance l ent pc sig

/-- The group holds exactly one fragment and runs no handler (R382). -/
def Group.alone (g : Group) : Bool := decide (g.frags.length = 1) && g.trap.isNone

/-- The same for the word of a context: `next` moves its fragment past it. -/
def Ctx.retire (c : Ctx) (next : Bool) (sig : Option Word) (g : Group) : Group :=
  g.retire c.l c.ent c.s.cyc (if next then some c.pc else none)
    (sig.getD (sigNext g.sig c.g.alone (c.s.cursor.dx.map (·.1)) c.fm))

/-- TFIRST, and the prefix used up. -/
def State.issued (s : State) (c : Ctx) : State :=
  let t := s.now (coreDie c.w.core)
  { s.onLaunch c.w.lid (fun l => { l with tfirst := some (l.tfirst.getD t) }) with cursor := { s.cursor with dx := none } }

/-- The word counts as issued in the core's series record (R333). -/
def State.retired (s : State) (c : Ctx) : State := (s.issued c).perf c.w.core 0 1

/-- The fragment waits in a state; it tries the word again, which it keeps (R342). -/
def State.waitIn (s : State) (c : Ctx) (st : FragSt) : State :=
  { s.onGroup c.w.run c.g.grp (fun g => match g.frag? c.ent with
      | some f => g.putFrag c.ent { f with st, kept := c.s.cursor.words }
      | none => g) with cursor := { s.cursor with dx := none } }

/-- The state that a word's outcome gives. -/
def Ctx.finish (c : Ctx) (out : Out) : State :=
  let run := c.w.run
  match out with
  | .regs g fl => ((c.s.putGroup run (c.retire true none (g.raise fl))).raise c.w.lid fl).retired c
  | .done s => (s.onGroup run c.g.grp (c.retire true none)).retired c
  | .flow s sig => (s.onGroup run c.g.grp (c.retire false (some sig))).retired c
  | .trap code info mask =>
    c.s.trap run c.g.grp c.ent (if code == 0x10 then c.pc + 8 else c.tpc) c.tpc code info mask
  | .stall st => c.s.waitIn c st
  | .wait s st => (match st with
      | .queue _ => ((s.waitIn c st).onGroup run c.g.grp fun g => g.countIssue c.ent s.cyc).perf c.w.core 0 1
      | _ => s.waitIn c st).issued c
  | .state s => { s with cursor := { s.cursor with dx := none } }
  | .poison lanes array ia index => { c.s.consume run c.g.grp lanes array ia c.tpc index with cursor := { c.s.cursor with dx := none } }
  | .stop hit addr => c.s.stopAt run c.g.grp c.ent 3 c.tpc hit 0 addr

/-- A word runs: the checks, then its own effect `body`, then retirement. Where the cursor names no fragment nothing
happens. -/
def runWord (fm : Form) (body : Ctx → Out) (s : State) : State :=
  let s := s.passAcquire
  match s.ctx? fm with
  | none => s
  | some c =>
    match c.blocked false with
    | some out => c.finish out
    | none => c.finish (body c)

/-- A word that is no instruction: it takes the illegal-instruction trap with the lowest case that applies. -/
def State.illegalWord (s : State) (case : Nat) (pm : BitVec 3) (pn : Bool) : State :=
  let s := s.passAcquire
  match s.ctx? .event with
  | none => s
  | some c =>
    let case := if c.s.cursor.dx.isSome then min case 9 else case
    if c.f.st == .acquire then c.finish (.stall .acquire)
    else if c.g.acqHold || c.g.fenceHold c.ent then c.finish (.stall .other)
    else c.finish (.trap 0x01 (BitVec.ofNat 64 case) (c.f.exec &&& predMask c.g pm pn))

end Sys2Proof.Machine
end

