-- ==== Sys2Proof/Machine/Access.lean ====
section
/-! DEFINITION. Accesses at issue: addresses and their checks (spec/07_memory.md R132, R144-R146, R153, R154, R230,
spec/18_traps.md R341, R346), watchpoints (spec/17_debug.md R327), what is sent, and held stores (spec/08_ordering.md
R173, spec/15_launch.md R295, R297). -/

namespace Sys2Proof.Machine

/-! ### Addresses -/

/-- A lane's address in one plane, exact (a plane address can leave the 64-bit space, R341 rank 10). -/
structure LaneAddr where
  lane : Nat
  plane : Nat
  va : Int
  deriving DecidableEq, Repr

/-- TYPE of a memory word (R144, R145). -/
def Ctx.memTy (c : Ctx) : Nat := match c.fm with | .fi _ f => f.memType | _ => c.mods 6 4

/-- The signed offset of a lane: b, or imm32 [27:0] of an FI word (R145). -/
def Ctx.offset (c : Ctx) (lane : Nat) : Int :=
  match c.fm with
  | .fi _ f => signed 28 f.imm.toNat
  | _ => signed 32 (c.src 1 lane).w.toNat

/-- The base of a lane: a scalar position, where a per-lane source gives each lane its own value (R45). -/
def Ctx.base (c : Ctx) (lane : Nat) : Nat := (c.comp (c.opnd 0) 0 lane).toNat

/-- The global address of a lane (R145). -/
def Ctx.va (c : Ctx) (lane : Nat) : Nat := (((c.base lane : Int) + c.offset lane) % 2 ^ 64).toNat

/-- The scratchpad offset of a lane (R145). -/
def Ctx.spadOff (c : Ctx) (lane : Nat) : Nat := (((c.base lane : Int) + c.offset lane) % 2 ^ 32).toNat

/-- Global addresses of lanes in planes 0 to k (R153). -/
def Ctx.globAddrs (c : Ctx) (lanes : List Nat) (k : Nat) (va : Nat → Nat) : List LaneAddr :=
  lanes.flatMap fun i => (List.range (k + 1)).map fun j =>
    { lane := i, plane := j, va := (va i : Int) + j * signed 64 c.l.tplane.toNat }

/-- Scratchpad offsets of lanes in planes 0 to k, modulo 2^32. -/
def Ctx.spadAddrs (c : Ctx) (lanes : List Nat) (k : Nat) (off : Nat → Nat) : List LaneAddr :=
  lanes.flatMap fun i => (List.range (k + 1)).map fun j =>
    { lane := i, plane := j, va := ((off i + j * c.l.splane) % 2 ^ 32 : Nat) }

/-- The copy aperture (R230). -/
def inAperture (va : Int) : Bool := decide (0x1FF_FFFF_FFFF_F000 ≤ va) && decide (va ≤ 0x1FF_FFFF_FFFF_FFFF)

/-- An access in a tangent plane falls in the aperture, where an access acts once and has no planes (R230, R231). -/
def planeInAperture (as : List LaneAddr) : Bool := as.any fun a => a.plane != 0 && inAperture a.va

/-- A trap for the lanes of one code: TMASK names them, TINFO the address of the lowest (WID, lane) (R340, R346). -/
def Ctx.laneTrap (c : Ctx) (code : Nat) (bad : List (LaneAddr × Nat)) : Out :=
  let m := Mask.of fun i => bad.any fun x => x.1.lane == i
  let low := c.g.lowLane m
  match bad.find? fun x => x.1.lane == low with
  | none => .trap code 0 m
  | some (a, why) =>
    .trap code (fields [(0, (a.va % 2 ^ 57).toNat), (57, a.plane), (60, why)]) m

/-- What a global access needs of its range. -/
inductive Need where
  | read | write | both
  deriving DecidableEq, Repr

def Need.ok : Need → Range → Bool
  | .read, x => x.r
  | .write, x => x.w
  | .both, x => x.w

/-- The range violation of an access, `none` where it is legal; reasons of R346. `hostOk` says whether a host-memory
access is one that PCIe carries (R170). -/
def Launch.violation (l : Launch) (need : Need) (size : Nat) (hostOk : Bool) (va : Int) : Option Nat :=
  match l.rangeOf va.toNat with
  | none => some 0
  | some x =>
    if x.base + x.size < va.toNat + size then some 1
    else if !need.ok x then some 2
    else if !hostOk && region (x.iaOf va.toNat) == .host then some 3
    else none

/-- Ranks 10 to 12 for a global access: PLANE, MISALIGN, RANGE (R341). -/
def Ctx.checkGlobal (c : Ctx) (as : List LaneAddr) (align size : Nat) (need : Need) (hostOk : Bool := true) : Option Out :=
  let wrap := as.filter fun a => decide (a.va < 0) || decide ((2 ^ 64 : Int) ≤ a.va)
  if !wrap.isEmpty then some (c.laneTrap 0x12 (wrap.map fun a => (a, 0)))
  else
    let mis := as.filter fun a => a.va % (align : Int) != 0
    if !mis.isEmpty then some (c.laneTrap 0x06 (mis.map fun a => (a, 0)))
    else
      let bad := as.filterMap fun a => (c.l.violation need size hostOk a.va).map fun r => (a, r)
      if !bad.isEmpty then some (c.laneTrap 0x07 bad) else none

/-- Ranks 11 and 13 for a scratchpad access: MISALIGN, SPADB. -/
def Ctx.checkSpad (c : Ctx) (as : List LaneAddr) (align size : Nat) : Option Out :=
  let mis := as.filter fun a => a.va % (align : Int) != 0
  if !mis.isEmpty then some (c.laneTrap 0x06 (mis.map fun a => (a, 0)))
  else
    let bad := as.filter fun a => decide ((c.l.spad : Int) < a.va + size)
    if !bad.isEmpty then some (c.laneTrap 0x08 (bad.map fun a => (a, 0))) else none

/-- OBJECT with a reason and an object number (R347). -/
def Ctx.object (c : Ctx) (reason num : Nat) : Out := .trap 0x09 (fields [(0, reason), (8, num)]) c.sel

/-! ### Watchpoints (R327) -/

/-- Whether an access of `size` bytes at `va` matches watchpoint `n`. -/
def Debug.watch (d : Debug) (n : Nat) (wr : Bool) (rd : Bool) (va : Int) (size : Nat) : Bool :=
  let ctl := Map.look 0 d.wctl n
  let base := (Map.look 0 d.wbase n).toNat
  let len := 2 ^ (ctl.extractLsb' 0 6).toNat
  ctl.getLsbD 63 && ((rd && ctl.getLsbD 62) || (wr && ctl.getLsbD 61))
    && decide ((base : Int) < va + size) && decide (va < ((base + len : Nat) : Int))

/-- Rank 17: the watchpoint stop of an access, before any effect. -/
def Ctx.watchpoint (c : Ctx) (as : List LaneAddr) (size : Nat) (rd wr : Bool) : Option Out :=
  if !c.s.dbg.en then none
  else
    let hit := as.filter fun a => (List.range 4).any fun n => c.s.dbg.watch n wr rd a.va size
    match hit.find? fun a => a.lane == c.g.lowLane (Mask.of fun i => hit.any fun x => x.lane == i) with
    | none => none
    | some a => some (.stop (Mask.of fun i => hit.any fun x => x.lane == i) a.va.toNat)

/-! ### Counters and outstanding accesses (R143, R155) -/

/-- Counter numbers: 0 G, 1 S, 2 X, 3 Q. -/
def Group.ctr (g : Group) (p : Nat) : List (Nat × Bool) := g.ctrs.get (Fin.ofNat 4 p)
def Group.setCtr (g : Group) (p : Nat) (x : List (Nat × Bool)) : Group :=
  { g with ctrs := g.ctrs.set (p % 4) x (Nat.mod_lt p (by decide)) }

/-- A counter raised by access `id`. -/
def Group.raiseCtr (g : Group) (p id : Nat) : Group := g.setCtr p (g.ctr p ++ [(id, false)])

/-- Access `id` has returned: counters fall in issue order. -/
def Group.lowerCtr (g : Group) (id : Nat) : Group :=
  (List.range 4).foldl (fun g p =>
    g.setCtr p (((g.ctr p).map fun x => if x.1 == id then (x.1, true) else x).dropWhile (·.2))) g

/-- Whether an access belongs to the outstanding set. -/
def Access.outstanding (a : Access) : Bool :=
  match a.kind with
  | .push => (match a.q with | some q => q.granted | none => false) && a.parts.any fun p => p.st != .done
  | .store | .scatter | .atomic .. | .qinit | .trigger .. => a.parts.isEmpty || a.parts.any fun p => p.st != .done
  | _ => false

/-- The release part of R162 at a scope: the outstanding set is empty, and from `.DIE` on DTIME ≥ MAXW. -/
def Ctx.released (c : Ctx) (scope : Nat) : Bool :=
  !c.g.accs.any Access.outstanding && (decide (scope < 2) || decide (c.g.maxw ≤ c.s.now (coreDie c.w.core)))

/-! ### Held stores -/

/-- Byte `a` as the latest held store leaves it, if one names it. A held RED is no store: a load that meets one gives the byte
without it (R173, R297, log 104). -/
def overlayByte (hs : List Held) (spad : Bool) (a : Nat) : Option Byte :=
  hs.foldl (fun b h =>
    if h.spad == spad && h.red.isNone && h.trigger.isNone && decide (h.ia ≤ a) && decide (a < h.ia + h.size)
    then some (BitVec.ofNat 8 (h.dat / 256 ^ (a - h.ia))) else b) none

/-- The held stores that a load of the group sees: its own in deterministic mode, its workgroup's in the other two. -/
def Ctx.seen (c : Ctx) : List Held :=
  if c.l.det then c.w.held.filter fun h => h.grp == c.g.grp && !h.view
  else if c.l.holds then c.w.held else []

/-- The overlay of `n` bytes at `a`: data and byte mask. -/
def overlay (hs : List Held) (spad : Bool) (a n : Nat) : Nat × Nat :=
  (List.range n).foldl (fun x i =>
    match overlayByte hs spad (a + i) with
    | some b => (x.1 + b.toNat * 256 ^ i, x.2 + 2 ^ i)
    | none => x) (0, 0)

/-- Whether a byte that an overlay gives is poisoned. -/
def overlayBad (hs : List Held) (a n : Nat) : Bool :=
  (List.range n).any fun i => hs.foldl (fun b h =>
    if !h.spad && h.red.isNone && h.trigger.isNone && decide (h.ia ≤ a + i) && decide (a + i < h.ia + h.size) then h.bad else b) false

/-- `n` bytes with an overlay applied. -/
def applyOverlay (v n dat mask : Nat) : Nat :=
  (List.range n).foldl (fun x i =>
    x + (if mask.testBit i then dat / 256 ^ i % 256 else v / 256 ^ i % 256) * 256 ^ i) 0

/-- Bytes that a launch's workgroups hold, and its retired runs that are still to be compared, against HOLD × 64 KiB (R295,
R300). -/
def State.heldBytes (s : State) (lid : Nat) : Nat :=
  let size (n : Nat) (hs : List Held) : Nat := hs.foldl (fun n h => n + h.size) n
  let runs := match s.launch? lid with | some l => l.streams | none => []
  runs.foldl (fun n x => size n x.2.2) ((s.wgs.filter fun w => w.lid == lid).foldl (fun n w => size n w.held) 0)

/-! ### Sending -/

/-- A part of a global access; it is accepted at issue where R361 says so. -/
def Ctx.part (c : Ctx) (a : LaneAddr) (size dat cmp : Nat) : Part :=
  match c.l.rangeOf a.va.toNat with
  | none => { lane := a.lane, plane := a.plane, va := a.va.toNat, size, dat, cmp, accepted := true, st := .walked }
  | some x =>
    let ia := x.iaOf a.va.toNat
    let free := x.pin || region ia != .hbm
    { lane := a.lane, plane := a.plane, va := a.va.toNat, ia, size, dat, cmp, accepted := free, st := if free then .walked else .issued }

/-- The array that a poisoned part came from (R376): L2, or the memory behind it. -/
def State.arrayOf (s : State) (p : Part) : Nat := if (s.l2? (p.ia / 128)).isSome then 7 else 8

/-- The part has still to be served, or applied, at its home. -/
def Part.unapplied (p : Part) : Bool := p.st != .served && p.st != .done

/-- Whether a part's bytes overlap `n` bytes at `ia`. -/
def Part.overlaps (p : Part) (ia n : Nat) : Bool := decide (p.ia < ia + n) && decide (ia < p.ia + p.size)

/-- Accesses that write memory at a home. -/
def AccKind.writes : AccKind → Bool
  | .store | .scatter | .atomic .. | .push | .qinit => true
  | _ => false

/-- What the lane's own latest write to byte `a` before access `before`, of those not yet acknowledged, leaves there: its
value for a store, `some none` for any other write. -/
def Group.ownByte (g : Group) (before lane a : Nat) : Option (Option Nat) :=
  g.accs.foldl (fun o x =>
    if x.kind.writes && decide (x.id < before) then
      x.parts.foldl (fun o p =>
        if p.lane == lane && p.st != .done && p.overlaps a 1
        then some (match x.kind with | .store | .scatter => some (p.dat / 256 ^ (a - p.ia) % 256) | _ => none) else o) o
    else o) none

/-- Whether bytes `v` in the core's L1 are what access `before` may read: what the lane's own earlier pending writes leave,
with no later write of the lane there (R147, R160). -/
def Group.ownAgrees (g : Group) (before lane ia n v : Nat) : Bool :=
  (List.range n).all (fun i =>
    match g.ownByte before lane (ia + i) with
    | none => true
    | some none => false
    | some (some b) => v / 256 ^ i % 256 == b) &&
  !(g.accs.any fun x => x.kind.writes && decide (before < x.id) && x.parts.any fun p => p.lane == lane && p.overlaps ia n)

/-- Accesses that bring memory's data to a register, L1 or a queue element. -/
def AccKind.fills : AccKind → Bool
  | .load | .gather | .pop | .pref => true
  | _ => false

/-- An earlier read of the lane of these bytes has still to be served (R159); `before` is the reading access. -/
def Group.readPending (g : Group) (before lane ia n : Nat) : Bool :=
  g.accs.any fun b => decide (b.id < before) && b.kind.fills && b.kind != .pref &&
    b.parts.any fun q => q.lane == lane && q.overlaps ia n && q.unapplied

/-- The bytes of a part that a relaxed load finds in its core's L1 (R140): a lane may read its own core's copy where its
own earlier accesses to the bytes leave that copy in their order (R147, R159). -/
def Ctx.l1Hit (c : Ctx) (p : Part) : Option Nat :=
  match cacheHit (c.s.core c.w.core).l1 (c.s.now (coreDie c.w.core)) p.ia with
  | none => none
  | some bs =>
    let v := leNat ((bs.drop (p.ia % 16)).take p.size)
    if c.g.ownAgrees c.s.fresh p.lane p.ia p.size v && !c.g.readPending c.s.fresh p.lane p.ia p.size &&
      !(c.s.core c.w.core).passes c.w.run c.g.grp p.lane p.ia p.size then some v else none

/-- A load part at issue: a hit is captured, anything else goes to its home with the overlay of held stores. -/
def Ctx.loadPart (c : Ctx) (a : LaneAddr) (size : Nat) (acq : Bool) : Part :=
  let p := c.part a size 0 0
  let (dat, mask) := overlay c.seen false p.ia size
  let p := { p with dat, cmp := mask, bad := overlayBad c.seen p.ia size }
  if acq then p
  else match c.l1Hit p with
    | some v => { p with res := applyOverlay v size dat mask, st := .served, accepted := true }
    | none => p

/-- The group with a new access and its destination empty. -/
def Group.addAccess (g : Group) (a : Access) : Group :=
  let g := { g with accs := g.accs ++ [a] }
  match a.dest with
  | some d => g.setEmpty d.scal d.num d.n
  | none => g

def State.onAcc (s : State) (run grp acc : Nat) (f : Access → Access) : State :=
  s.onGroup run grp fun g => { g with accs := g.accs.map fun a => if a.id == acc then f a else a }

/-- A field-d destination of a long-latency word; `zero` discards. -/
def Ctx.dest (c : Ctx) : Option Dest :=
  let o := c.opnd 3
  if o.scal && decide (64 ≤ o.num) then none else some { scal := o.scal, num := o.num, n := o.n }

/-- An access of the word at issue. -/
def Ctx.access (c : Ctx) (id : Nat) (kind : AccKind) (parts : List Part) : Access :=
  { id, kind, pc := c.tpc, fid := c.f.fid, ent := c.ent, exec := c.f.exec, parts, k := c.k, sel := c.sel }

/-- Bytes held at the homes of their lines (R333). -/
def State.countHeld (s : State) (hs : List Held) : State :=
  hs.foldl (fun s h => if h.spad || h.view || h.trigger.isSome then s else s.perfSlice (s.homeSlice h.ia) 6 h.size) s

/-- Stores held instead of sent, each with its order (R173); `spad` for scratchpad stores of deterministic mode. -/
def Ctx.hold (c : Ctx) (s : State) (hs : List Held) : State :=
  let n := s.fresh
  let hs := hs.mapIdx fun i h => { h with ord := n + i, grp := c.g.grp, store := n + 1 }
  let s := s.countHeld hs
  ({ s with fresh := n + hs.length }).onWg c.w.run fun w => { w with held := w.held ++ hs }

/-- The acceptance of held data (R361): its lanes that need a walk, with the KIND of their record. The data has its place in
the order of holding from its issue on. -/
def Ctx.acceptHeld (c : Ctx) (s : State) (kind : Nat) (ps : List Part) : State :=
  let ps := ps.filter fun p => !p.accepted
  if ps.isEmpty then s
  else
    let (id, s) := s.new
    s.onGroup c.w.run c.g.grp fun g => g.addAccess { c.access id (.accept kind) ps with glob := false }

/-- Whether the launch's hold reserve has no room for `n` more bytes (contained and redundant modes). -/
def Ctx.holdFull (c : Ctx) (n : Nat) : Bool :=
  (c.l.cont || c.l.redn) && decide (c.l.hold * 65536 < c.s.heldBytes c.l.lid + n)

/-- The L1 line of an IA is used with a hint (R142). -/
def State.touchL1 (s : State) (core ia hint : Nat) : State :=
  s.onCore core fun x => { x with
    l1 := x.l1.map fun y => if y.line == ia / 128 then { y with hint := max y.hint hint, stamp := s.cyc } else y }

/-- A store's effect on the issuing core's L1 (R140). -/
def State.storeL1 (s : State) (core ia size dat : Nat) : State :=
  s.onCore core fun x => { x with l1 := cacheStore x.l1 (s.now (coreDie core)) ia (leBytes size dat) }

end Sys2Proof.Machine
end

