-- ==== Sys2Proof/Machine/Mem.lean ====
section
/-! DEFINITION. Loads, stores, prefetch and waits on memory: class 8 but the atomics and FENCE (spec/07_memory.md
R144-R153, spec/12_tiles.md R230-R233, spec/19_memfaults.md R361). -/

namespace Sys2Proof.Machine

/-- W / 8 of the word's TYPE (R52). -/
def Ctx.bytes (c : Ctx) : Nat := tyWidth c.memTy / 8

/-- The lanes that a memory word acts in; LDU and WAITM execute once (R146, R151), for their lowest selected lane, which is
also the lane that TMASK names where they trap (log 87). -/
def Ctx.lanesOf (c : Ctx) (once : Bool) : List Nat := if c.sel == 0 then [] else if once then [c.low] else c.sel.lanes

/-- HINT, as the word writes it (R142). -/
def Ctx.hint (c : Ctx) : Nat := match c.fm with | .fr _ f => f.mods 4 2 | _ => 0

def Ctx.ord (c : Ctx) : Nat := match c.fm with | .fr _ f => f.mods 2 2 | _ => 0
def Ctx.scope (c : Ctx) : Nat := match c.fm with | .fr _ f => f.mods 10 3 | _ => 0

/-- The status word of a copy channel (R232). -/
def Channel.status (x : Channel) : Nat :=
  let st := match x.st with | .idle => 0 | .fetch => 1 | .claim => 2 | .move => 3 | .signal => 4
  x.trigs.length * 2 ^ 36 + st * 2 ^ 32 + x.done.toNat

/-- A 64-bit load of an aligned aperture word (R230). -/
def Ctx.apertureLoad (c : Ctx) (va lane : Nat) : Part :=
  let off := va % 4096
  let v := if off / 256 == 1 && off % 16 == 0 then ((c.s.core c.w.core).chan (off / 16 % 16)).status else 0
  { lane, va, size := 8, res := v, st := .served, accepted := true }

/-- A counter has room for one more instruction (R143). -/
def Group.ctrFull (g : Group) (p : Nat) : Bool := decide (63 ≤ (g.ctr p).length)

/-! ### Loads -/

/-- LD and LDU (R146, R153, R163). -/
def Ctx.load (c : Ctx) (once : Bool) : Out :=
  let lanes := c.lanesOf once
  if lanes.isEmpty then .regs c.g 0
  else
    let n := c.bytes
    let (ap, gl) := lanes.partition fun i => inAperture (c.va i)
    let as := c.globAddrs gl c.k c.va
    if planeInAperture as || ap.any fun i => n != 8 || c.va i % 8 != 0 then c.object 6 0
    else
      match c.checkGlobal as n n .read with
      | some o => o
      | none =>
        let watched := if once then c.globAddrs c.sel.lanes c.k (fun _ => c.va c.low) else as ++ c.globAddrs ap 0 c.va
        match c.watchpoint watched n true false with
        | some o => o
        | none =>
          if c.g.ctrFull 0 then .stall .other
          else
            let (id, s) := c.s.new
            let acq := c.ord == 1
            let parts := as.map (fun a => c.loadPart a n acq) ++ ap.map fun i => c.apertureLoad (c.va i) i
            let a : Access := { c.access id .load parts with
              ty := c.memTy, dest := c.dest, acq, hint := c.hint, scalar := once }
            let hits := parts.filter fun p => p.st == .served && !inAperture p.va
            let s := hits.foldl (fun s p => s.touchL1 c.w.core p.ia c.hint) s
            let s := if acq then s else (s.perf c.w.core 9 hits.length).perf c.w.core 10 (as.length - hits.length)
            .done (s.putGroup c.w.run ((c.g.addAccess a).raiseCtr 0 id))

def bodyLd (c : Ctx) : Out := c.load false
def bodyLdu (c : Ctx) : Out := c.load true

/-- A scratchpad lane read at issue, with the group's own held stores in deterministic mode (R297). -/
def Ctx.spadPart (c : Ctx) (a : LaneAddr) (n : Nat) : Part :=
  let off := a.va.toNat
  let (dat, mask) := if c.l.det then overlay c.seen true off n else (0, 0)
  { lane := a.lane, plane := a.plane, va := off, size := n, res := applyOverlay (c.w.spad.le off n) n dat mask
    bad := isPoisoned c.w.spadBad off n, st := .served, accepted := true }

/-- A scratchpad load: its data is captured at issue, at the SRAM controller (R160); counter `p` rises. -/
def Ctx.spadLoad (c : Ctx) (as : List LaneAddr) (n ty p : Nat) : Out :=
  match c.checkSpad as n n with
  | some o => o
  | none =>
    let parts := as.map fun a => c.spadPart a n
    if c.g.ctrFull p then .stall .other
    else if parts.any (·.bad) then .poison (Mask.of fun i => parts.any fun p => p.bad && p.lane == i) 3 0
    else
      let (id, s) := c.s.new
      let a : Access := { c.access id .lds parts with ty, dest := c.dest, glob := false }
      .done (s.putGroup c.w.run ((c.g.addAccess a).raiseCtr p id))

def bodyLds (c : Ctx) : Out :=
  let lanes := c.lanesOf false
  if lanes.isEmpty then .regs c.g 0
  else c.spadLoad (c.spadAddrs lanes c.k c.spadOff) c.bytes c.memTy 1

/-! ### Stores -/

/-- Field d of a lane, component `j`, in the low `n` bytes. -/
def Ctx.datum (c : Ctx) (lane j n : Nat) : Nat := ((c.src 3 lane).comp j).toNat % 256 ^ n

/-- The poison of scratchpad sectors that one instruction's writes cover whole between them goes (R377). -/
def Workgroup.spadClean (w : Workgroup) (ws : List (Nat × Nat)) : Workgroup :=
  let whole := coveredSectors ws
  { w with spadBad := w.spadBad.filter fun k => !whole.contains k }

/-- Bytes written to a workgroup's scratchpad. -/
def Workgroup.spadWrite (w : Workgroup) (off n v : Nat) : Workgroup :=
  { w with spad := w.spad.setLe off n v, spadBad := writePoison w.spadBad off n false }

/-- Scratchpad stores in lane order (R160), held in deterministic mode (R297). -/
def Ctx.spadStore (c : Ctx) (as : List LaneAddr) (n : Nat) : Out :=
  match c.checkSpad as n n with
  | some o => o
  | none =>
    if c.l.det then
      .done (c.hold c.s (as.map fun a => { grp := c.g.grp, ia := a.va.toNat, size := n, dat := c.datum a.lane a.plane n, spad := true }))
    else
      .done (c.s.onWg c.w.run fun w =>
        (as.foldl (fun w a => w.spadWrite a.va.toNat n (c.datum a.lane a.plane n)) w).spadClean (as.map fun a => (a.va.toNat, n)))

def bodySts (c : Ctx) : Out :=
  let lanes := c.lanesOf false
  if lanes.isEmpty then .regs c.g 0
  else c.spadStore (c.spadAddrs lanes c.k c.spadOff) c.bytes

/-- Global stores sent or held, in ascending lane order (R146, R147, R153, R173); `kind` store or scatter. -/
def Ctx.sendStores (c : Ctx) (s : State) (kind : AccKind) (as : List LaneAddr) (n hint : Nat) (rel : Bool) : State :=
  if as.isEmpty then s
  else if c.l.holds then
    c.acceptHeld (c.hold s (as.map fun a =>
        { grp := c.g.grp, ia := c.l.iaOf a.va.toNat, size := n, dat := c.datum a.lane a.plane n, hint, fill := if c.g.urgent then 2 else hint }))
      (if kind == .scatter then 3 else 1) (as.map fun a => c.part a n (c.datum a.lane a.plane n) 0)
  else
    let (id, s) := s.new
    let parts := as.map fun a => c.part a n (c.datum a.lane a.plane n) 0
    let a : Access := { c.access id kind parts with hint, rel }
    let s := s.onGroup c.w.run c.g.grp fun g => g.addAccess a
    match kind with
    | .scatter => s
    | _ => parts.foldl (fun s p => (s.storeL1 c.w.core p.ia n p.dat).touchL1 c.w.core p.ia hint) s

/-- KIND of the template that a trigger word names, as its record stands (R235). -/
def Ctx.templateKind (c : Ctx) (word : DWord) : Nat :=
  let va := c.l.ttab + 128 * (word.extractLsb' 56 8).toNat + 0x10
  c.s.leIA (c.l.iaOf va) 8 / 32 % 4

/-- One lane's trigger accepted by its channel (R231-R233); held in deterministic mode (R297). -/
def Ctx.acceptTrigger (c : Ctx) (s : State) (lane : Nat) : State :=
  let ch := c.va lane / 16 % 16
  let word := (c.src 3 lane).v
  if c.l.det then
    c.hold s [{ grp := c.g.grp, ia := 0, size := 8, dat := 0, trigger := some (ch, word, c.tpc) }]
  else
    let (id, s) := s.new
    let acked := c.l.holds && c.templateKind word == 1
    let s := s.onCore c.w.core fun x =>
      let y := x.chan ch
      x.setChan ch { y with
        trigs := y.trigs ++ [{ wg := c.w.run, grp := c.g.grp, acc := id, pc := c.tpc, word, acked }], order := if y.trigs.isEmpty then id else y.order }
    if acked then s
    else s.onGroup c.w.run c.g.grp fun g => { g with accs := g.accs ++ [c.access id (.trigger c.w.core ch) []] }

/-- The lanes of a trigger store that find a place, in ascending order, up to the first that finds its channel full. -/
def Ctx.triggers (c : Ctx) : State → List Nat → State × List Nat
  | s, [] => (s, [])
  | s, i :: t =>
    if !c.l.det && decide (4 ≤ ((s.core c.w.core).chan (c.va i / 16 % 16)).trigs.length) then (s, i :: t)
    else c.triggers (c.acceptTrigger s i) t

/-- ST (R146, R148, R163, R230-R232). -/
def bodySt (c : Ctx) : Out :=
  let lanes := c.lanesOf false
  if lanes.isEmpty then .regs c.g 0
  else
    let n := c.bytes
    let (ap, gl) := lanes.partition fun i => inAperture (c.va i)
    let as := c.globAddrs gl c.k c.va
    if planeInAperture as || ap.any fun i => n != 8 || c.va i % 16 != 0 || c.va i % 4096 / 256 != 0 then c.object 6 0
    else
      match c.checkGlobal as n n .write with
      | some o => o
      | none =>
        match c.watchpoint (as ++ c.globAddrs ap 0 c.va) n false true with
        | some o => o
        | none =>
          if c.ord == 2 && !c.released c.scope then .stall .other
          else if c.holdFull (as.length * n) && !as.isEmpty then .stall .held
          else
            let (s, left) := c.triggers c.s (ap.filter fun i => !c.f.begun.getLsbD i)
            let mark (m : Mask) (s : State) : State := s.onGroup c.w.run c.g.grp fun g => g.putFrag c.ent { c.f with begun := m }
            if left.isEmpty then .done (c.sendStores (if ap.isEmpty then s else mark 0 s) .store as n c.hint (c.ord == 2))
            else .wait (mark (Mask.of fun i => ap.contains i && !left.contains i) s) .other

/-! ### Prefetch and waits -/

/-- PREF (R149): lanes without a readable range are dropped; nothing waits for the fills. -/
def bodyPref (c : Ctx) : Out :=
  let lanes := c.lanesOf false
  if lanes.isEmpty then .regs c.g 0
  else if lanes.any fun i => inAperture (c.va i) then c.object 6 0
  else
    let good := lanes.filter fun i => (c.l.violation .read 1 true (c.va i)).isNone
    if good.isEmpty then .regs c.g 0
    else
      let (id, s) := c.s.new
      let parts := good.map fun i =>
        { c.part { lane := i, plane := 0, va := (c.va i / 128 * 128 : Nat) } 128 0 0 with accepted := true }
      .done (s.putGroup c.w.run (c.g.addAccess { c.access id .pref parts with hint := c.hint }))

def bodyWaitc (c : Ctx) : Out :=
  let p := c.mods 0 2
  if c.sel == 0 || decide ((c.g.ctr p).length ≤ (c.scalar 0).toNat) then .regs c.g 0
  else .stall (.waitc p)

/-- The code that ends a WAITM is written and its fragment woken (R151). -/
def Group.endMonitor (g : Group) (ktan ent acc code : Nat) : Group :=
  let g := match g.accs.find? fun a => a.id == acc with
    | some { dest := some d, .. } => g.writeS d.num 1 ktan 0 { v := BitVec.ofNat 64 code }
    | _ => g
  let g := { g with accs := g.accs.filter fun a => a.id != acc }
  match g.frag? ent with
  | some f => g.putFrag ent { f with st := .ready }
  | none => g

/-- The count of a group that waits for the quantum end (R296). -/
def Group.toEnd (g : Group) (q : Nat) : Group := { g with atEnd := true, turn := false, lclk := (g.lclk + q) / q * q }

/-- A synchronising operation that fails at its turn: the group is counted at the quantum end (R298). -/
def Ctx.fail (c : Ctx) : Out := .wait (c.s.onGroup c.w.run c.g.grp fun g => g.toEnd c.l.quantum) .other

/-- WAITM (R151, R152, R298): it sleeps unless an event has come already. Where it completes and its sector is poisoned, it
consumes (R378, log 89). -/
def bodyWaitm (c : Ctx) : Out :=
  if c.sel == 0 then .regs c.g 0
  else
    let va := c.base c.low
    let a : LaneAddr := { lane := c.low, plane := 0, va }
    if inAperture va then c.object 6 0
    else
      match c.checkGlobal [a] 1 1 .read with
      | some o => o
      | none =>
        match c.watchpoint (c.globAddrs c.sel.lanes 0 fun _ => va / 16 * 16) 16 true false with
        | some o => o
        | none =>
          let p := c.part { a with va := (va / 16 * 16 : Nat) } 16 0 0
          let ut := match c.l.rangeOf va with | some x => x.ut | none => false
          let now := c.s.now (coreDie c.w.core)
          let put (code : Nat) : Out :=
            if c.s.badIA p.ia 16 then .poison (Mask.bit c.low) (c.s.arrayOf p) p.ia
            else .regs (c.writeTo c.g (c.opnd 3) fun _ => { v := BitVec.ofNat 64 code }) 0
          if c.w.pend then put 4
          else if c.l.det then (if c.l.wrote.contains (p.ia / 16) then put 1 else c.fail)
          else if !ut && (cacheHit (c.s.core c.w.core).l1 now p.ia).isNone then put 2
          else
            let (id, s) := c.s.new
            let n := (c.scalar 1).toNat
            let acc : Access := { c.access id .waitm [p] with dest := c.dest }
            let g := { c.g with accs := c.g.accs ++ [acc] }
            .done (s.putGroup c.w.run (g.putFrag c.ent { c.f with st := .waitm id (if n == 0 then none else some (now + n)) }))

/-! ### The meanings -/

def execLd (f : FR) (s : State) : Host.Outcome State Fault Refusal := .next (runWord (.fr 0x200 f) bodyLd s)
def execLdImm (f : FI) (s : State) : Host.Outcome State Fault Refusal := .next (runWord (.fi 0x200 f) bodyLd s)
def execSt (f : FR) (s : State) : Host.Outcome State Fault Refusal := .next (runWord (.fr 0x201 f) bodySt s)
def execStImm (f : FI) (s : State) : Host.Outcome State Fault Refusal := .next (runWord (.fi 0x201 f) bodySt s)
def execLds (f : FR) (s : State) : Host.Outcome State Fault Refusal := .next (runWord (.fr 0x202 f) bodyLds s)
def execLdsImm (f : FI) (s : State) : Host.Outcome State Fault Refusal := .next (runWord (.fi 0x202 f) bodyLds s)
def execSts (f : FR) (s : State) : Host.Outcome State Fault Refusal := .next (runWord (.fr 0x203 f) bodySts s)
def execStsImm (f : FI) (s : State) : Host.Outcome State Fault Refusal := .next (runWord (.fi 0x203 f) bodySts s)
def execLdu (f : FR) (s : State) : Host.Outcome State Fault Refusal := .next (runWord (.fr 0x204 f) bodyLdu s)
def execLduImm (f : FI) (s : State) : Host.Outcome State Fault Refusal := .next (runWord (.fi 0x204 f) bodyLdu s)
def execPref (f : FR) (s : State) : Host.Outcome State Fault Refusal := .next (runWord (.fr 0x205 f) bodyPref s)
def execPrefImm (f : FI) (s : State) : Host.Outcome State Fault Refusal := .next (runWord (.fi 0x205 f) bodyPref s)
def execWaitc (f : FR) (s : State) : Host.Outcome State Fault Refusal := .next (runWord (.fr 0x206 f) bodyWaitc s)
def execWaitm (f : FR) (s : State) : Host.Outcome State Fault Refusal := .next (runWord (.fr 0x207 f) bodyWaitm s)

end Sys2Proof.Machine
end

