-- ==== Sys2Proof/Machine/Atomic.lean ====
section
/-! DEFINITION. Atomics and FENCE (spec/08_ordering.md R162, R163, R167-R171, spec/15_launch.md R295, R298, R300). -/

namespace Sys2Proof.Machine

/-! ### The update -/

/-- Bytes of TYPE 0-5 (R167). -/
def atomBytes (ty : Nat) : Nat := match ty with | 2 | 3 => 8 | 5 => 2 | _ => 4

/-- The new value of an update (R169); `cmp` is CAS's compare value. -/
def atomNew (op ty old x cmp : Nat) : Nat :=
  let w := 8 * atomBytes ty
  let fl (m : Fmt) : Nat :=
    match op with
    | 0 => (m.addF 0 false old x).1
    | 1 => (m.minmaxF false false old x).1
    | 2 => (m.minmaxF true false old x).1
    | 6 => x
    | _ => if old == cmp then x else old
  if ty == 4 then fl fp32
  else if ty == 5 then fl bf16
  else
    let i (a : Nat) : Int := asInt w (ty % 2 == 0) a
    match op with
    | 0 => (old + x) % 2 ^ w
    | 1 => if i old ≤ i x then old else x
    | 2 => if i x ≤ i old then old else x
    | 3 => old &&& x
    | 4 => old ||| x
    | 5 => old ^^^ x
    | 6 => x
    | _ => if old == cmp then x else old

/-! ### Operands (R168) -/

def Ctx.atomTy (c : Ctx) : Nat := c.mods 7 3

/-- The operand (CAS: the new value) and the compare value of a lane. -/
def Ctx.atomData (c : Ctx) (lane : Nat) : Nat × Nat :=
  let o := c.opnd 2
  let r (j : Nat) : Word := c.reg o j 0 lane
  let wide := c.atomTy == 2 || c.atomTy == 3
  let first := if wide then (DWord.ofPair (r 0) (r 1)).toNat else (r 0).toNat
  let second := if wide then (DWord.ofPair (r 2) (r 3)).toNat else (r 1).toNat
  let m := 256 ^ atomBytes c.atomTy
  if c.subn == 7 then (second % m, first % m) else (first % m, 0)

/-- TYPE for the return of an old value: zero-extended (R168). -/
def retTy (ty : Nat) : Nat := match ty with | 2 | 3 => 7 | 5 => 5 | _ => 1

/-! ### The atomic view of deterministic mode (R298) -/

/-- The view's bytes at an address: the value given, overlaid with this quantum's atomics. -/
def Workgroup.viewed (ws : List Workgroup) (lid : Nat) (spad : Option Nat) (v a n : Nat) : Nat :=
  let hs := ws.flatMap fun w =>
    if w.lid == lid && (match spad with | some r => w.run == r | none => true) then
      w.held.filter fun h => h.view && h.spad == spad.isSome
    else []
  let hs := sortBy (fun x y => decide (x.ord ≤ y.ord)) hs
  let (dat, mask) := overlay hs spad.isSome a n
  applyOverlay v n dat mask

/-- One update in the atomic view, with its old value. -/
def State.viewUpdate (s : State) (w : Workgroup) (grp : Nat) (spad : Bool) (base a op ty x cmp : Nat) : State × Nat :=
  let n := atomBytes ty
  let old := Workgroup.viewed s.wgs w.lid (if spad then some w.run else none) base a n
  let h : Held := { grp, ia := a, size := n, dat := atomNew op ty old x cmp, spad, view := true, ord := s.fresh }
  (({ s with fresh := s.fresh + 1 }).onWg w.run (fun w => { w with held := w.held ++ [h] }), old)

/-! ### Combining (R171) -/

/-- The leaves of a combining tree, left to right. -/
def combLeaves : CombTree → List Nat
  | .leaf i => [i]
  | .node l r => combLeaves l ++ combLeaves r

/-- The operand of a combining tree, each node rounded as one update (R171). -/
def combValue (op ty : Nat) (x : Nat → Nat) : CombTree → Nat
  | .leaf i => x i
  | .node l r => atomNew op ty (combValue op ty x l) (combValue op ty x r) 0

/-! ### ATOMS -/

/-- The trees of the argument that combine lanes of a scratchpad atomic: each of two lanes or more, by their places among
the instruction's lanes, with `.COMM` and one address, and no lane in two of them (R171). -/
def Ctx.spadTrees (c : Ctx) (as : List LaneAddr) : List CombTree :=
  let at_ (i : Nat) : Option Int := (as[i]?).map (·.va)
  let fits (t : CombTree) : Bool :=
    let ls := combLeaves t
    decide (2 ≤ ls.length) && ls.Nodup && ls.all fun i => (at_ i).isSome && at_ i == at_ (ls.headD 0)
  if c.mods 1 1 == 1 && !c.l.det then
    (c.s.arg.comb :: c.s.arg.combs).foldl (fun ts t =>
      if fits t && ts.all (fun u => (combLeaves u).all fun i => !(combLeaves t).contains i) then ts ++ [t] else ts) []
  else []

/-- The updates of a scratchpad atomic in their order: a combining tree goes at the first of its lanes, every other lane alone. -/
def Ctx.spadUpdates (c : Ctx) (as : List LaneAddr) : List CombTree :=
  (List.range as.length).filterMap fun i =>
    match (c.spadTrees as).find? fun t => (combLeaves t).contains i with
    | none => some (.leaf i)
    | some t => if (combLeaves t).all fun j => decide (i ≤ j) then some t else none

/-- One update, with the value before it. -/
def Ctx.spadUpdate (c : Ctx) (s : State) (as : List LaneAddr) (t : CombTree) : State × Nat :=
  let lane (i : Nat) : LaneAddr := as.getD i { lane := 0, plane := 0, va := 0 }
  let i := (combLeaves t).headD 0
  let off := (lane i).va.toNat
  let n := atomBytes c.atomTy
  let x := combValue c.subn c.atomTy (fun i => (c.atomData (lane i).lane).1) t
  let cmp := (c.atomData (lane i).lane).2
  let w := (s.wg? c.w.run).getD c.w
  let old := w.spad.le off n
  if c.l.det then s.viewUpdate w c.g.grp true old off c.subn c.atomTy x cmp
  else (s.onWg c.w.run fun w => w.spadWrite off n (atomNew c.subn c.atomTy old x cmp), old)

/-- ATOMS updates the scratchpad at once (R170); every lane of an update takes the value before it. -/
def Ctx.spadAtoms (c : Ctx) (s : State) (as : List LaneAddr) : State × List Part :=
  let (s, olds) := (c.spadUpdates as).foldl (fun (x : State × List (Nat × Nat)) t =>
    let (s, old) := c.spadUpdate x.1 as t
    (s, x.2 ++ (combLeaves t).map fun i => (i, old))) (s, [])
  (s, as.zipIdx.map fun a =>
    { lane := a.1.lane, va := a.1.va.toNat, size := atomBytes c.atomTy, res := Map.look 0 olds a.2, st := .served, accepted := true })

def bodyAtoms (c : Ctx) : Out :=
  let lanes := c.work
  if lanes.isEmpty then .regs c.g 0
  else
    let n := atomBytes c.atomTy
    let as := c.spadAddrs lanes 0 c.spadOff
    match c.checkSpad as n n with
    | some o => o
    | none =>
      if c.ord == 2 && !c.released c.scope then .stall .other
      else if c.g.ctrFull 1 then .stall .other
      else if as.any fun a => isPoisoned c.w.spadBad a.va.toNat n then
        .poison (Mask.of fun i => as.any fun a => a.lane == i && isPoisoned c.w.spadBad a.va.toNat n) 3 0
      else
        let (id, s) := c.s.new
        let (s, parts) := c.spadAtoms s as
        let a : Access := { c.access id .lds parts with ty := retTy c.atomTy, dest := c.dest, glob := false, acq := c.ord == 1 }
        .done (s.onGroup c.w.run c.g.grp fun g => (g.addAccess a).raiseCtr 1 id)

/-! ### ATOM and RED -/

/-- A part of a global atomic; in deterministic mode a lane with a valid translation, which meets no error, acts on the
view at once. `spoilt`: a lane of the word consumes, so that none changes the view (R378). -/
def Ctx.atomParts (c : Ctx) (ret spoilt : Bool) (s : State) : List LaneAddr → State × List Part
  | [] => (s, [])
  | a :: t =>
    let n := atomBytes c.atomTy
    let (x, cmp) := c.atomData a.lane
    let p := c.part a n x cmp
    let walked := match region p.ia with | .hbm => (match s.walk false p.ia with | .ok _ => true | .error _ => false) | _ => true
    let ok := walked && (s.errorAt (some c.l.dom) p.ia).isNone && !s.isolatedAt p.ia
    let (s, p) :=
      if c.l.det && ret && ok && spoilt then (s, { p with res := s.leIA p.ia n, bad := s.badIA p.ia n, st := .done, accepted := true })
      else if c.l.det && ret && ok then
        let (s', old) := s.viewUpdate c.w c.g.grp false (s.leIA p.ia n) p.ia c.subn c.atomTy x cmp
        (s', { p with res := old, bad := s.badIA p.ia n, st := .done, accepted := true })
      else (s, p)
    let (s, ps) := c.atomParts ret spoilt s t
    (s, p :: ps)

/-- ATOM and RED (R163, R168-R170, R295, R297, R300). -/
def Ctx.atomic (c : Ctx) (ret : Bool) : Out :=
  let lanes := c.work
  if lanes.isEmpty then .regs c.g 0
  else if (ret && c.l.redn) then c.object 9 0
  else if lanes.any fun i => inAperture (c.va i) then c.object 6 0
  else
    let ty := c.atomTy
    let n := atomBytes ty
    let as := c.globAddrs lanes 0 c.va
    let hostOk := (c.subn == 0 || c.subn == 6 || c.subn == 7) && decide (ty ≤ 3)
    match c.checkGlobal as n n .write hostOk with
    | some o => o
    | none =>
      match c.watchpoint as n ret true with
      | some o => o
      | none =>
        if c.ord == 2 && !c.released c.scope then .stall .other
        else if !ret && c.l.holds then
          if c.holdFull (as.length * n) then .stall .held
          else .done (c.acceptHeld (c.hold c.s (as.map fun a =>
              { grp := c.g.grp, ia := c.l.iaOf a.va.toNat, size := n, dat := (c.atomData a.lane).1, red := some (c.subn, ty), comm := c.mods 1 1 == 1 }))
            4 (as.map fun a => c.part a n (c.atomData a.lane).1 0))
        else if ret && c.g.ctrFull 0 then .stall .other
        else
          let (id, s) := c.s.new
          let spoilt := as.any fun a => let p := c.part a n 0 0; s.badIA p.ia n || s.isolatedAt p.ia
          let (s, parts) := c.atomParts ret spoilt s as
          let a : Access := { c.access id (.atomic c.subn ty ret (c.mods 1 1 == 1)) parts with
            ty := retTy ty, dest := if ret then c.dest else none, acq := c.ord == 1, rel := c.ord == 2 }
          .done (s.onGroup c.w.run c.g.grp fun g =>
            let g := g.addAccess a
            if ret then g.raiseCtr 0 id else g)

def bodyAtom (c : Ctx) : Out := c.atomic true
def bodyRed (c : Ctx) : Out := c.atomic false

/-! ### FENCE -/

/-- FENCE (R162): ORD 0 is a full fence, 1 an acquire, 2 a release. -/
def bodyFence (c : Ctx) : Out :=
  if c.sel == 0 then .regs c.g 0
  else
    let rel := c.ord != 1
    let acq := c.ord != 2
    if rel && !c.released c.scope then .stall .fence
    else if acq && !c.g.drained then .stall .fence
    else .done (if acq then c.s.dropUt c.w.core else c.s)

/-! ### The meanings -/

def execAtom (f : FR) (s : State) : Host.Outcome State Fault Refusal := .next (runWord (.fr 0x240 f) bodyAtom s)
def execAtoms (f : FR) (s : State) : Host.Outcome State Fault Refusal := .next (runWord (.fr 0x241 f) bodyAtoms s)
def execRed (f : FR) (s : State) : Host.Outcome State Fault Refusal := .next (runWord (.fr 0x242 f) bodyRed s)
def execFence (f : FR) (s : State) : Host.Outcome State Fault Refusal := .next (runWord (.fr 0x243 f) bodyFence s)

end Sys2Proof.Machine
end

