-- ==== Sys2Proof/Machine/Gather.lean ====
section
/-! DEFINITION. Gather and scatter, the gather collector, PROBE and pins: class 12 (spec/13_gather.md R259-R269). -/

namespace Sys2Proof.Machine

/-! ### Addresses (R263) -/

/-- The scaled index of a lane. -/
def Ctx.index (c : Ctx) (lane : Nat) : Int := signed 32 (c.src 1 lane).w.toNat * 2 ^ c.mods 10 3

def Ctx.gva (c : Ctx) (lane : Nat) : Nat := (((c.base lane : Int) + c.index lane) % 2 ^ 64).toNat
def Ctx.gspad (c : Ctx) (lane : Nat) : Nat := (((c.base lane : Int) + c.index lane) % 2 ^ 32).toNat

/-! ### The collector (R259, R260) -/

/-- What a gather part finds when its window closes: a live L1 sector, or it goes to its home. -/
def State.closeGather (s : State) (core run : Nat) (g : Group) (win id hint : Nat) (p : Part) : State × Part :=
  let hit := if region p.ia == .host then none else cacheHit (s.core core).l1 (s.now (coreDie core)) p.ia
  match hit with
  | some bs =>
    let v := leNat ((bs.drop (p.ia % 16)).take p.size)
    if g.ownAgrees id p.lane p.ia p.size v && !g.readPending id p.lane p.ia p.size && !(s.core core).passes run g.grp p.lane p.ia p.size then
      ((s.perf core 9 1).touchL1 core p.ia hint, { p with res := applyOverlay v p.size p.dat p.cmp, st := .served, accepted := true, win })
    else (s.perf core 10 1, { p with st := if p.accepted then .walked else .issued, win })
  | none => (s.perf core 10 1, { p with st := if p.accepted then .walked else .issued, win })

/-- The parts of one access when its window closes: gathers look into L1, scatters update it (R140). -/
def State.closeParts (s : State) (core run : Nat) (g : Group) (win id hint : Nat) (store : Bool) : List Part → State × List Part
  | [] => (s, [])
  | p :: t =>
    let (s, p) :=
      if p.st != .window then (s, p)
      else if store then
        ((s.storeL1 core p.ia p.size p.dat).touchL1 core p.ia hint, { p with st := if p.accepted then .walked else .issued, win })
      else s.closeGather core run g win id hint p
    let (s, ps) := s.closeParts core run g win id hint store t
    (s, p :: ps)

/-- The core's gather window closes: its instructions are taken in issue order. -/
def State.closeWindow (s : State) (core : Nat) : State :=
  let ws := (s.core core).window
  let (win, s) := s.new
  let s := ws.foldl (fun s x =>
    match s.group? x.1 x.2.1 with
    | none => s
    | some g =>
      match g.accs.find? fun a => a.id == x.2.2.1 with
      | none => s
      | some a =>
        let (s, ps) := s.closeParts core x.1 g win a.id a.hint (a.kind == .scatter) a.parts
        s.onAcc x.1 x.2.1 a.id fun b => { b with parts := ps }) s
  s.onCore core fun c => { c with window := [] }

/-- The lanes of an access enter the open window, or the next one where they would take it above 256. An instruction of more
than 256 lane requests, 64 lanes in five planes, stands alone in its window (log 86). -/
def State.enterWindow (s : State) (core run grp acc lanes : Nat) : State :=
  let held := (s.core core).window.foldl (fun n x => n + x.2.2.2) 0
  let s := (if 256 < held + lanes then s.closeWindow core else s).perf core 8 lanes
  s.onCore core fun c => { c with
    window := c.window ++ [(run, grp, acc, lanes)], windowAt := if c.window.isEmpty then s.cyc else c.windowAt }

/-- GATHER_WINDOW_CLOSE (R259): 32 cycles have passed, or the window holds 256 lane requests. -/
def gatherWindowClose (s : State) : State :=
  let c := s.core s.arg.core
  let lanes : Nat := c.window.foldl (fun n x => n + x.2.2.2) 0
  if !c.window.isEmpty && (decide (c.windowAt + 32 ≤ s.cyc) || decide (256 ≤ lanes)) then s.closeWindow s.arg.core else s

/-! ### LDX, STX, LDXS, STXS -/

/-- The common part of LDX and STX: object use, and the checks of every plane. -/
def Ctx.gatherCheck (c : Ctx) (store : Bool) : Option Out :=
  let as := c.globAddrs c.sel.lanes c.k c.gva
  if as.any fun a => inAperture a.va then some (c.object 6 0)
  else
    match c.checkGlobal as c.bytes c.bytes (if store then .write else .read) with
    | some o => some o
    | none => c.watchpoint as c.bytes (!store) store

def bodyLdx (c : Ctx) : Out :=
  if c.sel == 0 then .regs c.g 0
  else
    match c.gatherCheck false with
    | some o => o
    | none =>
      if c.g.ctrFull 2 then .stall .other
      else
        let (id, s) := c.s.new
        let parts := (c.globAddrs c.sel.lanes c.k c.gva).map fun a =>
          let p := c.part a c.bytes 0 0
          let (dat, mask) := overlay c.seen false p.ia c.bytes
          { p with dat, cmp := mask, bad := overlayBad c.seen p.ia c.bytes, st := PartSt.window }
        let a : Access := { c.access id .gather parts with ty := c.memTy, dest := c.dest, hint := c.hint }
        let s := s.putGroup c.w.run ((c.g.addAccess a).raiseCtr 2 id)
        .done (s.enterWindow c.w.core c.w.run c.g.grp id (c.sel.count * (c.k + 1)))

def bodyStx (c : Ctx) : Out :=
  if c.sel == 0 then .regs c.g 0
  else
    match c.gatherCheck true with
    | some o => o
    | none =>
      let as := c.globAddrs c.sel.lanes c.k c.gva
      if c.holdFull (as.length * c.bytes) then .stall .held
      else if c.l.holds then .done (c.sendStores c.s .scatter as c.bytes c.hint false)   -- held: no window (log 86)
      else
        let id := c.s.fresh
        let s := c.sendStores c.s .scatter as c.bytes c.hint false
        let s := s.onGroup c.w.run c.g.grp fun g => { g with accs := g.accs.map fun a =>
          if a.id == id then { a with parts := a.parts.map fun p => { p with st := .window } } else a }
        .done (s.enterWindow c.w.core c.w.run c.g.grp id (c.sel.count * (c.k + 1)))

def bodyLdxs (c : Ctx) : Out :=
  if c.sel == 0 then .regs c.g 0
  else c.spadLoad (c.spadAddrs c.sel.lanes c.k c.gspad) c.bytes c.memTy 2

def bodyStxs (c : Ctx) : Out :=
  if c.sel == 0 then .regs c.g 0
  else c.spadStore (c.spadAddrs c.sel.lanes c.k c.gspad) c.bytes

/-! ### PROBE and UNPIN (R267-R269, R371) -/

/-- A span lies wholly in one enabled range with R. -/
def Launch.readable (l : Launch) (va n : Nat) : Bool := (l.violation .read n true va).isNone

/-- The first byte of a readable span in each 64 KiB page that it covers, where the page can be pinned: HBM ranges without
PIN. -/
def Ctx.pageStarts (c : Ctx) (va n : Nat) : List Nat :=
  match c.l.rangeOf va with
  | none => []
  | some x =>
    let ia := x.iaOf va
    if x.pin || region ia != .hbm then []
    else if ia / 65536 == (ia + n - 1) / 65536 then [ia] else [ia, (ia + n - 1) / 65536 * 65536]

/-- Pages that the group pins or that a PROBE in flight is about to pin. -/
def Ctx.pinning (c : Ctx) : List Nat :=
  c.g.accs.foldl (fun ps a => if a.kind == .probe then union ps (a.parts.map fun p => c.s.pageOf p.ia) else ps) c.g.pins

/-- PROBE starts: it writes its mask at once where no page is to be walked, else it waits with an access in flight, whose
parts are the 64 KiB pages of each lane with the first byte of the lane's span there, in ascending page. -/
def Ctx.probeStart (c : Ctx) : Out :=
  let n := 2 ^ c.mods 10 3
  let good := c.sel.lanes.filter fun i => c.l.readable (c.gva i) n
  let out := Mask.of fun i => c.sel.getLsbD i && !good.contains i
  let starts := good.flatMap fun i => (c.pageStarts (c.gva i) n).map fun ia => (i, ia)
  let pages := union [] (starts.map fun x => c.s.pageOf x.2)
  if 256 < (union c.pinning pages).length then c.object 8 0
  else if pages.isEmpty then
    .regs (c.g.setMask c.dnum (Mask.of fun i => if c.sel.getLsbD i then out.getLsbD i else (c.g.mask c.dnum).getLsbD i)) 0
  else
    let (id, s) := c.s.new
    let parts : List Part := (sortBy (fun x y => decide (x.2 / 65536 ≤ y.2 / 65536)) starts).map fun x =>
      { lane := x.1, size := 1, ia := x.2, va := c.gva x.1 + (x.2 - c.l.iaOf (c.gva x.1)) }
    let a : Access := { c.access id .probe parts with probeMask := c.dnum, probeOut := out }
    .wait (s.onGroup c.w.run c.g.grp fun g => g.addAccess a) .other

/-- PROBE (R267): one that waits ends for the lanes that it selected at its issue, whatever its predicate mask holds by then. -/
def bodyProbe (c : Ctx) : Out :=
  match c.g.accs.find? fun a => a.kind == .probe && a.fid == c.f.fid with
  | none => if c.sel == 0 then .regs c.g 0 else c.probeStart
  | some a =>
    if a.parts.any fun p => p.st != .done then .stall a.holdState
    else
      let g := { c.g with accs := c.g.accs.filter fun b => b.id != a.id }
      .regs (g.setMask a.probeMask (Mask.of fun i => if a.sel.getLsbD i then a.probeOut.getLsbD i else (g.mask a.probeMask).getLsbD i)) 0

/-- A global access that returns to its group or is acknowledged, by the kinds that R361 lists and PROBE (log 88); a prefetch
does neither, and the aperture is no global memory (R230). -/
def Access.settles (a : Access) : Bool := match a.kind with | .pref | .trigger .. => false | _ => a.glob

/-- UNPIN: every global access that issued before it has returned or been acknowledged; the pin set is emptied. While it
waits it stands among the group's accesses, which marks the place of its issue; it ends for the lanes selected there. -/
def bodyUnpin (c : Ctx) : Out :=
  match c.g.accs.find? fun a => a.kind == .unpin && a.fid == c.f.fid with
  | some a =>
    if c.g.accs.any fun b => decide (b.id < a.id) && b.settles then .stall .other
    else .regs { c.g with pins := [], accs := c.g.accs.filter fun b => b.id != a.id } 0
  | none =>
    if c.sel == 0 then .regs c.g 0
    else if c.g.accs.any Access.settles then
      let (id, s) := c.s.new
      .wait (s.onGroup c.w.run c.g.grp fun g => g.addAccess { c.access id .unpin [] with glob := false }) .other
    else .regs { c.g with pins := [] } 0

def execGatherWindowClose (s : State) : Host.Outcome State Fault Refusal := .next (gatherWindowClose s)

/-! ### The meanings -/

def execLdx (f : FR) (s : State) : Host.Outcome State Fault Refusal := .next (runWord (.fr 0x300 f) bodyLdx s)
def execStx (f : FR) (s : State) : Host.Outcome State Fault Refusal := .next (runWord (.fr 0x301 f) bodyStx s)
def execLdxs (f : FR) (s : State) : Host.Outcome State Fault Refusal := .next (runWord (.fr 0x302 f) bodyLdxs s)
def execStxs (f : FR) (s : State) : Host.Outcome State Fault Refusal := .next (runWord (.fr 0x303 f) bodyStxs s)
def execProbe (f : FR) (s : State) : Host.Outcome State Fault Refusal := .next (runWord (.fr 0x304 f) bodyProbe s)
def execUnpin (f : FR) (s : State) : Host.Outcome State Fault Refusal := .next (runWord (.fr 0x305 f) bodyUnpin s)

end Sys2Proof.Machine
end

