-- ==== Sys2Proof/Machine/Barrier.lean ====
section
/-! DEFINITION. Barrier registers (spec/11_queues.md R223-R229): BINIT, BARV, BWAIT, arrivals and the waking of waiters. -/

namespace Sys2Proof.Machine

def Workgroup.bar (w : Workgroup) (n : Nat) : Barrier := w.bars.get (Fin.ofNat 16 n)
def Workgroup.setBar (w : Workgroup) (n : Nat) (b : Barrier) : Workgroup :=
  { w with bars := w.bars.set (n % 16) b (Nat.mod_lt n (by decide)) }

/-- The phases that the counts cover complete (R224); at most 255 at once, since EXPM ≥ 1 and ARVM ≤ 255. -/
def Barrier.settle (b : Barrier) : (fuel : Nat) → Barrier
  | 0 => b
  | n + 1 =>
    if 0 < b.expm ∧ b.expm ≤ b.arvm ∧ b.expb ≤ b.arvb then
      { b with phase := b.phase + 1, arvm := b.arvm - b.expm, arvb := b.arvb - b.expb : Barrier }.settle n
    else b

/-- An arrival of members and bytes; the counts saturate (R223). -/
def Barrier.arrive (b : Barrier) (members bytes : Nat) : Barrier :=
  { b with arvm := min 255 (b.arvm + members), arvb := min (2 ^ 32 - 1) (b.arvb + bytes) : Barrier }.settle 256

/-- The condition of BWAIT's form 0 `.PH`, 1 `.PAR`, 2 `.B` (R227). -/
def Barrier.holds (b : Barrier) (form : Nat) (a c : Word) : Bool :=
  let ph : BitVec 16 := a.setWidth 16
  let d := (b.phase - ph).toNat
  match form with
  | 0 => decide (d < 2 ^ 15)
  | 1 => b.phase.getLsbD 0 == a.getLsbD 0
  | _ => (decide (1 ≤ d) && decide (d < 2 ^ 15)) || (d == 0 && decide (c.toNat ≤ b.arvb))

/-- The status word of a wait that ended (R210). -/
def Barrier.status (b : Barrier) (code : Nat) : Dual := { v := BitVec.ofNat 64 (b.phase.toNat * 65536 + code) }

/-- A wait that sleeps at a barrier ends: its status is written and its fragment acts as FENCE.ACQ.WG before it goes on,
unless it yields. -/
def Group.wakeBwait (g : Group) (ktan : Nat) (b : Barrier) (code : Nat) (ent : Nat) : Group :=
  match g.frag? ent with
  | some f =>
    match f.st with
    | .bwait _ _ _ _ dst =>
      (g.writeS dst 1 ktan 0 (b.status code)).putFrag ent { f with st := if code == 0 then .acquire else .ready }
    | _ => g
  | none => g

/-- The waiters of barrier `n` whose condition holds wake (R224). -/
def Group.wakeBar (g : Group) (ktan n : Nat) (b : Barrier) : Group :=
  (g.frags.filter fun p => match p.2.st with | .bwait m form a c _ => m == n && b.holds form a c | _ => false).foldl
    (fun g p => g.wakeBwait ktan b 0 p.1) g

/-- Members and bytes arrive at a barrier of a workgroup. -/
def State.arriveBar (s : State) (run n members bytes : Nat) : State :=
  match s.wg? run with
  | none => s
  | some w =>
    let ktan := s.ktan w
    let b := (w.bar n).arrive members bytes
    let fresh (g : Group) : Group := if b.phase == (w.bar n).phase then g else { g with retired := 0 }
    s.putWg { w.setBar n b with groups := w.groups.map fun g => fresh (g.wakeBar ktan n b) }

/-- Whether an access that a BARV waits for is still unacknowledged (R226). -/
def Group.pendingAcc (g : Group) (id : Nat) : Bool := g.accs.any fun a => a.id == id && a.outstanding

/-- The oldest BARV of a group arrives, once the accesses outstanding at its issue are acknowledged. -/
def State.barvArrive (s : State) (run grp : Nat) : State :=
  match s.group? run grp with
  | none => s
  | some g =>
    match g.barvs with
    | [] => s
    | b :: rest =>
      if b.waits.any g.pendingAcc then s
      else (s.putGroup run { g with barvs := rest }).arriveBar run b.bar 1 b.bytes

/-- BARRIER_ARRIVAL. -/
def barrierArrival (s : State) : State := s.barvArrive s.arg.wg s.arg.grp

/-! ### The words -/

def Ctx.objn (c : Ctx) : Nat := c.mods 8 5

def bodyBinit (c : Ctx) : Out :=
  if c.sel == 0 then .regs c.g 0
  else
    let m := (c.scalar 0).toNat
    if m == 0 || decide (255 < m) then c.object 5 c.objn
    else .done (c.s.onWg c.w.run fun w => w.setBar c.objn { w.bar c.objn with
      expm := m, expb := (c.scalar 1).toNat, arvm := 0, arvb := 0 })

def bodyBarv (c : Ctx) : Out :=
  if c.sel == 0 then .regs c.g 0
  else
    let b : Barv := { bar := c.objn, bytes := (c.scalar 0).toNat, waits := (c.g.accs.filter Access.outstanding).map (·.id) }
    let s := c.s.putGroup c.w.run { c.g with barvs := c.g.barvs ++ [b] }
    .done (if c.g.barvs.isEmpty then s.barvArrive c.w.run c.g.grp else s)

def bodyBwait (c : Ctx) : Out :=
  if c.sel == 0 then .regs c.g 0
  else
    let form := c.mods 0 2
    let a := (c.scalar 0).setWidth 32
    let t := if form == 2 then (c.scalar 2).setWidth 32 else 0
    let b := c.w.bar c.objn
    let put (code : Nat) : Group := c.g.writeS c.bnum 1 c.l.ktan 0 (b.status code)
    if b.holds form a t then
      if c.g.drained then .done ((c.s.putGroup c.w.run (put 0)).dropUt c.w.core)
      else .regs ((put 0).putFrag c.ent { c.f with st := .acquire }) 0
    else if c.w.pend then .regs (put 1) 0
    else if c.l.det then c.fail
    else .regs (c.g.putFrag c.ent { c.f with st := .bwait c.objn form a t c.bnum }) 0

def execBarrierArrival (s : State) : Host.Outcome State Fault Refusal := .next (barrierArrival s)

/-! ### The meanings -/

def execBinit (f : FR) (s : State) : Host.Outcome State Fault Refusal := .next (runWord (.fr 0x285 f) bodyBinit s)
def execBarv (f : FR) (s : State) : Host.Outcome State Fault Refusal := .next (runWord (.fr 0x286 f) bodyBarv s)
def execBwait (f : FR) (s : State) : Host.Outcome State Fault Refusal := .next (runWord (.fr 0x287 f) bodyBwait s)

end Sys2Proof.Machine
end

