-- ==== Sys2Proof/Machine/Queue.lean ====
section
/-! DEFINITION. Queues (spec/11_queues.md R207-R222, spec/19_memfaults.md R373-R375): their controllers, and QBIND, QINIT,
QPUSH, QPOP, QSTAT. -/

namespace Sys2Proof.Machine

/-! ### Places and checks -/

/-- What check 5 and 6 expect of a block (R373): HOME by the domain's slices, where the domain is known. -/
def State.placeOf (s : State) (q : QKey) (dom : Option Nat) (b : QBlock) : QPlace :=
  match q with
  | .loc run _ =>
    let spad := match s.wg? run with
      | some w => (match s.launch? w.lid with | some l => l.spad | none => 0)
      | none => 0
    { loc := true, home := 0xFF, wide := false, spad }
  | .mem ia =>
    { loc := false, home := (match dom with | some d => homeDie (s.slices d) ia | none => b.cfg / 2 ^ 32 % 256)
      wide := region b.base != .hbm }

/-- The check that the queue's block fails, 0 for none. -/
def State.queueCode (s : State) (q : QKey) (dom : Option Nat) : Nat :=
  match s.block? q with
  | none => 0
  | some (b, poison) => b.check (s.placeOf q dom b) poison

/-- The die of a controller. -/
def State.ctlDie (s : State) (q : QKey) (dom : Option Nat) : Nat :=
  match q with
  | .loc run _ => match s.wg? run with | some w => coreDie w.core | none => 0
  | .mem ia => match dom with | some d => homeDie (s.slices d) ia | none => 0

/-- The domain that owns the memory of a queue's block. -/
def State.blockDom (s : State) (q : QKey) : Option Nat := match q with | .mem ia => s.ownerDom ia | .loc .. => none

/-- The address that names a block in reports: its IA, or its scratchpad offset (R374). -/
def State.blockAddr (s : State) (q : QKey) : Nat :=
  match q with
  | .loc run n => match s.locBlock run n with | some x => x.2 | none => 0
  | .mem ia => ia

/-- TINFO of QCORRUPT (R339). -/
def State.corruptInfo (s : State) (q : QKey) (code : Nat) : DWord :=
  fields [(60, code), (52, match q with | .loc .. => 1 | .mem _ => 0), (0, s.blockAddr q % 2 ^ 52)]

/-! ### Waiting operations -/

/-- Whether a push's elements are all acknowledged. -/
def Access.written (a : Access) : Bool := a.parts.all fun p => p.st == .done

/-! ### Resuming and trapping -/

/-- Status, and under `.TRY` the success mask, of a queue operation that served `n` lanes (R210, R215). -/
def QOp.code (q : QOp) (n : Nat) : Nat := if n == q.lanes.length then 0 else if n == 0 then 3 else 2

def Group.queueResult (g : Group) (ktan : Nat) (q : QOp) (code n : Nat) : Group :=
  let g := g.writeS q.status 1 ktan 0 { v := BitVec.ofNat 64 code }
  if q.tryForm then
    g.setMask q.tm (if q.scal then (if n == 0 then 0 else BitVec.allOnes 64) else Mask.of fun i => (q.lanes.take n).contains i)
  else g

/-- The fragment that waits in the operation of access `a` goes on behind its word, which issued when it began to wait. -/
def Group.resume (g : Group) (l : Launch) (a : Access) : Group :=
  match g.frags.find? fun p => p.2.st == .queue a.id with
  | none => g
  | some (ent, f) =>
    (g.putFrag ent { f with st := .ready }).advance l ent (some a.pc) (if g.alone then sigFold g.sig a.word else g.sig)

/-- Pushes that their controller no longer lists (R374, log 22): each leaves its group once its elements are written, and one
that waited for TAIL goes on. -/
def State.closePushes (s : State) (ps : List (Nat × Nat × Nat × Nat × Nat)) : State :=
  ps.foldl (fun s p =>
    match s.waiter (p.1, p.2.1, p.2.2.1), s.wg? p.1 with
    | some (g, a), some w =>
      match s.launch? w.lid, a.q with
      | some l, some q =>
        let g := if g.frags.any fun x => x.2.st == .queue a.id then (g.queueResult l.ktan q (q.code p.2.2.2.2) p.2.2.2.2).resume l a else g
        s.putGroup p.1 { g with accs := g.accs.filter fun b => !(b.id == a.id && b.written) }
      | _, _ => s
    | _, _ => s) s

/-- A block is rewritten, by QINIT or by the service firmware: its freeze is lifted, its controller forgets the pushes and
the pop granted on the old fields, which complete for their groups without moving the new ones, and the waiters are counted
again (R212, R374, log 22). -/
def State.restartQueue (s : State) (q : QKey) : State :=
  let x := s.qctl q
  ((s.setQctl { x with frozen := 0, requeue := false, pushes := [], pop := none, stale := x.stale ++ x.pop.toList }).closePushes x.pushes).note q

/-- A controller before an operation: an applied QINIT store has its effect (R212, R374). -/
def State.ctlStart (s : State) (q : QKey) : State := if (s.qctl q).requeue then s.restartQueue q else s

/-- A pop that ends without elements: its destination becomes full with its old values and Q falls (R215, R218). -/
def Group.dropPop (g : Group) (a : Access) : Group :=
  let g := match a.dest with | some d => g.setFull d.scal d.num d.n | none => g
  { g.lowerCtr a.id with accs := g.accs.filter fun b => b.id != a.id }

/-- A waiting operation ends without a reservation, with a status (R218). -/
def State.queueEnd (s : State) (x : Nat × Nat × Nat) (code : Nat) : State :=
  match s.waiter x, s.wg? x.1 with
  | some (g, a), some w =>
    match s.launch? w.lid, a.q with
    | some l, some q => s.putGroup x.1 (((g.dropPop a).queueResult l.ktan q code 0).resume l a)
    | _, _ => s
  | _, _ => s

/-- A waiting operation takes a trap at its word, with the lanes `mask` or else all that it selects (R213, R374). -/
def State.queueTrap (s : State) (x : Nat × Nat × Nat) (code : Nat) (info : DWord) (mask : Option Mask := none) : State :=
  match s.waiter x with
  | none => s
  | some (g, a) =>
    match g.frags.find? fun p => p.2.st == .queue a.id with
    | none => s
    | some (ent, f) =>
      (s.putGroup x.1 ((g.dropPop a).putFrag ent { f with st := .ready })).trap x.1 x.2.1 ent a.pc a.pc code info (mask.getD a.sel)

/-- Waiting `.TRY` pops that a blocked pop has come to stand before end with NONE (R215). -/
def State.endTries (s : State) (q : QKey) : State :=
  match s.block? q with
  | none => s
  | some (b, _) =>
    let xs := s.beatenTries (s.popLeft q b) false (s.qctl q).popW
    if xs.isEmpty then s
    else (xs.foldl (fun s x => s.queueEnd x 3) (s.setQctl { s.qctl q with popW := (s.qctl q).popW.filter fun x => !xs.contains x })).note q

/-- Waiting pops of draining workgroups that have come to be blocked yield at once, wherever they stand (R218). -/
def State.endYields (s : State) (q : QKey) : State :=
  let xs := (s.stuckPops q).filter fun x => match s.wg? x.1 with | some w => w.pend | none => false
  if xs.isEmpty then s
  else (xs.foldl (fun s x => s.queueEnd x 1) (s.setQctl { s.qctl q with popW := (s.qctl q).popW.filter fun x => !xs.contains x })).note q

/-- An error response to an operation's control-block access kills the workgroup (R12, R370). -/
def State.blockError (s : State) (w : Workgroup) (g : Group) (dom ent lane : Nat) (pc : DWord) (ia reason : Nat) : State :=
  let wid := g.wid.at lane
  (s.faultRecord dom 13 3 reason ia 0 wid (Mask.bit lane) pc w.wgx w.core g.grp ent 0 false).kill w.run (some wid)

/-- The error response that an operation of a domain on a queue's block meets. -/
def State.queueError (s : State) (q : QKey) (dom : Option Nat) : Option Nat :=
  match q with | .mem ia => s.errorAt dom ia | .loc .. => none

/-- The thread operation that met a corrupt block. -/
structure QWho where
  run : Nat
  grp : Nat
  ent : Nat
  pc : DWord
  lane : Nat

/-- The first failed check freezes the queue: one record, and every waiter takes QCORRUPT (R374). -/
def State.freezeQueue (s : State) (q : QKey) (code dom : Nat) (who : Option QWho) : State :=
  let x := s.qctl q
  let info := s.corruptInfo q code
  let mask : DWord := match q with | .loc _ n => BitVec.ofNat 64 (2 ^ 63 + n) | .mem _ => 0
  let ia := s.blockAddr q
  let s := match who with
    | some y =>
      match s.wg? y.run, s.group? y.run y.grp with
      | some w, some g => s.faultRecord dom 15 3 code ia 0 (g.wid.at y.lane) mask y.pc w.wgx w.core y.grp y.ent 0 false
      | _, _ => s
    | none => s.faultRecord dom 15 3 code ia 0 0 mask 0 0 0 0 0 0 false
  let s := s.setQctl { x with frozen := code, pushW := [], popW := [], pushes := [] }
  let s := s.closePushes x.pushes
  (x.pushW ++ x.popW).foldl (fun s y => s.queueTrap y 0x11 info) s

/-! ### Granting -/

/-- An element's bytes cut at line boundaries. -/
def cutLines (ia n : Nat) : (fuel : Nat) → List (Nat × Nat × Nat)
  | 0 => []
  | fuel + 1 => if n == 0 then [] else
    let m := min n (128 - ia % 128)
    (ia, 0, m) :: (cutLines (ia + m) (n - m) fuel).map fun x => (x.1, x.2.1 + m, x.2.2)

/-- The pieces of a span at line boundaries. -/
def spanLines (ia n : Nat) : List (Nat × Nat × Nat) := cutLines ia n (n / 128 + 2)

/-- Bytes of a span that may cross pages, its poison, and a write of it. -/
def State.readSpan (s : State) (ia n : Nat) : List Byte := (spanLines ia n).flatMap fun x => s.readIA x.1 x.2.2
def State.badSpan (s : State) (ia n : Nat) : Bool := (spanLines ia n).any fun x => s.badIA x.1 x.2.2
def State.writeSpan (s : State) (ia : Nat) (bs : List Byte) : State :=
  (spanLines ia bs.length).foldl (fun s x => s.writeIA x.1 ((bs.drop x.2.1).take x.2.2)) s

/-- Whether an IA lies in a range that needs no acceptance (R361). -/
def Launch.freeIa (l : Launch) (ia : Nat) : Bool :=
  region ia != .hbm || l.ranges.any fun x => x.pin && decide (x.ia ≤ ia) && decide (ia < x.ia + x.size)

/-- The parts of element `j` in the slot at `ia`: `lane` is its lane, `cmp` the poisoned sectors of each part. -/
def Launch.slotParts (l : Launch) (lane ia n dat bads : Nat) : List Part :=
  (cutLines ia n 9).map fun x =>
    let free := l.freeIa x.1
    { lane, ia := x.1, size := x.2.2, dat := dat / 256 ^ x.2.1 % 256 ^ x.2.2, cmp := bads / 2 ^ (x.2.1 / 16) % 256
      st := if free then .walked else .issued, accepted := free }

/-- Bytes with their poisoned sectors written into a workgroup's scratchpad; a part of a sector keeps its own poison too. -/
def Workgroup.spadPut (w : Workgroup) (off n dat bads : Nat) : Workgroup :=
  let w := w.spadWrite off n dat
  { w with spadBad := union w.spadBad ((List.range ((n + 15) / 16)).filterMap fun i =>
      if bads.testBit i then some (off / 16 + i) else none) }

/-- A queue operation served, in the record of the slice whose controller it is (R333). -/
def State.queueServed (s : State) (q : QKey) : State :=
  match q with | .mem ia => s.perfSlice (s.homeSlice ia) 5 1 | .loc .. => s

/-- `n` elements of a push get sequence numbers; each is written, or sent to its slot (R213). -/
def State.grantPush (s : State) (q : QKey) (x : Nat × Nat × Nat) (n : Nat) : State :=
  match s.block? q, s.waiter x, s.wg? x.1 with
  | some (b, _), some (_, a), some w =>
    match s.launch? w.lid, a.q with
    | some l, some op =>
      let first := b.resv
      let s := s.queueServed q
      let s := s.putBlock q { b with resv := (b.resv + n) % 2 ^ 64 : QBlock }.refree
      let c := s.qctl q
      let s := s.setQctl { c with pushes := c.pushes ++ [(x.1, x.2.1, x.2.2, first, n)] }
      let elems := (op.lanes.take n).mapIdx fun j i => (i, b.slot (first + j), op.data.getD j 0, op.bads.getD j 0)
      let op := { op with granted := true, seq := first, lanes := op.lanes.take n }
      let isLoc := match q with | .loc .. => true | .mem _ => false
      let parts : List Part := elems.flatMap fun e =>
        if isLoc then [{ lane := e.1, size := b.esz, st := .done, accepted := true }]
        else l.slotParts e.1 e.2.1 b.esz e.2.2.1 e.2.2.2
      let s := s.onGroup x.1 x.2.1 fun g => { g with
        accs := g.accs.map fun y => if y.id == a.id then { y with parts, q := some op, glob := !isLoc } else y }
      if isLoc then s.onWg x.1 fun w => elems.foldl (fun w e => w.spadPut e.2.1 b.esz e.2.2.1 e.2.2.2) w
      else s
    | _, _ => s
  | _, _, _ => s

/-- `n` elements are granted to a pop: PPEND is set and the group reads the slots, an acquire from now on (R214, R172). -/
def State.grantPop (s : State) (q : QKey) (x : Nat × Nat × Nat) (n : Nat) : State :=
  match s.block? q, s.waiter x, s.wg? x.1 with
  | some (b, _), some (_, a), some w =>
    match s.launch? w.lid, a.q with
    | some l, some op =>
      let s := (s.queueServed q).putBlock q { b with wait := b.wait % 2 ^ 63 + 2 ^ 63 }
      let s := s.setQctl { s.qctl q with pop := some x }
      let isLoc := match q with | .loc .. => true | .mem _ => false
      let parts : List Part := ((op.lanes.take n).mapIdx fun j i => (i, b.slot (b.head + j))).flatMap fun e =>
        if isLoc then
          [{ lane := e.1, ia := e.2, size := b.esz, res := w.spad.le e.2 b.esz, bad := isPoisoned w.spadBad e.2 b.esz
             cmp := (List.range ((b.esz + 15) / 16)).foldl (fun m i => if w.spadBad.contains (e.2 / 16 + i) then m + 2 ^ i else m) 0
             st := .served, accepted := true }]
        else l.slotParts e.1 e.2 b.esz 0 0
      let op := { op with granted := true, seq := b.head, lesz := b.lesz, lanes := op.lanes, data := [n] }
      s.onGroup x.1 x.2.1 fun g => { g with
        accs := g.accs.map fun y => if y.id == a.id then { y with parts, acq := true, q := some op, glob := !isLoc } else y }
    | _, _ => s
  | _, _, _ => s

/-- The dispatcher's domain for a workgroup's queue operations. -/
def State.domOf (s : State) (run : Nat) : Option Nat := ((s.wg? run).bind fun w => s.launch? w.lid).map (·.dom)

/-- A granted push of a deterministic launch keeps its turn until TAIL has passed it (R298); any other resumes. -/
def State.pushed (s : State) (x : Nat × Nat × Nat) (n : Nat) : State :=
  match s.waiter x, s.wg? x.1 with
  | some (g, a), some w =>
    match s.launch? w.lid, a.q with
    | some l, some q =>
      if l.det then s
      else s.putGroup x.1 ((g.queueResult l.ktan q (if n == q.lanes.length then 0 else 2) n).resume l a)
    | _, _ => s
  | _, _ => s

/-- The tests of a request that depend on the block (R213): more lanes than slots, or a register form on LESZ ≠ 3. -/
def QOp.misfit (q : QOp) (b : QBlock) : Bool := decide (b.slots < q.lanes.length) || (!q.spad && b.lesz != 3)

/-- An SP element as a lane's scratchpad holds it: its bytes, and its poisoned sectors one bit each (R213, R377). -/
def Workgroup.element (w : Workgroup) (off n : Nat) : Nat × Nat :=
  (w.spad.le off n, (List.range ((n + 15) / 16)).foldl (fun m i => if w.spadBad.contains (off / 16 + i) then m + 2 ^ i else m) 0)

/-- A waiting SP operation after a QINIT that changed LESZ: it is tested against the new size, and a push reads its elements anew
in that size (R212, log 101). -/
def QOp.refit (q : QOp) (w : Workgroup) (b : QBlock) : QOp :=
  if !q.spad || q.lesz == b.lesz then q
  else
    let xs := if q.pop then [] else q.offs.map fun o => w.element o b.esz
    { q with lesz := b.lesz, data := xs.map (·.1), bads := xs.map (·.2) }

/-- The operation of a waiter replaced by what the block makes of it. -/
def State.refit (s : State) (x : Nat × Nat × Nat) (b : QBlock) : State :=
  match s.wg? x.1 with
  | none => s
  | some w => s.onAcc x.1 x.2.1 x.2.2 fun a => { a with q := a.q.map fun q => q.refit w b }

/-- The lanes of an SP operation whose elements would pass the end of SPAD, each with its offset. -/
def QOp.overrun (q : QOp) (spad : Nat) (b : QBlock) : List (Nat × Nat) :=
  if q.spad then (q.offs.zip q.lanes).filter fun x => decide (spad < x.1 + b.esz) else []

/-- The number that names a queue in OBJECT (R347). -/
def State.queueNum (s : State) (run : Nat) (q : QKey) : Nat :=
  match q with
  | .loc _ n => n
  | .mem ia => match s.wg? run with
    | some w => 16 + (w.binds.toList.findIdx fun x => x == some ia)
    | none => 0

/-- QUEUE_PUSH_GRANT and QUEUE_POP_GRANT: the controller checks its block and tests the oldest waiter. -/
def State.tryGrant (s : State) (q : QKey) (pop : Bool) : State :=
  let s := ((s.ctlStart q).endTries q).endYields q
  let c := s.qctl q
  match (if pop then c.popW else c.pushW) with
  | [] => s
  | x :: rest =>
    let dom := s.domOf x.1
    let code := s.queueCode q dom
    if c.frozen != 0 then s
    else if (s.queueError q dom).isSome then
      match s.waiter x, s.wg? x.1 with
      | some (g, a), some w => s.blockError w g (dom.getD 0) a.ent a.sel.low a.pc (s.blockAddr q) ((s.queueError q dom).getD 0)
      | _, _ => s
    else if code != 0 then
      let who := (s.waiter x).map fun y => { run := x.1, grp := x.2.1, ent := y.2.ent, pc := y.2.pc, lane := y.2.sel.low : QWho }
      s.freezeQueue q code (dom.getD 0) who
    else
      match s.block? q, (s.waiter x).bind fun y => y.2.q with
      | some (b, _), some op =>
        let k := op.lanes.length
        let next : State := s.setQctl (if pop then { c with popW := rest } else { c with pushW := rest })
        let past := op.overrun (((s.wg? x.1).bind fun w => s.launch? w.lid).elim 0 (·.spad)) b
        let next := next.refit x b
        let s := s.refit x b
        if op.misfit b then (next.queueTrap x 0x09 (fields [(0, 4), (8, s.queueNum x.1 q)])).note q
        else if !past.isEmpty then
          let mask := Mask.of fun i => past.any fun y => y.2 == i
          let low := match s.group? x.1 x.2.1 with | some g => g.lowLane mask | none => 0
          (next.queueTrap x 0x08 (BitVec.ofNat 64 ((past.find? fun y => y.2 == low).elim 0 (·.1))) (some mask)).note q
        else if pop then
          if b.ppend then s
          else
            let have_ := b.tail - b.head
            let pend := match s.wg? x.1 with | some w => w.pend | none => false
            if op.tryForm then
              if have_ == 0 then (next.queueEnd x 3).note q else (next.grantPop q x (min k have_)).note q
            else if k ≤ have_ then (next.grantPop q x k).note q
            else if pend then (next.queueEnd x 1).note q
            else s
        else if k ≤ b.free then ((next.grantPush q x k).pushed x k).note q
        else s
      | _, _ => s

def queuePushGrant (s : State) : State := s.tryGrant s.arg.q false
def queuePopGrant (s : State) : State := s.tryGrant s.arg.q true

/-- A register element delivered to its lane, or the bytes of a scratchpad element to its offset (R214). -/
def Group.popDeliver (g : Group) (l : Launch) (q : QOp) (d : Option Dest) (ps : List Part) (n : Nat) : Group :=
  match d with
  | none => g
  | some d =>
    let lanes := q.lanes.take n
    let val (i : Nat) : Dual := match ps.find? fun p => p.lane == i with | some p => { v := BitVec.ofNat 64 p.res } | none => {}
    if d.scal then g.writeS d.num d.n l.ktan 0 (val (lanes.headD 0))
    else g.writeV d.num d.n l.ktan 0 (Mask.of fun i => lanes.contains i) val

/-- The end of a granted pop of `n` elements for its group: the elements reach their registers or scratchpad bytes and the
fragment goes on (R214); a poisoned register element is consumed (R378); what returns to a killed workgroup is discarded
(R353). -/
def State.popReturn (s : State) (q : QKey) (x : Nat × Nat × Nat) (a : Access) (n : Nat) : State :=
  match s.wg? x.1, a.q with
  | some w, some op =>
    match s.launch? w.lid with
    | none => s
    | some l =>
      if w.life == .killed then s.onGroup x.1 x.2.1 fun g => { g with accs := g.accs.filter fun b => b.id != a.id }
      else if !op.spad && a.parts.any (·.bad) then
        let p := (a.parts.find? (·.bad)).getD { lane := 0, size := 0 }
        (s.onGroup x.1 x.2.1 fun g => g.dropPop a).consume x.1 x.2.1 (Mask.of fun i => a.parts.any fun p => p.bad && p.lane == i)
          (match q with | .loc .. => 3 | .mem _ => 8) (match q with | .loc .. => 0 | .mem _ => p.ia + 16 * ((List.range 8).find? p.cmp.testBit).getD 0) a.pc
      else
        let s := if op.spad then
            s.onWg x.1 fun w => (op.lanes.take n).foldl (fun w i =>
              let off := op.offs.getD (op.lanes.findIdx (· == i)) 0
              let ps := (a.parts.filter fun p => p.lane == i)
              (ps.foldl (fun (y : Workgroup × Nat) p => (y.1.spadPut y.2 p.size p.res p.cmp, y.2 + p.size)) (w, off)).1) w
          else s
        let s := s.onGroup x.1 x.2.1 fun g =>
          let g := (g.dropPop a).popDeliver l op a.dest a.parts n
          (g.queueResult l.ktan op (op.code n) n).resume l a
        s.dropUt w.core
  | _, _ => s

/-- The slot reads of a granted pop have returned, or nothing is left of it. -/
def State.popRead (s : State) (x : Nat × Nat × Nat) : Bool :=
  match s.waiter x with
  | some (_, a) => a.parts.all fun p => p.st == .served || p.st == .done
  | none => true

/-- The pop would bring poison to a register of a workgroup that runs: the word consumes it and has no effect (R378). -/
def State.popPoisoned (s : State) (run : Nat) (a : Access) : Bool :=
  a.parts.any (·.bad) && (match a.q with | some op => !op.spad | none => false) &&
    match s.wg? run with | some w => w.life != .killed | none => false

/-- QUEUE_POP_COMMIT: the slot reads have returned; HEAD and FREE advance, PPEND clears and the fragment resumes (R214); of a
pop that consumes poison PPEND alone clears. A pop granted before its block was rewritten or frozen completes without changing
the block (R374, log 22). -/
def queuePopCommit (s : State) : State :=
  let q := s.arg.q
  let s := s.ctlStart q
  let c := s.qctl q
  match c.stale.find? s.popRead, c.pop with
  | some x, _ =>
    let s := s.setQctl { c with stale := c.stale.filter (· != x) }
    match s.waiter x with
    | some (_, a) => s.popReturn q x a (match a.q with | some op => op.data.headD 0 | none => 0)
    | none => s
  | none, none => s
  | none, some x =>
    if !s.popRead x then s
    else
      let s := s.setQctl { c with pop := none }
      match s.waiter x with
      | none => s
      | some (_, a) =>
        let n := match a.q with | some op => op.data.headD 0 | none => 0
        let s := match s.block? q with
          | some (b, _) =>
            let n := if s.popPoisoned x.1 a then 0 else n
            if c.frozen != 0 then s
            else (s.putBlock q ({ b with head := (b.head + n) % 2 ^ 64, wait := b.wait % 2 ^ 63 : QBlock }.addFree n)).note q
          | none => s
        s.popReturn q x a n

/-- The elements of a granted push that are written and whose DTIME ≥ W, from the front (R213). -/
def Access.prefixDone (a : Access) (now : Nat) : Nat :=
  match a.q with
  | none => 0
  | some q => (q.lanes.takeWhile fun i => a.parts.all fun p => p.lane != i || (p.st == .done && decide (p.w ≤ now))).length

/-- TAIL passes an element that the host or the NIC wrote with `cnt` messages from `id` on, once they are acknowledged
(R221, R222). -/
def State.elementTail (s : State) (q : QKey) (cnt id first : Nat) (rest : List (Nat × Nat × Nat × Nat × Nat)) : State :=
  let mine (m : Msg) : Bool := m.use_ == .element q && decide (id ≤ m.id) && decide (m.id < id + cnt)
  match s.block? q with
  | none => s
  | some (b, _) =>
    if (s.qctl q).frozen != 0 || decide (b.tail < first) ||
        (s.msgs.any fun m => mine m && !(m.part.st == .done && decide (m.part.w ≤ s.now (s.ctlDie q (s.blockDom q))))) then s
    else
      let s := { s with msgs := s.msgs.filter fun m => !mine m }
      ((s.setQctl { s.qctl q with pushes := rest }).putBlock q { b with tail := max b.tail (first + 1) }).note q

/-- QUEUE_TAIL_ADVANCE: TAIL passes the elements that are acknowledged, in reservation order (R213): an element of the host
that stands between two pushes is passed by the host alone (R221). A deterministic push resumes when TAIL has passed it. -/
def queueTailAdvance (s : State) : State :=
  let q := s.arg.q
  let s := s.ctlStart q
  let c := s.qctl q
  match c.pushes with
  | [] => s
  | (0, cnt, id, first, _) :: rest => s.elementTail q cnt id first rest
  | (run, grp, acc, first, n) :: rest =>
    match s.block? q, s.waiter (run, grp, acc), s.wg? run with
    | some (b, _), some (_, a), some w =>
      if c.frozen != 0 || decide (b.tail < first) then s
      else
        let done := a.prefixDone (s.now (s.ctlDie q (s.domOf run)))
        let s := if b.tail < first + done then s.putBlock q { b with tail := first + done } else s
        if done < n then s.note q
        else
          let s := s.setQctl { c with pushes := rest }
          let s := s.onGroup run grp fun g =>
            match s.launch? w.lid, a.q with
            | some l, some op =>
              let g := { g with accs := g.accs.filter fun y => y.id != acc }
              if l.det then (g.queueResult l.ktan op (if op.tryForm && op.data.length != n then 2 else 0) n).resume l a else g
            | _, _ => g
          s.note q
    | _, _, _ => s.setQctl { c with pushes := rest }

/-! ### QBIND and QINIT -/

/-- The queue that a name stands for (R207, R208). -/
def Ctx.queueKey (c : Ctx) : Option QKey :=
  if c.objn < 16 then (c.w.locq.toList.getD c.objn none).map fun _ => .loc c.w.run c.objn
  else (c.w.binds.toList.getD (c.objn - 16) none).map .mem

/-- A control block may lie here: in an HBM range without MS, with R and W (R208). -/
def Launch.blockAt (l : Launch) (va : Nat) : Option Nat :=
  match l.rangeOf va with
  | some x => if x.r && x.w && !x.ms && region (x.iaOf va) == .hbm then some (x.iaOf va) else none
  | none => none

def bodyQbind (c : Ctx) : Out :=
  if c.sel == 0 then .regs c.g 0
  else
    let i := c.objn - 16
    let put (x : Option Nat) : Out := .done (c.s.onWg c.w.run fun w => { w with
      binds := w.binds.set (i % 16) x (Nat.mod_lt i (by decide)) })
    if c.anum == 64 then put none
    else
      let va := (c.scalar 0).toNat
      if va % 128 != 0 then c.object 2 c.objn
      else match c.l.blockAt va with
        | some ia => put (some ia)
        | none => c.object 2 c.objn

/-- LSLOT and LESZ of QINIT's operand c; nothing where it is out of range (R212). -/
def qinitCfg (x : Nat) : Option (Nat × Nat) :=
  let lslot := x % 32
  let lesz := x / 256 % 16
  if 1 ≤ lslot ∧ lslot ≤ 16 ∧ 3 ≤ lesz ∧ lesz ≤ 10 ∧ x = lslot + 256 * lesz then some (lslot, lesz) else none

/-- QINIT, local form: the SRAM controller writes the block at once. -/
def bodyQinit (c : Ctx) : Out :=
  if c.sel == 0 then .regs c.g 0
  else
    let a := (c.scalar 0).toNat
    let b := (c.scalar 1).toNat
    match qinitCfg (c.scalar 2).toNat with
    | none => c.object 3 c.objn
    | some (lslot, lesz) =>
      if a % 128 != 0 || b % 128 != 0 || decide (c.l.spad < a + 128) || decide (c.l.spad < b + 2 ^ lslot * 2 ^ lesz) then
        c.object 3 c.objn
      else
        let n := c.objn
        let blk := QBlock.fresh (cfgOf lslot lesz true false 0xFF) b
        let s := c.s.onWg c.w.run fun w => { w with
          spad := w.spad.write a blk.bytes, spadBad := writePoison w.spadBad a 128 false
          locq := w.locq.set (n % 16) (some a) (Nat.mod_lt n (by decide)) }
        let q : QKey := .loc c.w.run n
        .done (s.restartQueue q)

/-- QINIT, memory form: one store of the line, never held. -/
def bodyQinitMem (c : Ctx) : Out :=
  if c.sel == 0 then .regs c.g 0
  else
    let a := (c.scalar 0).toNat
    let b := (c.scalar 1).toNat
    match qinitCfg (c.scalar 2).toNat, c.l.blockAt a, c.l.rangeOf b with
    | some (lslot, lesz), some ia, some r =>
      if a % 128 != 0 || b % 128 != 0 || !r.r || !r.w || decide (r.base + r.size < b + 2 ^ lslot * 2 ^ lesz) then c.object 3 0
      else
        let base := r.iaOf b
        let blk := QBlock.fresh (cfgOf lslot lesz false (region base != .hbm) (homeDie (c.s.slices c.l.dom) ia)) base
        let (id, s) := c.s.new
        let p := c.part { lane := c.low, plane := 0, va := a } 128 (leNat blk.bytes) 0
        let s := s.onGroup c.w.run c.g.grp fun g => g.addAccess (c.access id .qinit [p])
        .done (s.storeL1 c.w.core ia 128 (leNat blk.bytes))
    | _, _, _ => c.object 3 0

/-! ### QPUSH, QPOP, QSTAT -/

/-- Whether an operation's control block is accepted (R361): at once, in L2, or by the access that the fragment sent. -/
def Ctx.blockReady (c : Ctx) (q : QKey) : Bool :=
  match q with
  | .loc .. => true
  | .mem ia => c.l.freeIa ia || (c.s.l2? (ia / 128)).isSome || c.g.accs.any fun a => a.kind == .qblock && a.fid == c.f.fid

/-- The fragment waits until its control block is accepted. -/
def Ctx.askBlock (c : Ctx) (q : QKey) : Out :=
  match q with
  | .loc .. => .stall .other
  | .mem ia =>
    let (id, s) := c.s.new
    .wait (s.onGroup c.w.run c.g.grp fun g => g.addAccess (c.access id .qblock [{ lane := c.low, ia, size := 128 }])) .other

/-- The error response that the operation's control-block access meets (R12). -/
def Ctx.blockError (c : Ctx) (q : QKey) : Option Out :=
  (c.s.queueError q (some c.l.dom)).map fun r =>
    .state (c.s.blockError c.w c.g c.l.dom c.ent c.low c.pc (c.s.blockAddr q) r)

/-- The state at the controller: the fragment's control-block access has done its work. -/
def Ctx.atController (c : Ctx) (q : QKey) : State :=
  (c.s.onGroup c.w.run c.g.grp fun g => { g with accs := g.accs.filter fun a => !(a.kind == .qblock && a.fid == c.f.fid) }).ctlStart q

/-- The arriving operation takes QCORRUPT; the first failed check freezes the queue (R374). -/
def Ctx.corrupt (c : Ctx) (s : State) (q : QKey) (code : Nat) : Out :=
  let info := s.corruptInfo q code
  let s := if (s.qctl q).frozen != 0 then s
    else s.freezeQueue q code c.l.dom (some { run := c.w.run, grp := c.g.grp, ent := c.ent, pc := c.pc, lane := c.low })
  .state (s.trap c.w.run c.g.grp c.ent c.pc c.pc 0x11 info c.sel)

/-- The check of an arriving operation: the code of the freeze, or of the failed check. -/
def Ctx.arriveCode (c : Ctx) (s : State) (q : QKey) : Nat :=
  if (s.qctl q).frozen != 0 then (s.qctl q).frozen else s.queueCode q (some c.l.dom)

/-- A trap at the controller, whose control-block access has done its work. -/
def Ctx.trapAt (c : Ctx) (s : State) (o : Out) : Out :=
  match o with
  | .trap code info mask => .state (s.trap c.w.run c.g.grp c.ent c.tpc c.tpc code info mask)
  | o => o

/-- A QPOP that ends at once without elements: its Q count rises and falls in its turn (R143, R215, R218). -/
def Ctx.popNothing (c : Ctx) (s : State) (g : Group) (op : QOp) (code : Nat) : State :=
  let (id, s) := s.new
  s.putGroup c.w.run (((g.raiseCtr 3 id).lowerCtr id).queueResult c.l.ktan op code 0)

/-- The operation of QPUSH or QPOP as it arrives; SP elements of a push are read now. -/
def Ctx.qop (c : Ctx) (q : QKey) (b : QBlock) (pop : Bool) : QOp :=
  let sp := c.mods 3 1 == 1
  let lanes := c.work
  let offs := if sp then lanes.map fun i => (c.src 0 i).w.toNat else []
  let data := if pop then [] else if sp then offs.map fun o => (c.w.element o b.esz).1 else lanes.map fun i => (c.src 0 i).v.toNat
  let bads := if pop || !sp then [] else offs.map fun o => (c.w.element o b.esz).2
  { key := q, pop, lanes, scal := c.sh.s, spad := sp, data, bads, offs, status := c.bnum, tm := c.mods 5 3
    tryForm := c.mods 0 2 == 1, lesz := b.lesz }

/-- The checks of QPUSH and QPOP before the controller: the name, the mode, and the offsets under SP. -/
def Ctx.queueChecks (c : Ctx) : Option Out :=
  match c.queueKey with
  | none => some (c.object 1 c.objn)
  | some q =>
    if c.l.redn && (match q with | .mem _ => true | .loc .. => false) then some (c.object 9 c.objn)
    else if c.mods 3 1 == 1 then
      c.checkSpad (c.work.map fun i => { lane := i, plane := 0, va := (c.src 0 i).w.toNat }) 8 8
    else none

/-- The scope of a queue (R172). -/
def queueScope : QKey → Nat
  | .loc .. => 1
  | .mem _ => 3

/-- The access of an operation that has arrived and is not served yet. -/
def Ctx.queueAccess (c : Ctx) (id : Nat) (op : QOp) : Access :=
  { c.access id (if op.pop then .pop else .push) [] with
    q := some op, word := c.fm.word.getD 0, glob := false, dest := if op.pop && !op.spad then c.dest else none }

/-- QPUSH (R213, R215, R218, R298). -/
def bodyQpush (c : Ctx) : Out :=
  if c.work.isEmpty then .regs c.g 0
  else
    match c.queueChecks, c.queueKey with
    | some o, _ => o
    | none, none => .regs c.g 0
    | none, some q =>
      if !c.released (queueScope q) then .stall .other
      else if !c.blockReady q then c.askBlock q
      else match c.blockError q with
      | some o => o
      | none =>
        let s := c.atController q
        let code := c.arriveCode s q
        if code != 0 then c.corrupt s q code
        else
          match s.block? q with
          | none => .regs c.g 0
          | some (b, _) =>
            let op := c.qop q b false
            let k := op.lanes.length
            if op.misfit b then c.trapAt s (c.object 4 c.objn)
            else
              match (if op.spad then c.checkSpad (op.offs.zip op.lanes |>.map fun x => { lane := x.2, plane := 0, va := x.1 }) 8 b.esz else none) with
              | some o => c.trapAt s o
              | none =>
                let x := s.qctl q
                let n := if op.tryForm then (if x.pushW.isEmpty then min k b.free else 0)
                  else if x.pushW.isEmpty && decide (k ≤ b.free) then k else 0
                let g := (s.group? c.w.run c.g.grp).getD c.g
                if n == 0 && op.tryForm then .done ((s.putGroup c.w.run (g.queueResult c.l.ktan op 3 0)).note q)
                else if n == 0 && c.w.pend then .done ((s.putGroup c.w.run (g.queueResult c.l.ktan op 1 0)).note q)
                else if n == 0 && c.l.det then c.fail
                else
                  let (id, s) := s.new
                  let me := (c.w.run, c.g.grp, id)
                  let s := s.putGroup c.w.run (g.addAccess (c.queueAccess id op))
                  if n == 0 then
                    .wait ((s.setQctl { x with pushW := x.pushW ++ [me] }).note q) (.queue id)
                  else
                    let s := (s.grantPush q me n).note q
                    if c.l.det then .wait s (.queue id)
                    else .done (s.onGroup c.w.run c.g.grp fun g => g.queueResult c.l.ktan op (op.code n) n)

/-- QPOP (R214, R215, R218, R298). -/
def bodyQpop (c : Ctx) : Out :=
  if c.work.isEmpty then .regs c.g 0
  else
    match c.queueChecks, c.queueKey with
    | some o, _ => o
    | none, none => .regs c.g 0
    | none, some q =>
      if c.g.ctrFull 3 then .stall .other
      else if !c.blockReady q then c.askBlock q
      else match c.blockError q with
      | some o => o
      | none =>
        let s := c.atController q
        let code := c.arriveCode s q
        if code != 0 then c.corrupt s q code
        else
          match s.block? q with
          | none => .regs c.g 0
          | some (b, _) =>
            let op := c.qop q b true
            let k := op.lanes.length
            if op.misfit b then c.trapAt s (c.object 4 c.objn)
            else
              match (if op.spad then c.checkSpad (op.offs.zip op.lanes |>.map fun x => { lane := x.2, plane := 0, va := x.1 }) 8 b.esz else none) with
              | some o => c.trapAt s o
              | none =>
                let x := s.qctl q
                let have_ := b.tail - b.head
                let g := (s.group? c.w.run c.g.grp).getD c.g
                let first := x.popW.isEmpty && !b.ppend
                let left := s.popLeft q b
                let stuck := !(s.blockedPops left false x.popW).isEmpty
                let blocked := !op.tryForm && (stuck || decide (left < k))
                if op.tryForm && (stuck || (have_ == 0 && !b.ppend)) then .done ((c.popNothing s g op 3).note q)
                else if blocked && c.w.pend then .done ((c.popNothing s g op 1).note q)
                else if c.l.det && blocked then c.fail
                else if c.l.det && !first then .stall .other
                else
                  let (id, s) := s.new
                  let me := (c.w.run, c.g.grp, id)
                  let s := s.putGroup c.w.run ((g.addAccess (c.queueAccess id op)).raiseCtr 3 id)
                  if first && (op.tryForm || decide (k ≤ have_)) then
                    .wait ((s.grantPop q me (min k have_)).note q) (.queue id)
                  else .wait ((s.setQctl { x with popW := x.popW ++ [me] }).note q) (.queue id)

/-- QSTAT (R220): a field of the block as it stands at the controller. -/
def bodyQstat (c : Ctx) : Out :=
  if c.sel == 0 then .regs c.g 0
  else
    match c.queueKey with
    | none => c.object 1 c.objn
    | some q =>
      if c.l.redn && (match q with | .mem _ => true | .loc .. => false) then c.object 9 c.objn
      else if !c.blockReady q then c.askBlock q
      else match c.blockError q with
      | some o => o
      | none =>
        let s := c.atController q
        let code := c.arriveCode s q
        if code != 0 then c.corrupt s q code
        else
          match s.block? q with
          | none => .regs c.g 0
          | some (b, _) =>
            let v := match c.subn with
              | 0 => b.head | 1 => b.tail | 2 => b.resv | 3 => b.cfg | 4 => b.base | 5 => b.free | 6 => b.wait | _ => b.chk
            .done (s.onGroup c.w.run c.g.grp fun g => g.writeS c.dnum 2 c.l.ktan 0 { v := BitVec.ofNat 64 v })

/-! ### Events of the controllers -/

def execQueuePushGrant (s : State) : Host.Outcome State Fault Refusal := .next (queuePushGrant s)
def execQueuePopGrant (s : State) : Host.Outcome State Fault Refusal := .next (queuePopGrant s)
def execQueuePopCommit (s : State) : Host.Outcome State Fault Refusal := .next (queuePopCommit s)
def execQueueTailAdvance (s : State) : Host.Outcome State Fault Refusal := .next (queueTailAdvance s)

/-! ### The meanings -/

def execQbind (f : FR) (s : State) : Host.Outcome State Fault Refusal := .next (runWord (.fr 0x280 f) bodyQbind s)
def execQpush (f : FR) (s : State) : Host.Outcome State Fault Refusal := .next (runWord (.fr 0x281 f) bodyQpush s)
def execQpop (f : FR) (s : State) : Host.Outcome State Fault Refusal := .next (runWord (.fr 0x282 f) bodyQpop s)
def execQstat (f : FR) (s : State) : Host.Outcome State Fault Refusal := .next (runWord (.fr 0x283 f) bodyQstat s)
def execQinit (f : FR) (s : State) : Host.Outcome State Fault Refusal := .next (runWord (.fr 0x284 f) bodyQinit s)
def execQinitMem (f : FR) (s : State) : Host.Outcome State Fault Refusal := .next (runWord (.fr 0x284 f) bodyQinitMem s)

end Sys2Proof.Machine
end

