-- ==== Sys2Proof/Machine/Home.lean ====
section
/-! DEFINITION. The memory machine's transitions (spec/08_ordering.md R156-R171, spec/07_memory.md R136, R140, R143, R151,
spec/13_gather.md R260, R261, spec/19_memfaults.md R361, R362): walks, acceptances, fills, arrivals, applications,
acknowledgements and returns. -/

namespace Sys2Proof.Machine

/-! ### Requests and where they stand -/

/-- A lane request with what it belongs to. -/
structure LaneReq where
  w : Workgroup
  l : Launch
  g : Group
  a : Access
  p : Part
  i : Nat

def State.lane? (s : State) : Src → Option LaneReq
  | .lane run grp acc i =>
    match s.wg? run, s.group? run grp with
    | some w, some g =>
      match s.launch? w.lid, g.accs.find? fun a => a.id == acc with
      | some l, some a => (a.parts[i]?).map fun p => { w, l, g, a, p, i }
      | _, _ => none
    | _, _ => none
  | _ => none

def State.msg? (s : State) (id : Nat) : Option Msg := s.msgs.find? fun m => m.id == id

def Access.onPart (a : Access) (i : Nat) (f : Part → Part) : Access :=
  { a with parts := a.parts.mapIdx fun j p => if j == i then f p else p }

/-- The part of a request changed; a claim has none. -/
def State.onPart (s : State) (src : Src) (f : Part → Part) : State :=
  match src with
  | .lane run grp acc i => s.onAcc run grp acc fun a => a.onPart i f
  | .posted id => { s with msgs := s.msgs.map fun m => if m.id == id then { m with part := f m.part } else m }
  | _ => s

/-- An atomic that returns the old value. -/
def AccKind.returns : AccKind → Bool
  | .atomic _ _ ret _ => ret
  | _ => false

def Part.faultOf (p : Part) : Option Nat := match p.st with | .faulted r => some r | _ => none

/-- The domain of a request, where a launch sends it. -/
def State.srcDom (s : State) : Src → Option Nat
  | .lane run .. => s.domOf run
  | .posted id => (s.msg? id).bind fun m => match m.use_ with
    | MsgUse.bottle lid _ => (s.launch? lid).map (·.dom)
    | MsgUse.save lid => (s.launch? lid).map (·.dom)
    | MsgUse.complete lid => (s.launch? lid).map fun l => Map.look 255 s.dev.lqdom l.lq
    | _ => none
  | .remote _ => none
  | .fetch run .. => s.domOf run
  | .launch lid => (s.launch? lid).map (·.dom)
  | .claim core ch _ => (((s.core core).chan ch).trigs.head?).bind fun t => s.domOf t.wg

/-- The parts of a closed window's scatters that name one sector, in issue order and lane order (R260): sent as one store. -/
def State.scatters (s : State) (win sector : Nat) : List (Nat × Src × Part) :=
  let xs := s.wgs.flatMap fun w => w.groups.flatMap fun g => g.accs.flatMap fun a =>
    if a.kind == .scatter then
      (a.parts.mapIdx fun i p => (a.id, Src.lane w.run g.grp a.id i, p)).filter fun x => x.2.2.win == win && x.2.2.ia / 16 == sector && x.2.2.st != .done
    else []
  sortBy (fun x y => decide (x.1 ≤ y.1)) xs

/-- The parts of a closed window's gathers that name one line, in issue order. -/
def State.gathers (s : State) (win line : Nat) : List (Nat × Src × Part) :=
  let xs := s.wgs.flatMap fun w => w.groups.flatMap fun g => g.accs.flatMap fun a =>
    if a.kind == .gather then
      (a.parts.mapIdx fun i p => (a.id, Src.lane w.run g.grp a.id i, p)).filter fun x => x.2.2.win == win && x.2.2.ia / 128 == line
    else []
  sortBy (fun x y => decide (x.1 ≤ y.1)) xs

/-- Accesses that lie between scatters of a window's sector: gathers of the sector in the window, and other reads and writes of
the sector by a lane that scatters to it there. -/
def State.between (s : State) (win sector : Nat) : List Nat :=
  let mine := (s.scatters win sector).map fun x => match x.2.1 with | .lane run grp _ _ => (run, grp, x.2.2.lane) | _ => (0, 0, 0)
  let other (w : Workgroup) (g : Group) (a : Access) : Bool := (a.kind.writes || (a.kind.fills && a.kind != .pref)) &&
    a.parts.any fun p => p.overlaps (16 * sector) 16 && p.win != win && mine.contains (w.run, g.grp, p.lane)
  ((s.gathers win (sector / 8)).filter fun x => x.2.2.ia / 16 == sector).map (·.1)
    ++ s.wgs.flatMap fun w => w.groups.flatMap fun g => (g.accs.filter (other w g)).map (·.id)

/-- How many accesses that lie between scatters issued before access `id`: scatters with none between them go as one store. -/
def State.scatterClass (s : State) (win sector id : Nat) : Nat := (s.between win sector).countP fun x => decide (x < id)

/-- The requests that go with one: the scatter lanes of its window to its sector with no other access of the sector between
them, so that such an access takes its place between an earlier and a later scatter (R147, R260, log 56), or itself. Host memory
takes one request a lane (R265). -/
def State.together (s : State) (src : Src) (r : LaneReq) : List (Src × Part) :=
  if r.a.kind == .scatter && r.p.win != 0 && region r.p.ia != .host then
    let n := s.scatterClass r.p.win (r.p.ia / 16) r.a.id
    ((s.scatters r.p.win (r.p.ia / 16)).filter fun x => s.scatterClass r.p.win (r.p.ia / 16) x.1 == n).map (·.2)
  else [(src, r.p)]

/-- Scatters of the request's window and sector that go before it have still to arrive. -/
def State.scattersBefore (s : State) (r : LaneReq) : Bool :=
  r.a.kind == .scatter && r.p.win != 0 && region r.p.ia != .host &&
    let n := s.scatterClass r.p.win (r.p.ia / 16) r.a.id
    (s.scatters r.p.win (r.p.ia / 16)).any fun x =>
      decide (s.scatterClass r.p.win (r.p.ia / 16) x.1 < n) && x.2.2.unapplied && x.2.2.st != .queued && x.2.2.faultOf.isNone

/-- The requests that one walk answers: the gather lanes of a window's line, the lanes of a PROBE with the page, or those
that go together. -/
def State.walkedWith (s : State) (src : Src) (r : LaneReq) : List Src :=
  match src, r.a.kind with
  | .lane run grp acc _, .probe =>
    (r.a.parts.mapIdx fun i p => (Src.lane run grp acc i, p)).filter (fun x => x.2.ia / 65536 == r.p.ia / 65536) |>.map (·.1)
  | _, .gather => if r.p.win == 0 then [src] else (s.gathers r.p.win (r.p.ia / 128)).map (·.2.1)
  | _, _ => (s.together src r).map (·.1)

/-! ### Monitored sectors (R151) -/

/-- The code of a wake: the highest of the events that hold in this nanosecond. -/
def State.wakeCode (s : State) (w : Workgroup) (p : Part) (till : Option Nat) (code : Nat) : Nat :=
  let now := s.now (coreDie w.core)
  let c2 := if region p.ia == .hbm && (cacheHit (s.core w.core).l1 now p.ia).isNone then 2 else 0
  let c3 := match till with | some t => if t ≤ now then 3 else 0 | none => 0
  max (max code c2) (max c3 (if w.pend then 4 else 0))

/-- A monitored wait on a poisoned sector ends: it consumes and writes nothing (R378, log 89). -/
def State.consumeMonitor (s : State) (run grp : Nat) (a : Access) (p : Part) : State :=
  (s.onGroup run grp fun g => { g with accs := g.accs.filter fun b => b.id != a.id }).consume run grp (Mask.bit p.lane) (s.arrayOf p) p.ia a.pc

/-- The monitored wait of a fragment ends with a code. -/
def State.endMonitor (s : State) (w : Workgroup) (g : Group) (ent : Nat) (a : Access) (p : Part) (code : Nat) : State :=
  if s.badIA p.ia 16 then s.consumeMonitor w.run g.grp a p
  else s.putGroup w.run (g.endMonitor (s.ktan w) ent a.id code)

/-- The monitoring fragments that `hit` selects wake; a wait that is parked at a page fault does not. -/
def State.wakeMonitors (s : State) (code : Nat) (hit : Workgroup → Part → Bool) : State :=
  let woken (w : Workgroup) (g : Group) (f : Frag) : Option (Access × Part × Option Nat) :=
    match f.st with
    | .waitm acc till =>
      match g.accs.find? fun a => a.id == acc with
      | some a => match a.parts.head? with
        | some p => if p.faultOf.isNone && hit w p then some (a, p, till) else none
        | none => none
      | none => none
    | _ => none
  let one (w : Workgroup) (g : Group) (x : Nat × Frag) : Group :=
    match woken w g x.2 with
    | some (a, p, till) => if s.badIA p.ia 16 then g else g.endMonitor (s.ktan w) x.1 a.id (s.wakeCode w p till code)
    | none => g
  let bad := s.wgs.flatMap fun w => w.groups.flatMap fun g => g.frags.filterMap fun x =>
    match woken w g x.2 with
    | some (a, p, _) => if s.badIA p.ia 16 then some (w.run, g.grp, a, p) else none
    | none => none
  bad.foldl (fun s x => s.consumeMonitor x.1 x.2.1 x.2.2.1 x.2.2.2)
    { s with wgs := s.wgs.map fun w => { w with groups := w.groups.map fun g => g.frags.foldl (one w) g } }

/-- A monitored wait that is sent again after a page fault: an event that came meanwhile wakes it. -/
def State.recheckMonitor (s : State) (acc : Nat) : State :=
  s.wakeMonitors 0 fun w p =>
    w.groups.any fun g => (g.accs.any fun a => a.id == acc && a.kind == .waitm && a.parts.head? == some p) &&
      g.frags.any fun x => match x.2.st with | .waitm n till => n == acc && s.wakeCode w p till 0 != 0 | _ => false

/-! ### Walks and acceptance (R136, R361, R362) -/

def AccKind.recordKind : AccKind → Nat
  | .load | .waitm => 0
  | .store => 1
  | .gather => 2
  | .scatter => 3
  | .atomic .. => 4
  | .fetch => 6
  | .probe => 7
  | .accept k => k
  | _ => 5

/-- The lanes that an issue of an access leaves unfinished: those with a fault, and for a queue operation's control block every
lane that the operation selects (R362). -/
def Access.unfinished (a : Access) : Mask :=
  let bad := a.parts.filter fun p => p.faultOf.isSome
  if bad.isEmpty then 0 else if a.kind == .qblock then a.sel else Mask.of fun i => bad.any fun p => p.lane == i

/-- The fault record of an issue with what has faulted so far; `disp`: its disposition in the firmware's log, where a command
has named the fault already (R363, R364). -/
def State.recordIssue (s : State) (r : LaneReq) (disp : Nat) : State :=
  let low := r.g.lowLane r.a.unfinished
  let bad := r.a.parts.filter fun p => p.faultOf.isSome
  match bad.find? fun p => p.lane == low || r.a.kind == .qblock with
  | none => s
  | some p =>
    (s.faultRecord r.l.dom r.a.kind.recordKind disp (p.faultOf.getD 0) p.ia (BitVec.ofNat 64 p.va) (r.g.wid.at low) r.a.unfinished r.a.pc
      r.w.wgx r.w.core r.g.grp r.a.ent 0 false).onAcc r.w.run r.g.grp r.a.id fun a => { a with recorded := true }

/-- The fault record of an access, once every part of its issue is accepted or has faulted; PROBE's at its first fault. -/
def State.recordFaults (s : State) (run grp acc : Nat) : State :=
  match s.lane? (.lane run grp acc 0) with
  | none => s
  | some r =>
    let settled := r.a.kind == .probe || r.a.parts.all fun p => p.accepted || p.faultOf.isSome
    if r.a.recorded || !settled then s else s.recordIssue r (if r.a.replay then 1 else 0)

/-- An access that has nothing left to do leaves its group: stores and the like when every part is acknowledged, a
prefetch when every line is fetched or dropped. A push stays while its controller lists it (R219). -/
def State.tidy (s : State) (run grp acc : Nat) : State :=
  match s.lane? (.lane run grp acc 0) with
  | none => s
  | some r =>
    let gone := r.a.parts.all (fun p => p.st == .done) && (match r.a.kind with
      | .store | .scatter | .qinit | .pref | .accept _ => true
      | .atomic _ _ ret _ => !ret
      | .push => !(s.queues.any fun x => x.pushes.any fun y => y.1 == run && y.2.1 == grp && y.2.2.1 == acc)
      | _ => false)
    if gone then s.onGroup run grp fun g => { g with accs := g.accs.filter fun a => a.id != acc } else s

/-- A walk for one part of a lane request; PREF drops a lane without a translation (R149), PROBE pins a page (R267), and a
held store is accepted (R361). `hit`: L2 holds the line, whose place it knows. -/
def State.walkPart (s : State) (r : LaneReq) (src : Src) (cached hit : Bool) : State :=
  let probe := r.a.kind == AccKind.probe
  match (if hit then Except.ok 0 else s.walk cached r.p.ia) with
  | .error why =>
    if r.a.kind == .pref || r.w.life == .killed then s.onPart src fun p => { p with st := .done, accepted := true }
    else s.onPart src fun p => { p with st := .faulted why }
  | .ok _ =>
    if probe then
      let s := (s.pinPage cached r.p.ia).onPart src fun p => { p with st := .done, accepted := true }
      s.onGroup r.w.run r.g.grp fun g => { g with pins := union g.pins [s.pageOf r.p.ia cached] }
    else s.onPart src fun p => match r.a.kind with
      | .accept _ => { p with st := .done, accepted := true }
      | _ => { p with st := .walked }

/-- What a walk leaves, with the page fault that it may end in counted (R333). -/
def State.countWalk (s : State) (ia : Nat) (cached : Bool) (dom : Option Nat) : State :=
  let t := s.cacheWalk ia cached dom
  match s.walk cached ia with
  | .ok _ => t
  | .error _ => t.perfWalker ia 4

/-- The fault records that are due of the accesses which requests belong to; finished accesses leave. -/
def State.settleAll (s : State) (srcs : List Src) : State :=
  srcs.foldl (fun s x => match x with
    | .lane run grp acc _ => (s.recordFaults run grp acc).tidy run grp acc
    | _ => s) s

/-- TRANSLATION_WALK: `flag` lets the walk use a cached entry. Pages of PROBE are walked in ascending IA. A host write that
meets an invalid translation is dropped with its record, and an AtomicOp is aborted (R370 reason 5); any other posted store waits for one. -/
def translationWalk (s : State) : State :=
  match s.arg.src with
  | .lane _ _ _ i =>
    match s.lane? s.arg.src with
    | none => s
    | some r =>
      if r.p.st != .issued || (r.a.kind == .probe && (r.a.parts.take i).any fun p => p.st != .done) then s
      else
        let srcs := s.walkedWith s.arg.src r
        let hit := (s.l2? (r.p.ia / 128)).isSome && r.a.kind != .probe
        let s := if hit then s
          else if r.a.kind == .pref || r.w.life == .killed then s.cacheWalk r.p.ia s.arg.flag (some r.l.dom)
          else s.countWalk r.p.ia s.arg.flag (some r.l.dom)
        (srcs.foldl (fun s x => match s.lane? x with
          | some q => if q.p.st == .issued then s.walkPart q x s.arg.flag hit else s
          | none => s) s).settleAll srcs
  | .posted id =>
    match s.msg? id with
    | none => s
    | some m =>
      if m.part.st != .issued then s
      else if region m.part.ia != .hbm then s.onPart s.arg.src fun p => { p with st := .walked }
      else match s.walk s.arg.flag m.part.ia with
        | .ok _ => (s.cacheWalk m.part.ia s.arg.flag (s.srcDom s.arg.src)).onPart s.arg.src fun p => { p with st := .walked }
        | .error _ =>
          let s := s.cacheWalk m.part.ia s.arg.flag (s.srcDom s.arg.src)
          if m.use_ == .host || m.use_ == .hostAtomic then
            let t := { s.faultRecord 0 14 3 5 m.part.ia (BitVec.ofNat 64 m.part.ia) 0 0 0 0 0 0 0 0 false with
              msgs := s.msgs.filter fun x => x.id != id }
            if m.use_ == .hostAtomic then t.answer .abort else t
          else s
  | _ => s

/-- ACCEPTANCE_ARRIVAL: the home's acceptance reaches the core. -/
def acceptanceArrival (s : State) : State :=
  match s.arg.src, s.lane? s.arg.src with
  | .lane run grp acc _, some r =>
    match r.p.st with
    | .issued | .window | .faulted _ => s
    | _ => (s.onPart s.arg.src fun p => { p with accepted := true }).recordFaults run grp acc
  | _, _ => s

/-! ### Program order of a lane (R147, R159, R260) -/

/-- Earlier writes of the lane to the part's bytes are still to be applied. -/
def LaneReq.afterWrites (r : LaneReq) : Bool :=
  r.g.accs.any fun b => decide (b.id < r.a.id) && b.kind.writes &&
    b.parts.any fun q => q.lane == r.p.lane && q.overlaps r.p.ia r.p.size && q.unapplied

/-- Earlier reads of the lane to the part's bytes are still to be served (R159). -/
def LaneReq.afterReads (r : LaneReq) : Bool := r.g.readPending r.a.id r.p.lane r.p.ia r.p.size

/-- Earlier reads of the lane have still to be served, earlier writes of the lane or of a lower lane of the same
instruction have still to arrive. Scatter lanes of one window and sector are ordered among themselves by `together`. -/
def LaneReq.afterOthers (r : LaneReq) : Bool :=
  (r.g.accs.any fun b => decide (b.id < r.a.id) && b.parts.any fun q => q.lane == r.p.lane && q.overlaps r.p.ia r.p.size &&
    !(b.kind == .scatter && q.win == r.p.win && q.win != 0 && region r.p.ia != .host && q.ia / 16 == r.p.ia / 16) &&
    (if b.kind.writes then q.unapplied && q.st != .queued else b.kind.fills && b.kind != .pref && q.unapplied)) ||
  ((r.p.win == 0 || region r.p.ia == .host) &&
    (r.a.parts.take r.i).any fun q => q.overlaps r.p.ia r.p.size && q.unapplied && q.st != .queued)

/-- A gather lane that issued before the scatter to the same sector of its window is still to be served. -/
def State.gatherFirst (s : State) (r : LaneReq) : Bool :=
  r.p.win != 0 && r.a.kind == .scatter && (s.gathers r.p.win (r.p.ia / 128)).any fun x =>
    decide (x.1 < r.a.id) && x.2.2.ia / 16 == r.p.ia / 16 && x.2.2.unapplied && x.2.2.faultOf.isNone

/-- A scatter that issued before the gather lane to the same sector of its window is still to be applied. -/
def State.scatterFirst (s : State) (r : LaneReq) : Bool :=
  r.p.win != 0 && r.a.kind == .gather && (s.scatters r.p.win (r.p.ia / 16)).any fun x =>
    decide (x.1 < r.a.id) && x.2.2.unapplied && x.2.2.faultOf.isNone

/-! ### Fills (R140, R141, R156, R157, R165) -/

/-- A lease granted on a line at home time `g`; UT lines take none. -/
def State.grant (s : State) (ia g lease : Nat) : State :=
  if region ia == .hbm then s.onHome (ia / 128) fun h => { h with h := max h.h (g + lease + 8) } else s

/-- The hint that an access's fill carries: every fill by an urgent group counts as `.EL` (R142, R260). -/
def LaneReq.fillHint (r : LaneReq) : Nat := if r.g.urgent then 2 else r.a.hint

/-- The line has left a core's L1: its monitors wake with code 2 (R151). -/
def State.lineGone (s : State) (core line : Nat) : State :=
  s.wakeMonitors 2 fun w p => w.core == core && p.ia / 128 == line && region p.ia == .hbm

/-- Sectors of a line filled into a core's L1, but for poisoned ones, which L1 has no place to mark (R376, R377); monitors of the
lines that had to go wake. -/
def State.fillL1 (s : State) (core ia n g lease hint : Nat) : State :=
  let now := s.now (coreDie core)
  ((sectorsOf ia n).filter fun sec => !s.badIA (16 * sec) 16).foldl (fun s sec =>
    let c := s.core core
    let (ls, gone) := cacheFill c.l1 (l1Sets c.spadsz) now (16 * sec) (s.readIA (16 * sec) 16) (g + lease) (region ia != .hbm) hint s.cyc
    gone.foldl (fun s line => s.lineGone core line) (s.setCore core { c with l1 := ls })) s

/-- One part read at its home: `iso`: an isolated port answers with poison (R388). -/
def State.readPart (s : State) (src : Src) (iso : Bool) : State :=
  s.onPart src fun p =>
    if iso then { p with bad := true, st := .served, cmp := 255 }
    else { p with
      res := applyOverlay (s.leIA p.ia p.size) p.size p.dat p.cmp
      bad := p.bad || s.badIA p.ia p.size && !(decide (0 < p.cmp) && decide (2 ^ p.size ≤ p.cmp + 1)), st := .served }

/-- A pop's part keeps the poison of each sector instead of an overlay (R377). -/
def State.popPart (s : State) (src : Src) (iso : Bool) : State :=
  s.onPart src fun p =>
    let k := s.key p.ia
    { p with
      res := s.leIA p.ia p.size, bad := iso || s.badIA p.ia p.size, st := .served
      cmp := (List.range ((p.size + 15) / 16)).foldl (fun m i => if iso || s.bad.contains (k / 16 + i) then m + 2 ^ i else m) 0 }

/-- The IA and size of a request's read at its home: a prefetch reads its line. -/
def LaneReq.span (r : LaneReq) : Nat × Nat := if r.a.kind == .pref then (r.p.ia / 128 * 128, 128) else (r.p.ia, r.p.size)

/-- The request's flit, where one has to leave (R316): queue traffic has a lane of its own. -/
def LaneReq.vlane (r : LaneReq) : Nat := match r.a.kind with | .push | .pop | .qinit => 3 | _ => if r.a.kind.writes then 2 else 0

/-- A read may be served now: its line is free, and what its lane's program order puts before it is done. -/
def State.mayServe (s : State) (r : LaneReq) : Bool :=
  s.mayRead (some r.l.dom) r.span.1 r.span.2 r.vlane r.a.acq &&
  r.p.st == .walked && r.a.kind.fills && s.lineFree r.p.ia && !r.afterWrites && !(r.a.kind != .pref && r.afterReads) && !s.scatterFirst r
    && (s.errorAt (some r.l.dom) r.p.ia).isNone

/-! ### Requests of other packages (R316, R317) -/

/-- An import window opened for a package holds the span. -/
def State.imported (s : State) (pkg ia n : Nat) : Bool :=
  (List.range 128).any fun w =>
    let x (i : Nat) : Nat := (Map.look 0 s.dev.imports (4 * w + i)).toNat
    x 0 == pkg && decide (x 1 ≤ ia) && decide (ia + n ≤ x 1 + x 2)

/-- A package's IA as that package reaches it, for the port of the answer. -/
def packageIa (pkg : Nat) : Nat := 0x4_0000_0000_0000 + pkg * 2 ^ 39

/-- An answer leaves for a package, where the response lane of its port has allowance. -/
def State.replyRemote (s : State) (pkg : Nat) (a : Answer) : State :=
  let s := s.spend (packageIa pkg) 1
  { s with dev := { s.dev with remote := s.dev.remote ++ [(pkg, a)] } }

/-- A read that arrives from another package: served at the home within an import window, else an error response. -/
def State.remoteRead (s : State) (pkg : Nat) : State :=
  let ia := s.arg.ia
  let n := s.arg.size
  if s.dev.ready != 5 || n == 0 || decide (128 < ia % 128 + n) || !s.maySend (packageIa pkg) 1 then s
  else if !s.imported pkg ia n || s.regionAt ia != .hbm || (s.errorAt none ia).isSome then s.replyRemote pkg .unsupported
  else if !s.lineFree ia then s
  else match s.walk s.arg.flag ia with
    | .error _ => s
    | .ok _ => ((s.cacheWalk ia s.arg.flag).touchL2 none ia n false).replyRemote pkg (.data (s.readIA ia n) (s.badIA ia n))

/-- A store, or with `flag2` an atomic (operation `num`, type `size`, operand and compare value), that arrives from another
package: a message to the line's home within an import window, else an error response. -/
def State.remoteWrite (s : State) (pkg : Nat) : State :=
  let ia := s.arg.ia
  let ty := s.arg.size
  let n := if s.arg.flag2 then atomBytes ty else s.arg.bytes.length
  if s.dev.ready != 5 || n == 0 || decide (128 < ia % 128 + n) then s
  else if !s.imported pkg ia n || s.regionAt ia != .hbm || (s.errorAt none ia).isSome then
    if s.maySend (packageIa pkg) 1 then s.replyRemote pkg .unsupported else s
  else if s.arg.flag2 then
    let s := s.post (.remote pkg) ia ((leBytes 8 s.arg.v.toNat).take n) (some (s.arg.num, ty))
    { s with msgs := s.msgs.map fun m => if m.id + 1 == s.fresh then { m with part := { m.part with cmp := s.arg.w.toNat } } else m }
  else s.post (.remote pkg) ia s.arg.bytes

/-- HOME_FILL: the home serves a read. A relaxed load, a gather or a prefetch fills L1 and takes a lease; the missing
sectors of a gather window's line come in one fill, which carries the most protective hint of its instructions, `.EF` before
none (log 90). -/
def homeFill (s : State) : State :=
  match s.arg.src, s.lane? s.arg.src with
  | .lane run grp acc _, some r =>
    if !s.mayServe r then s
    else
      let dom := some r.l.dom
      let g := s.homeNow dom r.p.ia
      let iso := s.cutOff dom r.span.1 r.span.2 r.a.acq
      let served (x : LaneReq) : Bool := s.mayServe x
      let s := s.carry dom r.span.1 r.span.2 r.vlane r.a.acq
      let hint := r.fillHint
      let touch (s : State) (q : LaneReq) (fill : Nat) : State :=
        if iso then s else s.touchL2 dom q.span.1 q.span.2 false q.a.hint fill
      match r.a.kind with
      | .pop => touch (s.popPart s.arg.src iso) r hint
      | .pref =>
        let s := if iso then s else (touch s r hint).grant r.p.ia g r.l.lease |>.fillL1 r.w.core r.span.1 128 g r.l.lease hint
        (s.onPart s.arg.src fun p => { p with st := .done }).tidy run grp acc
      | .gather =>
        let mine := if region r.p.ia == .host then [(s.arg.src, r)]
          else ((s.gathers r.p.win (r.p.ia / 128)).filterMap fun x => (s.lane? x.2.1).map fun q => (x.2.1, q)).filter fun x =>
            served x.2
        let hint := mine.foldl (fun h x => max h x.2.fillHint) hint
        let s := mine.foldl (fun s x => touch s x.2 hint) s
        let s := if iso then s else s.grant r.p.ia g r.l.lease
        mine.foldl (fun s x =>
          (if iso || region x.2.p.ia == .host then s else s.fillL1 r.w.core x.2.p.ia x.2.p.size g r.l.lease hint).readPart x.1 iso) s
      | _ =>
        let s := touch s r hint
        let s := if r.a.acq || iso then s else (s.grant r.p.ia g r.l.lease).fillL1 r.w.core r.p.ia r.p.size g r.l.lease hint
        s.readPart s.arg.src iso
  | .remote pkg, _ => (s.received (packageIa pkg)).remoteRead pkg
  | _, _ => s

/-! ### Arrivals (R157, R165, R389) -/

/-- A part that an atomic with return will find poisoned, or cut off by an isolated port (R378, R388). -/
def State.spoils (s : State) (p : Part) : Bool := p.unapplied && (s.badIA p.ia p.size || s.isolatedAt p.ia)

/-- A lane of the atomic with return that a request belongs to consumes, so that the word has no effect (R378). -/
def State.spoilt (s : State) (src : Src) : Bool :=
  match s.lane? src with
  | some r => r.a.kind.returns && r.a.parts.any fun p => p.bad || s.spoils p
  | none => false

/-- The lanes that consume are marked, so that the word does so whatever is written there meanwhile (log 102). -/
def State.markSpoilt (s : State) (src : Src) : State :=
  match s.lane? src with
  | some r => s.onAcc r.w.run r.g.grp r.a.id fun a => { a with parts := a.parts.map fun p => { p with bad := p.bad || s.spoils p } }
  | none => s

/-- A lane of an atomic whose word consumes is answered without its update. -/
def State.serveSpoilt (s : State) (src : Src) (w : Nat) : State :=
  (s.markSpoilt src).onPart src fun p => { p with st := .served, w, res := s.leIA p.ia p.size }

/-- A dropped write is counted and logged at its port. -/
def State.logDrop (s : State) (port ia : Nat) : State :=
  { s with logs := { s.logs with drops := s.logs.drops.map fun d =>
      if d.1 == port then (d.1, min (2 ^ 32 - 1) (d.2.1 + 1), d.2.2.1, if d.2.2.2.length < 64 then d.2.2.2 ++ [ia % 2 ^ 52] else d.2.2.2) else d } }

/-- A request to write meets an isolated port: it is acknowledged with W = arrival, and the writing launch completes with FAULT;
an atomic with return is answered with poison (R388), and is no dropped write. An element of the host or the NIC is done with
that, so that TAIL passes it. -/
def State.dropWrite (s : State) (src : Src) (now : Nat) : State :=
  match src with
  | .lane .. =>
    match s.lane? src with
    | none => s
    | some r =>
      let s := s.onPart src fun p => { p with st := .served, w := now, bad := r.a.kind.returns }
      let mask := Mask.of fun i => r.a.parts.any fun p => p.lane == i
      if r.a.kind.returns then s else s.onLaunch r.l.lid fun l => l.fault (some (r.g.wid.at (r.g.lowLane mask)))
  | .posted id =>
    let use_ := (s.msg? id).map (·.use_)
    let claim := match use_ with | some (MsgUse.element _) => true | _ => false
    let s := s.onPart src fun p => { p with st := if claim then .done else .served, w := now }
    match use_ with
    | some (MsgUse.bottle lid wgx) => s.onLaunch lid fun l => l.fault (some (l.widOf wgx 0))
    | some (MsgUse.save lid) => s.onLaunch lid fun l => { l with saveBad := true }
    | _ => s
  | _ => s

/-- Uses whose writes reach their homes in the order posted, at every line: the host's (R308), and a group's trace records
(R331). -/
def MsgUse.inOrder (u : MsgUse) : Bool := match u with | .host | .trace .. => true | _ => false

/-- Messages that keep their order: those of one use, and all that one deterministic launch bottles (R297). -/
def State.sameStream (s : State) (x y : Msg) : Bool :=
  x.use_ == y.use_ || (match x.use_, y.use_ with
    | .bottle l _, .bottle k _ => l == k && (match s.launch? l with | some l => l.det | none => false)
    | _, _ => false)

/-- The messages of the NIC's push that message `id` belongs to. -/
def State.landing (s : State) (id : Nat) : List Msg :=
  match (s.queues.flatMap (·.pushes)).find? fun x => x.1 == 0 && decide (x.2.2.1 ≤ id) && decide (id < x.2.2.1 + x.2.1) with
  | some x => s.msgs.filter fun m => decide (x.2.2.1 ≤ m.id) && decide (m.id < x.2.2.1 + x.2.1)
  | none => []

/-- The write of a request: its part, and whether it may arrive now. The NIC claims the lines of a slot as a copy does, in
ascending IA (R164, R166, log 57). -/
def State.mayArrive (s : State) (src : Src) : Option Part :=
  match src with
  | .lane .. =>
    match s.lane? src with
    | none => none
    | some r =>
      let all := (s.together src r).map fun x => s.lane? x.1
      let ok := all.all fun q => match q with
        | some q => q.p.st == .walked && !q.afterOthers && !s.gatherFirst q && !s.scattersBefore q
        | none => false
      if r.a.kind.writes && ok then some r.p else none
  | .posted id =>
    match s.msg? id with
    | none => none
    | some m =>
      let before := s.msgs.filter fun x => decide (x.id < id) && s.sameStream x m
      let ok := if m.use_.inOrder then before.all fun x => !x.part.unapplied
        else before.all fun x => x.part.ia / 128 != m.part.ia / 128 || !x.part.unapplied || x.part.st == .queued
      let ok := ok && match m.use_ with
        | MsgUse.element _ => (s.landing id).all fun x => decide (id ≤ x.id) || !x.part.unapplied
        | _ => true
      if m.part.st == .walked && ok then some m.part else none
  | _ => none

/-- The request joins the write queue of its line with its completion time W; waiters on the sector wake (R151, R157), but for
host memory, which has no home (R152). -/
def State.enqueue (s : State) (src : Src) (group : List (Src × Part)) (p : Part) (now : Nat) : State :=
  let line := p.ia / 128
  let h := s.home line
  let w := s.complete p.ia now
  let s := s.setHome line { h with queue := h.queue ++ [{ src := (group.map (·.1)).headD src, w }] }
  let s := if now < w then s.perfSlice (s.homeSlice p.ia (s.srcDom src)) 2 1 else s
  let s := group.foldl (fun s x => s.onPart x.1 fun p => { p with st := .queued, w }) s
  let secs := group.flatMap fun x => sectorsOf x.2.ia x.2.size
  if region p.ia == .host then s else s.wakeMonitors 1 fun _ q => secs.contains (q.ia / 16)

/-! ### Copy channels at the homes (R164, R368, R369) -/

/-- The page fault of an IA, if a walk meets one. -/
def State.xlatFault (s : State) (ia : Nat) : Option Nat :=
  if region ia != .hbm || (s.l2? (ia / 128)).isSome then none
  else match s.walk false ia with | .error why => some why | .ok _ => none

/-- The VA under which a launch maps an IA. -/
def Launch.vaOf (l : Launch) (ia : Nat) : Nat :=
  match l.ranges.find? fun x => decide (x.ia ≤ ia) && decide (ia < x.ia + x.size) with
  | some x => x.base + (ia - x.ia)
  | none => 0

/-- The copy that a channel runs: its trigger, workgroup and launch. -/
def State.copy? (s : State) (core ch : Nat) : Option (Trigger × Workgroup × Launch) :=
  match ((s.core core).chan ch).trigs.head? with
  | none => none
  | some t =>
    match s.wg? t.wg with
    | none => none
    | some w => (s.launch? w.lid).map fun l => (t, w, l)

/-- The WID of lane 0 of group 0 of a workgroup, which engine records carry (R363). -/
def Workgroup.wid0 (w : Workgroup) : DWord := match w.groups with | g :: _ => g.wid.at 0 | [] => 0

/-- A record of a copy channel (R363). -/
def State.engineRecord (s : State) (core ch kind disp reason ia va : Nat) : State :=
  match s.copy? core ch with
  | none => s
  | some (t, w, l) => s.faultRecord l.dom kind disp reason ia (BitVec.ofNat 64 va) w.wid0 0 t.pc w.wgx core t.grp 0 ch true

/-- The channel pauses at a page fault, with one record (R368). -/
def State.pauseCopy (s : State) (core ch kind reason ia va : Nat) : State :=
  ((s.countWalk ia false ((s.copy? core ch).map fun x => x.2.2.dom)).engineRecord core ch kind 0 reason ia va).onCore core fun c =>
    c.setChan ch { c.chan ch with paused := some (kind, ia, reason) }

/-- The copy of a channel is abandoned (R369). -/
def State.abandon (s : State) (core ch reason ia va : Nat) : State :=
  match s.copy? core ch with
  | none => s
  | some (_, w, _) =>
    if w.life == .killed then s.dropCopy core ch
    else ((s.engineRecord core ch 12 3 reason ia va).dropCopy core ch).kill w.run (some w.wid0)

/-- A claim is sent once every lower line of its copy is claimed: ascending order then keeps claims free of cycles
(log 57). -/
def State.claimArrival (s : State) (core ch line : Nat) : State :=
  let x := (s.core core).chan ch
  match s.copy? core ch with
  | none => s
  | some (_, _, l) =>
    let ia := 128 * line
    let sent := (s.home line).queue.any fun r => r.src == .claim core ch line
    let turn := (x.claims.find? fun y => y.2 == 0).map (·.1) == some line
    if x.st != .claim || !turn || sent || x.paused.isSome || (s.home line).owner.isSome || (s.errorAt (some l.dom) ia).isSome then s
    else
      match s.xlatFault ia with
      | some why => s.pauseCopy core ch 10 why ia (l.vaOf ia)
      | none =>
        let s := if region ia == .hbm then s.cacheWalk ia false (some l.dom) else s
        s.enqueue (.claim core ch line) [] { lane := 0, ia, size := 128 } (s.homeNow (some l.dom) ia)

/-- HOME_WRITE_ARRIVAL: the home gives the request its completion time and queues it; writes to a monitored sector wake
its waiters. A faulted ATOM of deterministic mode that is replayed acts on the view (R298). -/
def homeWriteArrival (s : State) : State :=
  let src := s.arg.src
  match s.mayArrive src with
  | none => match src with
    | .claim core ch line => s.claimArrival core ch line
    | .remote pkg => (s.received (packageIa pkg)).remoteWrite pkg
    | _ => s
  | some p =>
    let dom := s.srcDom src
    let now := s.homeNow dom p.ia
    let lane := match s.lane? src with | some r => r.vlane | none => 2
    if (s.home (p.ia / 128)).owner.isSome || (s.errorAt dom p.ia).isSome || !s.maySend p.ia lane then s
    else
      let s := s.spend p.ia lane
      let group := match s.lane? src with | some r => s.together src r | none => [(src, p)]
      match s.carrier p.ia with
      | some port =>
        if s.dev.isolated.contains port then
          let returns := match s.lane? src with | some r => r.a.kind.returns | none => false
          group.foldl (fun s x => s.dropWrite x.1 now) (if returns then s else s.logDrop port p.ia)
        else s.enqueue src group p now
      | none =>
        match s.lane? src with
        | some r =>
          match r.l.det, r.a.kind with
          | true, .atomic op ty true _ =>
            if s.spoilt src then (s.serveSpoilt src now).onPart src fun p => { p with st := .done }
            else
            let (s', old) := s.viewUpdate r.w r.g.grp false (s.leIA p.ia p.size) p.ia op ty p.dat p.cmp
            s'.onPart src fun p => { p with res := old, bad := s.badIA p.ia p.size, st := .done }
          | _, _ => s.enqueue src group p now
        | none => s.enqueue src group p now
/-! ### Application (R157, R164, R169-R171, R377) -/

/-- A message of the NIC claims its line before it is written (R166). -/
def State.isClaim (s : State) : Src → Bool
  | .posted id => match (s.msg? id).map (·.use_) with | some (MsgUse.element _) => true | _ => false
  | _ => false

/-- The identity of a message. -/
def srcMsg : Src → Nat
  | .posted id => id
  | _ => 0

/-- The part of a request. -/
def State.part? (s : State) (src : Src) : Option Part :=
  match src with
  | .lane .. => (s.lane? src).map (·.p)
  | .posted id => (s.msg? id).map (·.part)
  | _ => none

/-- An atomic request: operation, type, `.COMM` allowed, memory-side range. -/
def State.atomicOf (s : State) (src : Src) : Option (Nat × Nat × Bool × Bool) :=
  match src with
  | .lane .. =>
    match s.lane? src with
    | none => none
    | some r =>
      match r.a.kind with
      | .atomic op ty _ comm => some (op, ty, comm && !r.l.det, match r.l.rangeOf r.p.va with | some x => x.ms | none => false)
      | _ => none
  | .posted id =>
    match s.msg? id with
    | none => none
    | some m =>
      m.red.map fun x =>
        let ms := match m.use_ with
          | MsgUse.bottle lid _ =>
            (match s.launch? lid with
             | some l => l.ranges.any fun y => y.ms && decide (y.ia ≤ m.part.ia) && decide (m.part.ia < y.ia + y.size)
             | none => false)
          | _ => false
        let det := match m.use_ with
          | MsgUse.bottle lid _ => (match s.launch? lid with | some l => l.det | none => false)
          | _ => false
        (x.1, x.2, m.comm && !det, ms)
  | _ => none

/-- A store applied: its bytes, and for a queue element its poisoned sectors. -/
def State.applyStore (s : State) (src : Src) (p : Part) : State :=
  let (hint, fill, push, qinit) := match s.lane? src with
    | some r => (r.a.hint, r.fillHint, r.a.kind == AccKind.push, r.a.kind == AccKind.qinit)
    | none => match s.msg? (srcMsg src) with
      | some m => (m.hint, m.fill, false, false)
      | none => (0, 0, false, false)
  let k := s.key p.ia
  let s := (s.writeIA p.ia (leBytes p.size p.dat) (p.bad && !push)).touchL2 (s.srcDom src) p.ia p.size true hint fill
  let s := if push then { s with bad := union s.bad ((List.range 9).filterMap fun i => if p.cmp.testBit i then some (k / 16 + i) else none) } else s
  if qinit then s.setQctl { s.qctl (.mem p.ia) with requeue := true } else s

/-- The poison of sectors goes that lanes of one store have written whole between them (R377). -/
def State.cleanCovered (s : State) (group : List (Src × Part)) : State :=
  let mates (x : Src × Part) : List (Nat × Nat) := match s.lane? x.1 with
    | some r =>
      if r.a.kind == .store || r.a.kind == .scatter then
        (r.a.parts.filter fun q => !q.unapplied && q.ia / 16 == x.2.ia / 16).map fun q => (s.key q.ia, q.size)
      else []
    | none => []
  let whole := coveredSectors (group.flatMap mates)
  { s with bad := s.bad.filter fun k => !whole.contains k }

/-- An update applied at its executing point, with the old value. A poisoned sector keeps its poison; an MS line is
written back and leaves L2 (R170), and another package's line leaves it, since the update is made there (R317). -/
def State.applyAtomic (s : State) (src : Src) (ia op ty x cmp : Nat) (ms : Bool) : State × Nat :=
  let n := atomBytes ty
  let old := s.leIA ia n
  let dom := s.srcDom src
  let (hint, fill) := match s.lane? src with
    | some r => (r.a.hint, r.fillHint)
    | none => match s.msg? (srcMsg src) with | some m => (m.hint, m.fill) | none => (0, 0)
  let s' := if s.badIA ia n then s else s.writeIA ia (leBytes n (atomNew op ty old x cmp))
  (if ms then (s'.perfStack (s.key ia) 2 1).dropL2 (ia / 128)
   else if region ia == .package then s'.dropL2 (ia / 128)
   else (s'.perfSlice (s.homeSlice ia dom) 4 1).touchL2 dom ia n true hint fill, old)

/-- A request served: its part holds the old value of an atomic with the poison met. -/
def State.serve (s : State) (src : Src) (w old : Nat) (bad : Bool) : State :=
  s.onPart src fun p => { p with st := .served, w, res := old, bad }

/-- The lanes that a request carries, each with its group and its part. -/
def State.carries (s : State) (src : Src) : List (Nat × Nat × Part) :=
  match s.lane? src with
  | some r => (s.together src r).filterMap fun x => match x.1 with | .lane run grp _ _ => some (run, grp, x.2) | _ => none
  | none => []

/-- Two requests with an access of one lane each to the same bytes: they keep their order (R147, R159). -/
def State.keepOrder (s : State) (a b : Src) : Bool :=
  (s.carries a).any fun x => (s.carries b).any fun y =>
    x.1 == y.1 && x.2.1 == y.2.1 && x.2.2.lane == y.2.2.lane && x.2.2.overlaps y.2.2.ia y.2.2.size

/-- The requests of a line's queue that a tree combines: all `.COMM`, with one operation, type and address, the oldest
request of the line among them, and none of a word that consumes. None passes an earlier access of its own lane to the same bytes. -/
def State.combined (s : State) (queue : List Req) (t : CombTree) : Option (List Req) :=
  let rs := (combLeaves t).filterMap fun i => queue[i]?
  let key (r : Req) : Option (Nat × Nat × Nat) :=
    match s.atomicOf r.src, s.part? r.src with
    | some (op, ty, true, _), some p => some (op, ty, p.ia)
    | _, _ => none
  let ok := rs.length == (combLeaves t).length && (combLeaves t).Nodup && (combLeaves t).contains 0 &&
    rs.all (fun r => (key r).isSome && key r == (rs.head?.bind key) && !s.spoilt r.src) &&
    (combLeaves t).all fun i => (queue.take i).zipIdx.all fun x => (combLeaves t).contains x.2 ||
      (match queue[i]? with | some r => !s.keepOrder x.1.src r.src | none => true)
  if decide (2 ≤ (combLeaves t).length) && ok then some rs else none

/-- HOME_WRITE_APPLY: the oldest request of a line applies when the home's clock has reached its W. -/
def homeWriteApply (s : State) : State :=
  let line := s.arg.line
  let h := s.home line
  match h.queue with
  | [] => s
  | r :: rest =>
    if h.owner.isSome || decide (s.homeNow (s.srcDom r.src) (128 * line) < r.w) then s
    else
      match r.src with
      | .claim core ch n =>
        (s.setHome line { h with queue := rest, owner := some (.copy core ch) }).onCore core fun c =>
          let x := c.chan ch
          c.setChan ch { x with claims := x.claims.map fun y => if y.1 == n then (n, max r.w 1) else y, claimedW := max x.claimedW r.w }
      | src =>
        match s.part? src, s.atomicOf src with
        | none, _ => s.setHome line { h with queue := rest }
        | some p, some (op, ty, _, ms) =>
          let bad := s.badIA p.ia p.size
          match s.combined h.queue s.arg.comb with
          | some rs =>
            let x := combValue op ty (fun i => match (h.queue[i]?).bind fun q => s.part? q.src with | some q => q.dat | none => 0) s.arg.comb
            let (s, old) := s.applyAtomic src p.ia op ty x 0 ms
            let s := s.setHome line { h with queue := h.queue.filter fun q => !rs.contains q }
            rs.foldl (fun s q => s.serve q.src q.w old bad) s
          | none =>
            if s.spoilt src then (s.setHome line { h with queue := rest }).serveSpoilt src r.w
            else
              let (s, old) := s.applyAtomic src p.ia op ty p.dat p.cmp ms
              (s.setHome line { h with queue := rest }).serve src r.w old bad
        | some p, none =>
          if s.isClaim src then
            (s.setHome line { h with queue := rest, owner := some (.nic (srcMsg src)) }).onPart src fun p => { p with st := .served, w := r.w }
          else
            let all : List (Src × Part) := match s.lane? src with | some q => s.together src q | none => [(src, p)]
            let group := all.filter fun x => x.2.st == .queued
            (group.foldl (fun s x => (s.applyStore x.1 x.2).onPart x.1 fun p => { p with st := .served, w := r.w })
              (s.setHome line { h with queue := rest })).cleanCovered group

/-! ### Acknowledgements and returns (R157, R143, R46) -/

/-- WRITE_ACKNOWLEDGEMENT: the acknowledgement with W reaches the sender. -/
def writeAcknowledgement (s : State) : State :=
  match s.arg.src with
  | .lane run grp acc _ =>
    match s.lane? s.arg.src with
    | none => s
    | some r =>
      if !(r.a.kind.writes && r.p.st == .served && r.p.accepted) then s
      else
        let left := match r.a.kind with | .atomic .. => s.readIA r.p.ia r.p.size | _ => leBytes r.p.size r.p.dat
        ((((s.received r.p.ia).passOld r.w.core run grp r.p.lane r.p.ia left).onPart s.arg.src fun p => { p with st := .done }).onGroup run grp fun g =>
          { g with maxw := max g.maxw r.p.w }).tidy run grp acc
  | .posted id =>
    match s.msg? id with
    | none => s
    | some m =>
      if m.part.st != .served then s
      else
        let gone := { s with msgs := s.msgs.filter fun x => x.id != id }
        match m.use_ with
        | MsgUse.element _ => s
        | MsgUse.remote pkg =>
          if s.maySend (packageIa pkg) 1 then gone.replyRemote pkg (.data (if m.red.isSome then leBytes m.part.size m.part.res else []) m.part.bad) else s
        | MsgUse.hostAtomic => gone.answer (.data (leBytes m.part.size m.part.res) m.part.bad)
        | MsgUse.complete lid => gone.onLaunch lid fun l => { l with recW := some m.part.w }
        | MsgUse.bottle lid _ => gone.onLaunch lid fun l => { l with bottleW := max l.bottleW m.part.w }
        | _ => gone
  | _ => s

/-- A loaded value extended to its register (R144). -/
def extend (ty v : Nat) : DWord :=
  let w := tyWidth ty
  if w == 64 then BitVec.ofNat 64 v else BitVec.ofInt 64 (asInt w (tySigned ty) v % 2 ^ 32)

/-- The value that the returned parts of an access give one lane, with its tangents; a plane that was not accessed is +0. -/
def Access.value (a : Access) (lane : Nat) : Dual :=
  let at_ (j : Nat) : DWord := match a.parts.find? fun p => p.lane == lane && p.plane == j with
    | some p => extend a.ty p.res
    | none => 0
  { v := at_ 0, t := (List.range a.k).map fun j => at_ (j + 1) }

/-- A returned access writes its destination, which becomes full, and its counter falls (R46, R143). -/
def Group.deliver (g : Group) (ktan : Nat) (a : Access) : Group :=
  let lanes := Mask.of fun i => a.parts.any fun p => p.lane == i
  let g := match a.dest with
    | none => g
    | some d =>
      let g := if d.scal then g.writeS d.num d.n ktan a.k (a.value lanes.low) else g.writeV d.num d.n ktan a.k lanes a.value
      g.setFull d.scal d.num d.n
  { g.lowerCtr a.id with accs := g.accs.filter fun b => b.id != a.id }

/-- Whether the values of an access have come back. -/
def Access.returned (a : Access) : Bool :=
  match a.kind with
  | .load | .gather | .lds => a.parts.all fun p => p.st == .done || (p.accepted && p.st == .served)
  | .atomic _ _ true _ => a.parts.all fun p => p.st == .done
  | _ => false

/-- LOAD_RETURN: the values of an access return to its group. A poisoned one is consumed (R378); an acquire drops the
UT lines of the core (R163). The returns of a killed workgroup are discarded (R353). -/
def loadReturn (s : State) : State :=
  let run := s.arg.wg
  let grp := s.arg.grp
  match s.wg? run, s.group? run grp with
  | some w, some g =>
    match g.accs.find? fun a => a.id == s.arg.acc, s.launch? w.lid with
    | some a, some l =>
      if !a.returned then s
      else if w.life == .killed then s.onGroup run grp fun g => { g with accs := g.accs.filter fun b => b.id != a.id }
      else
        match a.parts.find? (·.bad) with
        | some p =>
          let s' := s.onGroup run grp fun g => { g with accs := g.accs.filter fun b => b.id != a.id }
          s'.consume run grp (Mask.of fun i => a.parts.any fun p => p.bad && p.lane == i) (s.arrayOf p) p.ia a.pc
        | none =>
          let s := s.onGroup run grp fun g => g.deliver l.ktan a
          if a.acq then s.dropUt w.core else s
    | _, _ => s
  | _, _ => s

/-- LONG_LATENCY_COMPLETE: a transcendental or MREAD writes its destinations and raises its flags (R46, R109). -/
def longLatencyComplete (s : State) : State :=
  let run := s.arg.wg
  let grp := s.arg.grp
  match s.wg? run, s.group? run grp with
  | some w, some g =>
    match g.longs.find? fun x => x.id == s.arg.acc with
    | none => s
    | some x =>
      let g := x.writes.foldl (fun (g : Group) y =>
        { g with vregs := Map.put (Lanes.const 0) g.vregs y.1 (Lanes.merge x.sel y.2 (Map.look (Lanes.const 0) g.vregs y.1)) }) g
      let g := x.swrites.foldl (fun (g : Group) y => { g with sregs := Map.put 0 g.sregs y.1 y.2 }) g
      let g := x.dests.foldl (fun (g : Group) d => g.setFull d.1 d.2 1) g
      let g := { g.raise x.flags with
        longs := g.longs.filter fun y => y.id != x.id
        badV := g.badV.filter fun b => !(x.dests.contains (false, b / 64) && x.sel.getLsbD (b % 64))
        badS := g.badS.filter fun b => !x.dests.contains (true, b) }
      (s.putGroup run g).raise w.lid x.flags
  | _, _ => s

/-! ### Lines that go (R140, R151, R317) -/

/-- LEASE_EXPIRY: an L1 or fetch-buffer line whose lease has ended is dead; waiters on its sectors wake with code 2. -/
def leaseExpiry (s : State) : State :=
  let core := s.arg.core
  let now := s.now (coreDie core)
  let c := s.core core
  let dead (x : CacheLine) : Bool := x.line == s.arg.line && !x.ut && decide (x.e ≤ now)
  if !(c.l1.any dead || c.fetchBuf.any dead) then s
  else
    let s' := s.setCore core { c with l1 := c.l1.filter fun x => !dead x, fetchBuf := c.fetchBuf.filter fun x => !dead x }
    if c.l1.any dead then s'.lineGone core s.arg.line else s'

/-- REMOTE_LINE_COPY_DROP: an L2 copy of another package's line goes LEASE ns after its fill. Its lease is the shortest of
the launches that map it. -/
def remoteLineCopyDrop (s : State) : State :=
  let line := s.arg.line
  let ls := s.launches.filter fun l => l.ranges.any fun r => decide (r.ia < 128 * line + 128) && decide (128 * line < r.ia + r.size)
  let lease := ls.foldl (fun n l => min n l.lease) ((ls.map (·.lease)).headD 2000)
  match s.l2.find? fun x => x.line == line && decide (x.fillAt + lease ≤ s.dtime) with
  | some _ => if region (128 * line) == .package then s.dropL2 line else s
  | none => s

/-! ### The meanings -/

def execTranslationWalk (s : State) : Host.Outcome State Fault Refusal := .next (translationWalk s)
def execAcceptanceArrival (s : State) : Host.Outcome State Fault Refusal := .next (acceptanceArrival s)
def execHomeFill (s : State) : Host.Outcome State Fault Refusal := .next (homeFill s)
def execHomeWriteArrival (s : State) : Host.Outcome State Fault Refusal := .next (homeWriteArrival s)
def execHomeWriteApply (s : State) : Host.Outcome State Fault Refusal := .next (homeWriteApply s)
def execWriteAcknowledgement (s : State) : Host.Outcome State Fault Refusal := .next (writeAcknowledgement s)
def execLoadReturn (s : State) : Host.Outcome State Fault Refusal := .next (loadReturn s)
def execLongLatencyComplete (s : State) : Host.Outcome State Fault Refusal := .next (longLatencyComplete s)
def execLeaseExpiry (s : State) : Host.Outcome State Fault Refusal := .next (leaseExpiry s)
def execRemoteLineCopyDrop (s : State) : Host.Outcome State Fault Refusal := .next (remoteLineCopyDrop s)

end Sys2Proof.Machine
end

