-- ==== Sys2Proof/Machine/Accept.lean ====
section
/-! DEFINITION. Acceptance of launch records and the states before placing (spec/15_launch.md R287-R291, spec/02_execution.md
R21, R26, R28, R29, and the acceptance rules of the other chapters). -/

namespace Sys2Proof.Machine

/-! ### Where launch queues lie (R287, R310) -/

def State.lqBlock (s : State) (n : Nat) : Nat := s.dev.lqia + 128 * n
def State.lqRing (s : State) (n : Nat) : Nat := s.dev.lqia + 0x1F0000 + 0x8000 * n

def State.row (s : State) (dom : Nat) : DomainRow := Map.look {} s.dev.domains dom

/-! ### Resources of a core (R28, R29, R241, R244, R245) -/

/-- What a partition holds: group slots, lane-vectors, scalar registers in use. -/
abbrev PartUse := List (Nat × Nat × Nat)

/-- One group assigned: the partition with the most free slots that takes it, the lowest of a tie. -/
def assignGroup (use_ : PartUse) (vecs sregs : Nat) : Option (Nat × PartUse) :=
  let ok := (List.range 8).filter fun p =>
    let u := use_.getD p (0, 0, 0)
    decide (u.1 < 16) && decide (u.2.1 + vecs ≤ 256) && decide (u.2.2 + sregs ≤ 1024)
  let best := ok.foldl (fun (b : Option Nat) p =>
    match b with
    | none => some p
    | some q => if (use_.getD p (0, 0, 0)).1 < (use_.getD q (0, 0, 0)).1 then some p else b) none
  best.map fun p => (p, (List.range 8).map fun q =>
    let u := use_.getD q (0, 0, 0)
    if q == p then (u.1 + 1, u.2.1 + vecs, u.2.2 + sregs) else u)

/-- The partitions of `n` groups, in ascending GRP. -/
def assignGroups (vecs sregs : Nat) : (n : Nat) → PartUse → Option (List Nat)
  | 0, _ => some []
  | n + 1, use_ =>
    match assignGroup use_ vecs sregs with
    | none => none
    | some (p, use_) => (assignGroups vecs sregs n use_).map fun ps => p :: ps

/-- The lowest start of `n` free units among `size`, given the ranges in use: which free range a workgroup gets is the model's
choice (R245, log 94). -/
def freeRange (used : List (Nat × Nat)) (size n : Nat) : Option Nat :=
  let starts := sortBy (fun a b => decide (a ≤ b)) (0 :: used.map fun r => r.1 + r.2)
  starts.find? fun a => decide (a + n ≤ size) && used.all fun r => decide (a + n ≤ r.1) || decide (r.1 + r.2 ≤ a) || n == 0

/-- Where a workgroup goes on a core: partitions, cellar start, first accumulator row. -/
structure Fit where
  parts : List Nat
  cell : Nat
  pool : Nat

/-- Vector registers of a group with their shadows. -/
def Launch.vecs (l : Launch) : Nat := l.vregs * (1 + l.ktan)
/-- Scratchpad of a workgroup with the split-table reserves. -/
def Launch.spadUse (l : Launch) : Nat := l.spad + 256 * l.ng

/-- Whether a workgroup of the launch fits on a core beside the workgroups that are there. -/
def Launch.fitsWith (l : Launch) (here : List (Workgroup × Launch)) : Option Fit :=
  let used : PartUse := (List.range 8).map fun p => here.foldl (fun u x =>
    x.1.groups.foldl (fun (u : Nat × Nat × Nat) g => if g.part == p then (u.1 + 1, u.2.1 + x.2.vecs, u.2.2 + x.2.sregs) else u) u) (0, 0, 0)
  let spad := here.foldl (fun n x => n + x.2.spadUse) 0
  if 16 ≤ here.length || here.any (fun x => x.2.spadsz != l.spadsz) || decide (65536 * l.spadsz < spad + l.spadUse) then none
  else
    match assignGroups l.vecs l.sregs l.ng used,
      freeRange (here.map fun x => (x.1.cellBase, 1024 * x.2.cell)) 16384 (1024 * l.cell),
      freeRange (here.map fun x => (x.1.poolBase, x.2.ng * x.2.arows)) 512 (l.ng * l.arows) with
    | some parts, some cell, some pool => some { parts, cell, pool }
    | _, _, _ => none

/-- The workgroups resident on a core. -/
def State.resident (s : State) (core : Nat) : List (Workgroup × Launch) :=
  (s.wgs.filter fun w => w.core == core).filterMap fun w => (s.launch? w.lid).map fun l => (w, l)

/-! ### The checks of R288 -/

/-- A reserved bit of the record outside ranges and slots is set (R286). -/
def Launch.reserved (l : Launch) : Bool :=
  [(0x160, 41, 23), (0x160, 29, 3), (0x190, 61, 3), (0x190, 51, 5), (0x190, 28, 4), (0x190, 19, 5), (0x198, 19, 13), (0x198, 15, 1),
    (0x198, 11, 1), (0x198, 5, 3), (0x1A0, 17, 15), (0x1D8, 45, 19), (0x1E0, 60, 3), (0x1E8, 60, 3), (0x1F0, 60, 3), (0x1F8, 60, 3)].any
    fun f => l.bits f.1 f.2.1 f.2.2 != 0

/-- Check 1. -/
def State.badRec (s : State) (l : Launch) (dom : Nat) : Bool :=
  l.reserved || l.dom != dom || (l.lat && (decide (16 ≤ l.lq) || s.dev.sku != 3 || !s.dev.licence || !(s.row dom).latency)) || (!l.lat && decide (l.lq < 16))
    || l.crec % 64 != 0

/-- Check 2. -/
def State.badMode (s : State) (l : Launch) : Bool :=
  let modes := [l.cont, l.det, l.redn].countP id
  (l.det && (decide (l.quantum < 1024) || decide (65536 < l.quantum))) || decide (1 < modes) || decide (4 < l.depth) || decide (4 < l.ktan)
    || ((l.cont || l.redn) && l.hold == 0) || decide ((s.row l.dom).hold < l.hold) || (l.resume && l.save == 0)

/-- The extents of the record break R21. -/
def Launch.badExtents (l : Launch) : Bool :=
  let ws := (List.range 6).map l.width
  decide (11 < l.width 0) || decide (64 < ws.foldl (· + ·) 0)
    || (List.range 6).any fun k => let e := l.extents.getD k 0; decide (e < 1) || decide (2 ^ l.width k < e)

/-- Check 3: R21, R28, R36 and R245. -/
def Launch.badShape (l : Launch) : Bool :=
  l.badExtents || l.vregs % 8 != 0 || decide (l.vregs < 8) || decide (128 < l.vregs) || l.sregs % 8 != 0 || decide (l.sregs < 8)
    || decide (64 < l.sregs) || l.spadsz == 0 || l.spad % 16 != 0 || decide (512 < l.arows) || decide (16 < l.cell)
    || decide (256 < l.ntpl) || decide (2 ^ 32 < (l.extents.drop 1).foldl (· * ·) 1) || (l.fitsWith []).isNone

/-- Check 4: R112. -/
def slotBad (w : DWord) : Bool :=
  let b (lo n : Nat) : Nat := (w.extractLsb' lo n).toNat
  decide (7 ≤ b 0 4) || b 4 2 == 3 || b 6 2 != 0 || b 11 21 != 0 || (b 4 2 != 0 && b 0 4 == 0) || b 55 8 == 255

def Launch.badSlot (l : Launch) : Bool := (List.range 8).any fun n => slotBad (l.slot n)

/-- A page of an IA span without a valid translation. -/
def State.unmapped (s : State) (ia n : Nat) : Bool :=
  region ia == .hbm && (List.range ((ia % 65536 + n + 65535) / 65536)).any fun i =>
    match s.walk true ((ia / 65536 + i) * 65536) with | .ok _ => false | .error _ => true

/-- A range that R133, R8, R230, R312 or R317 forbids. -/
def State.rangeBad (s : State) (x : Range) : Bool :=
  let r := region x.ia
  let past := x.ia + x.size
  x.base % 65536 != 0 || x.size % 65536 != 0 || x.ia % 65536 != 0 || decide (2 ^ 57 < x.base + x.size) || decide (2 ^ 52 < past)
    || r == .none || region (past - 1) != r || (r == .hbm && decide (2 ^ 39 - 8 * s.dev.rsvsz * 2 ^ 21 < past)) || decide (64 ≤ x.attr)
    || (x.x && x.w) || (x.ms && (r != .hbm || x.ut)) || (x.ut == (r == .hbm)) || (x.pin && r != .hbm)
    || (x.pin && s.unmapped x.ia x.size)
    || decide (0x1FF_FFFF_FFFF_F000 < x.base + x.size ∧ x.base ≤ 0x1FF_FFFF_FFFF_FFFF)
    || (r == .package && (List.range ((past - 1) / 2 ^ 39 - x.ia / 2 ^ 39 + 1)).any fun i => (x.ia / 2 ^ 39 + i) % 2048 == s.dev.pkg.toNat)
    || (r == .tier2 && let six := 0x1000_0000_0000 + 6 * 2 ^ 40
        (s.dev.absent.getLsbD 6 && decide (x.ia < six)) || (s.dev.absent.getLsbD 7 && decide (six < past)))

/-- Enabled ranges whose VA spans overlap. -/
def overlapping : List Range → Bool
  | [] => false
  | x :: t => (t.any fun y => decide (x.base < y.base + y.size) && decide (y.base < x.base + x.size)) || overlapping t

/-- An address that lies in an X range. -/
def Launch.executable (l : Launch) (va : Nat) : Bool := match l.rangeOf va with | some x => x.x | none => false

/-- Check 5. -/
def State.badRange (s : State) (l : Launch) : Bool :=
  l.ranges.any s.rangeBad || overlapping l.ranges || !l.executable l.entry.toNat || !l.executable l.trapv.toNat
    || (l.ntpl != 0 && (l.violation .read (128 * l.ntpl) true l.ttab).isSome)
    || (l.save != 0 && ((l.violation .read 40960 true l.save).isSome || s.unmapped (l.iaOf l.save) 40960))
    || (l.icnt != 0 && (l.violation .read 20 true l.icnt).isSome)

/-- Check 6: R200. -/
def Launch.badVat (l : Launch) : Bool :=
  let size := l.depth * (64 * l.ng) * (4 * l.vregs * (1 + l.ktan) + 32)
  l.depth != 0 && (decide (l.vatsz < size) || !(match l.rangeOf l.vat with
    | some x => x.r && x.w && region x.ia == .hbm && decide (l.vat + max l.vatsz size ≤ x.base + x.size)
    | none => false))

/-- Check 7: R272. -/
def Launch.badPlane (l : Launch) : Bool :=
  l.ktan != 0 && (l.tplane == 0 || l.tplane.toNat % 128 != 0 || l.splane == 0 || l.splane % 16 != 0 || l.cplane == 0 || l.cplane % 16 != 0)

/-- The status of the first failed check of R288 (R306), 0 where the record passes. -/
def State.verdict (s : State) (l : Launch) (dom : Nat) (poison : Bool) : Nat :=
  if poison || s.badRec l dom then 0x16
  else if s.badMode l then 0x15
  else if l.badShape then 0x10
  else if l.badSlot then 0x11
  else if s.badRange l then 0x12
  else if l.badVat then 0x13
  else if l.badPlane then 0x14
  else 0

/-! ### LAUNCH_ACCEPT -/

/-- The pages pinned from acceptance on: the save area and the PIN ranges (R289). -/
def Launch.pinPages (l : Launch) : List Nat :=
  let pages (ia n : Nat) : List Nat := if region ia != .hbm then [] else
    (List.range ((ia % 65536 + n + 65535) / 65536)).map fun i => ia / 65536 + i
  union [] ((if l.save == 0 then [] else pages (l.iaOf l.save) 40960) ++ (l.ranges.filter (·.pin)).flatMap fun x => pages x.ia x.size)

/-- Pages of 64 KiB pinned for a launch: their translations are held, and the launch names each page once (R268). -/
def State.pinLaunch (s : State) (pages : List Nat) : State × List Nat :=
  pages.foldl (fun (x : State × List Nat) p => (x.1.pinPage true (65536 * p), union x.2 [x.1.pageOf (65536 * p) true])) (s, [])

/-- The queue of a domain that the dispatcher pops next: the highest class that has a record, in turn within the class. -/
def State.nextQueue (s : State) (dom : Nat) : Option Nat :=
  let ready (n : Nat) : Bool := Map.look 255 s.dev.lqdom n == dom && (s.qctl (.mem (s.lqBlock n))).frozen == 0 &&
    (match s.block? (.mem (s.lqBlock n)) with
     | some (b, _) => b.head != b.tail && (s.qctl (.mem (s.lqBlock n))).pop.isNone
     | none => false)
  (List.range 4).findSome? fun c =>
    let last := Map.look 0 s.dev.lqturn (4 * dom + c)
    ((List.range 16).map fun i => 16 * c + (last + i) % 16).find? ready

/-- KIND of the record of an error response: 14 where the host's side raised it (R370). -/
def errorKind (reason : Nat) : Nat := if reason == 3 || reason == 4 then 14 else 13

/-- An error response answers the dispatcher's access to a launch queue: it is logged with its address (R370). -/
def State.lqError (s : State) (dom ia reason : Nat) : State := s.faultRecord dom 13 3 reason ia 0 0 0 0 0 0 0 0 0 false

/-- LAUNCH_ACCEPT: a record popped from the domain's next queue, checked, and its pages pinned. A block that fails its
check freezes the queue (R374), as does one that an error response answers for, and a record answered so is BADREC, as a
poisoned one is (log 66). -/
def launchAccept (s : State) : State :=
  let dom := s.arg.dom
  if s.dev.ready != 5 then s
  else
    match s.nextQueue dom with
    | none => s
    | some n =>
      let q : QKey := .mem (s.lqBlock n)
      let code := s.queueCode q (some dom)
      if code != 0 then s.freezeQueue q code dom none
      else match s.errorAt none (s.lqBlock n) with
      | some r => (s.lqError dom (s.lqBlock n) r).freezeQueue q 7 dom none
      | none =>
        match s.block? q with
        | none => s
        | some (b, _) =>
          let at_ := b.slot b.head
          let err := s.spanError none at_ 512
          let s := match err with
            | some e => s.lqError dom e.1 e.2
            | none => s.touchAll (some dom) ((spanLines at_ 512).map fun (x : Nat × Nat × Nat) => (x.1, x.2.2))
          let bs := s.readSpan at_ 512
          let record := (List.range 64).map fun i => BitVec.ofNat 64 (leNat ((bs.drop (8 * i)).take 8))
          let lid := s.fresh
          let l : Launch := { lid, lq := n, seq := b.head, record, order := lid }
          let l := { l with ext := l.extents }
          let st := s.verdict l dom (err.isSome || s.badSpan at_ 512)
          let (s, pins) := s.pinLaunch (if st == 0 then l.pinPages else [])
          let l := if st == 0 then { l with pins } else { l with phase := .completing, status := [st] }
          let s := (s.putBlock q ({ b with head := (b.head + 1) % 2 ^ 64 : QBlock }.refree)).note q
          { s with
            fresh := lid + 1, launches := s.launches ++ [l]
            dev := { s.dev with lqturn := Map.set s.dev.lqturn (4 * dom + n / 16) (n % 16 + 1) } }

/-! ### Waiting, Counting, Holding (R289-R291, R26, R303, R392) -/

/-- An enabled counter wait holds. -/
def State.waitHolds (s : State) (x : DWord) : Bool :=
  !x.getLsbD 63 || decide (((Map.look 0 s.dev.counters (x.extractLsb' 48 12).toNat).toNat + 2 ^ 48 - (x.extractLsb' 0 48).toNat) % 2 ^ 48 < 2 ^ 47)

/-- Earlier launches of the same queue. -/
def State.earlier (s : State) (l : Launch) : List Launch := s.launches.filter fun x => x.lq == l.lq && decide (x.order < l.order)

/-- LAUNCH_WAITS_SATISFIED. -/
def launchWaitsSatisfied (s : State) : State :=
  match s.launch? s.arg.lid with
  | none => s
  | some l =>
    if l.phase == .waiting && [0x1E0, 0x1E8, 0x1F0, 0x1F8].all (fun o => s.waitHolds (l.word o))
        && (s.earlier l).all fun x => x.phase != .waiting then
      s.onLaunch l.lid fun l => { l with phase := .counting }
    else s

/-- The launch ends before it places anything. -/
def Launch.endEarly (l : Launch) (st : Option Nat) : Launch :=
  { (match st with | some c => l.reason c | none => l) with phase := .completing }

/-- The launch with the extents that are now in use. -/
def Launch.counted (l : Launch) (ext : List Nat) : Launch :=
  let l := { l with ext }
  if (ext.drop 1).any (· == 0) then l.endEarly none
  else if 2 ^ 32 < l.total then l.endEarly (some 0x10)
  else { l with phase := .holding }

/-- A resumed launch restores its save area; in redundant mode both runs of a killed workgroup are to be placed (R302,
R303). -/
def Launch.restore (l : Launch) (bs : List Byte) : Launch :=
  let w (off n : Nat) : Nat := leNat ((bs.drop off).take n)
  if w 4 4 != 0x5A534156 then l.endEarly (some 0x15)
  else
    let low := BitVec.ofNat 64 (w 0x20 8)
    let l := { l with
      next := w 8 4, ndone := w 0x10 8, ndisc := w 0x18 8, lowwid := if low == BitVec.allOnes 64 then none else some low
      flags := BitVec.ofNat 5 (w 0x28 1)
      redo := (List.range (min 9216 (w 0 4))).flatMap fun i => (w (0x60 + 4 * i) 4, 0) :: (if l.redn then [(w (0x60 + 4 * i) 4, 1)] else []) }
    l.counted [l.extent 0, w 0x38 4, w 0x3C 4, w 0x40 4, w 0x44 4, w 0x48 4]

/-- An error response answers the dispatcher's read: it is logged with its address (R12, R370), KIND 14 where the host's side
raised it, and the launch ends with FAULT (log 66). -/
def State.dispatchError (s : State) (l : Launch) (ia reason : Nat) : State :=
  (s.faultRecord l.dom (errorKind reason) 3 reason ia (BitVec.ofNat 64 (l.vaOf ia)) 0 0 0 0 0 0 0 0 false).onLaunch l.lid fun l => (l.fault none).endEarly none

/-- INDIRECT_COUNT_READ: the extents in use are settled, from the save area, the indirect counts or the record; poisoned counts
end the launch with FAULT (log 92). -/
def indirectCountRead (s : State) : State :=
  match s.launch? s.arg.lid with
  | none => s
  | some l =>
    if l.phase != .counting then s
    else if l.resume then
      let ia := l.iaOf l.save
      match s.spanError (some l.dom) ia 40960 with
      | some e => s.dispatchError l e.1 e.2
      | none =>
        let xs := (spanLines ia 40960).map fun x => (x.1, x.2.2)
        let cut := xs.any fun x => s.cutOff (some l.dom) x.1 x.2
        match s.carryAll (some l.dom) 0 xs with
        | none => s
        | some s' =>
          if xs.any fun x => !s.lineFree x.1 then s
          else if cut || s.badSpan ia 40960 then s'.onLaunch l.lid fun l => l.endEarly (some 6)
          else (s'.touchAll (some l.dom) xs).onLaunch l.lid fun l => l.restore (s.readSpan ia 40960)
    else if l.icnt == 0 then s.onLaunch l.lid fun l => { l with phase := .holding }
    else
      let ia := l.iaOf l.icnt
      match s.spanError (some l.dom) ia 20 with
      | some e => s.dispatchError l e.1 e.2
      | none =>
      let xs := (spanLines ia 20).map fun x => (x.1, x.2.2)
      let cut := xs.any fun x => s.cutOff (some l.dom) x.1 x.2
      match s.carryAll (some l.dom) 0 xs with
      | none => s
      | some s' =>
      if xs.any fun x => (s.xlatFault x.1).isSome || !s.lineFree x.1 then s
      else if cut || s.badSpan ia 20 then s'.onLaunch l.lid fun l => (l.fault none).endEarly none
      else
        let bs := s.readSpan ia 20
        let raw := (List.range 5).map fun i => leNat ((bs.drop (4 * i)).take 4)
        let ext := raw.mapIdx fun i x => min x (2 ^ l.width (i + 1))
        (s'.touchAll (some l.dom) xs).onLaunch l.lid fun l => { l with clamp := l.clamp || ext != raw }.counted (l.extent 0 :: ext)

/-- The dies on which a launch may place workgroups. -/
def State.launchDies (s : State) (l : Launch) : List Nat := union [] ((s.row l.dom).clusters.map (· / 12))

/-- A launch that has left Placing. -/
def Launch.leftPlacing (l : Launch) : Bool :=
  match l.phase with | .waiting | .counting | .holding | .placing => false | _ => true

/-- LAUNCH_START_TIME: DTIME of a die has reached START; with the last die the launch begins placing. -/
def launchStartTime (s : State) : State :=
  match s.launch? s.arg.lid with
  | none => s
  | some l =>
    if l.phase != .holding || decide (s.now s.arg.die < l.start) then s
    else
      let dies := union l.dies [s.arg.die]
      let all := (s.launchDies l).all dies.contains
      let begins := all && (s.earlier l).all Launch.leftPlacing
      s.onLaunch l.lid fun l => { l with dies, phase := if begins then .placing else l.phase }

/-! ### The meanings -/

def execLaunchAccept (s : State) : Host.Outcome State Fault Refusal := .next (launchAccept s)
def execLaunchWaitsSatisfied (s : State) : Host.Outcome State Fault Refusal := .next (launchWaitsSatisfied s)
def execIndirectCountRead (s : State) : Host.Outcome State Fault Refusal := .next (indirectCountRead s)
def execLaunchStartTime (s : State) : Host.Outcome State Fault Refusal := .next (launchStartTime s)

end Sys2Proof.Machine
end

