-- ==== Sys2Proof/Machine/Control.lean ====
section
/-! DEFINITION. Control flow, fragments and joins: class 7 (spec/09_control.md R174-R187). Every word acts on F, whatever
EXEC holds (R178). -/

namespace Sys2Proof.Machine

/-- The target of a branch or call: a word offset in FI words, a scalar pair with bits [2:0] ignored in FR words (R178). -/
def Ctx.target (c : Ctx) : DWord :=
  match c.fm with
  | .fi _ f => c.pc + 8 * f.imm.signExtend 64
  | _ => c.scalar 0 &&& ~~~ 7

/-- The lowest free entry of the split table (R175). -/
def Group.freeEntry (g : Group) : Option Nat := (List.range 16).find? fun e => (g.frag? e).isNone

/-- New fragments for parts of a split, each in the lowest free entry; `fid` numbers them on. -/
def Group.addParts (g : Group) (fid : Nat) : List Frag → Group
  | [] => g
  | f :: t =>
    match g.freeEntry with
    | some e => (g.putFrag e { f with fid }).addParts (fid + 1) t
    | none => g

/-- A fragment cut into parts: the first keeps the entry, the others take new ones in order; FRAGOVF where the table is
too small (R175, R179, R180). -/
def Ctx.cut (c : Ctx) (s : State) (parts : List Frag) : Out :=
  let free := 16 - c.g.frags.length
  match parts with
  | [] => .done s
  | p :: rest =>
    if free < rest.length then
      .trap 0x05 (BitVec.ofNat 64 (c.g.frags.length + rest.length)) ((rest.drop free).headD p).f
    else
      let g := (c.g.putFrag c.ent p).addParts s.fresh rest
      let s := ({ s with fresh := s.fresh + rest.length }).putGroup c.w.run g
      .flow (s.trace 4 c.pc c.w.run c.g.grp c.ent) 0xFFFFFFFF

/-- BRA and BRC (R179): the lanes of T branch, the others fall through. -/
def Ctx.branch (c : Ctx) : Out :=
  let t := c.taken
  let f := { c.f with sent := c.pc, stamp := c.s.cyc, st := .ready }
  let go (f : Frag) (m : Mask) (pc : DWord) : Frag := { f with f := f.f &&& m, exec := f.exec &&& m, shadow := f.exec &&& m, pc }
  if t == 0 then .done c.s
  else if t == c.f.f then c.cut c.s [{ f with pc := c.target }]
  else c.cut c.s [go f (~~~ t) (c.pc + 8), go f t c.target]

def bodyBra (c : Ctx) : Out := c.branch
def bodyBrc (c : Ctx) : Out := c.branch

/-- The parts of F by target, in ascending order of their lowest lane (R180). -/
def Ctx.parts (c : Ctx) : List (DWord × Mask) :=
  let tgt (i : Nat) : DWord := (c.src 0 i).v &&& ~~~ 7
  c.f.f.lanes.foldl (fun ps i =>
    if ps.any fun p => p.1 == tgt i then ps.map fun p => if p.1 == tgt i then (p.1, p.2 ||| Mask.bit i) else p
    else ps ++ [(tgt i, Mask.bit i)]) []

/-- JMPI and CALLI: a split inside the handler is illegal (R335). -/
def Ctx.indirect (c : Ctx) (call : Bool) : Out :=
  let ps := c.parts
  if c.g.trap.isSome && decide (1 < ps.length) then .trap 0x01 10 c.sel
  else
    c.cut c.s (ps.map fun p => { c.f with
      f := p.2, exec := c.f.exec &&& p.2, shadow := c.f.exec &&& p.2, pc := p.1, sent := c.pc, stamp := c.s.cyc, st := .ready
      link := if call then c.pc + 8 else c.f.link })

def bodyJmpi (c : Ctx) : Out := c.indirect false
def bodyCalli (c : Ctx) : Out := c.indirect true

/-- CALL and RET move the whole fragment (R181). -/
def Ctx.goto (c : Ctx) (pc link : DWord) : Out :=
  c.cut c.s [{ c.f with pc, link, sent := c.pc, stamp := c.s.cyc, st := .ready }]

def bodyCall (c : Ctx) : Out := c.goto c.target (c.pc + 8)
def bodyRet (c : Ctx) : Out := c.goto (c.f.link &&& ~~~ 7) c.f.link

/-! ### Joins -/

/-- The entries asleep at join `n`, in order of arrival (R183). -/
def Group.sleepers (g : Group) (n : Nat) : List Nat :=
  let xs := g.frags.filterMap fun p => match p.2.st with | .join j o => if j == n then some (o, p.1) else none | _ => none
  (sortBy (fun a b => decide (a.1 ≤ b.1)) xs).map (·.2)

/-- The fragments of `ws` fuse into the entry of the first, after its JOIN; the join is cleared (R183). -/
def Group.fuse (g : Group) (n : Nat) (ws : List Nat) (cyc : Nat) : Group :=
  match ws with
  | [] => g.setJoin n {}
  | e :: rest =>
    match g.frag? e with
    | none => g
    | some f =>
      let fs := rest.filterMap g.frag?
      let ex := fs.foldl (fun m x => m ||| x.exec) f.exec
      let f' : Frag := { f with f := fs.foldl (fun m x => m ||| x.f) f.f, exec := ex, shadow := ex, pc := f.pc + 8, sent := f.pc
                                st := .ready, stamp := cyc }
      let g := { g with frags := g.frags.filter fun p => !rest.contains p.1 }
      (g.putFrag e f').setJoin n {}

/-- A join released with its partial mask (R185, R182): its sleepers fuse and LOSTJ is set. -/
def Group.releaseJoin (g : Group) (n cyc : Nat) : Group := { g.fuse n (g.sleepers n) cyc with lostj := true, sig := 0xFFFFFFFE }

/-- JSET: waiters are released first, then the expectation is replaced (R182). -/
def bodyJset (c : Ctx) : Out :=
  let n := c.dnum % 8
  let rel := !(c.g.sleepers n).isEmpty
  let g := if rel then c.g.releaseJoin n c.s.cyc else c.g
  let (ord, s) := c.s.new
  let g := g.setJoin n { exp := c.g.mask c.anum, arr := 0, ord }
  let g := match g.frag? c.ent with
    | some f => g.putFrag c.ent { f with pc := c.pc + 8, sent := c.pc, st := .ready }
    | none => g
  let s := s.putGroup c.w.run g
  let s := if rel then (s.onLaunch c.w.lid fun l => { l with lostj := true }).trace 5 c.pc c.w.run c.g.grp c.ent else s
  .flow s (if rel then 0xFFFFFFFE else 0xFFFFFFFF)

/-- JOIN: arrive, then fuse or sleep (R183). -/
def bodyJoin (c : Ctx) : Out :=
  let n := c.dnum % 8
  let j := c.g.join n
  let arr := j.arr ||| c.f.f
  if j.exp &&& ~~~ arr == 0 then
    let ws := c.g.sleepers n ++ [c.ent]
    let s := c.s.putGroup c.w.run (c.g.fuse n ws c.s.cyc)
    .flow (if ws.length ≤ 1 then s else s.trace 5 c.pc c.w.run c.g.grp (ws.headD c.ent)) 0xFFFFFFFF
  else
    let (ord, s) := c.s.new
    let g := (c.g.setJoin n { j with arr }).putFrag c.ent { c.f with st := .join n ord }
    .flow (s.putGroup c.w.run g) 0xFFFFFFFF

/-- JARV: arrive and go on; the waiters fuse where the join completes (R184). -/
def bodyJarv (c : Ctx) : Out :=
  let n := c.dnum % 8
  let j := c.g.join n
  let arr := j.arr ||| c.f.f
  if j.exp &&& ~~~ arr == 0 then
    let ws := c.g.sleepers n
    let s := c.s.putGroup c.w.run (c.g.fuse n ws c.s.cyc)
    .done (if ws.isEmpty then s else s.trace 5 c.pc c.w.run c.g.grp (ws.headD c.ent))
  else .done (c.s.putGroup c.w.run (c.g.setJoin n { j with arr }))

/-! ### Yielding and sleeping (R187) -/

def bodyYield (c : Ctx) : Out := .regs (c.g.putFrag c.ent { c.f with st := .yield c.s.cyc c.s.cyc }) 0

/-- SLEEP for a count of nanoseconds: 0, or a pending pre-emption request, completes at once. -/
def bodySleep (c : Ctx) : Out :=
  let v := match c.fm with | .fi _ f => f.imm.toNat | _ => (c.scalar 0).toNat
  if v == 0 || c.w.pend then .regs c.g 0
  else .regs (c.g.putFrag c.ent { c.f with st := .sleep (c.s.now (coreDie c.w.core) + v) }) 0

def bodyNop (c : Ctx) : Out := .regs c.g 0

/-! ### The meanings -/

def execBraReg (f : FR) (s : State) : Host.Outcome State Fault Refusal := .next (runWord (.fr 0x1c0 f) bodyBra s)
def execBra (f : FI) (s : State) : Host.Outcome State Fault Refusal := .next (runWord (.fi 0x1c0 f) bodyBra s)
def execBrcReg (f : FR) (s : State) : Host.Outcome State Fault Refusal := .next (runWord (.fr 0x1c1 f) bodyBrc s)
def execBrc (f : FI) (s : State) : Host.Outcome State Fault Refusal := .next (runWord (.fi 0x1c1 f) bodyBrc s)
def execJmpi (f : FR) (s : State) : Host.Outcome State Fault Refusal := .next (runWord (.fr 0x1c2 f) bodyJmpi s)
def execCallReg (f : FR) (s : State) : Host.Outcome State Fault Refusal := .next (runWord (.fr 0x1c3 f) bodyCall s)
def execCall (f : FI) (s : State) : Host.Outcome State Fault Refusal := .next (runWord (.fi 0x1c3 f) bodyCall s)
def execCalli (f : FR) (s : State) : Host.Outcome State Fault Refusal := .next (runWord (.fr 0x1c4 f) bodyCalli s)
def execRet (f : FR) (s : State) : Host.Outcome State Fault Refusal := .next (runWord (.fr 0x1c5 f) bodyRet s)
def execJset (f : FR) (s : State) : Host.Outcome State Fault Refusal := .next (runWord (.fr 0x1c6 f) bodyJset s)
def execJoin (f : FR) (s : State) : Host.Outcome State Fault Refusal := .next (runWord (.fr 0x1c7 f) bodyJoin s)
def execJarv (f : FR) (s : State) : Host.Outcome State Fault Refusal := .next (runWord (.fr 0x1c8 f) bodyJarv s)
def execYield (f : FR) (s : State) : Host.Outcome State Fault Refusal := .next (runWord (.fr 0x1c9 f) bodyYield s)
def execSleep (f : FR) (s : State) : Host.Outcome State Fault Refusal := .next (runWord (.fr 0x1ca f) bodySleep s)
def execSleepImm (f : FI) (s : State) : Host.Outcome State Fault Refusal := .next (runWord (.fi 0x1ca f) bodySleep s)
def execNop (f : FR) (s : State) : Host.Outcome State Fault Refusal := .next (runWord (.fr 0x1cb f) bodyNop s)

end Sys2Proof.Machine
end

