-- ==== Sys2Proof/Machine/Matrix.lean ====
section
/-! DEFINITION. The press and the matrix instructions: class 11 (spec/12_tiles.md R244-R258, spec/14_dual.md R280-R282,
spec/06_numbers.md R113, R114). -/

namespace Sys2Proof.Machine

/-! ### Rows, windows and owners -/

/-- The rows that a press operation owns (R250, R280). -/
def PressOp.owns (p : PressOp) (r : Nat) : Bool :=
  (List.range (p.k + 1)).any fun j => decide (p.row + 64 * j ≤ r) && decide (r < p.row + 64 * j + p.count)

/-- The first of `n` rows from `a` outside the group's window, in planes 0 to k (R247, R251, R280). -/
def Group.outside (g : Group) (a n k : Nat) : Option Nat :=
  (List.range (k + 1)).findSome? fun j =>
    let r := a + 64 * j
    if r < g.accb ∨ g.accb + g.accl ≤ r then some r
    else if g.accb + g.accl < r + n then some (g.accb + g.accl) else none

/-- WINDOW with a reason and the first offending row or column (R348). Where several reasons hold, as rows and columns of MREAD or
rows and cellar bytes of MMA, the lower number is reported (log 108). -/
def Ctx.window (c : Ctx) (reason x : Nat) : Out := .trap 0x0A (fields [(0, reason), (16, x % 512)]) c.sel

/-- The press operations of a core. -/
def Ctx.press (c : Ctx) : List PressOp := (c.s.core c.w.core).press

/-- The incomplete press operations of a group of the workgroup. -/
def Ctx.groupOps (c : Ctx) (grp : Nat) : List PressOp := c.press.filter fun p => p.wg == c.w.run && p.grp == grp

/-- ACCBUSY for rows a to a + 63 of every plane (R256, R349); a deterministic launch waits instead. -/
def Ctx.accBusy (c : Ctx) (a : Nat) : Option Out :=
  let ops := c.press.filter fun p => p.wg == c.w.run
  let rows := (List.range (64 * (c.k + 1))).map (a + ·)
  let busy := rows.filter fun r => ops.any fun p => p.owns r
  match busy with
  | [] => none
  | first :: _ =>
    if c.l.det then some (.stall .other)
    else
      let last := busy.getLastD first
      match ops.find? fun p => busy.any p.owns with
      | none => none
      | some p => some (.trap 0x0B (fields [(59, p.grp), (0, (p.pc &&& 0x1FF_FFFF_FFFF_FFF8).toNat)])
          (fields [(32, p.batch), (16, last), (0, first)]))

/-! ### Tiles -/

/-- Bytes of a row of 32 A elements (R247). -/
def Slot.aRow (s : Slot) : Nat := match s.fmt with | 1 | 2 => 64 | 4 => 24 | _ => 32
/-- Element size in the cellar. -/
def Slot.bElem (s : Slot) : Nat := match s.fmt with | 1 | 2 => 2 | _ => 1
/-- Blocks of `n` elements: 0 without block scales. -/
def Slot.blocks (s : Slot) (n : Nat) : Nat := if s.blockSize == 0 then 0 else n / s.blockSize
/-- Bytes of the A tile with its scales. -/
def Slot.aBytes (s : Slot) : Nat := 64 * s.aRow + 64 * s.blocks 32
/-- Bytes of a row of 128 elements that MSTS writes (R255). -/
def Slot.mstsRow (s : Slot) : Nat := match s.fmt with | 0 => 512 | 1 | 2 => 256 | 4 => 96 | _ => 128

def Launch.slotAt (l : Launch) (n : Nat) : Slot := Slot.ofWord (l.slot (n % 8))

/-- The slot pair of an MMA suits the press (R247). -/
def slotsOk (a b : Slot) : Bool :=
  let ok (s : Slot) : Bool := decide (1 ≤ s.fmt) && decide (s.fmt ≤ 6)
  ok a && ok b && (a.fmt == b.fmt || (decide (5 ≤ a.fmt) && decide (5 ≤ b.fmt))) && a.block == b.block

/-- Offset of plane j of a tile in scratchpad (R280). -/
def Launch.planeOff (l : Launch) (b j : Nat) : Nat := (b + j * l.splane) % 2 ^ 32

/-- MISALIGN and SPADB for a tile of `n` bytes at offset `b` in every plane. -/
def Ctx.checkTile (c : Ctx) (b n : Nat) : Option Out :=
  let offs := (List.range (c.k + 1)).map fun j => (j, c.l.planeOff b j)
  match offs.find? fun x => x.2 % 16 != 0 with
  | some x => some (.trap 0x06 (fields [(0, x.2), (57, x.1)]) c.sel)
  | none =>
    match offs.find? fun x => decide (c.l.spad < x.2 + n) with
    | some x => some (.trap 0x08 (fields [(0, x.2), (57, x.1)]) c.sel)
    | none => none

/-! ### The words -/

/-- MMA (R246-R250): its rows are checked before its cellar bytes, so that WINDOW reports reason 1 where both offend (log 108). -/
def bodyMma (c : Ctx) : Out :=
  if c.sel != BitVec.allOnes 64 then .trap 0x04 0 c.sel
  else
    let sa := c.l.slotAt c.subn
    let sb := c.l.slotAt (c.subn + 1)
    let row := (c.scalar 0).toNat
    let b := (c.scalar 1).toNat
    let q := (c.scalar 2).toNat
    if !slotsOk sa sb then c.object 7 c.subn
    else
      match c.g.outside row 64 c.k with
      | some r => c.window 1 r
      | none =>
        let lim := c.l.cell * 1024
        let first := (List.range (c.k + 1)).findSome? fun j =>
          let lo := q * sb.bElem + j * c.l.cplane
          let hi := lo + (32 + sb.blocks 32) * sb.bElem
          if lim < hi then some (max lo lim) else none
        match first with
        | some x => .trap 0x0A (fields [(0, 2), (32, x % 2 ^ 32)]) c.sel
        | none =>
          match c.checkTile b sa.aBytes with
          | some o => o
          | none =>
            let (id, s) := c.s.new
            .done (s.onCore c.w.core fun x => { x with press := x.press ++ [{
              id, wg := c.w.run, grp := c.g.grp, pc := c.tpc, mma := true, slot := c.subn, row, count := 64, aoff := b, brow := q, k := c.k }] })

def bodyMzero (c : Ctx) : Out :=
  let row := (c.scalar 0).toNat
  let n := (c.scalar 1).toNat
  if c.sel == 0 || n == 0 then .regs c.g 0
  else
    match c.g.outside row n c.k with
    | some r => c.window 1 r
    | none =>
      let (id, s) := c.s.new
      .done (s.onCore c.w.core fun x => { x with press := x.press ++ [{
        id, wg := c.w.run, grp := c.g.grp, pc := c.tpc, mma := false, row, count := n, k := c.k }] })

/-- The numbers of the group's incomplete batches (R252). -/
def Ctx.batches (c : Ctx) : List Nat := ((c.groupOps c.g.grp).map (·.batch)).foldl (fun b n => if n == 0 || b.contains n then b else b ++ [n]) []

def bodyMfence (c : Ctx) : Out :=
  if c.sel == 0 then .regs c.g 0
  else
    let open_ := (c.groupOps c.g.grp).any fun p => p.batch == 0
    if open_ && decide (16 ≤ c.batches.length) then .stall .other
    else
      let n := c.g.nextBatch
      let s := c.s.onCore c.w.core fun x => { x with
        press := x.press.map fun p => if p.wg == c.w.run && p.grp == c.g.grp && p.batch == 0 then { p with batch := n } else p }
      let g := c.writeTo { c.g with nextBatch := if n + 1 < 2 ^ 32 then n + 1 else 1 } (c.opnd 3) fun _ => { v := BitVec.ofNat 64 n }
      .done (s.putGroup c.w.run g)

def bodyMwait (c : Ctx) : Out :=
  let a := (c.scalar 0).toNat
  if c.sel == 0 || a == 0 then .regs c.g 0
  else if c.batches.any fun n => decide ((a + 2 ^ 32 - n) % 2 ^ 32 < 2 ^ 31) then .stall .mwait
  else .regs c.g 0

/-! ### Readout (R114 step 4, R254, R255) -/

/-- An accumulator element (FP32 bits) of the workgroup. -/
def Workgroup.acc (w : Workgroup) (row col : Nat) : Nat := (Map.look 0 w.accum (128 * row + col)).toNat

/-- The exact product of an element with the tensor scales of a row's tag pair, and the flags so far. -/
def readValue (l : Launch) (tag x : Nat) : FV × FFlags :=
  let (p, fl) := if tag == 0 then (0x3F800000, 0)
    else fp32.mulF 0 false (l.slotAt (tag - 1)).tscale (l.slotAt tag).tscale
  let v := fp32.value x
  if v.isNan then (.nan false, fl)
  else
    match v.toX.mul (fp32.value p).toX with
    | .bad => (.nan false, fl ||| fNV)
    | .inf s => (.inf s, fl)
    | .num y => (.fin y.neg y.n y.e, fl)

/-- Elements of one block read out under a slot, with the block's scale exponent (R113). -/
def readElem (s : Slot) (se : Int) (v : FV) : Nat × FFlags := s.encode (v.scale (-se))

/-- Component `j` of the element of lane `m` and column `col`: bits [31:24] hold the block scale byte. -/
def Ctx.readCell (c : Ctx) (s : Slot) (a j col m : Nat) : Nat × FFlags :=
  let val (i : Nat) : FV × FFlags := readValue c.l (Map.look 0 c.w.tags (a + i)) (c.w.acc (a + i + 64 * j) col)
  let v := val m
  if s.blockSize == 0 then
    let r := s.encode v.1
    (r.1, r.2 ||| v.2)
  else
    let n := s.blockSize
    let lanes := (List.range n).map (m / n * n + ·) |>.filter fun i => c.sel.getLsbD i
    let se := s.blockSe (lanes.map fun i => (val i).1)
    let r := readElem s se v.1
    (r.1 + (se + 127).toNat * 2 ^ 24, r.2 ||| v.2)

/-- Poisoned accumulator elements among rows a to a + 63 of every plane and the given columns. -/
def Ctx.accPoison (c : Ctx) (a col n : Nat) (rows : List Nat) : Bool :=
  c.w.accBad.any fun x =>
    (List.range (c.k + 1)).any fun j => rows.any fun m => x / 128 == a + m + 64 * j && decide (col ≤ x % 128) && decide (x % 128 < col + n)

/-- The lowest row of those elements (R381). -/
def Ctx.accPoisonRow (c : Ctx) (a col n : Nat) (rows : List Nat) : Nat :=
  ((((List.range (c.k + 1)).flatMap fun j => rows.map fun m => a + m + 64 * j).filter fun r =>
    c.w.accBad.any fun x => x / 128 == r && decide (col ≤ x % 128) && decide (x % 128 < col + n)).min?).getD 0

/-- MREAD (R254): its rows are checked before its columns, so that WINDOW reports reason 1 where both offend (log 108). -/
def bodyMread (c : Ctx) : Out :=
  if c.sel == 0 then .regs c.g 0
  else
    let a := (c.scalar 0).toNat
    let b := (c.scalar 1).toNat
    let cnt := c.mods 0 3 + 1
    match c.g.outside a 64 c.k with
    | some r => c.window 1 r
    | none =>
      if 128 < b + cnt then c.window 3 (max b 128)
      else
        match c.accBusy a with
        | some o => o
        | none =>
          if c.accPoison a b cnt c.sel.lanes then
            .poison (Mask.of fun i => c.sel.getLsbD i && c.accPoison a b cnt [i]) 5 0 (c.accPoisonRow a b cnt c.sel.lanes)
          else
            let s := c.l.slotAt c.subn
            let o := c.opnd 3
            let step (x : Group × FFlags) (i : Nat) : Group × FFlags :=
              let r : Lanes (Dual × FFlags) := Lanes.gen fun m =>
                if c.sel.getLsbD m then
                  let xs := (List.range (c.k + 1)).map fun j => c.readCell s a j (b + i) m
                  ({ v := BitVec.ofNat 64 ((xs.map (·.1)).headD 0), t := (xs.drop 1).map fun y => BitVec.ofNat 64 y.1 },
                    xs.foldl (fun f y => f ||| y.2) 0)
                else ({}, 0)
              (x.1.writeV (o.num + i) 1 c.l.ktan c.k c.sel fun m => (r.at m).1,
                c.sel.lanes.foldl (fun f m => f ||| (r.at m).2) x.2)
            let (h, fl) := (List.range cnt).foldl step (c.g, 0)
            .done (c.pend c.s c.g h [o] fl)

/-- A row of 128 elements of component `j` as MSTS lays it out: the row's value, its scale bytes, its flags (R255). -/
def Ctx.mstsLine (c : Ctx) (s : Slot) (a j m : Nat) : Nat × List Nat × FFlags :=
  let vals := (List.range 128).map fun col => readValue c.l (Map.look 0 c.w.tags (a + m)) (c.w.acc (a + m + 64 * j) col)
  let n := s.blockSize
  let ses : List Int := (List.range (s.blocks 128)).map fun i => s.blockSe (((vals.drop (i * n)).take n).map (·.1))
  let es := vals.mapIdx fun col v => readElem s (if n == 0 then 0 else ses.getD (col / n) 0) v.1
  let bits := s.bits
  let row := (es.foldr (fun e (x : Nat) => x * 2 ^ bits + e.1 % 2 ^ bits) 0)
  (row, ses.map fun e => (e + 127).toNat, (es.zip vals).foldl (fun f x => f ||| x.1.2 ||| x.2.2) 0)

def bodyMsts (c : Ctx) : Out :=
  if c.sel == 0 then .regs c.g 0
  else
    let a := (c.scalar 0).toNat
    let b := (c.scalar 1).toNat
    let s := c.l.slotAt c.subn
    let rb := s.mstsRow
    let nb := s.blocks 128
    match c.g.outside a 64 c.k with
    | some r => c.window 1 r
    | none =>
      match c.checkTile b (64 * rb + 64 * nb) with
      | some o => o
      | none =>
        match c.accBusy a with
        | some o => o
        | none =>
          if c.accPoison a 0 128 (List.range 64) then .poison c.sel 5 0 (c.accPoisonRow a 0 128 (List.range 64))
          else
            let lines := (List.range (c.k + 1)).flatMap fun j => (List.range 64).map fun m => (j, m, c.mstsLine s a j m)
            let fl := lines.foldl (fun f x => f ||| x.2.2.2.2) 0
            let ws : List (Nat × Nat × Nat) := lines.flatMap fun x =>
              let off := c.l.planeOff b x.1
              (off + x.2.1 * rb, rb, x.2.2.1) ::
                (if nb == 0 then [] else [(off + 64 * rb + x.2.1 * nb, nb, x.2.2.2.1.foldr (fun e y => y * 256 + e) 0)])
            let st := if c.l.det then
                c.hold c.s (ws.map fun x => { grp := c.g.grp, ia := x.1, size := x.2.1, dat := x.2.2, spad := true })
              else c.s.onWg c.w.run fun w => ws.foldl (fun w x => w.spadWrite x.1 x.2.1 x.2.2) w
            .done ((st.onGroup c.w.run c.g.grp fun g => g.raise fl).raise c.w.lid fl)

/-- WRACCW (R257). -/
def bodyWraccw (c : Ctx) : Out :=
  if c.sel == 0 then .regs c.g 0
  else
    let a := (c.scalar 0).toNat
    let b := (c.scalar 1).toNat
    let n := (c.scalar 2).toNat
    let hi := c.w.poolBase + c.l.ng * c.l.arows
    if c.g.grp != 0 then .trap 0x0A 4 c.sel
    else if c.l.ng ≤ a then .trap 0x0A 5 c.sel
    else if b < c.w.poolBase ∨ hi < b + n then .trap 0x0A 6 c.sel
    else if !(c.groupOps a).isEmpty then .stall .other
    else .done (c.s.onGroup c.w.run a fun g => { g with accb := b, accl := n })

/-! ### The press (R248-R250, R281) -/

/-- A bit field of the scratchpad: element `k` of A row `m` in the tile at `off`. -/
def Workgroup.aElem (w : Workgroup) (s : Slot) (off m k : Nat) : Nat :=
  let row := off + m * s.aRow
  match s.fmt with
  | 1 | 2 => w.spad.le (row + 2 * k) 2
  | 4 => w.spad.le (row + k / 4 * 3) 3 / 64 ^ (k % 4) % 64
  | _ => w.spad.le (row + k) 1

/-- Bytes of cellar slice `col` at offset `q`. -/
def Workgroup.cellLe (w : Workgroup) (col q n : Nat) : Nat := w.cell.le (16384 * col + q) n

/-- The exact sum over one block; whether it raises NV (an sNaN, 0 × ∞ or ∞ − ∞, whatever else the block holds: R108);
whether an operand was a NaN. -/
def blockSum (xs : List (FV × FV)) : XV × Bool × Bool :=
  let ps := xs.map fun p => p.1.toX.mul p.2.toX
  (ps.foldl (XV.add false) (.num { neg := false, n := 0 }),
    xs.any (fun p => p.1.isSNan || p.2.isSNan || mulInvalid p.1 p.2) || sumInvalid ps,
    xs.any fun p => p.1.isNan || p.2.isNan)

/-- One accumulation: acc + p × 2^se rounded once to FP32 (R248). -/
def accStep (acc : Nat) (sum : XV × Bool × Bool) (scale : Option Int) : Nat × FFlags :=
  let a := fp32.value acc
  let nv : FFlags := if sum.2.1 || a.isSNan then fNV else 0
  match scale with
  | none => (fp32.nan, nv)
  | some se =>
    if sum.2.2 || a.isNan then (fp32.nan, nv)
    else
      let p : XV := match sum.1 with
        | .num x => .num (if x.n = 0 then { neg := false, n := 0 } else { x with e := x.e + se })
        | y => y
      fp32.deliver 0 false (a.toX.add false p)

/-- The scale of two SE8 bytes: nothing where one of them is 0xFF. -/
def seOf (ea eb : Nat) : Option Int := if ea == 255 || eb == 255 then none else some ((ea : Int) + eb - 254)

/-- One pass of an MMA over 64 rows and 128 columns: accumulator rows from `row`, the A tile at `off`, B bytes at `q`. -/
def Workgroup.mmaPass (w : Workgroup) (sa sb : Slot) (row off q : Nat) : Workgroup × FFlags :=
  let bs := if sa.blockSize == 0 then 32 else sa.blockSize
  let nb := 32 / bs
  let e := sb.bElem
  let as : List (List FV) := (List.range 64).map fun m => (List.range 32).map fun k => sa.decode (w.aElem sa off m k)
  let bss : List (List FV) := (List.range 128).map fun n => (List.range 32).map fun k => sb.decode (w.cellLe n (q + k * e) e)
  (List.range 64).foldl (fun x m =>
    (List.range 128).foldl (fun (x : Workgroup × FFlags) n =>
      let key := 128 * (row + m) + n
      let ar := as.getD m []
      let br := bss.getD n []
      let r := (List.range nb).foldl (fun (y : Nat × FFlags) j =>
        let sum := blockSum (((ar.drop (j * bs)).take bs).zip ((br.drop (j * bs)).take bs))
        let sc := if sa.blockSize == 0 then some 0
          else seOf (w.spad.le (off + 64 * sa.aRow + m * nb + j) 1) (w.cellLe n (q + (32 + j) * e) 1)
        let z := accStep y.1 sum sc
        (z.1, y.2 ||| z.2)) ((Map.look 0 x.1.accum key).toNat, x.2)
      ({ x.1 with accum := Map.put 0 x.1.accum key (BitVec.ofNat 32 r.1) }, r.2)) x) (w, 0)

/-- The passes of an MMA under its count k (R281): accumulator row, A offset and B byte offset of each. -/
def PressOp.passes (p : PressOp) (l : Launch) (sb : Slot) : List (Nat × Nat × Nat) :=
  let q := p.brow * sb.bElem
  (p.row, p.aoff, q) :: (List.range p.k).flatMap fun i =>
    let j := i + 1
    [(p.row + 64 * j, l.planeOff p.aoff j, q), (p.row + 64 * j, p.aoff, q + j * l.cplane)]

/-- The tag of every row that an operation owns. -/
def PressOp.tag (p : PressOp) (v : Nat) (tags : Map Nat) : Map Nat :=
  (List.range (p.k + 1)).foldl (fun t j => (List.range p.count).foldl (fun t i => Map.put 0 t (p.row + 64 * j + i) v) t) tags

/-- What a completed operation does to its workgroup. -/
def PressOp.run (p : PressOp) (l : Launch) (w : Workgroup) : Workgroup × FFlags :=
  if p.mma then
    let sa := l.slotAt p.slot
    let sb := l.slotAt (p.slot + 1)
    let r := (p.passes l sb).foldl (fun (x : Workgroup × FFlags) y =>
      let z := x.1.mmaPass sa sb y.1 y.2.1 y.2.2
      (z.1, x.2 ||| z.2)) (w, 0)
    ({ r.1 with tags := p.tag (p.slot + 1) r.1.tags }, r.2)
  else
    ({ w with
      accum := w.accum.filter fun x => !p.owns (x.1 / 128)
      accBad := w.accBad.filter fun x => !p.owns (x / 128)
      tags := w.tags.filter fun x => !p.owns x.1 }, 0)

/-- Whether an MMA reads poison: a sector of its A tiles, a word of its B rows, or an element of its rows (R378); the
array's row of R376, with INDEX of R381. -/
def PressOp.poison (p : PressOp) (l : Launch) (w : Workgroup) : Option (Nat × Nat) :=
  if !p.mma then none
  else
    let sa := l.slotAt p.slot
    let sb := l.slotAt (p.slot + 1)
    let ps := p.passes l sb
    if ps.any fun x => isPoisoned w.spadBad x.2.1 sa.aBytes then some (3, 0)
    else match (w.cellBad.filter fun b => ps.any fun x =>
        decide (8 * b % 16384 < x.2.2 + (32 + sb.blocks 32) * sb.bElem) && decide (x.2.2 < 8 * b % 16384 + 8)).min? with
      | some b => some (6, b)
      | none => ((w.accBad.map (· / 128)).filter p.owns).min?.map fun row => (5, row)

/-- Cycles of an operation, and its place in a run of T6 passes (R249). -/
def PressOp.cycles (p : PressOp) (l : Launch) (t6 : Nat) : Nat × Nat :=
  if !p.mma then ((p.count + 63) / 64, 0)
  else
    let n := 1 + 2 * p.k
    match (l.slotAt p.slot).fmt with
    | 1 | 2 => (32 * n, 0)
    | 4 => ((List.range n).foldl (fun c i => c + (if (t6 + i) % 3 == 2 then 10 else 11)) 0, t6 + n)
    | _ => (16 * n, 0)

/-- A cellar chunk of a copy that still moves waits for the core's port (R242). -/
def State.portWanted (s : State) (c : CoreSt) : Bool :=
  c.copyWaits.any fun y => let x := (s.core y.1).chan y.2.1; x.st == .move && x.order == y.2.2 && x.paused.isNone

/-- PRESS_OPERATION_START: the head of the queue starts, unless one runs, a cellar chunk waits for the port that an MMA
needs, or the package is frozen (R242, R250, R328). -/
def pressOperationStart (s : State) : State :=
  let core := s.arg.core
  let c := s.core core
  match c.press with
  | [] => s
  | p :: _ =>
    if c.running || (p.mma && s.portWanted c) || s.dbg.frozen then s
    else
      match (s.wg? p.wg).bind fun w => s.launch? w.lid with
      | none => s
      | some l =>
        let t6 := if c.t6At == s.cyc then c.t6 else 0
        let (n, t6) := p.cycles l t6
        s.setCore core { c with running := true, endCyc := s.cyc + n, t6 }

/-- PRESS_OPERATION_COMPLETE: rows are written, flags are ORed and the operation leaves the queue (R248, R252). -/
def pressOperationComplete (s : State) : State :=
  let core := s.arg.core
  let c := s.core core
  match c.press with
  | [] => s
  | p :: rest =>
    if !c.running || decide (s.cyc < c.endCyc) then s
    else
      let s := s.setCore core { c with press := rest, running := false, t6At := s.cyc }
      match s.wg? p.wg with
      | none => s
      | some w =>
        match s.launch? w.lid with
        | none => s
        | some l =>
          match p.poison l w with
          | some (array, index) => if w.life == .killed then s else s.consume p.wg p.grp 0 array 0 p.pc index
          | none =>
            let (w, fl) := p.run l w
            let s := s.putWg w
            if w.life == .killed then s
            else (s.onGroup p.wg p.grp fun g => g.raise fl).raise w.lid fl

def execPressOperationStart (s : State) : Host.Outcome State Fault Refusal := .next (pressOperationStart s)
def execPressOperationComplete (s : State) : Host.Outcome State Fault Refusal := .next (pressOperationComplete s)

/-! ### The meanings -/

def execMma (f : FR) (s : State) : Host.Outcome State Fault Refusal := .next (runWord (.fr 0x2c0 f) bodyMma s)
def execMzero (f : FR) (s : State) : Host.Outcome State Fault Refusal := .next (runWord (.fr 0x2c1 f) bodyMzero s)
def execMfence (f : FR) (s : State) : Host.Outcome State Fault Refusal := .next (runWord (.fr 0x2c2 f) bodyMfence s)
def execMwait (f : FR) (s : State) : Host.Outcome State Fault Refusal := .next (runWord (.fr 0x2c3 f) bodyMwait s)
def execMread (f : FR) (s : State) : Host.Outcome State Fault Refusal := .next (runWord (.fr 0x2c4 f) bodyMread s)
def execMsts (f : FR) (s : State) : Host.Outcome State Fault Refusal := .next (runWord (.fr 0x2c5 f) bodyMsts s)
def execWraccw (f : FR) (s : State) : Host.Outcome State Fault Refusal := .next (runWord (.fr 0x2c6 f) bodyWraccw s)

end Sys2Proof.Machine
end

