-- ==== Sys2Proof/Machine/Copy.lean ====
section
/-! DEFINITION. The copy engine (spec/12_tiles.md R230-R243, spec/08_ordering.md R164-R166, spec/19_memfaults.md R368,
R369, spec/11_queues.md R228): templates, chunks, claims, landing and the end of a copy. -/

namespace Sys2Proof.Machine

/-! ### Templates (R234-R237) -/

/-- A copy: its launch, workgroup, trigger word and template record. -/
structure Copy where
  l : Launch
  w : Workgroup
  word : DWord
  r : List DWord

/-- Bits [lo + n - 1 : lo] of the record's word at offset `off`. -/
def Copy.bits (c : Copy) (off lo n : Nat) : Nat := (c.r.getD (off / 8) 0).toNat / 2 ^ lo % 2 ^ n

def Copy.dims (c : Copy) : Nat := c.bits 0x10 0 3
def Copy.esize (c : Copy) : Nat := 2 ^ c.bits 0x10 3 2
def Copy.kind (c : Copy) : Nat := c.bits 0x10 5 2
def Copy.ssp (c : Copy) : Bool := c.bits 0x10 7 1 == 1
def Copy.conv (c : Copy) : Bool := c.bits 0x10 8 1 == 1
def Copy.ben (c : Copy) : Bool := c.bits 0x10 9 1 == 1
def Copy.bar (c : Copy) : Nat := c.bits 0x10 10 4
def Copy.cohort (c : Copy) : Nat := c.bits 0x10 16 12
/-- BOXd. -/
def Copy.box (c : Copy) (d : Nat) : Nat := if d == 4 then c.bits 0x20 0 16 else c.bits 0x18 (16 * d) 16
/-- SPITCHd and DPITCHd, d = 1 to 4. -/
def Copy.spitch (c : Copy) (d : Nat) : Int := signed 32 (c.bits (0x28 + 8 * ((d - 1) / 2)) (32 * ((d - 1) % 2)) 32)
def Copy.dpitch (c : Copy) (d : Nat) : Int := signed 32 (c.bits (0x38 + 8 * ((d - 1) / 2)) (32 * ((d - 1) % 2)) 32)
/-- SEXTd, d = 1 to 3. -/
def Copy.sext (c : Copy) (d : Nat) : Nat := if d == 3 then c.bits 0x60 0 32 else c.bits 0x58 (32 * (d - 1)) 32
/-- The source coordinate of dimension d at box index 0: ORGd - PADd + FOFFd. -/
def Copy.origin (c : Copy) (d : Nat) : Int :=
  signed 16 (c.bits 0x48 (16 * (d - 1)) 16) + (if d == 3 then 0 else
    (signed 8 (c.bits 0x50 (8 * (d - 1)) 8) - (c.bits 0x48 (48 + 8 * (d - 1)) 8 : Nat)))
def Copy.sbase (c : Copy) : Int :=
  (if c.ssp then (c.bits 0 0 32 : Int) else (c.bits 0 0 64 : Int)) + signed 56 (c.word.toNat % 2 ^ 56) * c.esize
def Copy.dbase (c : Copy) : Int := if c.kind == 1 then (c.bits 8 0 64 : Int) else (c.bits 8 0 32 : Int)

/-- Lowest and highest value of a sum of `i × pitch` over intervals of `i`; nothing where an interval is empty. -/
def span : List (Int × Int × Int) → Option (Int × Int)
  | [] => some (0, 0)
  | (lo, hi, p) :: t =>
    if hi < lo then none
    else (span t).map fun x => (x.1 + min (lo * p) (hi * p), x.2 + max (lo * p) (hi * p))

/-- Interval of a source coordinate that reads memory, in dimension d. -/
def Copy.coords (c : Copy) (d : Nat) : Int × Int :=
  if c.conv && decide (d ≤ 3) then (max 0 (c.origin d), min ((c.sext d : Int) - 1) (c.origin d + c.box d - 1)) else (0, (c.box d : Int) - 1)

/-- Bytes read: the lowest, and the one behind the highest. -/
def Copy.readSpan (c : Copy) : Option (Int × Int) :=
  (span ([1, 2, 3, 4].map fun d => ((c.coords d).1, (c.coords d).2, c.spitch d))).map fun x =>
    (c.sbase + x.1, c.sbase + x.2 + c.box 0 * c.esize)

/-- Bytes written, without dimension 0 for a cellar copy. -/
def Copy.writeSpan (c : Copy) : Int × Int :=
  match span ([1, 2, 3, 4].map fun d => (0, (c.box d : Int) - 1, c.dpitch d)) with
  | some x => (c.dbase + x.1, c.dbase + x.2 + (if c.kind == 2 then c.esize else c.box 0 * c.esize))
  | none => (0, 0)

/-- The checks of R236 on the record. -/
def Copy.wellFormed (c : Copy) : Bool :=
  let e := c.esize
  let zero := c.bits 0x10 28 36 == 0 && c.bits 0x10 14 2 == 0 && c.bits 0x20 16 48 == 0 && c.bits 0x50 16 48 == 0
    && c.bits 0x60 32 32 == 0 && c.bits 0x68 0 64 == 0 && c.bits 0x70 0 64 == 0 && c.bits 0x78 0 64 == 0
  let boxes := (List.range 5).all fun d => if d < c.dims then c.box d != 0 else c.box d == 1 && c.spitch d == 0 && c.dpitch d == 0
  let inSpad (x : Int × Int) : Bool := decide (0 ≤ x.1) && decide (x.2 ≤ c.l.spad)
  let cellar := c.kind != 2 || (decide (c.box 0 ≤ 128) && c.dbase % e == 0 && [1, 2, 3, 4].all fun d => c.dpitch d % e == 0)
  let conv := !c.conv || ((c.ssp || c.kind != 2) && [1, 2, 3].all fun d => c.sext d != 0)
  zero && decide (1 ≤ c.dims) && decide (c.dims ≤ 5) && c.kind != 3 && boxes && cellar && conv
    && (!c.ssp || (match c.readSpan with | some x => inSpad x | none => true))
    && (c.kind != 0 || inSpad c.writeSpan)
    && (c.kind != 2 || (decide (0 ≤ c.writeSpan.1) && decide (c.writeSpan.2 ≤ 1024 * c.l.cell)))

/-! ### Chunks (R238) -/

/-- Pieces of at most 2,048 bytes in one run of dimension 0. -/
def Copy.pieces (c : Copy) : Nat := (c.box 0 * c.esize + 2047) / 2048
def Copy.chunks (c : Copy) : Nat := c.box 1 * c.box 2 * c.box 3 * c.box 4 * c.pieces

/-- A chunk: source and destination of its first byte, its bytes, and whether it is zero-filled. -/
structure Chunk where
  src : Int
  dst : Int
  n : Nat
  fill : Bool

/-- Chunk `k` in box order. -/
def Copy.chunk (c : Copy) (k : Nat) : Chunk :=
  let piece := k % c.pieces
  let j := k / c.pieces
  let i (d : Nat) : Nat := match d with
    | 1 => j % c.box 1
    | 2 => j / c.box 1 % c.box 2
    | 3 => j / (c.box 1 * c.box 2) % c.box 3
    | _ => j / (c.box 1 * c.box 2 * c.box 3)
  let at_ (d : Nat) : Int := if c.conv && decide (d ≤ 3) then c.origin d + i d else i d
  { src := c.sbase + 2048 * piece + [1, 2, 3, 4].foldl (fun a d => a + at_ d * c.spitch d) 0
    dst := c.dbase + 2048 * piece + [1, 2, 3, 4].foldl (fun a d => a + i d * c.dpitch d) 0
    n := min 2048 (c.box 0 * c.esize - 2048 * piece)
    fill := c.conv && [1, 2, 3].any fun d => decide (at_ d < 0) || decide ((c.sext d : Int) ≤ at_ d) }

/-- A run of `n` bytes from `a` cut at multiples of `m`: address, place in the run, length. -/
def cutAt (m a n : Nat) : (fuel : Nat) → List (Nat × Nat × Nat)
  | 0 => []
  | fuel + 1 => if n == 0 then [] else
    let k := min n (m - a % m)
    (a, 0, k) :: (cutAt m (a + k) (n - k) fuel).map fun x => (x.1, x.2.1 + k, x.2.2)

/-- The first element of a run that no range of the launch permits: its VA (R132). A global address sum is taken modulo 2^64;
those of the scratchpad and the cellar do not wrap (R237, log 93). -/
def Copy.violation (c : Copy) (need : Need) (va : Int) (n : Nat) : Option Nat :=
  ((List.range (n / c.esize)).map fun (i : Nat) => (va + (i * c.esize : Nat)) % (2 ^ 64 : Int)).find? (fun a =>
    (c.l.violation need c.esize true a).isSome) |>.map Int.toNat

/-- A run of bytes of the launch's memory cut at lines and at multiples of `m`: IA, place in the run, length. -/
def Copy.global (c : Copy) (m : Nat) (va : Int) (n : Nat) : List (Nat × Nat × Nat) :=
  (cutAt m (va % 2 ^ 64).toNat n (n + 1)).map fun x => (c.l.iaOf x.1, x.2.1, x.2.2)

/-! ### Reading the source (R166, R377, R388) -/

/-- What a source read comes to. -/
inductive Got where
  | wait                               -- a line is held (R165)
  | fault (ia reason : Nat)            -- a page fault (R368)
  | lost (reason ia va : Nat)          -- the copy is abandoned (R369)
  | piece (i ia : Nat) (bs : List (Byte × Bool))   -- one more piece of the source, of one line
  | data (bs : List (Byte × Bool))     -- bytes, each with the poison of its sector

/-- The line is free for this channel: it owns it, or nothing waits at it. -/
def State.freeFor (s : State) (core ch ia : Nat) : Bool :=
  let h := s.home (ia / 128)
  match h.owner with
  | some x => x == .copy core ch
  | none => h.queue.isEmpty || h.queue.all fun r => match r.src with | .claim k c _ => k == core && c == ch | _ => false

/-- The pieces of a chunk's global source that its channel has still to read, each with its place. -/
def State.unread (s : State) (c : Copy) (core ch : Nat) (k : Chunk) : List (Nat × Nat × Nat) :=
  let got := ((s.core core).chan ch).got
  if k.fill || c.ssp then []
  else ((c.global 128 k.src k.n).mapIdx fun i p => (i, p.1, p.2.2)).filter fun p => !got.any fun y => y.1 == p.1

/-- What a chunk's source comes to. A global source is read line by line, each at its home as a load (R166): the unread line that
the event names, else the lowest. -/
def State.sourceBytes (s : State) (c : Copy) (core ch : Nat) (k : Chunk) : Got :=
  if k.fill then .data (List.replicate k.n (0, false))
  else if c.ssp then
    let a := k.src.toNat
    .data ((List.range k.n).map fun i => (c.w.spad.byte (a + i), c.w.spadBad.contains ((a + i) / 16)))
  else
    match c.violation .read k.src k.n with
    | some va => .lost 2 (c.l.iaOf va) va
    | none =>
      let left := s.unread c core ch k
      let dom := some c.l.dom
      match (match left.find? fun p => p.2.1 / 128 == s.arg.line with | some p => some p | none => left.head?) with
      | none =>
        let got := ((s.core core).chan ch).got
        .data ((List.range (c.global 128 k.src k.n).length).flatMap fun i => (Map.get? got i).getD [])
      | some (i, ia, n) =>
        match s.xlatFault ia with
        | some r => .fault ia r
        | none =>
          if !s.freeFor core ch ia || (s.errorAt dom ia).isSome || !s.mayRead dom ia n 0 then .wait
          else
            let key := s.key ia
            let iso := s.cutOff dom ia n
            .piece i ia ((List.range n).map fun j => (s.mem.byte (key + j), iso || s.bad.contains ((key + j) / 16)))

/-- A piece of the source has been read. -/
def State.readPiece (s : State) (c : Copy) (core ch i ia : Nat) (bs : List (Byte × Bool)) : State :=
  let dom := some c.l.dom
  let s := if region ia == .hbm then s.cacheWalk ia false dom else s
  let s := if s.cutOff dom ia bs.length then s.carry dom ia bs.length 0 else (s.carry dom ia bs.length 0).touchL2 dom ia bs.length false
  s.onCore core fun k => let x := k.chan ch; k.setChan ch { x with got := Map.set x.got i bs }

/-! ### Destinations and barriers (R228, R243) -/

/-- The workgroups that a copy writes or signals: its own, or the named members of its cohort. -/
def State.targets (s : State) (c : Copy) : List Workgroup :=
  if c.kind != 2 || c.cohort == 0 then (s.wg? c.w.run).toList
  else
    let e1 := c.l.ext.getD 1 1
    if decide (e1 ≤ 1) then (if c.cohort.testBit 0 then (s.wg? c.w.run).toList else [])
    else s.wgs.filter fun w =>
      w.lid == c.w.lid && w.copy == c.w.copy && w.wgx / e1 == c.w.wgx / e1 && w.wgx % e1 / 12 == c.w.wgx % e1 / 12
        && c.cohort.testBit (w.wgx % e1 % 12) && w.life != .killed && w.life != .retired

/-- Bytes and members counted at the copy's barrier of every destination; a killed owner's copy counts nothing (R353). -/
def State.count (s : State) (c : Copy) (members bytes : Nat) : State :=
  let dead := match s.wg? c.w.run with | some w => w.life == .killed | none => true
  if !c.ben || dead then s else (s.targets c).foldl (fun s w => s.arriveBar w.run c.bar members bytes) s

/-- SIGNAL to IDLE: one member arrives where the template has BEN = 1, and DONE rises (R240). -/
def State.signal (s : State) (c : Copy) (core ch : Nat) : State :=
  (s.count c 1 0).onCore core fun k => k.setChan ch (k.chan ch).finish

/-- The chunks whose lines are all finished count their bytes, in box order (R164, R228, R238). -/
def State.countDue (s : State) (c : Copy) (core ch : Nat) : State :=
  let x := (s.core core).chan ch
  let ready := x.due.takeWhile fun d => d.2.isEmpty
  (ready.foldl (fun s d => s.count c 0 d.1) s).onCore core fun k => k.setChan ch { k.chan ch with due := x.due.drop ready.length }

/-- A chunk is done; its bytes count once the channel owns none of `lines` any more, and after the last chunk the channel goes to
SIGNAL. The copy of a killed owner stops there (R353). -/
def State.chunkDone (s : State) (c : Copy) (core ch : Nat) (bytes : Nat) (lines : List Nat := []) : State :=
  let x := (s.core core).chan ch
  let st := if c.chunks ≤ x.next + 1 then ChanSt.signal else x.st
  let s := (s.onCore core fun k => k.setChan ch { x with
    next := x.next + 1, pending := [], got := [], st, due := x.due ++ [(bytes, lines)] }).countDue c core ch
  match s.wg? c.w.run with
  | some w => if w.life == .killed then s.dropCopy core ch else s
  | none => s

/-! ### Landing (R164, R238, R241, R242) -/

/-- The bytes of a piece with the poison of any of them. -/
def pieceOf (bs : List (Byte × Bool)) (at_ n : Nat) : List Byte × Bool :=
  let x := (bs.drop at_).take n
  (x.map (·.1), x.any (·.2))

/-- A run of bytes at `dst`, cut at sectors: address, bytes, poison. -/
def sectorPieces (dst : Nat) (bs : List (Byte × Bool)) : List (Nat × List Byte × Bool) :=
  (cutAt 16 dst bs.length (bs.length + 1)).map fun p => (p.1, pieceOf bs p.2.1 p.2.2)

/-- One sector of a scratchpad chunk, in one indivisible write of the chunk's bytes (R164). -/
def Workgroup.landSector (w : Workgroup) (p : Nat × List Byte × Bool) : Workgroup :=
  { w with spad := w.spad.write p.1 p.2.1, spadBad := writePoison w.spadBad p.1 p.2.1.length p.2.2 }

/-- A cellar row: element `i` goes to slice `i` at one offset of the allocation. -/
def Workgroup.landCell (w : Workgroup) (e off : Nat) (bs : List (Byte × Bool)) : Workgroup :=
  (List.range (bs.length / e)).foldl (fun w i =>
    let (x, bad) := pieceOf bs (e * i) e
    let a := 16384 * i + off
    { w with
      cell := w.cell.write a x
      cellBad := if bad then union w.cellBad [a / 8] else if e == 8 then w.cellBad.filter (· != a / 8) else w.cellBad }) w

/-- A chunk of a copy whose global destination is held, as held stores in order (R233). -/
def Copy.heldEntries (c : Copy) (grp n0 : Nat) (k : Chunk) (bs : List (Byte × Bool)) : List Held :=
  (c.global 16 k.dst k.n).mapIdx fun i p =>
    let (x, bad) := pieceOf bs p.2.1 p.2.2
    { grp, ia := p.1, size := p.2.2, dat := leNat x, bad, ord := n0 + i }

/-- The cores whose cellar ports a chunk needs. -/
def State.ports (s : State) (c : Copy) : List Nat := union [] ((s.targets c).map (·.core))

/-- Whether the MMA that runs on a core holds its port. -/
def State.portBusy (s : State) (core : Nat) : Bool :=
  let c := s.core core
  c.running && (match c.press with | p :: _ => p.mma | [] => false)

/-- What a chunk of the channel comes to. -/
def State.nextChunk (s : State) (core ch : Nat) : Option (Trigger × Copy × Chunk × Got) :=
  let x := (s.core core).chan ch
  match s.copy? core ch with
  | none => none
  | some (t, w, l) =>
    let c : Copy := { l, w, word := t.word, r := x.record }
    if x.st == .move && x.pending.isEmpty && x.paused.isNone then
      let k := c.chunk x.next
      some (t, c, k, s.sourceBytes c core ch k)
    else none

/-- The copy's destination is held (R233). -/
def Copy.held (c : Copy) : Bool := c.kind == 1 && (c.l.cont || c.l.redn)

/-- A chunk that can move now; other channels do not wait for one that cannot. -/
def State.chunkReady (s : State) (core ch : Nat) : Bool :=
  match s.nextChunk core ch with
  | some (_, c, _, .data bs) =>
    if c.held then decide (s.heldBytes c.l.lid + bs.length ≤ c.l.hold * 65536)
    else c.kind != 2 || !(s.ports c).any s.portBusy
  | some (_, _, _, .wait) | some (_, _, _, .piece ..) | none => false
  | _ => true

/-- The channel's turn in the round robin of R238. -/
def State.chanTurn (s : State) (core ch : Nat) : Bool :=
  let last := (s.core core).lastCh
  let dist (c : Nat) : Nat := (c + 15 - last) % 16
  (List.range 16).all fun c => !(decide (dist c < dist ch) && s.chunkReady core c)

/-- The chunk's bytes at their destination; a scratchpad chunk goes on sector by sector, a global chunk line by line
(ENGINE_LINE_FINISH). -/
def State.landChunk (s : State) (core ch : Nat) (t : Trigger) (c : Copy) (k : Chunk) (bs : List (Byte × Bool)) : State :=
  match c.kind with
  | 0 => s.onCore core fun x => x.setChan ch { x.chan ch with pending := sectorPieces k.dst.toNat bs }
  | 2 =>
    let s := (s.targets c).foldl (fun s w => s.onWg w.run fun w => w.landCell c.esize k.dst.toNat bs) s
    ((s.ports c).foldl (fun s p => s.onCore p fun x => { x with
      copyWaits := x.copyWaits.filter fun y => !(y.1 == core && y.2.1 == ch) }) s).chunkDone c core ch k.n
  | _ =>
    if c.held then
      let hs := c.heldEntries t.grp s.fresh k bs
      (({ s with fresh := s.fresh + hs.length }.countHeld hs).onWg c.w.run fun w =>
        { w with held := w.held ++ hs, heldOver := w.heldOver.filter (· != t.grp) }).chunkDone c core ch k.n
    else
      s.onCore core fun x => x.setChan ch { x.chan ch with pending := (c.global 16 k.dst k.n).map fun p =>
        (p.1, (pieceOf bs p.2.1 p.2.2).1, (pieceOf bs p.2.1 p.2.2).2) }

/-- The next sector of a landing scratchpad chunk; the bytes count after the last one. -/
def State.landNext (s : State) (c : Copy) (core ch : Nat) : State :=
  match ((s.core core).chan ch).pending with
  | [] => s
  | p :: rest =>
    let s := (s.onWg c.w.run fun w => w.landSector p).onCore core fun x => x.setChan ch { x.chan ch with pending := rest }
    if rest.isEmpty then s.chunkDone c core ch (c.chunk ((s.core core).chan ch).next).n else s

/-- The channel takes up its next chunk: it reads a line of its source, or begins to land where it has read them all and its turn
has come. A cellar chunk
waits for the ports of its destinations; a held chunk for the hold reserve. -/
def State.startChunk (s : State) (core ch : Nat) : State :=
  match s.nextChunk core ch with
  | none => s
  | some (_, _, _, .wait) => s
  | some (_, c, _, .piece i ia bs) => s.readPiece c core ch i ia bs
  | some (_, c, _, .fault ia r) => s.pauseCopy core ch 9 r ia (c.l.vaOf ia)
  | some (_, _, _, .lost r ia va) => s.abandon core ch r ia va
  | some (t, c, k, .data bs) =>
    let unmapped := if c.held then (c.global 128 k.dst k.n).findSome? fun p => (s.xlatFault p.1).map fun r => (p.1, r) else none
    if !s.chanTurn core ch then s
    else if unmapped.isSome then match unmapped with | some (ia, r) => s.pauseCopy core ch 10 r ia (c.l.vaOf ia) | none => s
    else if c.held && decide (c.l.hold * 65536 < s.heldBytes c.l.lid + bs.length) then
      s.onWg c.w.run fun w => { w with heldOver := union w.heldOver [t.grp] }
    else if c.kind == 2 && (s.ports c).any s.portBusy then
      let me := (core, ch, ((s.core core).chan ch).order)
      (s.ports c).foldl (fun s p => s.onCore p fun x => { x with copyWaits := x.copyWaits.filter (· != me) ++ [me] }) s
    else
      let s := (s.onCore core fun x => { x with lastCh := ch }).perf core 7 bs.length
      s.landChunk core ch t c k bs

/-- COPY_CHUNK_LAND: a channel in SIGNAL ends its copy, one with a landing scratchpad chunk lands its next sector, another
takes up its next chunk. -/
def State.copyChunkLand (s : State) (core ch : Nat) : State :=
  let x := (s.core core).chan ch
  match s.copy? core ch with
  | none => s
  | some (t, w, l) =>
    let c : Copy := { l, w, word := t.word, r := x.record }
    if x.st == .signal then s.signal c core ch
    else if x.st == .move && c.kind == 0 && !x.pending.isEmpty then s.landNext c core ch
    else s.startChunk core ch

def copyChunkLand (s : State) : State := s.copyChunkLand s.arg.core s.arg.ch

/-! ### Starting a copy (R236, R240) -/

/-- Destination lines with their VAs, ascending. -/
def Copy.destLines (c : Copy) : List (Nat × Nat) :=
  let ls := (List.range c.chunks).foldl (fun (ls : List Nat) k =>
    let x := c.chunk k
    union ls ((c.global 128 x.dst x.n).map fun p => p.1 / 128)) []
  (sortBy (fun a b => decide (a ≤ b)) ls).map fun n => (n, 0)

/-- The first destination element that no range permits. -/
def Copy.destViolation (c : Copy) : Option Nat :=
  (List.range c.chunks).findSome? fun k => let x := c.chunk k; c.violation .write x.dst x.n

/-- The template check fails: the copy moves nothing (R236, R240). -/
def State.startCopy (s : State) (core ch : Nat) (t : Trigger) (w : Workgroup) (l : Launch) (r : List DWord) : State :=
  let c : Copy := { l, w, word := t.word, r }
  if !c.wellFormed then s.abandon core ch 1 0 0
  else
    let put (s : State) (st : ChanSt) (claims : List (Nat × Nat)) : State :=
      s.onCore core fun k => k.setChan ch { k.chan ch with st, record := r, claims, next := 0, claimedW := 0, pending := [] }
    let bad := if c.kind == 1 then c.destViolation else none
    match bad with
    | some va => s.abandon core ch 2 (l.iaOf va) va
    | none =>
      if c.kind == 1 && !c.held then put s .claim c.destLines
      else
        let s := put s .move []
        let s := s.ackTrigger t 0
        s.onCore core fun k => k.setChan ch { k.chan ch with trigs := { t with acked := true } :: (k.chan ch).trigs.drop 1 }

/-- COPY_FETCH: the trigger at the head of the queue is taken, its record read at its home and checked; a poisoned record fails
the check (log 92). Nothing rejects a TTAB that is misaligned or lies outside HBM: the record is read where it points (log 35). -/
def State.copyFetch (s : State) (core ch : Nat) : State :=
  let x := (s.core core).chan ch
  match s.copy? core ch with
  | none => s
  | some (t, w, l) =>
    if !(x.st == .idle || x.st == .fetch) || x.paused.isSome then s
    else
      let tpl := (t.word.extractLsb' 56 8).toNat
      let id := s.fresh
      let s := if x.st == .idle then
          { s with fresh := id + 1 }.onCore core fun k => k.setChan ch { x with st := .fetch, order := id }
        else s
      if l.ntpl ≤ tpl then s.abandon core ch 1 0 0
      else
        let ia := l.iaOf (l.ttab + 128 * tpl)
        match s.xlatFault ia with
        | some why => s.pauseCopy core ch 11 why ia (l.ttab + 128 * tpl)
        | none =>
          let dom := some l.dom
          if !s.freeFor core ch ia || (s.errorAt dom ia).isSome || !s.mayRead dom ia 128 0 then s
          else if s.cutOff dom ia 128 || s.badIA ia 128 then (s.carry dom ia 128 0).abandon core ch 1 ia (l.ttab + 128 * tpl)
          else
            let bs := s.readIA ia 128
            let r := (List.range 16).map fun i => BitVec.ofNat 64 (leNat ((bs.drop (8 * i)).take 8))
            let s := if region ia == .hbm then s.cacheWalk ia false dom else s
            ((s.carry dom ia 128 0).touchL2 dom ia 128 false).startCopy core ch t w l r

def copyFetch (s : State) : State := s.copyFetch s.arg.core s.arg.ch

/-- COPY_CLAIMS_COMPLETE: every line is claimed; the trigger is acknowledged with the latest claim time. -/
def copyClaimsComplete (s : State) : State :=
  let core := s.arg.core
  let ch := s.arg.ch
  let x := (s.core core).chan ch
  match x.trigs with
  | [] => s
  | t :: rest =>
    if x.st != .claim || x.claims.any fun y => y.2 == 0 then s
    else
      (s.ackTrigger t x.claimedW).onCore core fun c => c.setChan ch { x with st := .move, trigs := { t with acked := true } :: rest }

/-! ### Finishing lines (R164, R165, R389) -/

/-- Whether a later chunk of the copy writes the line too. -/
def Copy.later (c : Copy) (next line : Nat) : Bool :=
  (List.range (c.chunks - next)).any fun i => i != 0 && (let x := c.chunk (next + i); (c.global 128 x.dst x.n).any fun p => p.1 / 128 == line)

/-- Pieces of a line written at its home. -/
def State.writeLine (s : State) (dom : Option Nat) (ps : List (Nat × List Byte × Bool)) : State :=
  let s := ps.foldl (fun s p => (s.writeIA p.1 p.2.1 p.2.2).touchL2 dom p.1 p.2.1.length true) s
  if ps.any fun p => region p.1 == .host then s else s.wakeMonitors 1 fun _ q => ps.any fun p => (sectorsOf p.1 p.2.1.length).contains (q.ia / 16)

/-- A copy channel finishes a line of its landing chunk: the line is written, and its owner field is cleared where no later
chunk writes it. The chunk's bytes count once the owner fields of all its lines are cleared (R164, R228, R238). -/
def State.copyLineFinish (s : State) (core ch line : Nat) : State :=
  let x := (s.core core).chan ch
  let mine := x.pending.filter fun p => p.1 / 128 == line
  match s.copy? core ch with
  | none => s
  | some (t, w, l) =>
    let c : Copy := { l, w, word := t.word, r := x.record }
    if mine.isEmpty || c.kind != 1 || (s.home line).owner != some (.copy core ch) || (s.errorAt (some l.dom) (128 * line)).isSome
        || !s.maySend (128 * line) 2 then s
    else
      let s := s.spend (128 * line) 2
      let s := match (s.carrier (128 * line)).filter s.dev.isolated.contains with
        | some port => (s.logDrop port (match mine with | p :: _ => p.1 | [] => 128 * line)).onLaunch l.lid fun l => l.fault (some w.wid0)
        | none =>
          let s := s.writeLine (some l.dom) mine
          if l.det then s.onLaunch l.lid fun l => { l with wrote := union l.wrote (mine.flatMap fun (p : Nat × List Byte × Bool) => sectorsOf p.1 p.2.1.length) } else s
      let rest := x.pending.filter fun p => p.1 / 128 != line
      let s := s.onCore core fun k => k.setChan ch { k.chan ch with pending := rest }
      let s := if c.later x.next line then s else
        ((s.release line (s.homeNow (some l.dom) (128 * line))).onCore core fun k => let y : Channel := k.chan ch; k.setChan ch { y with
          due := y.due.map fun (d : Nat × List Nat) => (d.1, d.2.filter (· != line)) }).countDue c core ch
      let k := c.chunk x.next
      if rest.isEmpty then s.chunkDone c core ch k.n (union [] (((c.global 128 k.dst k.n).map fun p => p.1 / 128).filter (c.later x.next)))
      else s

/-- The NIC finishes a line of a landing slot, every line of which it has claimed (R166, R222); an isolated port drops the
write (R389). -/
def State.nicLineFinish (s : State) (id : Nat) : State :=
  match s.msg? id with
  | none => s
  | some m =>
    let line := m.part.ia / 128
    if (s.home line).owner != some (.nic id) || (s.landing id).any fun x => x.part.st != .served && x.part.st != .done then s
    else
      let t := match (s.carrier m.part.ia).filter s.dev.isolated.contains with
        | some port => s.logDrop port m.part.ia
        | none => s.writeLine none [(m.part.ia, leBytes m.part.size m.part.dat, false)]
      let t := t.release line (s.homeNow none m.part.ia)
      if (s.landing id).isEmpty then { t with msgs := t.msgs.filter fun x => x.id != id }
      else t.onPart (.posted id) fun p => { p with st := .done }

/-- ENGINE_LINE_FINISH: of the copy channel that the argument names, or of the NIC for one of its messages. -/
def engineLineFinish (s : State) : State :=
  match (s.home s.arg.line).owner with
  | some (.nic id) => s.nicLineFinish id
  | _ => s.copyLineFinish s.arg.core s.arg.ch s.arg.line

/-! ### Cycles of held engine reads (R166) -/

/-- The line that a landing of the NIC has next to claim. -/
def State.nextClaim (s : State) (id : Nat) : Option Nat := ((s.landing id).find? fun m => m.part.unapplied).map fun m => m.part.ia / 128

/-- The channel that stands behind a line: its owner, or where the NIC owns it, the channel behind the line that the NIC's
landing waits to claim. -/
def State.behind (s : State) : (fuel : Nat) → Nat → Option (Nat × Nat)
  | 0, _ => none
  | n + 1, line => match (s.home line).owner with
    | some (.copy c k) => some (c, k)
    | some (.nic id) => (s.nextClaim id).bind fun next => s.behind n next
    | none => none

/-- The channel that a channel waits for: the one behind a line that its next source read or claim names. -/
def State.waitsFor (s : State) (core ch : Nat) : Option (Nat × Nat) :=
  let x := (s.core core).chan ch
  let owner (line : Nat) : Option (Nat × Nat) := match s.behind (s.msgs.length + 1) line with
    | some y => if (s.home line).owner == some (.copy core ch) then none else some y
    | none => none
  match s.copy? core ch with
  | none => none
  | some (t, w, l) =>
    match x.st with
    | .claim => (x.claims.find? fun y => y.2 == 0).bind fun y => owner y.1
    | .move =>
      let c : Copy := { l, w, word := t.word, r := x.record }
      let k := c.chunk x.next
      if x.pending.isEmpty then (s.unread c core ch k).findSome? fun p => owner (p.2.1 / 128) else none
    | _ => none

/-- The channels from one on, along the waits, until it is met again; nothing where the chain ends. -/
def State.cycleFrom (s : State) (first : Nat × Nat) : (fuel : Nat) → Nat × Nat → Option (List (Nat × Nat))
  | 0, _ => none
  | n + 1, x =>
    match s.waitsFor x.1 x.2 with
    | none => none
    | some y => if y == first then some [x] else (s.cycleFrom first n y).map fun l => x :: l

/-- COPY_CYCLE_FAULT: the youngest copy of a cycle of held engine reads is abandoned with reason 3. -/
def copyCycleFault (s : State) : State :=
  let me := (s.arg.core, s.arg.ch)
  let age (x : Nat × Nat) : Nat := ((s.core x.1).chan x.2).order
  let reads (x : Nat × Nat) : Bool := ((s.core x.1).chan x.2).st == .move
  match s.cycleFrom me (16 * s.cores.length) me with
  | none => s
  | some xs =>
    if xs.all (fun x => decide (age x ≤ age me)) && xs.any reads then
      match s.copy? me.1 me.2 with
      | some (_, _, l) =>
        let k := (s.nextChunk me.1 me.2).map fun x => x.2.2.1
        let va := match k with | some k => (k.src % 2 ^ 64).toNat | none => 0
        s.abandon me.1 me.2 3 (l.iaOf va) va
      | none => s
    else s

/-! ### The meanings -/

def execCopyFetch (s : State) : Host.Outcome State Fault Refusal := .next (copyFetch s)
def execCopyClaimsComplete (s : State) : Host.Outcome State Fault Refusal := .next (copyClaimsComplete s)
def execCopyChunkLand (s : State) : Host.Outcome State Fault Refusal := .next (copyChunkLand s)
def execEngineLineFinish (s : State) : Host.Outcome State Fault Refusal := .next (engineLineFinish s)
def execCopyCycleFault (s : State) : Host.Outcome State Fault Refusal := .next (copyCycleFault s)

end Sys2Proof.Machine
end

