-- ==== Sys2Proof/Machine/Fp.lean ====
section
/-! DEFINITION. Floating arithmetic with tangents: class 3, packed formats, conversions and transcendentals
(spec/06_numbers.md R115-R129, spec/14_dual.md R276, R277). -/

namespace Sys2Proof.Machine

/-! ### Values with tangents -/

/-- A floating operation on three operands of format `m`: `val` gives the value, `tan` each component from the operands,
their components and whether the value is a NaN. Each raises its own flags (R108). -/
def fop (m : Fmt) (k : Nat) (val : Nat → Nat → Nat → Nat × FFlags)
    (tan : Bool → Nat → Nat → Nat → Nat → Nat → Nat → Nat × FFlags) (a b c : Dual) : Dual × FFlags :=
  let n (x : DWord) : Nat := x.toNat
  let r := val (n a.v) (n b.v) (n c.v)
  let nan := (m.value r.1).isNan
  let ts := (List.range k).map fun j => tan nan (n a.v) (n b.v) (n c.v) (n (a.comp (j + 1))) (n (b.comp (j + 1))) (n (c.comp (j + 1)))
  ({ v := BitVec.ofNat 64 r.1, t := ts.map fun x => BitVec.ofNat 64 x.1 }, ts.foldl (fun f x => f ||| x.2) r.2)

/-- The two 16-bit elements of each component apart, and together again (R120). -/
def Dual.elem (j : Nat) (x : Dual) : Dual :=
  { v := BitVec.ofNat 64 (x.v.toNat / 65536 ^ j % 65536), t := x.t.map fun y => BitVec.ofNat 64 (y.toNat / 65536 ^ j % 65536) }

def Dual.both (x y : Dual) : Dual :=
  { v := x.v ||| y.v <<< 16, t := (List.range x.t.length).map fun j => x.t.getD j 0 ||| y.t.getD j 0 <<< 16 }

/-- An operation on each element of packed operands. -/
def packed (fn : Dual → Dual → Dual → Dual × FFlags) (a b c : Dual) : Dual × FFlags :=
  let x := fn (a.elem 0) (b.elem 0) (c.elem 0)
  let y := fn (a.elem 1) (b.elem 1) (c.elem 1)
  (x.1.both y.1, x.2 ||| y.2)

section
variable (m : Fmt) (k rnd : Nat) (ftz : Bool)

/-- a + b. -/
def fAdd (a b c : Dual) : Dual × FFlags :=
  fop m k (fun a b _ => m.addF rnd ftz a b) (fun nan _ _ _ ta tb _ =>
    tanGuard m nan [m.read ftz ta, m.read ftz tb] fun _ => m.addF rnd ftz ta tb) a b c

/-- a - b. -/
def fSub (a b c : Dual) : Dual × FFlags :=
  fop m k (fun a b _ => m.subF rnd ftz a b) (fun nan _ _ _ ta tb _ =>
    tanGuard m nan [m.read ftz ta, m.read ftz tb] fun _ => m.subF rnd ftz ta tb) a b c

/-- a × b, tangent ta × b + a × tb. -/
def fMul (a b c : Dual) : Dual × FFlags :=
  fop m k (fun a b _ => m.mulF rnd ftz a b) (fun nan a b _ ta tb _ =>
    let rd (x : Nat) := m.read ftz x
    tanGuard m nan [rd ta, rd tb] fun _ =>
      m.deliver rnd ftz (((rd ta).toX.mul (rd b).toX).add (rnd == 3) ((rd a).toX.mul (rd tb).toX))) a b c

/-- a × b + c, tangent ta × b + a × tb + tc. -/
def fFma (a b c : Dual) : Dual × FFlags :=
  fop m k (fun a b c => m.fmaF rnd ftz a b c) (fun nan a b _ ta tb tc =>
    let rd (x : Nat) := m.read ftz x
    tanGuard m nan [rd ta, rd tb, rd tc] fun _ =>
      m.deliver rnd ftz ((((rd ta).toX.mul (rd b).toX).add (rnd == 3) ((rd a).toX.mul (rd tb).toX)).add (rnd == 3) (rd tc).toX)) a b c

/-- a / b, tangent (ta × b - a × tb) / b². -/
def fDiv (a b c : Dual) : Dual × FFlags :=
  fop m k (fun a b _ => m.divF rnd ftz a b) (fun nan a b _ ta tb _ =>
    let rd (x : Nat) := m.read ftz x
    tanGuard m nan [rd ta, rd tb] fun _ =>
      let q := (((rd ta).toX.mul (rd b).toX).add (rnd == 3) ((rd a).toX.mul (rd tb).toX).negate).div ((rd b).toX.mul (rd b).toX)
      let r := m.deliver rnd ftz q.1
      (r.1, r.2 ||| q.2)) a b c

/-- FMIN and FMAX (R117): the tangent of the operand returned, of a for equal operands (R277). Where both are NaNs the component
of a counts as read for NV (log 97). -/
def fMinmax (isMax : Bool) (a b c : Dual) : Dual × FFlags :=
  fop m k (fun a b _ => m.minmaxF isMax ftz a b) (fun nan a b _ ta tb _ =>
    tanMove m ftz nan false (if m.pick isMax (m.flush ftz a) (m.flush ftz b) == 1 then tb else ta)) a b c

def fAbs (a b c : Dual) : Dual × FFlags :=
  fop m k (fun a _ _ => m.absF a) (fun nan a _ _ ta _ _ => tanMove m false nan (decide (m.signBit ≤ a)) ta) a b c

def fNeg (a b c : Dual) : Dual × FFlags :=
  fop m k (fun a _ _ => m.negF a) (fun nan _ _ _ ta _ _ => tanMove m false nan true ta) a b c

def fSgn (a b c : Dual) : Dual × FFlags :=
  fop m k (fun a b _ => m.sgnF a b) (fun nan a b _ ta _ _ =>
    tanMove m false nan (decide (m.signBit ≤ a) != decide (m.signBit ≤ b)) ta) a b c

end

/-- FRND: components +0, or the canonical NaN beside a NaN value (R276). -/
def fRnd (k rnd : Nat) (ftz : Bool) (a b c : Dual) : Dual × FFlags :=
  fop fp32 k (fun a _ _ => frndF rnd ftz a) (fun nan _ _ _ _ _ _ => (if nan then fp32.nan else 0, 0)) a b c

/-- FSAT: the component of a where the result equals a bit for bit, else +0. -/
def fSat (k : Nat) (ftz : Bool) (a b c : Dual) : Dual × FFlags :=
  fop fp32 k (fun a _ _ => fsatF ftz a) (fun _ a _ _ ta _ _ =>
    if (fsatF ftz a).1 == a then tanMove fp32 ftz false false ta else (0, 0)) a b c

/-- HDOT2 (R122), tangent tc + ta0 × b0 + a0 × tb0 + ta1 × b1 + a1 × tb1 into FP32. -/
def fDot2 (m : Fmt) (k rnd : Nat) (ftz : Bool) (a b c : Dual) : Dual × FFlags :=
  fop fp32 k (fun a b c => hdot2F m rnd ftz a b c) (fun nan a b _ ta tb tc =>
    let e (x j : Nat) : FV := m.read ftz (x / 65536 ^ j % 65536)
    let t := fp32.read ftz tc
    tanGuard fp32 nan [e ta 0, e ta 1, e tb 0, e tb 1, t] fun _ =>
      let rm := rnd == 3
      let p (j : Nat) : XV := ((e ta j).toX.mul (e b j).toX).add rm ((e a j).toX.mul (e tb j).toX)
      fp32.deliver rnd ftz (((p 0).add rm (p 1)).add rm t.toX)) a b c

/-- A transcendental of a (R127), with the tangents of R277. -/
def fTrans (fn : TFn) (k : Nat) (ftz : Bool) (a : Dual) : Dual × FFlags :=
  fop fp32 k (fun a _ _ => fn.apply ftz a) (fun _ a _ _ ta _ _ => fn.tangent ftz a ta) a {} {}

/-! ### Words -/

/-- The element format of a packed word. -/
def Ctx.half (c : Ctx) : Fmt := if c.ty == 9 then fp16 else bf16

/-- A floating word: `fn` on the operands of each lane. -/
def Ctx.float (c : Ctx) (fn : Dual → Dual → Dual → Dual × FFlags) : Out :=
  c.lanewise fun i => fn (c.src 0 i) (c.src 1 i) (c.src 2 i)

def bodyFadd (c : Ctx) : Out := c.float (fAdd fp32 c.k c.rnd c.ftz)
def bodyFsub (c : Ctx) : Out := c.float (fSub fp32 c.k c.rnd c.ftz)
def bodyFmul (c : Ctx) : Out := c.float (fMul fp32 c.k c.rnd c.ftz)
def bodyFfma (c : Ctx) : Out := c.float (fFma fp32 c.k c.rnd c.ftz)
def bodyFmin (c : Ctx) : Out := c.float (fMinmax fp32 c.k c.ftz false)
def bodyFmax (c : Ctx) : Out := c.float (fMinmax fp32 c.k c.ftz true)
def bodyFabs (c : Ctx) : Out := c.float (fAbs fp32 c.k)
def bodyFneg (c : Ctx) : Out := c.float (fNeg fp32 c.k)
def bodyFdiv (c : Ctx) : Out := c.float (fDiv fp32 c.k c.rnd c.ftz)
def bodyFrnd (c : Ctx) : Out := c.float (fRnd c.k c.rnd c.ftz)
def bodyFsgn (c : Ctx) : Out := c.float (fSgn fp32 c.k)
def bodyFsat (c : Ctx) : Out := c.float (fSat c.k c.ftz)
/-- FCLASS writes an integer with +0 components (R119, R277). -/
def bodyFclass (c : Ctx) : Out := c.values fun i => BitVec.ofNat 64 (fclassF (c.src 0 i).w.toNat)

/-- FCMP (R118) under the compare field of R83. -/
def bodyFcmp (c : Ctx) : Out :=
  let r (i : Nat) := fp32.cmpF (c.dnum / 16) c.ftz (c.src 0 i).w.toNat (c.src 1 i).w.toNat
  .regs (c.writeMask c.g (c.dnum % 8) c.sh.s fun i => (r i).1) (c.work.foldl (fun f i => f ||| (r i).2) 0)

def bodyHadd2 (c : Ctx) : Out := c.float (packed (fAdd c.half c.k c.rnd c.ftz))
def bodyHsub2 (c : Ctx) : Out := c.float (packed (fSub c.half c.k c.rnd c.ftz))
def bodyHmul2 (c : Ctx) : Out := c.float (packed (fMul c.half c.k c.rnd c.ftz))
def bodyHfma2 (c : Ctx) : Out := c.float (packed (fFma c.half c.k c.rnd c.ftz))
def bodyHmin2 (c : Ctx) : Out := c.float (packed (fMinmax c.half c.k c.ftz false))
def bodyHmax2 (c : Ctx) : Out := c.float (packed (fMinmax c.half c.k c.ftz true))
def bodyHdot2 (c : Ctx) : Out := c.float (fDot2 c.half c.k c.rnd c.ftz)

/-- HCMP2 (R121): element 0 into mN, element 1 into m(N + 1); N = 0 discards both. -/
def bodyHcmp2 (c : Ctx) : Out :=
  let n := c.dnum % 8
  let r (j i : Nat) := c.half.cmpF (c.dnum / 16) c.ftz ((c.src 0 i).elem j).w.toNat ((c.src 1 i).elem j).w.toNat
  let fl := c.work.foldl (fun f i => f ||| (r 0 i).2 ||| (r 1 i).2) 0
  if n == 0 then .regs c.g fl
  else .regs (c.writeMask (c.writeMask c.g n c.sh.s fun i => (r 0 i).1) (n + 1) c.sh.s fun i => (r 1 i).1) fl

/-- CVT (R123): each component converted as the value is (R129). -/
def bodyCvt (c : Ctx) : Out := c.lanewise fun i =>
  let x := c.src 0 i
  let rs := (List.range (c.k + 1)).map fun j => cvtF c.ty c.subn c.rnd c.ftz (c.opx.testBit 0) (x.comp j).toNat
  ({ v := BitVec.ofNat 64 ((rs.map (·.1)).headD 0), t := (rs.drop 1).map fun r => BitVec.ofNat 64 r.1 }, rs.foldl (fun f r => f ||| r.2) 0)

/-- One component of CVTQ in one lane (R124): the element, and under a block the scale byte from the block's selected
lanes (R113). -/
def cvtqLane (s : Slot) (sel : Mask) (xs : Nat → Nat) (i : Nat) : Nat × FFlags :=
  let v := fp32.value (xs i)
  if s.fmt == 0 then fp32.narrow 0 false false v
  else if s.block == 0 then s.encode v
  else
    let n := s.blockSize
    let lanes := (List.range n).map (i / n * n + ·) |>.filter fun j => sel.getLsbD j
    let se := s.blockSe (lanes.map fun j => fp32.value (xs j))
    let r := s.encode (v.scale (-se))
    (r.1 + (se + 127).toNat * 2 ^ 24, r.2)

def bodyCvtq (c : Ctx) : Out :=
  let s := Slot.ofWord (c.l.slot c.subn)
  c.lanewise fun i =>
    let rs := (List.range (c.k + 1)).map fun j => cvtqLane s c.sel (fun l => ((c.src 0 l).comp j).toNat) i
    ({ v := BitVec.ofNat 64 ((rs.map (·.1)).headD 0), t := (rs.drop 1).map fun r => BitVec.ofNat 64 r.1 }, rs.foldl (fun f r => f ||| r.2) 0)

/-- CVTD (R125); each component decodes with its own scale byte (R129). -/
def bodyCvtd (c : Ctx) : Out :=
  let s := Slot.ofWord (c.l.slot c.subn)
  c.lanewise fun i =>
    let x := c.src 0 i
    let rs := (List.range (c.k + 1)).map fun j => s.decodeScaled (x.comp j).toNat
    ({ v := BitVec.ofNat 64 ((rs.map (·.1)).headD 0), t := (rs.drop 1).map fun r => BitVec.ofNat 64 r.1 }, rs.foldl (fun f r => f ||| r.2) 0)

/-- Bit width of a PACK element and its place in the packed word (R126). -/
def packBits (ty : Nat) : Nat := match ty with | 12 => 6 | 2 | 3 | 11 => 8 | _ => 16

/-- PACK of two registers or of two pairs. -/
def packWords (ty : Nat) (a b : DWord) : DWord :=
  let n := packBits ty
  let e (x : Word) (j : Nat) : DWord := BitVec.ofNat 64 (x.toNat % 2 ^ n * 2 ^ (n * j))
  if n == 16 then e (DWord.lo a) 0 ||| e (DWord.lo b) 1
  else e (DWord.lo a) 0 ||| e (DWord.hi a) 1 ||| e (DWord.lo b) 2 ||| e (DWord.hi b) 3

def bodyPack (c : Ctx) : Out := c.lanewise fun i =>
  let a := c.src 0 i
  let b := c.src 1 i
  ({ v := packWords c.ty a.v b.v, t := (List.range c.k).map fun j => packWords c.ty (a.comp (j + 1)) (b.comp (j + 1)) }, 0)

/-- UNPK of element `j`: sign-extended under `.I8` and `.I16`, 0 past the last element. -/
def unpkWord (ty j : Nat) (a : DWord) : DWord :=
  let n := packBits ty
  if (if n == 16 then 1 else 3) < j then 0
  else
    let e := a.toNat / 2 ^ (n * j) % 2 ^ n
    if ty == 2 || ty == 4 then (BitVec.ofInt 32 (asInt n true e)).setWidth 64 else BitVec.ofNat 64 e

def bodyUnpk (c : Ctx) : Out := c.lanewise fun i =>
  let a := c.src 0 i
  let j := (c.src 1 i).w.toNat % 8
  ({ v := unpkWord c.ty j a.v, t := (List.range c.k).map fun n => unpkWord c.ty j (a.comp (n + 1)) }, 0)

def Ctx.trans (c : Ctx) (fn : TFn) : Out := c.long fun i => fTrans fn c.k c.ftz (c.src 0 i)

def bodyExp2 (c : Ctx) : Out := c.trans .exp2
def bodyLog2 (c : Ctx) : Out := c.trans .log2
def bodyRcp (c : Ctx) : Out := c.trans .rcp
def bodyRsqrt (c : Ctx) : Out := c.trans .rsqrt
def bodySqrt (c : Ctx) : Out := c.trans .sqrt
def bodySin (c : Ctx) : Out := c.trans .sin
def bodyCos (c : Ctx) : Out := c.trans .cos
def bodyTanh (c : Ctx) : Out := c.trans .tanh

/-- A key of TOPK: none for a NaN, else an order-preserving integer (R128). -/
def topkKey (ty : Nat) (mag : Bool) (x : Nat) : Option Int :=
  if ty == 8 then
    let v := fp32.value x
    if v.isNan then none
    else if v.isZero then some 0
    else some (if mag then ((x % fp32.signBit : Nat) : Int) else if v.neg then -((x % fp32.signBit : Nat) : Int) else ((x : Nat) : Int))
  else
    let n := asInt 32 (ty == 0) x
    some (if mag then ((n.natAbs : Nat) : Int) else n)

/-- Whether lane `j` with key `y` ranks ahead of lane `i` with key `x`. -/
def topkAhead (j : Nat) (y : Option Int) (i : Nat) (x : Option Int) : Bool :=
  match y, x with
  | some y, some x => decide (x < y) || (y == x && decide (j < i))
  | some _, none => true
  | none, some _ => false
  | none, none => decide (j < i)

def bodyTopk (c : Ctx) : Out :=
  if c.sel == 0 then .regs c.g 0
  else
    let k := min 64 (c.scalar 1).toNat
    let keys : Lanes (Option Int) := Lanes.gen fun i => topkKey c.ty (c.opx.testBit 0) (c.src 0 i).w.toNat
    let rank (i : Nat) : Nat := (c.sel.lanes.filter fun j => topkAhead j (keys.at j) i (keys.at i)).length
    let g := c.writeTo c.g (c.opnd 3) fun i => { v := if rank i < k then BitVec.ofNat 64 (rank i) else 0xFFFFFFFF }
    let nv := c.sel.lanes.any fun i => decide (rank i < k) && (keys.at i).isNone
    .regs (g.setMask c.cnum (Mask.of fun i => c.sel.getLsbD i && decide (rank i < k))) (if nv then fNV else 0)

/-! ### The meanings -/

def execFadd (f : FR) (s : State) : Host.Outcome State Fault Refusal := .next (runWord (.fr 0xc0 f) bodyFadd s)
def execFaddImm (f : FI) (s : State) : Host.Outcome State Fault Refusal := .next (runWord (.fi 0xc0 f) bodyFadd s)
def execFsub (f : FR) (s : State) : Host.Outcome State Fault Refusal := .next (runWord (.fr 0xc1 f) bodyFsub s)
def execFsubImm (f : FI) (s : State) : Host.Outcome State Fault Refusal := .next (runWord (.fi 0xc1 f) bodyFsub s)
def execFmul (f : FR) (s : State) : Host.Outcome State Fault Refusal := .next (runWord (.fr 0xc2 f) bodyFmul s)
def execFmulImm (f : FI) (s : State) : Host.Outcome State Fault Refusal := .next (runWord (.fi 0xc2 f) bodyFmul s)
def execFfma (f : FR) (s : State) : Host.Outcome State Fault Refusal := .next (runWord (.fr 0xc3 f) bodyFfma s)
def execFmin (f : FR) (s : State) : Host.Outcome State Fault Refusal := .next (runWord (.fr 0xc4 f) bodyFmin s)
def execFminImm (f : FI) (s : State) : Host.Outcome State Fault Refusal := .next (runWord (.fi 0xc4 f) bodyFmin s)
def execFmax (f : FR) (s : State) : Host.Outcome State Fault Refusal := .next (runWord (.fr 0xc5 f) bodyFmax s)
def execFmaxImm (f : FI) (s : State) : Host.Outcome State Fault Refusal := .next (runWord (.fi 0xc5 f) bodyFmax s)
def execFabs (f : FR) (s : State) : Host.Outcome State Fault Refusal := .next (runWord (.fr 0xc6 f) bodyFabs s)
def execFneg (f : FR) (s : State) : Host.Outcome State Fault Refusal := .next (runWord (.fr 0xc7 f) bodyFneg s)
def execFcmp (f : FR) (s : State) : Host.Outcome State Fault Refusal := .next (runWord (.fr 0xc8 f) bodyFcmp s)
def execFcmpImm (f : FI) (s : State) : Host.Outcome State Fault Refusal := .next (runWord (.fi 0xc8 f) bodyFcmp s)
def execFdiv (f : FR) (s : State) : Host.Outcome State Fault Refusal := .next (runWord (.fr 0xc9 f) bodyFdiv s)
def execFrnd (f : FR) (s : State) : Host.Outcome State Fault Refusal := .next (runWord (.fr 0xca f) bodyFrnd s)
def execFclass (f : FR) (s : State) : Host.Outcome State Fault Refusal := .next (runWord (.fr 0xcb f) bodyFclass s)
def execFsgn (f : FR) (s : State) : Host.Outcome State Fault Refusal := .next (runWord (.fr 0xcc f) bodyFsgn s)
def execFsat (f : FR) (s : State) : Host.Outcome State Fault Refusal := .next (runWord (.fr 0xcd f) bodyFsat s)
def execHadd2 (f : FR) (s : State) : Host.Outcome State Fault Refusal := .next (runWord (.fr 0x100 f) bodyHadd2 s)
def execHsub2 (f : FR) (s : State) : Host.Outcome State Fault Refusal := .next (runWord (.fr 0x101 f) bodyHsub2 s)
def execHmul2 (f : FR) (s : State) : Host.Outcome State Fault Refusal := .next (runWord (.fr 0x102 f) bodyHmul2 s)
def execHfma2 (f : FR) (s : State) : Host.Outcome State Fault Refusal := .next (runWord (.fr 0x103 f) bodyHfma2 s)
def execHmin2 (f : FR) (s : State) : Host.Outcome State Fault Refusal := .next (runWord (.fr 0x104 f) bodyHmin2 s)
def execHmax2 (f : FR) (s : State) : Host.Outcome State Fault Refusal := .next (runWord (.fr 0x105 f) bodyHmax2 s)
def execHcmp2 (f : FR) (s : State) : Host.Outcome State Fault Refusal := .next (runWord (.fr 0x106 f) bodyHcmp2 s)
def execHdot2 (f : FR) (s : State) : Host.Outcome State Fault Refusal := .next (runWord (.fr 0x107 f) bodyHdot2 s)
def execCvt (f : FR) (s : State) : Host.Outcome State Fault Refusal := .next (runWord (.fr 0x108 f) bodyCvt s)
def execCvtq (f : FR) (s : State) : Host.Outcome State Fault Refusal := .next (runWord (.fr 0x109 f) bodyCvtq s)
def execCvtd (f : FR) (s : State) : Host.Outcome State Fault Refusal := .next (runWord (.fr 0x10a f) bodyCvtd s)
def execPack (f : FR) (s : State) : Host.Outcome State Fault Refusal := .next (runWord (.fr 0x10b f) bodyPack s)
def execUnpk (f : FR) (s : State) : Host.Outcome State Fault Refusal := .next (runWord (.fr 0x10c f) bodyUnpk s)
def execExp2 (f : FR) (s : State) : Host.Outcome State Fault Refusal := .next (runWord (.fr 0x140 f) bodyExp2 s)
def execLog2 (f : FR) (s : State) : Host.Outcome State Fault Refusal := .next (runWord (.fr 0x141 f) bodyLog2 s)
def execRcp (f : FR) (s : State) : Host.Outcome State Fault Refusal := .next (runWord (.fr 0x142 f) bodyRcp s)
def execRsqrt (f : FR) (s : State) : Host.Outcome State Fault Refusal := .next (runWord (.fr 0x143 f) bodyRsqrt s)
def execSqrt (f : FR) (s : State) : Host.Outcome State Fault Refusal := .next (runWord (.fr 0x144 f) bodySqrt s)
def execSin (f : FR) (s : State) : Host.Outcome State Fault Refusal := .next (runWord (.fr 0x145 f) bodySin s)
def execCos (f : FR) (s : State) : Host.Outcome State Fault Refusal := .next (runWord (.fr 0x146 f) bodyCos s)
def execTanh (f : FR) (s : State) : Host.Outcome State Fault Refusal := .next (runWord (.fr 0x147 f) bodyTanh s)
def execTopk (f : FR) (s : State) : Host.Outcome State Fault Refusal := .next (runWord (.fr 0x148 f) bodyTopk s)

end Sys2Proof.Machine
end

