-- ==== Sys2Proof/Machine/Int.lean ====
section
/-! DEFINITION. Integer arithmetic and compare into mask: class 0 (spec/05_catalogue.md R80-R83). Every result has zero
tangents (R96). -/

namespace Sys2Proof.Machine

/-- A source as an integer of the word's type (R80). -/
def Ctx.int (c : Ctx) (fld i : Nat) : Int := asInt (tyWidth c.ty) (tySigned c.ty) (c.src fld i).v.toNat

/-- An exact integer result wrapped or saturated to the word's type and extended to the destination (R80). -/
def Ctx.fit (c : Ctx) (sat : Bool) (x : Int) : DWord := BitVec.ofNat 64 (fitInt (tyWidth c.ty) (tySigned c.ty) sat x)

/-- `.SAT`: OPX [0]. -/
def Ctx.sat (c : Ctx) : Bool := c.opx.testBit 0

/-- Field b or c as the number of a mask, read at one lane. -/
def Ctx.maskBit (c : Ctx) (n i : Nat) : Bool := (c.g.mask n).getLsbD i

def bodyIadd (c : Ctx) : Out := c.values fun i => c.fit c.sat (c.int 0 i + c.int 1 i)
def bodyIsub (c : Ctx) : Out := c.values fun i => c.fit c.sat (c.int 0 i - c.int 1 i)
def bodyIadd3 (c : Ctx) : Out := c.values fun i => c.fit c.sat (c.int 0 i + c.int 1 i + c.int 2 i)
def bodyImul (c : Ctx) : Out := c.values fun i => c.fit false (c.int 0 i * c.int 1 i)
/-- The high W bits of the 2W-bit product. -/
def bodyImulh (c : Ctx) : Out := c.values fun i => c.fit false (c.int 0 i * c.int 1 i / 2 ^ tyWidth c.ty)
/-- The full 64-bit product into the pair d. -/
def bodyImulw (c : Ctx) : Out := c.values fun i => BitVec.ofInt 64 (c.int 0 i * c.int 1 i)
def bodyImad (c : Ctx) : Out := c.values fun i => c.fit c.sat (c.int 0 i * c.int 1 i + c.int 2 i)
def bodyImin (c : Ctx) : Out := c.values fun i => c.fit false (min (c.int 0 i) (c.int 1 i))
def bodyImax (c : Ctx) : Out := c.values fun i => c.fit false (max (c.int 0 i) (c.int 1 i))
def bodyIclamp (c : Ctx) : Out := c.values fun i => c.fit false (min (max (c.int 0 i) (c.int 1 i)) (c.int 2 i))
def bodyIabs (c : Ctx) : Out := c.values fun i => c.fit c.sat (if c.int 0 i < 0 then -c.int 0 i else c.int 0 i)
def bodyIneg (c : Ctx) : Out := c.values fun i => c.fit c.sat (-c.int 0 i)
def bodyIsad (c : Ctx) : Out := c.values fun i =>
  c.fit false ((if c.int 0 i < c.int 1 i then c.int 1 i - c.int 0 i else c.int 0 i - c.int 1 i) + c.int 2 i)
/-- Four 8-bit products of a and b, plus c (R81). -/
def bodyIdot4 (c : Ctx) : Out := c.values fun i =>
  let byte (fld j : Nat) : Int := asInt 8 (tySigned c.ty) ((c.src fld i).v.toNat / 256 ^ j)
  c.fit c.sat (c.int 2 i + (byte 0 0 * byte 1 0 + byte 0 1 * byte 1 1 + byte 0 2 * byte 1 2 + byte 0 3 * byte 1 3))
/-- (a << n) + b with n in OPX. -/
def bodyIshadd (c : Ctx) : Out := c.values fun i => c.fit false (c.int 0 i * 2 ^ c.opx + c.int 1 i)

/-- IADDC and ISUBB (R82): the carry in is a bit of mask c, the carry out is written to the mask OPX. `fn` gives the exact
result and whether it carries. -/
def Ctx.carry (c : Ctx) (fn : Int → Int → Int → Int × Bool) : Out :=
  let at_ (i : Nat) := fn (asInt 32 false (c.src 0 i).v.toNat) (asInt 32 false (c.src 1 i).v.toNat) (if c.maskBit c.cnum i then 1 else 0)
  .regs (c.writeMask (c.writeTo c.g (c.opnd 3) fun i => { v := BitVec.ofInt 64 ((at_ i).1 % 2 ^ 32) }) c.opx c.sh.s fun i => (at_ i).2) 0

def bodyIaddc (c : Ctx) : Out := c.carry fun a b cin => (a + b + cin, decide (2 ^ 32 ≤ a + b + cin))
def bodyIsubb (c : Ctx) : Out := c.carry fun a b cin => (a - b - cin, decide (a - b - cin < 0))

/-- The compare field of R83: d [2:0] the mask, d [6:4] the condition. -/
def bodyIcmp (c : Ctx) : Out :=
  .regs (c.writeMask c.g (c.dnum % 8) c.sh.s fun i => intCond (c.dnum / 16) (c.int 0 i) (c.int 1 i)) 0

/-! ### The meanings -/

def execIadd (f : FR) (s : State) : Host.Outcome State Fault Refusal := .next (runWord (.fr 0x0 f) bodyIadd s)
def execIaddImm (f : FI) (s : State) : Host.Outcome State Fault Refusal := .next (runWord (.fi 0x0 f) bodyIadd s)
def execIsub (f : FR) (s : State) : Host.Outcome State Fault Refusal := .next (runWord (.fr 0x1 f) bodyIsub s)
def execIsubImm (f : FI) (s : State) : Host.Outcome State Fault Refusal := .next (runWord (.fi 0x1 f) bodyIsub s)
def execIaddc (f : FR) (s : State) : Host.Outcome State Fault Refusal := .next (runWord (.fr 0x2 f) bodyIaddc s)
def execIsubb (f : FR) (s : State) : Host.Outcome State Fault Refusal := .next (runWord (.fr 0x3 f) bodyIsubb s)
def execImul (f : FR) (s : State) : Host.Outcome State Fault Refusal := .next (runWord (.fr 0x4 f) bodyImul s)
def execImulImm (f : FI) (s : State) : Host.Outcome State Fault Refusal := .next (runWord (.fi 0x4 f) bodyImul s)
def execImulh (f : FR) (s : State) : Host.Outcome State Fault Refusal := .next (runWord (.fr 0x5 f) bodyImulh s)
def execImulw (f : FR) (s : State) : Host.Outcome State Fault Refusal := .next (runWord (.fr 0x6 f) bodyImulw s)
def execImad (f : FR) (s : State) : Host.Outcome State Fault Refusal := .next (runWord (.fr 0x7 f) bodyImad s)
def execImin (f : FR) (s : State) : Host.Outcome State Fault Refusal := .next (runWord (.fr 0x8 f) bodyImin s)
def execIminImm (f : FI) (s : State) : Host.Outcome State Fault Refusal := .next (runWord (.fi 0x8 f) bodyImin s)
def execImax (f : FR) (s : State) : Host.Outcome State Fault Refusal := .next (runWord (.fr 0x9 f) bodyImax s)
def execImaxImm (f : FI) (s : State) : Host.Outcome State Fault Refusal := .next (runWord (.fi 0x9 f) bodyImax s)
def execIclamp (f : FR) (s : State) : Host.Outcome State Fault Refusal := .next (runWord (.fr 0xa f) bodyIclamp s)
def execIabs (f : FR) (s : State) : Host.Outcome State Fault Refusal := .next (runWord (.fr 0xb f) bodyIabs s)
def execIneg (f : FR) (s : State) : Host.Outcome State Fault Refusal := .next (runWord (.fr 0xc f) bodyIneg s)
def execIsad (f : FR) (s : State) : Host.Outcome State Fault Refusal := .next (runWord (.fr 0xd f) bodyIsad s)
def execIdot4 (f : FR) (s : State) : Host.Outcome State Fault Refusal := .next (runWord (.fr 0xe f) bodyIdot4 s)
def execIadd3 (f : FR) (s : State) : Host.Outcome State Fault Refusal := .next (runWord (.fr 0xf f) bodyIadd3 s)
def execIshadd (f : FR) (s : State) : Host.Outcome State Fault Refusal := .next (runWord (.fr 0x10 f) bodyIshadd s)
def execIcmp (f : FR) (s : State) : Host.Outcome State Fault Refusal := .next (runWord (.fr 0x11 f) bodyIcmp s)
def execIcmpImm (f : FI) (s : State) : Host.Outcome State Fault Refusal := .next (runWord (.fi 0x11 f) bodyIcmp s)

end Sys2Proof.Machine
end

