-- ==== Sys2Proof/Machine/Cross.lean ====
section
/-! DEFINITION. Cross-lane instructions (spec/05_catalogue.md R90-R96). -/

namespace Sys2Proof.Machine

/-- The lane that SHFL reads for lane `i` with operand `b` (R91). -/
def shflLane (mode i b : Nat) : Nat :=
  match mode with
  | 0 => b % 64
  | 1 => if b ≤ i then i - b else i
  | 2 => if i + b ≤ 63 then i + b else i
  | _ => i ^^^ (b % 64)

def bodyShfl (c : Ctx) : Out := c.lanewise fun i => (c.src 0 (shflLane (c.mods 0 2) i (c.src 1 i).w.toNat), 0)
def bodyBcast (c : Ctx) : Out := c.lanewise fun i => (c.src 0 ((c.src 1 i).w.toNat % 64), 0)
def bodyPerm (c : Ctx) : Out := c.lanewise fun i =>
  let b := (c.src 1 i).w
  (c.src (if b.getLsbD 6 then 2 else 0) (b.toNat % 64), 0)

/-- VOTE over the selected lanes of mA into all 64 bits of mD (R92). -/
def bodyVote (c : Ctx) : Out :=
  let bits := c.sel.lanes.map fun i => (c.g.mask c.anum).getLsbD i
  let r := match c.mods 0 2 with
    | 0 => bits.all id
    | 1 => bits.any id
    | 2 => !bits.any id
    | _ => bits.all id || !bits.any id
  .regs (c.writeMask c.g c.dnum true fun _ => r) 0

def bodyBallot (c : Ctx) : Out := c.values fun _ =>
  Mask.of fun i => c.sel.getLsbD i && (c.src 0 i).w != 0

/-- One combining step of a reduction or scan (R90): `x` is the lower-lane operand. -/
def combine (op ty k rnd : Nat) (ftz : Bool) (x y : Dual) : Dual × FFlags :=
  if ty == 8 then
    match op with
    | 0 => fAdd fp32 k rnd ftz x y {}
    | 1 => fMinmax fp32 k ftz false x y {}
    | _ => fMinmax fp32 k ftz true x y {}
  else
    let a := asInt 32 (ty == 0) x.v.toNat
    let b := asInt 32 (ty == 0) y.v.toNat
    (match op with
      | 0 => Dual.ofWord (x.w + y.w)
      | 1 => Dual.ofWord (if b < a then y.w else x.w)
      | 2 => Dual.ofWord (if a < b then y.w else x.w)
      | 3 => Dual.ofWord (x.w &&& y.w)
      | 4 => Dual.ofWord (x.w ||| y.w)
      | _ => Dual.ofWord (x.w ^^^ y.w), 0)

def Ctx.combine (c : Ctx) (x y : Dual) : Dual × FFlags := Machine.combine c.opx c.ty c.k c.rnd c.ftz x y

/-- ident of an exclusive scan (R94). -/
def ident (op ty : Nat) : Word :=
  match op with
  | 1 => if ty == 0 then 0x7FFFFFFF else if ty == 1 then 0xFFFFFFFF else 0x7F800000
  | 2 => if ty == 0 then 0x80000000 else if ty == 1 then 0 else 0xFF800000
  | 3 => 0xFFFFFFFF
  | _ => 0

/-- A tangent of a value that a word reads keeps its components only under floating types; integer results have none (R96). -/
def Ctx.elem (c : Ctx) (i : Nat) : Dual := let x := c.src 0 i; if c.ty == 8 then x else { v := x.v }

/-- A node of the reduction tree with the flags below it: absent where no lane is selected (R93). -/
def Ctx.treeNode (c : Ctx) : Nat → Nat → Option Dual × FFlags
  | 0, i => (if c.sel.getLsbD i then some (c.elem i) else none, 0)
  | n + 1, j =>
    let (x, f) := c.treeNode n (2 * j)
    let (y, h) := c.treeNode n (2 * j + 1)
    match x, y with
    | some x, some y => let (r, e) := c.combine x y; (some r, f ||| h ||| e)
    | some x, none => (some x, f ||| h)
    | none, y => (y, f ||| h)

def bodyRedux (c : Ctx) : Out :=
  let (r, f) := c.treeNode 6 0
  .regs (c.writeTo c.g (c.opnd 3) fun _ => r.getD {}) f

/-- A running scan: its accumulator, the results by lane, the flags (R94, R95). -/
structure Scan where
  acc : Option Dual
  out : Map Dual := []
  seg : Nat := 0
  segs : List (Nat × Nat) := []      -- lane, segment
  flags : FFlags := 0
  deriving DecidableEq, Repr

/-- One lane of a scan. -/
def Ctx.scanStep (c : Ctx) (head excl : Bool) (x : Scan) (i : Nat) : Scan :=
  let acc := if head then none else x.acc
  let seg := if head then x.seg + 1 else x.seg
  let before := acc.getD (Dual.ofWord (ident c.opx c.ty))
  let (incl, f) := match acc with | none => (c.elem i, 0) | some a => c.combine a (c.elem i)
  { acc := some incl, out := x.out ++ [(i, if excl then before else incl)], seg, segs := x.segs ++ [(i, seg)]
    flags := x.flags ||| f }

def Ctx.scan (c : Ctx) (acc : Option Dual) (head : Nat → Bool) (excl : Bool) : Scan :=
  c.sel.lanes.foldl (fun x i => c.scanStep (head i) excl x i) { acc }

/-- EXCL: mod [12]. -/
def Ctx.excl (c : Ctx) : Bool := (c.mods 12 1) == 1

def bodyScan (c : Ctx) : Out :=
  let x := c.scan none (fun _ => false) c.excl
  .regs (c.writeTo c.g (c.opnd 3) fun i => (Map.get? x.out i).getD {}) x.flags

/-- A segmented scan: heads from mask c, the carry in and out of sB (R95). -/
def Ctx.segScan (c : Ctx) (excl : Bool) : Scan :=
  let sb := c.src 1 c.low
  c.scan (some (if c.ty == 8 then sb else { v := sb.v })) (fun i => (c.g.mask c.cnum).getLsbD i) excl

def Ctx.carryOut (c : Ctx) (g : Group) (x : Scan) : Group :=
  if c.sel == 0 then g else g.writeS c.bnum 1 c.l.ktan c.k (x.acc.getD {})

def bodySegscan (c : Ctx) : Out :=
  let x := c.segScan c.excl
  .regs (c.carryOut (c.writeTo c.g (c.opnd 3) fun i => (Map.get? x.out i).getD {}) x) x.flags

/-- SEGRED: every lane of a segment receives the value at the segment's last lane. -/
def bodySegred (c : Ctx) : Out :=
  let x := c.segScan false
  let total (i : Nat) : Dual :=
    let seg := (Map.get? x.segs i).getD 0
    let last := ((x.segs.filter fun p => p.2 == seg).map (·.1)).foldl max 0
    (Map.get? x.out last).getD {}
  .regs (c.carryOut (c.writeTo c.g (c.opnd 3) total) x) x.flags

/-! ### The meanings -/

def execShfl (f : FR) (s : State) : Host.Outcome State Fault Refusal := .next (runWord (.fr 0x180 f) bodyShfl s)
def execVote (f : FR) (s : State) : Host.Outcome State Fault Refusal := .next (runWord (.fr 0x181 f) bodyVote s)
def execBallot (f : FR) (s : State) : Host.Outcome State Fault Refusal := .next (runWord (.fr 0x182 f) bodyBallot s)
def execRedux (f : FR) (s : State) : Host.Outcome State Fault Refusal := .next (runWord (.fr 0x183 f) bodyRedux s)
def execScan (f : FR) (s : State) : Host.Outcome State Fault Refusal := .next (runWord (.fr 0x184 f) bodyScan s)
def execSegscan (f : FR) (s : State) : Host.Outcome State Fault Refusal := .next (runWord (.fr 0x185 f) bodySegscan s)
def execSegred (f : FR) (s : State) : Host.Outcome State Fault Refusal := .next (runWord (.fr 0x186 f) bodySegred s)
def execBcast (f : FR) (s : State) : Host.Outcome State Fault Refusal := .next (runWord (.fr 0x187 f) bodyBcast s)
def execPerm (f : FR) (s : State) : Host.Outcome State Fault Refusal := .next (runWord (.fr 0x188 f) bodyPerm s)

end Sys2Proof.Machine
end

