-- ==== Sys2Proof/Machine/Place.lean ====
section
/-! DEFINITION. Placement of workgroups and their end (spec/02_execution.md R20-R32, spec/15_launch.md R292, R300,
spec/18_traps.md R353, spec/20_reliability.md R380, R386). -/

namespace Sys2Proof.Machine

/-! ### The next unit in order (R20, R27, R30, R300, R303, R380) -/

/-- Workgroups placed at once: WGX, and which run of redundant mode. -/
structure PlaceUnit where
  wgxs : List Nat
  copy : Nat
  fresh : Bool      -- from the launch's order, not placed again
  deriving DecidableEq, Repr

/-- Whether a WGX rolled back by a full reserve may be placed: every lower one has retired (R295). -/
def State.lateReady (s : State) (l : Launch) (wgx : Nat) : Bool :=
  decide (wgx ≤ l.next) && !(s.wgs.any fun w => w.lid == l.lid && decide (w.wgx < wgx))
    && !(l.redo.any fun r => decide (r.1 < wgx)) && !(l.runs.any fun r => decide (r.1 < wgx))

/-- The next unit: one to be placed again first, once all of its cohort have left their contexts, else the next of the
order, which waits while a rolled-back workgroup still leaves its contexts (R380). -/
def State.nextUnit (s : State) (l : Launch) : Option PlaceUnit :=
  match l.redo.find? fun r => !l.late.contains r.1 || s.lateReady l r.1 with
  | some r =>
    let mates := (l.redo.filter fun x => x.2 == r.2 && (l.cohortOf r.1).contains x.1 && !l.late.contains x.1).map (·.1)
    if s.wgs.any fun w => w.lid == l.lid && w.copy == r.2 && w.rolled && (l.cohortOf r.1).contains w.wgx then none
    else some { wgxs := if l.late.contains r.1 then [r.1] else sortBy (fun a b => decide (a ≤ b)) (union [] mates), copy := r.2, fresh := false }
  | none =>
    if s.wgs.any fun w => w.lid == l.lid && w.rolled && !l.late.contains w.wgx then none
    else if l.next < l.limit then some { wgxs := l.cohortOf l.next, copy := 0, fresh := true } else none

/-! ### Where a unit goes -/

/-- Clusters that a run must avoid: those of the workgroup's other runs, and the one that it left by a rollback. Where that
leaves none, the run may go back to the one it left (R380, R386, log 64). -/
def State.forbidden (s : State) (l : Launch) (u : PlaceUnit) : List Nat :=
  let cls := (s.row l.dom).clusters
  let mine := l.avoid.filter fun a => u.wgxs.contains a.1
  let all := mine.map (·.2.2)
  if u.copy == 2 && decide (cls.length < 3) then (mine.filter fun a => a.2.1 == 1).map (·.2.2)
  else if cls.all all.contains then (mine.filter fun a => a.2.1 != u.copy).map (·.2.2)
  else all

/-- Members of a unit fit on a cluster, member j on core j. -/
def State.clusterFit (s : State) (l : Launch) (u : PlaceUnit) (cl : Nat) : Option (List (Nat × Nat × Fit)) :=
  u.wgxs.mapM fun x =>
    let core := 12 * cl + x % l.extent 1 % 12
    (l.fitsWith (s.resident core)).map fun f => (x, core, f)

/-- The cluster of the unit's cohort members that are resident, which a member placed again must join. -/
def State.cohortCluster (s : State) (l : Launch) (u : PlaceUnit) : Option Nat :=
  (s.wgs.find? fun w => w.lid == l.lid && w.copy == u.copy && u.wgxs.any fun x => (l.cohortOf x).contains w.wgx).map (·.core / 12)

/-- The place of a unit: the lowest core, or for a cohort the lowest cluster, of the domain (R30). -/
def State.unitPlace (s : State) (l : Launch) (u : PlaceUnit) : Option (List (Nat × Nat × Fit)) :=
  let bad := s.forbidden l u
  let cls := sortBy (fun a b => decide (a ≤ b)) ((s.row l.dom).clusters.filter fun c => !bad.contains c)
  if l.extent 1 ≤ 1 then
    cls.findSome? fun cl => (List.range 12).findSome? fun i =>
      let core := 12 * cl + i
      (l.fitsWith (s.resident core)).map fun f => u.wgxs.map fun x => (x, core, f)
  else
    let cls := match s.cohortCluster l u with | some c => cls.filter (· == c) | none => cls
    cls.findSome? (s.clusterFit l u)

/-! ### Initial state (R24, R31, R188, R244, R383) -/

def Launch.newGroup (l : Launch) (wgx grp part pool fid cyc : Nat) : Group :=
  let n := min 64 (l.extent 0 - 64 * grp)
  let live := Mask.of fun i => decide (i < n)
  let pc := l.entry &&& ~~~ 7
  let g : Group := {
    grp, part, live
    frags := [(0, { fid, pc, f := live, exec := live, shadow := live, sent := pc - 8, stamp := cyc })]
    wid := Lanes.gen fun i => if i < n then l.widOf wgx (64 * grp + i) else 0
    spos := Lanes.gen fun i => if i < n then BitVec.ofNat 32 (64 * grp + i) else 0
    accb := pool + grp * l.arows, accl := l.arows, readySince := cyc }
  (g.setS 0 0 (DWord.lo l.argp)).setS 1 0 (DWord.hi l.argp)

def State.newWorkgroup (s : State) (l : Launch) (wgx copy core : Nat) (f : Fit) : Workgroup :=
  { run := s.fresh, lid := l.lid, wgx, core, copy, tries := 1 + Map.look 0 l.tries (4 * wgx + copy)
    cellBase := f.cell, poolBase := f.pool
    groups := f.parts.mapIdx fun g p => l.newGroup wgx g p f.pool (s.fresh + 1 + g) s.cyc }

/-! ### WORKGROUP_PLACE -/

/-- The phase of a launch whose last workgroup may have gone (R289). -/
def State.settlePhase (s : State) (lid : Nat) : State :=
  s.onLaunch lid fun l =>
    let gone := !(s.wgs.any fun w => w.lid == lid)
    match l.phase with
    | .placing | .running =>
      let placed := decide (l.limit ≤ l.next) && l.redo.isEmpty
      if placed && gone && l.runs.isEmpty then { l with phase := .completing }
      else if placed then { l with phase := .running } else l
    | .draining => if gone && l.runs.all (fun r => l.killed.contains r.1) then { l with phase := .completing } else l
    | _ => l

/-- The workgroups of a unit come into being. -/
def State.placeUnit (s : State) (l : Launch) (u : PlaceUnit) (xs : List (Nat × Nat × Fit)) : State :=
  let s := xs.foldl (fun s x =>
    let w := s.newWorkgroup l x.1 u.copy x.2.1 x.2.2
    { s with fresh := s.fresh + 1 + w.groups.length, wgs := s.wgs ++ [w] }.divide x.2.1 l.spadsz) s
  let s := s.onLaunch l.lid fun l =>
    let cls := xs.map fun x => (x.1, u.copy, x.2.1 / 12)
    { l with
      next := if u.fresh then l.next + u.wgxs.length else l.next
      redo := (l.redo.filter fun r => !(r.2 == u.copy && u.wgxs.contains r.1)) ++
        (if l.redn && u.fresh then u.wgxs.map fun x => (x, 1) else [])
      late := l.late.filter fun x => !u.wgxs.contains x
      avoid := if l.redn then (l.avoid.filter fun a => !(a.2.1 == u.copy && u.wgxs.contains a.1)) ++ cls else l.avoid
      readyAt := 0 }
  s.settlePhase l.lid

/-- A launch of the domain that takes free resources first is placing and has a workgroup to place (R292). -/
def State.yieldsTo (s : State) (l : Launch) : Bool :=
  s.launches.any fun x => x.lid != l.lid && x.dom == l.dom && x.phase == .placing && (s.nextUnit x).isSome &&
    (decide (x.cls < l.cls) || (x.cls == l.cls && decide (x.order < l.order)))

/-- WORKGROUP_PLACE: the next workgroup or cohort is placed, or the surplus is discarded (R27). Where it does not fit the
launch waits. -/
def workgroupPlace (s : State) : State :=
  match s.launch? s.arg.lid with
  | none => s
  | some l =>
    if !(l.phase == .placing || l.phase == .running) || s.yieldsTo l then s
    else
      match s.nextUnit l with
      | none =>
        if l.phase == .placing && decide (l.limit ≤ l.next) then
          (s.onLaunch l.lid fun l => { l with ndisc := l.ndisc + (l.total - l.next), next := max l.next l.total }).settlePhase l.lid
        else s
      | some u =>
        match s.unitPlace l u with
        | none => if l.readyAt == 0 then s.onLaunch l.lid fun l => { l with readyAt := s.dtime } else s
        | some xs =>
          let s := s.placeUnit l u xs
          match s.launch? l.lid with
          | some l' =>
            if decide (l'.limit ≤ l'.next) && decide (l'.next < l'.total) then
              s.onLaunch l.lid fun l => { l with ndisc := l.ndisc + (l.total - l.next), next := l.total }
            else s
          | none => s

/-! ### WORKGROUP_RETIRE (R32, R173, R219, R233) -/

/-- The lanes of one held store in the sector of one of them, in their order. -/
def sectorLanes (hs : List Held) (h : Held) : List Held :=
  hs.filter fun x => x.store == h.store && x.store != 0 && x.red.isNone && x.trigger.isNone && !x.view && x.spad == h.spad && x.ia / 16 == h.ia / 16

/-- Lanes of one store that cover their sector between them are one write of it (R377). -/
def wholeSector (hs : List Held) (h : Held) : Option Held :=
  let xs := sectorLanes hs h
  let k := h.ia / 16 * 16
  let byte (i : Nat) : Option Nat := xs.foldl (fun b x =>
    if decide (x.ia ≤ k + i) && decide (k + i < x.ia + x.size) then some (x.dat / 256 ^ (k + i - x.ia) % 256) else b) none
  if (List.range 16).all fun i => (byte i).isSome then
    some { h with ia := k, size := 16, dat := (List.range 16).foldl (fun n i => n + (byte i).getD 0 * 256 ^ i) 0 }
  else none

/-- Held data as it goes to its homes: lanes that write a sector whole go as one write, where the first of them stands. -/
def joinHeld (hs : List Held) : List Held :=
  hs.filterMap fun h => match wholeSector hs h with
    | some x => if (sectorLanes hs h).head?.map (·.ord) == some h.ord then some x else none
    | none => some h

/-- Held data sent to its homes in issue order, each RED as a relaxed atomic (R173, R295). -/
def State.bottle (s : State) (lid wgx : Nat) (hs : List Held) : State :=
  (joinHeld hs).foldl (fun s h => s.post (.bottle lid wgx) h.ia (leBytes h.size h.dat) h.red h.comm h.bad h.hint h.fill) s

/-- A launch's bottled stores still on their way. -/
def State.bottling (s : State) (lid : Nat) (wgx : Option Nat) : Bool :=
  s.msgs.any fun m => match m.use_ with
    | MsgUse.bottle l x => l == lid && (match wgx with | some y => x == y | none => true)
    | _ => false

/-- What a workgroup waits for before its contexts are free: accesses, press operations and copies (R32, R353). -/
def State.busyWith (s : State) (w : Workgroup) : Bool :=
  let c := s.core w.core
  (w.groups.any fun g => !g.accs.isEmpty) || (c.press.any fun p => p.wg == w.run)
    || (c.chans.toList.any fun x => x.trigs.any fun t => t.wg == w.run)
    || s.queues.any fun q => q.pushes.any (fun p => p.1 == w.run) || (q.pop.toList ++ q.stale).any fun x => x.1 == w.run

/-- A workgroup leaves the machine: contexts, scratchpad, cellar, rows, pins, barriers, local queues and bindings are
freed; a partition whose slot of this cycle it took stays used (R293). -/
def State.free (s : State) (run : Nat) : State :=
  let took (w : Workgroup) : List Nat := (w.groups.filter fun g => g.issuedAt == some s.cyc).map (·.part)
  let s := match s.wg? run with
    | some w => if (took w).isEmpty then s else s.onCore w.core fun c => { c with
        spent := union (if c.spentAt == s.cyc then c.spent else []) (took w), spentAt := s.cyc }
    | none => s
  { s with
    wgs := s.wgs.filter fun w => w.run != run
    queues := s.queues.filter fun q => match q.key with | .loc r _ => r != run | .mem _ => true }

/-- One entry of a redundant run's stream (R300): IA of the sector, byte mask, 16 data bytes; a RED has its operand and its
operation code in place of the data, each in 8 bytes (log 65). -/
def Held.entry (h : Held) : List Byte :=
  let off := h.ia % 16
  let mask := (List.range h.size).foldl (fun m i => m + 2 ^ (off + i)) 0
  leBytes 8 (h.ia / 16 * 16) ++ leBytes 2 mask ++ (match h.red with
    | some (op, ty) => leBytes 8 h.dat ++ leBytes 8 (op + 8 * ty)
    | none => leBytes 16 (h.dat * 256 ^ off))

def streamHash (hs : List Held) : List Byte := sha384 (hs.flatMap Held.entry)

/-- WORKGROUP_RETIRE: a workgroup whose threads have ended bottles its held stores, and is freed once everything that R32
names has come to its end. A run of redundant mode keeps its stream for the comparison (R300). -/
def workgroupRetire (s : State) : State :=
  match s.wg? s.arg.wg with
  | none => s
  | some w =>
    match s.launch? w.lid with
    | none => s
    | some l =>
      let late := w.groups.any fun g => decide (s.now (coreDie w.core) < g.maxw)
      if w.life != .retiring || s.busyWith w then s
      else if l.cont && !w.held.isEmpty then
        ((s.onWg w.run fun w => { w with held := [] }).reserveFreed l.lid).bottle l.lid w.wgx w.held
      else if late || (l.det && !w.held.isEmpty) || (!l.redn && s.bottling l.lid (some w.wgx))
          || (!l.redn && decide (s.now (coreDie w.core) < l.bottleW)) then s
      else
        let t := s.now (coreDie w.core)
        let s := s.free w.run
        (s.onLaunch l.lid fun l =>
          if l.redn then { l with
            tlast := max l.tlast t, runs := l.runs ++ [(w.wgx, w.copy, streamHash w.held)]
            streams := l.streams ++ [(w.wgx, w.copy, w.held)] }
          else { l with
            tlast := max l.tlast t, ndone := l.ndone + 1, avoid := l.avoid.filter fun a => a.1 != w.wgx
            retired := if l.cont && decide (2 ≤ l.extent 1) then l.retired ++ [w.wgx] else l.retired }).settlePhase l.lid

/-- WORKGROUP_KILL_RELEASE: steps 2 to 4 of R353 are done, and the contexts are freed. A rolled-back run is placed again. -/
def workgroupKillRelease (s : State) : State :=
  match s.wg? s.arg.wg with
  | none => s
  | some w =>
    if w.life != .killed || s.busyWith w then s
    else
      let s := s.free w.run
      let s : State := match s.launch? w.lid with
        | some l => if w.rolled && l.phase == .draining && w.copy == 2 then s.undecided l w.wgx else s
        | none => s
      (s.onLaunch w.lid fun (l : Launch) =>
        if !w.rolled || l.phase == .draining || l.killed.contains w.wgx then
          (if w.rolled && l.phase == .draining then { l with killed := union l.killed [w.wgx] } else l)
        else
          let l := { l with redo := l.redo ++ [(w.wgx, w.copy)], tries := Map.put 0 l.tries (4 * w.wgx + w.copy) w.tries }
          if l.late.contains w.wgx then l
          else { l with avoid := (l.avoid.filter fun a => !(a.1 == w.wgx && a.2.1 == w.copy)) ++ [(w.wgx, w.copy, w.core / 12)] }).settlePhase w.lid

/-! ### HOLD_RESERVE_ROLLBACK (R295) -/

/-- The workgroup is stalled for the hold reserve: one of its groups is, whatever its others do (R295, log 106). -/
def Workgroup.overHold (w : Workgroup) : Bool :=
  !w.heldOver.isEmpty || w.groups.any fun g => g.frags.any fun f => f.2.st == .held

/-- HOLD_RESERVE_ROLLBACK: every running workgroup of the launch waits for the reserve, in which nothing has become free since
they asked; the one of highest WGX is rolled back. -/
def holdReserveRollback (s : State) : State :=
  let ws := s.wgs.filter fun w => w.lid == s.arg.lid && (w.life == .running || w.life == .draining)
  let others := s.wgs.any fun w => w.lid == s.arg.lid && (w.life == .retiring || w.life == .killed)
  match ws with
  | [] => s
  | w :: rest =>
    if others || !ws.all Workgroup.overHold then s
    else
      let top := rest.foldl (fun (b : Workgroup) x => if 4 * b.wgx + b.copy < 4 * x.wgx + x.copy then x else b) w
      (s.rollback top.run false).onLaunch top.lid fun l => { l with late := union l.late [top.wgx] }

/-! ### REDUNDANT_COMPARE (R300, R359, R386) -/

/-- The copy number that marks a workgroup whose runs are settled and whose stream is being bottled. -/
def settledRun : Nat := 3

/-- The workgroup's runs are settled: one stream is bottled, or none. The workgroup counts as retired once that is done
(R173). `mismatch`: the first two runs differ, and a third has decided. -/
def State.settleRuns (s : State) (l : Launch) (wgx : Nat) (stream : Option (List Held)) (mismatch : Bool) : State :=
  let s := if mismatch then s.mismatchRecord l wgx stream.isSome else s
  let s := s.onLaunch l.lid fun l =>
    let l := { l with
      runs := l.runs.filter (·.1 != wgx) ++ [(wgx, settledRun, [])], streams := l.streams.filter (·.1 != wgx)
      avoid := l.avoid.filter (·.1 != wgx), nroll := if mismatch && stream.isSome then l.nroll + 1 else l.nroll }
    if stream.isSome then l else { l.reason 4 with lowwid := lower l.lowwid (l.widOf wgx 0) }
  let s := s.reserveFreed l.lid
  match stream with | some hs => s.bottle l.lid wgx hs | none => s

/-- The settled workgroup retires: its bottled stream is acknowledged, and DTIME has reached its W. -/
def State.retireSettled (s : State) (l : Launch) (wgx : Nat) : State :=
  if s.bottling l.lid (some wgx) || decide (s.now 0 < l.bottleW) then s
  else (s.onLaunch l.lid fun l => { l with
    ndone := l.ndone + 1, runs := l.runs.filter (·.1 != wgx), tlast := max l.tlast (s.now 0) }).settlePhase l.lid

/-- A run of the workgroup's cohort is still under way or to be placed, but for a member that a full reserve has rolled back: the
runs of a cohort are compared when the whole of it has retired (R300, R386). -/
def State.cohortRuns (s : State) (l : Launch) (wgx : Nat) : Bool :=
  (l.cohortOf wgx).any fun x => !l.late.contains x && (s.wgs.any (fun w => w.lid == l.lid && w.wgx == x) || l.redo.any fun r => r.1 == x)

/-- The third run, of the workgroup or of its cohort, ahead of every workgroup not yet placed (R386). -/
def State.thirdRun (s : State) (l : Launch) (wgx : Nat) : State :=
  let mates := (l.cohortOf wgx).filter fun x => (l.hash? x 0).isSome && (l.hash? x 1).isSome
  s.onLaunch l.lid fun l => { l with redo := (mates.map fun x => (x, 2)) ++ l.redo }

/-- REDUNDANT_COMPARE: the hashes of a workgroup's retired runs are compared; a settled workgroup retires. A mismatch of a launch
that drains is left undecided. -/
def redundantCompare (s : State) : State :=
  match s.launch? s.arg.lid with
  | none => s
  | some l =>
    let x := s.arg.wgx
    let stream (c : Nat) : List Held := match l.streams.find? fun r => r.1 == x && r.2.1 == c with | some r => r.2.2 | none => []
    if (l.hash? x settledRun).isSome then s.retireSettled l x
    else if s.cohortRuns l x || l.killed.contains x then s
    else match l.hash? x 0, l.hash? x 1, l.hash? x 2 with
    | some a, some b, c =>
      if a == b then
        if c.isNone && (l.cohortOf x).any (fun y => l.mismatched y && (l.hash? y 2).isNone && !l.killed.contains y) then s
        else s.settleRuns l x (some (stream 0)) false
      else match c with
      | none =>
        if l.phase == .draining then ((s.undecided l x).onLaunch l.lid fun l => { l with killed := union l.killed [x] }).settlePhase l.lid
        else s.thirdRun l x
      | some c =>
        if c == a then s.settleRuns l x (some (stream 0)) true
        else if c == b then s.settleRuns l x (some (stream 1)) true
        else s.settleRuns l x none true
    | _, _, _ => s

/-! ### The meanings -/

def execWorkgroupPlace (s : State) : Host.Outcome State Fault Refusal := .next (workgroupPlace s)
def execWorkgroupRetire (s : State) : Host.Outcome State Fault Refusal := .next (workgroupRetire s)
def execWorkgroupKillRelease (s : State) : Host.Outcome State Fault Refusal := .next (workgroupKillRelease s)
def execHoldReserveRollback (s : State) : Host.Outcome State Fault Refusal := .next (holdReserveRollback s)
def execRedundantCompare (s : State) : Host.Outcome State Fault Refusal := .next (redundantCompare s)

end Sys2Proof.Machine
end

