-- ==== Sys2Proof/Machine/Stream.lean ====
section
/-! DEFINITION. Streams: BECOME, the regroup, racking, chunks and the vat (spec/10_streams.md R188-R202). -/

namespace Sys2Proof.Machine

/-! ### BECOME -/

/-- BECOME: the fragment records each lane's count and sleeps at the regroup (R191). -/
def bodyBecome (c : Ctx) : Out :=
  let n (i : Nat) : Nat := if c.f.exec.getLsbD i then (c.src 0 i).w.toNat else 1
  let big := Mask.of fun i => c.f.f.getLsbD i && decide (2 ^ 24 ≤ n i)
  if big != 0 then .trap 0x0C (BitVec.ofNat 64 (n (c.g.lowLane big))) big
  else
    let ns := (List.range 64).map fun i => if c.f.f.getLsbD i then n i else 0
    .flow (c.s.putGroup c.w.run (c.g.putFrag c.ent { c.f with st := .regroup ns, shadow := c.f.exec })) 0xFFFFFFFF

/-! ### What a child takes from its parent (R194) -/

/-- A parent's per-lane state: WID, its bits of m1-m7, PC and LINK of its children, register `r` of plane `j`, and
whether a register is poisoned. -/
structure Parental where
  wid : DWord
  m : Nat
  pc : DWord
  link : DWord
  reg : Nat → Nat → Word
  bad : Nat → Bool

/-- A parent that still stands in its registers. -/
def Parental.live (g : Group) (f : Frag) (lane : Nat) : Parental :=
  { wid := g.wid.at lane
    m := (List.range 7).foldl (fun m k => if (g.mask (k + 1)).getLsbD lane then m + 2 ^ k else m) 0
    pc := f.pc + 8, link := f.link
    reg := fun r j => (g.v r j).at lane
    bad := fun r => g.badV.contains (64 * r + lane) }

/-- S (R199). -/
def Launch.snapSize (l : Launch) : Nat := 4 * l.vregs * (1 + l.ktan) + 32

/-- A snapshot's bytes (R199). -/
def Parental.bytes (p : Parental) (l : Launch) (first n : Nat) : List Byte :=
  leBytes 8 p.wid.toNat ++ leBytes 8 (p.m * 2 ^ 57 + p.pc.toNat % 2 ^ 57) ++ leBytes 8 (p.link.toNat % 2 ^ 57)
    ++ leBytes 8 (first * 2 ^ 32 + n)
    ++ (List.range (l.ktan + 1)).flatMap fun j => (List.range l.vregs).flatMap fun r => leBytes 4 (p.reg r j).toNat

/-- A parent read back from its snapshot. -/
def Parental.ofBytes (l : Launch) (bs : List Byte) : Parental :=
  let w (i : Nat) : Nat := leNat ((bs.drop (8 * i)).take 8)
  { wid := BitVec.ofNat 64 (w 0), m := w 1 / 2 ^ 57, pc := BitVec.ofNat 64 (w 1 % 2 ^ 57 / 8 * 8)
    link := BitVec.ofNat 64 (w 2 % 2 ^ 57)
    reg := fun r j => BitVec.ofNat 32 (leNat ((bs.drop (32 + 4 * (l.vregs * j + r))).take 4))
    bad := fun _ => false }

/-- A thread of a frame as a regroup sees it: where it stands, the children it has, and what they take. -/
structure Thread where
  grp : Nat
  ent : Nat
  lane : Nat
  pc : DWord
  first : Nat
  n : Nat
  p : Parental

/-- The threads of the active frame in stream order (R189), FIRST still 0. -/
def Workgroup.threads (w : Workgroup) : List Thread :=
  let ts : List (Nat × Thread) := w.groups.flatMap fun g => g.frags.flatMap fun x =>
    match x.2.st with
    | .regroup ns => x.2.f.lanes.map fun i =>
        ((g.spos.at i).toNat, { grp := g.grp, ent := x.1, lane := i, pc := x.2.pc, first := 0, n := ns.getD i 0, p := .live g x.2 i })
    | _ => []
  (sortBy (fun a b => decide (a.1 ≤ b.1)) ts).map (·.2)

/-- FIRST of every thread (R193). -/
def number : Nat → List Thread → List Thread
  | _, [] => []
  | t, x :: xs => { x with first := t } :: number (t + x.n) xs

/-! ### Racking (R195) -/

/-- A child placed in a lane: its SPOS, its parent, its ORD. -/
abbrev Child := Nat × Parental × Nat

/-- The parts of a group's new lanes by continuation PC and LINK, in ascending order of their lowest lane. -/
def rackParts (pick : Nat → Option Child) : List ((DWord × DWord) × Mask) :=
  (List.range 64).foldl (fun ps i =>
    match pick i with
    | none => ps
    | some c =>
      let key := (c.2.1.pc, c.2.1.link)
      if ps.any fun p => p.1 == key then ps.map fun p => if p.1 == key then (key, p.2 ||| Mask.bit i) else p
      else ps ++ [(key, Mask.bit i)]) []

/-- The fragments that the parts give, in entries 0 on. -/
def rackFrags (fid cyc : Nat) (ps : List ((DWord × DWord) × Mask)) : Map Frag :=
  ps.mapIdx fun e p => (e, { fid := fid + e, pc := p.1.1, f := p.2, exec := p.2, shadow := p.2, link := p.1.2
                             sent := p.1.1 - 8, stamp := cyc })

/-- A group with its new lanes (R194, R195, R186, R383). -/
def Group.rack (g : Group) (l : Launch) (fid cyc : Nat) (pick : Nat → Option Child) : Group :=
  let live := Mask.of fun i => (pick i).isSome
  let take {α : Type} (f : Child → α) (old : Lanes α) : Lanes α :=
    Lanes.gen fun i => match pick i with | some c => f c | none => old.at i
  let h := (List.range (l.ktan + 1)).foldl (fun (h : Group) j => (List.range l.vregs).foldl (fun (h : Group) r =>
    h.setV r j (take (fun c => c.2.1.reg r j) (g.v r j))) h) g
  let h := (List.range 7).foldl (fun (h : Group) k => h.setMask (k + 1) (Mask.of fun i =>
    match pick i with | some c => c.2.1.m.testBit k | none => (g.mask (k + 1)).getLsbD i)) h
  { h with
    live, frags := rackFrags fid cyc (rackParts pick), joins := Vector.replicate 8 {}, sig := 0xFFFFFFFF
    wid := take (fun c => c.2.1.wid) g.wid, spos := take (fun c => BitVec.ofNat 32 c.1) g.spos
    ord := take (fun c => BitVec.ofNat 32 c.2.2) g.ord
    badV := (g.badV.filter fun b => !live.getLsbD (b % 64)) ++ live.lanes.flatMap fun i =>
      match pick i with
      | some c => ((List.range l.vregs).filter c.2.1.bad).map fun r => 64 * r + i
      | none => [] }

/-- The child with SPOS `p` among parents (FIRST, N, state). -/
def childAt (ps : List (Nat × Nat × Parental)) (p : Nat) : Option Child :=
  (ps.find? fun x => decide (x.1 ≤ p) && decide (p < x.1 + x.2.1)).map fun x => (p, x.2.2, p - x.1)

/-- Children with SPOS `lo` to `hi` − 1 racked in the workgroup's groups. -/
def State.rack (s : State) (w : Workgroup) (l : Launch) (ps : List (Nat × Nat × Parental)) (lo hi : Nat) : State :=
  let pick (g i : Nat) : Option Child := let p := lo + 64 * g + i; if p < hi then childAt ps p else none
  match w.groups.find? fun g => decide (16 < (rackParts (pick g.grp)).length) with
  | some g =>
    match (List.range 64).findSome? (pick g.grp) with
    | some c =>
      let info := BitVec.ofNat 64 (rackParts (pick g.grp)).length
      (s.killRecord w { g with tcode := 5 } c.2.1.wid (c.2.1.pc - 8) 5 info).kill w.run (some c.2.1.wid)
    | none => s
  | none =>
    let groups := w.groups.map fun g => g.rack l (s.fresh + 16 * g.grp) s.cyc (pick g.grp)
    let s := { s with fresh := s.fresh + 16 * w.groups.length }.onWg w.run fun x => { x with lvl := w.lvl, levels := w.levels, groups }
    groups.foldl (fun s g =>
      match g.frag? 0 with
      | some f => s.trace 6 (f.pc - 8) w.run g.grp 0
      | none => s) s

/-! ### The vat (R197-R199, R365) -/

/-- The VA of the snapshot in slot `q` of level `lv`. -/
def Launch.snapVa (l : Launch) (lv q : Nat) : Nat := l.vat + (lv * (64 * l.ng) + q) * l.snapSize

/-- Lines of a snapshot: IA, offset, length. -/
def Launch.snapLines (l : Launch) (lv q : Nat) : List (Nat × Nat × Nat) :=
  let ia := l.iaOf (l.snapVa lv q)
  let n := l.snapSize
  let first := min n (128 - ia % 128)
  (ia, 0, first) :: ((List.range ((n - first + 127) / 128)).map fun i =>
    (ia + first + 128 * i, first + 128 * i, min 128 (n - first - 128 * i)))

/-- A snapshot's access waits at a home (R157, R165): a line has a request or an owner, or, for a write, a lease. -/
def State.snapHeld (s : State) (l : Launch) (lv q : Nat) (write : Bool) : Bool :=
  (l.snapLines lv q).any fun x =>
    !s.lineFree x.1 || (write && decide (s.homeNow (some l.dom) x.1 < (s.home (x.1 / 128)).h))

/-- An error response answers a snapshot's access: one record, and the workgroup is killed (R370). -/
def State.snapError (s : State) (w : Workgroup) (l : Launch) (lv q : Nat) (wid pc : DWord) (ia reason : Nat) : State :=
  let va := l.snapVa lv q + (ia - l.iaOf (l.snapVa lv q))
  (s.faultRecord l.dom 13 3 reason ia (BitVec.ofNat 64 va) wid 0 pc w.wgx w.core (q / 64) 0 0 false).kill w.run (some wid)

/-- The first snapshot of a list (slot, WID, PC) whose access is answered with an error, with what then happens. -/
def State.snapErrors (s : State) (w : Workgroup) (l : Launch) (lv : Nat) (xs : List (Nat × DWord × DWord)) : Option State :=
  xs.findSome? fun x => (s.spanError (some l.dom) (l.iaOf (l.snapVa lv x.1)) l.snapSize).map fun e =>
    s.snapError w l lv x.1 x.2.1 x.2.2 e.1 e.2

/-- The first line of a snapshot without a valid translation, with the reason. -/
def State.snapFault (s : State) (l : Launch) (lv q : Nat) : Option (Nat × Nat) :=
  (l.snapLines lv q).findSome? fun x =>
    if (s.l2? (x.1 / 128)).isSome then none
    else match s.walk false x.1 with | .error r => some (x.1, r) | .ok _ => none

/-- Page faults of snapshots: one record each (KIND 8), and the regroup waits. `xs`: slot, WID, PC of the BECOME. -/
def State.vatFaults (s : State) (w : Workgroup) (l : Launch) (lv : Nat) (xs : List (Nat × DWord × DWord)) : State :=
  xs.foldl (fun s x =>
    match s.snapFault l lv x.1 with
    | none => s
    | some (ia, r) =>
      let va := l.snapVa lv x.1 + (ia - l.iaOf (l.snapVa lv x.1))
      ((s.countWalk ia false (some l.dom)).faultRecord l.dom 8 0 r ia (BitVec.ofNat 64 va) x.2.1 0 x.2.2 w.wgx w.core (x.1 / 64) 0 0 false).onWg w.run
        fun y => { y with vatFaults := y.vatFaults ++ [(ia, x.2.1)] }) s

def State.writeSnap (s : State) (l : Launch) (lv q : Nat) (bs : List Byte) (bad : Nat → Bool) : State :=
  (l.snapLines lv q).foldl (fun s x =>
    let s := (s.writeIA x.1 ((bs.drop x.2.1).take x.2.2)).touchL2 (some l.dom) x.1 x.2.2 true
    let s := s.wakeMonitors 1 fun _ p => (sectorsOf x.1 x.2.2).contains (p.ia / 16)
    let k := s.key x.1
    let words := (List.range l.vregs).flatMap fun r => if bad r then (List.range (l.ktan + 1)).map fun j => 32 + 4 * (l.vregs * j + r) else []
    { s with bad := union s.bad ((words.filter fun o => decide (x.2.1 ≤ o) && decide (o < x.2.1 + x.2.2)).map fun o => (k + o - x.2.1) / 16) }) s

/-- A snapshot read as the workgroup's own loads read it: memory, under the stores that the workgroup has held since the snapshot
was written (R173, R199). -/
def State.readSnap (s : State) (w : Workgroup) (l : Launch) (lv : Nat) (t : Parent) : List Byte :=
  let hs := if l.holds then w.held.filter fun h => decide (t.ord ≤ h.ord) && !h.view else []
  (l.snapLines lv t.slot).flatMap fun x =>
    (s.readIA x.1 x.2.2).mapIdx fun i b => (overlayByte hs false (x.1 + i)).getD b

/-- The IA of a snapshot's first poisoned sector. -/
def State.snapBad (s : State) (l : Launch) (lv q : Nat) : Option Nat :=
  ((l.snapLines lv q).flatMap fun x => (sectorsOf x.1 x.2.2).map (16 * ·)).find? fun a => s.badIA a 16

/-! ### Chunks and the end of a frame (R198) -/

/-- A regroup reads a poisoned snapshot (R378, R379); array 8, the memory. -/
def State.consumeSnap (s : State) (w : Workgroup) (l : Launch) (t : Parent) (ia : Nat) : State :=
  let roll := (l.cont || l.redn) && decide (w.tries < 3)
  let s := s.errorRecord 8 (if roll then 3 else 4) ia t.wid w.wgx w.core (t.slot / 64) 0 t.pc
  if roll then s.rollback w.run true else s.kill w.run (some t.wid)

/-- The next chunk of the innermost level materialised as the active frame. -/
def State.chunk (s : State) (w : Workgroup) (l : Launch) (v : Level) (rest : List Level) : State :=
  let cap := 64 * l.ng
  let lv := w.lvl - 1
  let lo := v.next * cap
  let hi := min v.total (lo + cap)
  let use_ := v.parents.filter fun t => decide (t.first < hi) && decide (lo < t.first + t.n)
  let ids := use_.map fun t => (t.slot, t.wid, t.pc)
  if use_.any fun t => (s.snapFault l lv t.slot).isSome then s.vatFaults w l lv ids
  else match s.snapErrors w l lv ids with
  | some t => t
  | none =>
    if use_.any fun t => s.snapHeld l lv t.slot false then s
    else match use_.findSome? fun t => (s.snapBad l lv t.slot).map fun a => (t, a) with
    | some (t, a) => s.consumeSnap w l t a
    | none =>
      let ps := use_.map fun t => (t.first, t.n, Parental.ofBytes l (s.readSnap w l lv t))
      let level : Level := { v with next := v.next + 1, parents := v.parents.filter fun t => decide (hi < t.first + t.n) }
      s.rack { w with levels := level :: rest } l ps lo hi

/-- What the last thread's end releases: pins and bindings (R32, log 95). -/
def Workgroup.retires (w : Workgroup) : Workgroup :=
  { w with
    lvl := 0, levels := [], life := .retiring, binds := Vector.replicate 16 none
    groups := w.groups.map fun g => { g with pins := [] } }

/-- The local queues of a workgroup that no operation is still under way in are dropped (R32, log 95). -/
def State.dropLocal (s : State) (run : Nat) : State :=
  let idle (n : Nat) : Bool := let c := s.qctl (.loc run n); c.pushes.isEmpty && c.pop.isNone && c.stale.isEmpty
  { s.onWg run (fun w => { w with locq := Vector.ofFn fun (i : Fin 16) => if idle i then none else w.locq.get i }) with
    queues := s.queues.filter fun q => match q.key with | .loc r n => !(r == run && idle n) | .mem _ => true }

/-- The active frame has ended: the next chunk of the levels below, or the end of the workgroup (R198, R32). -/
def State.endFrame (s : State) (run : Nat) (l : Launch) : List Level → State
  | [] => (s.onWg run Workgroup.retires).dropLocal run
  | v :: rest =>
    match s.wg? run with
    | none => s
    | some w =>
      if v.next * (64 * l.ng) < v.total then s.chunk w l v rest
      else (s.onWg run fun w => { w with lvl := w.lvl - 1, levels := rest }).endFrame run l rest

/-! ### The regroup (R192, R193, R350) -/

/-- A regroup trap: its fragment leaves its sleep (R350). -/
def State.regroupTrap (s : State) (run : Nat) (t : Thread) (code : Nat) (info mask : DWord) : State :=
  s.trap run t.grp t.ent t.pc t.pc code info mask

/-- The first window of 64 positions whose children come from more than 16 PC and LINK pairs: the thread of lowest SPOS
among their parents, and the pairs. A window that holds no parent's first child has one parent. Children of chunk 0, the first
`cap`, take the whole LINK; a later chunk's take the snapshot's bits (R199). -/
def overflow (cap : Nat) (ts : List Thread) : Option (Thread × Nat) :=
  ts.findSome? fun t =>
    let lo := t.first / 64 * 64
    let us := ts.filter fun u => decide (u.first < lo + 64) && decide (lo < u.first + u.n)
    let key (u : Thread) : DWord × DWord := (u.p.pc, if lo < cap then u.p.link else u.p.link &&& 0x1FF_FFFF_FFFF_FFFF)
    let keys := us.foldl (fun ks u => if ks.contains (key u) then ks else ks ++ [key u]) []
    if 16 < keys.length then us.head?.map fun u => (u, keys.length) else none

/-- What R192 waits for in a group that holds live lanes. -/
def Group.settled (g : Group) : Bool :=
  g.emptyV.isEmpty && g.emptyS.isEmpty && !g.accs.any Access.outstanding && g.drained

/-- The threads that stand beyond the sum of R193, if any: the thread and the sum there. -/
def tooMany (ts : List Thread) : Option (Thread × Nat) :=
  (ts.find? fun t => decide (2 ^ 32 ≤ t.first + t.n)).map fun t => (t, t.first + t.n)

/-- The children of the frame computed and placed. -/
def State.regroupNow (s : State) (w : Workgroup) (l : Launch) : State :=
  let cap := 64 * l.ng
  let all := number 0 w.threads
  let total := all.foldl (fun n t => n + t.n) 0
  match tooMany all with
  | some (t, sum) => s.regroupTrap w.run t 0x0D (BitVec.ofNat 64 sum) (Mask.bit t.lane)
  | none =>
    if total == 0 then
      (s.onWg w.run fun x => { x with groups := x.groups.map fun g => { g with frags := [] } }).endFrame w.run l w.levels
    else if cap < total ∧ w.lvl = l.depth then
      match all.head? with
      | none => s
      | some t =>
        let m := match (w.group? t.grp).bind (·.frag? t.ent) with | some f => f.f | none => 0
        s.regroupTrap w.run t 0x0E (fields [(32, total), (0, w.lvl)]) m
    else
      let ts := all.filter fun t => t.n != 0
      match overflow cap ts with
      | some (t, n) => s.regroupTrap w.run t 0x05 (BitVec.ofNat 64 n) (Mask.bit t.lane)
      | none =>
        let ps := ts.map fun t => (t.first, t.n, t.p)
        if total ≤ cap then s.rack w l ps 0 total
        else
          let park := ts.filter fun t => decide (cap < t.first + t.n)
          let lv := w.lvl
          let ids := park.map fun t => (64 * t.grp + t.lane, t.p.wid, t.pc)
          if park.any fun t => (s.snapFault l lv (64 * t.grp + t.lane)).isSome then s.vatFaults w l lv ids
          else match s.snapErrors w l lv ids with
          | some t => t
          | none =>
            if park.any fun t => s.snapHeld l lv (64 * t.grp + t.lane) true then s else
            let s := park.foldl (fun s t => s.writeSnap l lv (64 * t.grp + t.lane) (t.p.bytes l t.first t.n) t.p.bad) s
            let level : Level := { total, next := 1, parents := park.map fun t =>
              { slot := 64 * t.grp + t.lane, first := t.first, n := t.n, wid := t.p.wid, pc := t.pc, ord := s.fresh } }
            s.rack { w with lvl := lv + 1, levels := level :: w.levels } l ps 0 cap

/-- The regroup of a workgroup where R192 lets it start; `atEnd`: a quantum end is under way (R297). It acts as a full
FENCE.GRP (R196), and goes on where a page fault of a snapshot, or a home, made it wait (R365). -/
def State.regroup (s : State) (run : Nat) (atEnd : Bool) : State :=
  match s.wg? run with
  | none => s
  | some w =>
    match s.launch? w.lid with
    | none => s
    | some l =>
      let fs := w.groups.flatMap fun g => g.frags.map (·.2)
      let asleep := fs.all fun f => match f.st with | .regroup _ => true | _ => false
      if !(w.life == .running || w.life == .draining) || (l.det && !atEnd) || !w.vatFaults.isEmpty || !asleep then s
      else if fs.isEmpty then s.endFrame run l w.levels
      else if w.groups.all fun g => g.frags.isEmpty || g.settled then (s.dropUt w.core).regroupNow w l
      else s

/-- REGROUP. -/
def execRegroup (s : State) : Host.Outcome State Fault Refusal := .next (s.regroup s.arg.wg false)

/-! ### The meanings -/

def execBecome (f : FR) (s : State) : Host.Outcome State Fault Refusal := .next (runWord (.fr 0x340 f) bodyBecome s)

end Sys2Proof.Machine
end

