-- ==== Sys2Proof/Machine/Modes.lean ====
section
/-! DEFINITION. Deterministic mode (spec/15_launch.md R296-R298): quantum ends and the turns of synchronising operations;
the urgency prediction (R294). -/

namespace Sys2Proof.Machine

/-! ### Counting at a quantum end (R296) -/

/-- Every fragment of a group sleeps at a JOIN or a regroup. -/
def Group.asleep (g : Group) : Bool :=
  g.frags.all fun x => match x.2.st with | .join .. | .regroup _ => true | _ => false

/-- A group that still runs words. -/
def Group.runs (g : Group) : Bool := !g.frags.isEmpty

/-- A fragment of the group is parked by a page fault: the group is not counted (R367). -/
def Group.parks (g : Group) : Bool := g.frags.any fun x => match x.2.st with | .parked _ => true | _ => false

/-- LCLK as it counts: raised to the next boundary where the group is counted at the quantum end without having reached
it. -/
def Group.clock (g : Group) (q : Nat) : Nat := if g.asleep && !g.atEnd then (g.lclk + q) / q * q else g.lclk

/-- The running workgroups of a launch, in ascending WGX. -/
def State.running (s : State) (lid : Nat) : List Workgroup :=
  sortBy (fun a b => decide (a.wgx ≤ b.wgx)) (s.wgs.filter fun w => w.lid == lid && (w.life == .running || w.life == .draining))

def State.allCounted (s : State) (lid : Nat) : Bool :=
  (s.running lid).all fun w => w.groups.all fun g => !g.runs || ((g.atEnd || g.asleep) && !g.parks)

/-! ### The commit of held data (R297) -/

/-- The entries of a quantum end in their order: the atomic view first, then each group's held data by rank. -/
def State.commitOrder (s : State) (lid : Nat) : List (Nat × Held) :=
  let ws := sortBy (fun a b => decide (a.wgx ≤ b.wgx)) (s.wgs.filter fun w => w.lid == lid && w.life != .killed)
  let byOrd := sortBy (fun (a b : Nat × Held) => decide (a.2.ord ≤ b.2.ord))
  let view := byOrd (ws.flatMap fun w => (w.held.filter (·.view)).map fun h => (w.run, h))
  view ++ ws.flatMap fun w => w.groups.flatMap fun g => byOrd ((w.held.filter fun h => !h.view && h.grp == g.grp).map fun h => (w.run, h))

/-- A copy of a deterministic launch is under way. -/
def State.copying (s : State) (lid : Nat) : Bool :=
  s.cores.any fun c => c.2.chans.toList.any fun x => x.trigs.any fun t =>
    match s.wg? t.wg with | some w => w.lid == lid | none => false

/-- An update of a scratchpad by a held entry. -/
def Workgroup.commitSpad (w : Workgroup) (h : Held) : Workgroup := w.spadWrite h.ia h.size h.dat

/-- One entry committed, with the lanes that write its sector whole with it (R377): a scratchpad write at once, a store or RED on its way to its home, a trigger into its channel
once everything before it is done. Nothing where it has to wait. -/
def State.commitOne (s : State) (lid : Nat) (x : Nat × Held) : Option State :=
  match s.wg? x.1 with
  | none => none
  | some w =>
    let h := x.2
    let whole := if h.view || h.trigger.isSome then none else wholeSector w.held h
    let ords := if whole.isSome then (sectorLanes w.held h).map (·.ord) else [h.ord]
    let h := whole.getD h
    let gone (s : State) : State := s.onWg w.run fun w => { w with held := w.held.filter fun y => !ords.contains y.ord }
    if s.copying lid then none
    else
      match h.trigger with
      | some (ch, word, pc) =>
        if s.bottling lid none || (match s.launch? lid with | some l => decide (s.now (coreDie w.core) < l.bottleW) | none => false)
            || decide (4 ≤ ((s.core w.core).chan ch).trigs.length) then none
        else
          some ((gone s).onCore w.core fun c => c.setChan ch { c.chan ch with
            trigs := (c.chan ch).trigs ++ [{ wg := w.run, grp := h.grp, acc := 0, pc, word, acked := true }] })
      | none =>
        if h.spad then some ((gone s).onWg w.run fun w => w.commitSpad h)
        else
          some (((gone s).bottle lid w.wgx [h]).onLaunch lid fun l => { l with wrote := union l.wrote (sectorsOf h.ia h.size) })

/-- Entries committed up to the first that has to wait. -/
def State.commitAll (s : State) (lid : Nat) : List (Nat × Held) → State
  | [] => s
  | x :: t => match s.commitOne lid x with | some s' => s'.commitAll lid t | none => s

/-- A regroup is to be done at the quantum end: every fragment of the workgroup sleeps at one. -/
def Workgroup.regroupDue (w : Workgroup) : Bool :=
  w.groups.all fun g => g.frags.all fun x => match x.2.st with | .regroup _ => true | _ => false

/-- The end of a quantum end: regroups are done, one that waits for a home among them, UT lines of the launch's cores are dropped, and every group goes on. -/
def State.closeQuantum (s : State) (lid : Nat) (q : Nat) : State :=
  let s := (s.running lid).foldl (fun s w => s.regroup w.run true) s
  if (s.running lid).any fun w => !w.vatFaults.isEmpty || w.regroupDue then s
  else
    let s := (s.running lid).foldl (fun s w => s.dropUt w.core) s
    let next (g : Group) : Group := { g with lclk := g.clock q, atEnd := false, turn := false }
    let all (w : Workgroup) : Workgroup := if w.lid == lid then { w with groups := w.groups.map next } else w
    ({ s with wgs := s.wgs.map all }).onLaunch lid fun l => { l with ending := false }

/-- Work of the group is still under way: a quantum end waits for it, so that what memory holds there, and which regroups may
complete there, does not depend on timing (R297, R299, R367); for its press operations as well. -/
def Group.reading (g : Group) : Bool := !(g.accs.isEmpty && g.longs.isEmpty && g.barvs.isEmpty)

/-- QUANTUM_END: every running group has been counted. Held data is committed in order; the step is repeated while stores,
copies or a page fault of a snapshot make it wait, and the groups go on when all is done. -/
def quantumEnd (s : State) : State :=
  match s.launch? s.arg.lid with
  | none => s
  | some l =>
    let mine := s.wgs.any fun w => w.lid == l.lid && w.life != .killed
    let reading := (s.running l.lid).any fun w => w.groups.any Group.reading || (s.core w.core).press.any fun p => p.wg == w.run
    if !l.det || !mine || !(l.ending || (s.allCounted l.lid && !reading)) then s
    else
      let s := if l.ending then s else s.onLaunch l.lid fun l => { l with ending := true, wrote := [] }
      let s := s.commitAll l.lid (s.commitOrder l.lid)
      let w := match s.launch? l.lid with | some l => l.bottleW | none => 0
      let late := (s.running l.lid).any fun x => decide (s.now (coreDie x.core) < w)
      if !(s.commitOrder l.lid).isEmpty || s.bottling l.lid none || s.copying l.lid || late then s
      else s.closeQuantum l.lid l.quantum

/-! ### SYNC_OPERATION_TURN (R298) -/

/-- An atomic of the group waits for its replay: it comes before every later synchronising operation (R298, R367). -/
def Group.atomWaits (g : Group) : Bool :=
  g.accs.any fun a => (match a.kind with | .atomic _ _ ret _ => ret | _ => false) && a.parts.any fun p => p.st != .done

/-- SYNC_OPERATION_TURN: no running group of the launch has a smaller LCLK, or an equal one and a smaller rank, and no
earlier atomic is unfinished and no earlier BARV still to arrive. -/
def syncOperationTurn (s : State) : State :=
  match s.wg? s.arg.wg, s.group? s.arg.wg s.arg.grp with
  | some w, some g =>
    match s.launch? w.lid with
    | none => s
    | some l =>
      let before (x : Workgroup) (h : Group) : Bool :=
        let c := h.clock l.quantum
        h.runs && (decide (c < g.lclk) || (c == g.lclk && (decide (x.wgx < w.wgx) || (x.wgx == w.wgx && decide (h.grp < g.grp)))))
      if !l.det || l.ending || g.atEnd || (s.running l.lid).any fun x => x.groups.any fun h => before x h || h.atomWaits || !h.barvs.isEmpty then s
      else s.onGroup w.run g.grp fun g => { g with turn := true }
  | _, _ => s

/-! ### URGENCY_PREDICTION (R294) -/

/-- A fragment that may issue its next word: on chip and ready, not suspended by the handler, its group not at a quantum
end. -/
def Group.mayIssue (g : Group) (x : Nat × Frag) : Bool :=
  decide (x.1 < 8) && x.2.st == .ready && !g.atEnd && (match g.trap with | some fid => x.2.fid == fid | none => true)

/-- The group has a fragment that can issue: a ready one, or in the cycle before one whose wait was over (R293). -/
def Group.ready (g : Group) : Bool := g.frags.any g.mayIssue || g.avail

/-- A store of another fragment waits for the hold reserve: it stalls its group (R295). -/
def Group.reserveHold (g : Group) (ent : Nat) : Bool := g.frags.any fun p => p.1 != ent && p.2.st == .held && !g.suspends p.2

/-- A fragment whose word may be tried: on chip, not suspended, and neither asleep nor parked. -/
def Group.mayTry (g : Group) (x : Nat × Frag) : Bool :=
  decide (x.1 < 8) && !g.atEnd && !g.reserveHold x.1 && (match g.trap with | some fid => x.2.fid == fid | none => true) &&
    (match x.2.st with | .ready | .stalled | .reading | .waitc _ | .mwait | .fence | .held | .acquire | .other => true | _ => false)

/-- A fragment that only an event wakes. -/
def Frag.sleeps (f : Frag) : Bool :=
  match f.st with | .join .. | .bwait .. | .regroup _ | .sleep _ | .parked _ | .waitm .. | .queue _ | .yield .. => true | _ => false

/-- A fragment of the reserve that could issue from an on-chip entry: whatever slept there has woken, or a trap suspended it in
the middle of a stall (log 72), and none suspends it now. -/
def Frag.wakes (g : Group) (f : Frag) : Bool :=
  !g.suspends f && (match f.st with
    | .ready | .stalled | .reading | .waitc _ | .mwait | .fence | .held | .other => true
    | .acquire => g.drained
    | _ => false)

/-- Another fragment of the group keeps this one from issuing: the trap handler, a fence, or a store that waits for the hold
reserve (R334, R162, R295). -/
def Group.heldBack (g : Group) (x : Nat × Frag) : Bool := g.suspends x.2 || g.fenceHold x.1 || g.reserveHold x.1

/-- A fragment whose wait ends at a time that the order of issue does not fix: it stalls on an empty register, its word waits to
issue or to return, a page fault parks it, or it sleeps for a time (R296, R299, R367, log 67). -/
def Frag.keeps (f : Frag) : Bool :=
  match f.st with
  | .stalled | .reading | .waitc _ | .mwait | .fence | .held | .acquire | .other | .parked _ | .sleep _ | .yield .. | .queue _ => true
  | _ => false

/-- The fragment that keeps the turn of a group in deterministic mode, by its entry. -/
def Group.keeper (g : Group) : Option Nat := (g.frags.find? fun x => x.2.keeps && !g.suspends x.2).map (·.1)

/-- The on-chip fragment that gives its entry to the fragment in entry `ent` of the reserve: the lowest that sleeps (log 72), in
deterministic mode none that keeps the turn; where none does, the lowest that another holds back, such as one that a trap
suspends, where `ent` itself may issue. -/
def Group.gives (g : Group) (det : Bool) (ent : Nat) : Option (Nat × Frag) :=
  let on (p : Nat × Frag → Bool) : Option (Nat × Frag) := g.frags.find? fun x => decide (x.1 < 8) && p x
  match on fun x => x.2.sleeps && !(det && x.2.keeps && !g.suspends x.2) with
  | some x => some x
  | none => if (g.frags.find? fun x => x.1 == ent).any g.heldBack then none else on g.heldBack

/-- A fragment of the reserve is to move, the lowest, before the group issues in deterministic mode (R296). -/
def Group.swapDue (g : Group) : Option Nat :=
  let free := (List.range 8).any fun e => (g.frag? e).isNone
  (g.frags.find? fun x => decide (8 ≤ x.1) && x.2.wakes g && (free || (g.gives true x.1).isSome)).map (·.1)

/-- The fragment that issues: in deterministic mode the ready one in the lowest entry, unless another keeps the turn (R296);
else by R176 the one that has waited longest since it issued or came into being, the lower entry of a tie. -/
def Group.pick (g : Group) (det : Bool) : Option (Nat × Frag) :=
  if det then (if g.keeper.isSome then none else g.frags.find? g.mayIssue)
  else (g.frags.filter g.mayIssue).foldl (fun (b : Option (Nat × Frag)) x =>
    match b with
    | none => some x
    | some y => if x.2.stamp < y.2.stamp then some x else b) none

/-- A fragment whose word may be tried, by the order of issue in deterministic mode (R296). -/
def Group.mayGo (g : Group) (det : Bool) (x : Nat × Frag) : Bool :=
  g.mayTry x && (!det || (g.swapDue.isNone && (match g.keeper with
    | some e => e == x.1
    | none => (g.pick true).map (·.1) == some x.1)))

/-- The workgroup's launch is in deterministic mode. -/
def State.detOf (s : State) (w : Workgroup) : Bool := match s.launch? w.lid with | some l => l.det | none => false

/-- The ready group that has retired the fewest words; the lowest GRP of a tie. -/
def Workgroup.slowest (w : Workgroup) : Option Nat :=
  ((w.groups.filter Group.ready).foldl (fun (b : Option Group) g =>
    match b with
    | none => some g
    | some x => if g.retired < x.retired ∨ (g.retired = x.retired ∧ g.grp < x.grp) then some g else b) none).map (·.grp)

/-- URGENCY_PREDICTION, every 256 cycles: one group of every workgroup on the core is urgent. -/
def urgencyPrediction (s : State) : State :=
  if s.cyc / 256 == (s.core s.arg.core).pred then s
  else
    let wgs := s.wgs.map fun w =>
      if w.core == s.arg.core then { w with groups := w.groups.map fun g => { g with urgent := w.slowest == some g.grp } } else w
    { s with wgs }.onCore s.arg.core fun c => { c with pred := s.cyc / 256 }

/-! ### The meanings -/

def execQuantumEnd (s : State) : Host.Outcome State Fault Refusal := .next (quantumEnd s)
def execSyncOperationTurn (s : State) : Host.Outcome State Fault Refusal := .next (syncOperationTurn s)
def execUrgencyPrediction (s : State) : Host.Outcome State Fault Refusal := .next (urgencyPrediction s)

end Sys2Proof.Machine
end

