-- ==== Sys2Proof/Machine/Faults.lean ====
section
/-! DEFINITION. Resolution and replay of page faults, error responses, and translation changes (spec/19_memfaults.md
R364-R371, spec/07_memory.md R136, R137, spec/13_gather.md R268). -/

namespace Sys2Proof.Machine

/-! ### FAULT_RESOLVE (R364, R365, R367, R368) -/

/-- Whether an IA lies in the span of a command: 64 KiB, or 2 MiB. -/
def inSpan (ia : Nat) (large : Bool) (x : Nat) : Bool :=
  let n := if large then 2 ^ 21 else 65536
  ia / n == x / n

/-- The pending faults that a command names: IA, workgroup index and core of each fault of a named entry. Those of a killed
workgroup are withdrawn (R364). -/
def State.pendingIn (s : State) (ia : Nat) (large : Bool) : List (Nat × Nat × Nat) :=
  (s.wgs.flatMap fun w => if w.life == .killed then [] else
    (w.groups.flatMap fun g => (g.accs.filter fun a => a.parts.any fun p => p.faultOf.isSome && inSpan ia large p.ia).flatMap fun a =>
      (a.parts.filter fun p => p.faultOf.isSome).map fun p => (p.ia, w.wgx, w.core))
    ++ (w.vatFaults.filter fun v => inSpan ia large v.1).map fun v => (v.1, w.wgx, w.core))
  ++ s.cores.flatMap fun c => (List.range 16).filterMap fun ch =>
    let x := c.2.chan ch
    match x.paused, x.trigs with
    | some (_, i, _), t :: _ => if inSpan ia large i then (s.wg? t.wg).map fun w => (i, w.wgx, w.core) else none
    | _, _ => none

/-- The service firmware's log takes the disposition of the records of named faults: 1 replayed, 2 aborted (R363). -/
def State.dispose (s : State) (disp ia : Nat) (large : Bool) : State :=
  let named := s.pendingIn ia large
  let hit (r : List DWord) : Bool :=
    let w := r.getD 1 0
    let p := r.getD 6 0
    (w.extractLsb' 56 4).toNat == 0 && decide ((w.extractLsb' 60 4).toNat ≤ 11) &&
      named.any fun x => (w.extractLsb' 0 52).toNat == x.1 % 2 ^ 52 && (p.extractLsb' 32 32).toNat == x.2.1 &&
        (p.extractLsb' 30 2).toNat * 144 + (p.extractLsb' 26 4).toNat * 12 + (p.extractLsb' 22 4).toNat == x.2.2
  let mark (x : Nat × List DWord) : Nat × List DWord :=
    if hit x.2 then (x.1, x.2.set 1 (x.2.getD 1 0 ||| BitVec.ofNat 64 (disp * 2 ^ 56))) else x
  { s with logs := { s.logs with faults := s.logs.faults.map mark } }

/-- The replay entries with a fault in the span are to be sent again; paused channels and waiting regroups go on. -/
def State.resolveReplay (s : State) (ia : Nat) (large : Bool) : State :=
  let s := s.dispose 1 ia large
  let mark (a : Access) : Access :=
    if a.parts.any fun p => p.faultOf.isSome && inSpan ia large p.ia then { a with replay := true } else a
  let wake (x : Channel) : Channel := match x.paused with
    | some (_, i, _) => if inSpan ia large i then { x with paused := none } else x
    | none => x
  { s with
    wgs := s.wgs.map fun w => { w with
      vatFaults := w.vatFaults.filter fun v => !inSpan ia large v.1
      groups := w.groups.map fun g => { g with accs := g.accs.map mark } }
    cores := s.cores.map fun c => (c.1, { c.2 with chans := c.2.chans.map wake }) }

/-- The lowest WID of an access's unfinished lanes in the span. -/
def Group.faultWid (g : Group) (ia : Nat) (large : Bool) (a : Access) : Option DWord :=
  if a.parts.any fun p => p.faultOf.isSome && inSpan ia large p.ia then some (g.wid.at (g.lowLane a.unfinished)) else none

/-- The workgroups that own a fault of the span, each with the WIDs of its records. -/
def State.faultOwners (s : State) (ia : Nat) (large : Bool) : List (Nat × DWord) :=
  s.wgs.flatMap fun w =>
    if w.life == .killed then [] else
      (w.groups.flatMap fun g => g.accs.filterMap fun a => (g.faultWid ia large a).map fun d => (w.run, d))
        ++ (w.vatFaults.filter fun v => inSpan ia large v.1).map fun v => (w.run, v.2)

/-- Copies paused at a fault of the span are abandoned (R369 reason 4). -/
def State.abandonPaused (s : State) (ia : Nat) (large : Bool) : State :=
  s.cores.foldl (fun s c => (List.range 16).foldl (fun s ch =>
    match ((s.core c.1).chan ch).paused with
    | some (_, i, _) =>
      if inSpan ia large i then
        let va := match s.copy? c.1 ch with | some (_, _, l) => l.vaOf i | none => 0
        s.abandon c.1 ch 4 i va
      else s
    | none => s) s) s

/-- The issues with a fault in the span whose records are still due, since other lanes have not settled: an abort writes them,
which stand in the place of kill records (R364). -/
def State.recordNamed (s : State) (ia : Nat) (large : Bool) : State :=
  let due := s.wgs.flatMap fun w => if w.life == .killed then [] else w.groups.flatMap fun g =>
    (g.accs.filter fun a => !a.recorded && (g.faultWid ia large a).isSome).map fun a => Src.lane w.run g.grp a.id 0
  due.foldl (fun s x => match s.lane? x with | some r => s.recordIssue r 0 | none => s) s

/-- The workgroups that own a named fault are killed. -/
def State.resolveAbort (s : State) (ia : Nat) (large : Bool) : State :=
  let s := (s.recordNamed ia large).dispose 2 ia large
  let owners := s.faultOwners ia large
  let s := owners.foldl (fun s o => (match s.wg? o.1 with
    | some w => s.onLaunch w.lid fun l => l.fault (some o.2)
    | none => s).kill o.1 (some o.2)) s
  s.abandonPaused ia large

/-- A command given during a freeze takes effect at resume (R367). -/
def State.resolve (s : State) (abort : Bool) (ia : Nat) (large : Bool) : State :=
  if !s.serviceRuns then s
  else if s.dbg.frozen then { s with dbg := { s.dbg with deferred := s.dbg.deferred ++ [(abort, ia, large)] } }
  else if abort then s.resolveAbort ia large
  else s.resolveReplay ia large

def faultResolveReplay (s : State) : State := s.resolve false s.arg.ia s.arg.flag
def faultResolveAbort (s : State) : State := s.resolve true s.arg.ia s.arg.flag

/-- A parked fragment whose access has no fault left tries its word again. -/
def Group.unpark (g : Group) (acc : Nat) : Group :=
  g.frags.foldl (fun (g : Group) x => if x.2.st == .parked acc then g.putFrag x.1 { x.2 with st := .ready } else g) g

/-- The unfinished lanes of a replay entry are sent again, and a lane that faults again gives a new record (R364). -/
def Access.resend (a : Access) : Access :=
  { a with replay := false, recorded := false, parts := a.parts.map fun p => if p.faultOf.isSome then { p with st := .issued } else p }

/-- FAULT_REPLAY_RESEND: a named replay entry is sent again, once the record of the issue that faulted is written (R362). A
fetch ends, and its fragment issues the word (R365). -/
def faultReplayResend (s : State) : State :=
  match s.arg.src, s.lane? s.arg.src with
  | .lane run grp acc _, some r =>
    if !r.a.replay || r.p.faultOf.isNone || !r.a.recorded then s
    else if r.a.kind == .fetch then
      s.onGroup run grp fun g => ({ g with accs := g.accs.filter fun a => a.id != acc } : Group).unpark acc
    else
      ((s.onAcc run grp acc Access.resend).onGroup run grp fun g => g.unpark acc).recheckMonitor acc
  | _, _ => s

/-! ### ERROR_RESPONSE (R370) -/

/-- Whether the reason given can answer an access to an IA. -/
def State.reasonFits (s : State) (dom : Option Nat) (ia reason : Nat) : Bool :=
  match reason with
  | 1 | 6 => s.errorAt dom ia == some reason
  | 2 => region ia == .package && !s.isolatedAt ia
  | 3 | 4 => region ia == .host && !s.isolatedAt ia
  | _ => false

/-- A part that has been sent and not answered. -/
def Part.unanswered (p : Part) : Bool := match p.st with | .walked | .issued => true | _ => false

/-- A lane request that is not served leaves: where it stands in a write queue, another lane of its store takes its place,
or the store goes. -/
def State.withdraw (s : State) (src : Src) : State :=
  match s.lane? src with
  | none => s
  | some r =>
    if !r.p.unapplied then s
    else
      let rest := ((s.together src r).filter fun x => x.1 != src && x.2.st == .queued).map (·.1)
      let s := s.onHome (r.p.ia / 128) fun h => { h with
        queue := h.queue.filterMap fun q => if q.src == src then rest.head?.map fun y => { q with src := y } else some q }
      s.onPart src fun p => { p with st := .done, accepted := true }

/-- An error response reaches a thread's access: one record, and the workgroup is killed. Lanes of the access that have not
taken effect take none. -/
def State.errorThread (s : State) (r : LaneReq) (reason : Nat) : State :=
  let wid := r.g.wid.at r.p.lane
  let s := s.faultRecord r.l.dom (errorKind reason) 3 reason r.p.ia (BitVec.ofNat 64 r.p.va) wid (Mask.bit r.p.lane) r.a.pc r.w.wgx r.w.core r.g.grp r.a.ent 0 false
  let s := (List.range r.a.parts.length).foldl (fun s i => s.withdraw (.lane r.w.run r.g.grp r.a.id i)) s
  (s.kill r.w.run (some wid)).tidy r.w.run r.g.grp r.a.id

/-- An error response reaches a posted store: a record for the launch's domain, and the store is answered. -/
def State.errorPosted (s : State) (m : Msg) (reason : Nat) : State :=
  let dom := (s.srcDom (.posted m.id)).getD 0
  let s := s.faultRecord dom (errorKind reason) 3 reason m.part.ia 0 0 0 0 0 0 0 0 0 false
  match m.use_ with
  | MsgUse.remote pkg =>
    if s.maySend (packageIa pkg) 1 then { s with msgs := s.msgs.filter fun x => x.id != m.id }.replyRemote pkg .unsupported else s
  | _ =>
  let s := match m.use_ with
    | MsgUse.bottle lid wgx => s.onLaunch lid fun l => l.fault (some (l.widOf wgx 0))
    | MsgUse.save lid => s.onLaunch lid fun l => { l with saveBad := true }
    | _ => s
  let claim := match m.use_ with | MsgUse.element _ => true | _ => false
  s.onPart (.posted m.id) fun p => { p with st := if claim then .done else .served, w := s.now 0 }

/-- An error response reaches a copy channel: its copy is abandoned (R369 reason 5). -/
def State.errorEngine (s : State) (core ch ia reason : Nat) : State :=
  match s.copy? core ch with
  | none => s
  | some (_, _, l) => (s.engineRecord core ch (errorKind reason) 3 reason ia (l.vaOf ia)).abandon core ch 5 ia (l.vaOf ia)

/-- An error response answers the instruction fetch of a fragment: it kills the workgroup (R370). -/
def State.fetchErrorAt (s : State) (w : Workgroup) (l : Launch) (g : Group) (ent : Nat) (f : Frag) (va tpc : DWord) (ia reason : Nat) : State :=
  let wid := g.wid.at (g.lowLane f.f)
  (s.faultRecord l.dom (errorKind reason) 3 reason ia va wid f.f tpc w.wgx w.core g.grp ent 0 false).kill w.run (some wid)

/-- The words that a fragment fetches next from their homes: the word at its PC, and behind a prefix that the fetch buffer
holds, the word after it. -/
def State.fetchAddrs (s : State) (w : Workgroup) (l : Launch) (f : Frag) : List DWord :=
  let ia (pc : DWord) : Option Nat := match l.rangeOf pc.toNat with | some x => if x.x then some (x.iaOf pc.toNat) else none | none => none
  let held (pc : DWord) : Option DWord := ((ia pc).bind fun a =>
    (cacheHit (s.core w.core).fetchBuf (s.now (coreDie w.core)) a).map fun bs => BitVec.ofNat 64 (leNat ((bs.drop (a % 16)).take 8)))
  match held f.pc with
  | none => if (ia f.pc).isSome then [f.pc] else []
  | some x => if x == dxWord (x.extractLsb' 0 3).toNat && (ia (f.pc + 8)).isSome && (held (f.pc + 8)).isNone then [f.pc + 8] else []

/-- An error response to a fetch: of a fragment that may issue and has no word kept. -/
def State.errorFetch (s : State) (run grp ent reason : Nat) : State :=
  match s.wg? run, s.group? run grp with
  | some w, some g =>
    match s.launch? w.lid, g.frag? ent with
    | some l, some f =>
      match s.fetchAddrs w l f with
      | [] => s
      | pc :: _ =>
        if w.life != .killed && g.mayGo (s.detOf w) (ent, f) && f.kept.isEmpty && s.reasonFits (some l.dom) (l.iaOf pc.toNat) reason then
          s.fetchErrorAt w l g ent f pc f.pc (l.iaOf pc.toNat) reason
        else s
    | _, _ => s
  | _, _ => s

/-- An error response answers the dispatcher's read of a save area or of indirect counts (log 66). -/
def State.errorLaunch (s : State) (lid reason : Nat) : State :=
  match s.launch? lid with
  | none => s
  | some l =>
    let ia := l.iaOf (if l.resume then l.save else l.icnt)
    if l.phase == .counting && (l.resume || l.icnt != 0) && s.reasonFits (some l.dom) ia reason then s.dispatchError l ia reason else s

/-- Lines that a channel is about to read or claim. -/
def State.channelLines (s : State) (core ch : Nat) : List Nat :=
  let x := (s.core core).chan ch
  match s.copy? core ch with
  | none => []
  | some (t, w, l) =>
    match x.st with
    | .fetch => [l.iaOf (l.ttab + 128 * (t.word.extractLsb' 56 8).toNat) / 128]
    | .claim => ((x.claims.find? fun y => y.2 == 0).map (·.1)).toList
    | .move =>
      let c : Copy := { l, w, word := t.word, r := x.record }
      let k := c.chunk x.next
      if !x.pending.isEmpty then union [] (x.pending.map fun p => p.1 / 128)
      else union [] ((s.unread c core ch k).map fun p => p.2.1 / 128)
    | _ => []

/-- ERROR_RESPONSE: the memory side answers an access with an error. -/
def errorResponse (s : State) : State :=
  let reason := s.arg.reason
  match s.arg.src with
  | .lane .. =>
    match s.lane? s.arg.src with
    | none => s
    | some r =>
      if r.p.unanswered && s.reasonFits (some r.l.dom) r.p.ia reason then s.errorThread r reason else s
  | .posted id =>
    match s.msg? id with
    | none => s
    | some m => if m.part.unanswered && s.reasonFits (s.srcDom s.arg.src) m.part.ia reason then s.errorPosted m reason else s
  | .claim core ch line =>
    match s.copy? core ch with
    | none => s
    | some (_, _, l) =>
      if (s.channelLines core ch).contains line && s.reasonFits (some l.dom) (128 * line) reason then s.errorEngine core ch (128 * line) reason
      else s
  | .fetch run grp ent => s.errorFetch run grp ent reason
  | .launch lid => s.errorLaunch lid reason
  | .remote _ => s

/-! ### Translation changes (R136, R137, R268) -/

/-- The firmware's window for the translation tables: over the reserved IAs, to write (R13, R136, log 61). -/
def State.tablesOpen (s : State) : Bool := s.windowed 1 (2 ^ 39 - 8 * s.dev.rsvsz * 2 ^ 21) (8 * s.dev.rsvsz * 2 ^ 21)

/-- An entry that would map a page into the reserved region of a stack: the firmware writes none (R8, log 59). -/
def State.mapsReserved (s : State) (level : Nat) (e : DWord) : Bool :=
  let n := if level == 1 then 2 ^ 21 else 65536
  e.getLsbD 0 && (level == 2 || e.getLsbD 1) && s.dev.reserved.any fun r =>
    decide (r < entryAddr e + n) && decide (entryAddr e < r + s.dev.rsvsz * 2 ^ 21)

/-- The PA of the level-2 entry that a TRANSLATION_ENTRY_WRITE names: the entry of an IA behind its level-1 pointer, or with
`flag2` the one at `off`, so that a block is built before it is linked. -/
def State.entryPa (s : State) : Option Nat :=
  let e1 := Map.look 0 s.xlat.lev1 (s.arg.ia / 2 ^ 21)
  if s.arg.flag2 then (if s.arg.off % 8 == 0 then some s.arg.off else none)
  else if s.regionAt s.arg.ia == .hbm && e1.getLsbD 0 && !e1.getLsbD 1 then some (entryAddr e1 + 8 * (s.arg.ia / 65536 % 32))
  else none

/-- An entry of a level-2 block written: it lies in a reserved region, and in a window of the firmware's (R13, R136). Copies
that domains' slices hold of the block show it at once (log 100). -/
def State.writeEntry2 (s : State) (pa : Nat) (v : DWord) : State :=
  match s.reservedIa pa with
  | some x => if s.windowed 1 x 8 then { s with mem := s.mem.setLe pa 8 v.toNat } else s
  | none => s

/-- TRANSLATION_ENTRY_WRITE: the firmware writes an entry of level 1 in the walker SRAM, or of level 2 in its block. -/
def translationEntryWrite (s : State) : State :=
  let ia := s.arg.ia
  if !s.serviceRuns || s.mapsReserved s.arg.level s.arg.v then s
  else if s.arg.level == 1 then
    if !s.tablesOpen || s.regionAt ia != .hbm then s
    else { s with xlat := { s.xlat with lev1 := Map.put 0 s.xlat.lev1 (ia / 2 ^ 21) s.arg.v } }
  else if s.arg.level == 2 then (match s.entryPa with | some pa => s.writeEntry2 pa s.arg.v | none => s)
  else s

/-- TRANSLATION_INVALIDATE: the command for a span is given. -/
def translationInvalidate (s : State) : State :=
  let n := if s.arg.flag then 2 ^ 21 else 65536
  let x := (s.arg.ia / n * n, s.arg.flag)
  if !s.serviceRuns || s.xlat.invals.contains x then s else { s with xlat := { s.xlat with invals := s.xlat.invals ++ [x] } }

/-- A pin holds a page of the span: of a launch, or of a group (R268). -/
def State.pinned (s : State) (ia : Nat) (large : Bool) : Bool :=
  let first := if large then ia / 2 ^ 21 * 32 else ia / 65536
  let n := if large then 32 else 1
  s.xlat.pinned.any fun x => decide (x.1 < first + n) && decide (first < x.1 + x.2.1) && s.pinHeld x.1

/-- A request has taken its translation from the span and is still to be served: a command for the span waits for it
(log 58). -/
def State.inFlight (s : State) (ia : Nat) (large : Bool) : Bool :=
  let taken (p : Part) : Bool := inSpan ia large p.ia && region p.ia == .hbm && (p.st == .walked || p.st == .queued)
  (s.wgs.any fun w => w.groups.any fun g => g.accs.any fun a => a.kind != .waitm && a.parts.any taken)
    || s.msgs.any (fun m => taken m.part)
    || s.homes.any fun h => inSpan ia large (128 * h.1) && region (128 * h.1) == .hbm && (h.2.owner.isSome || !h.2.queue.isEmpty)

/-- TRANSLATION_INVALIDATE_COMPLETE: no pin is left in the span and no request by the old translation; walkers drop their
entries, and lines that L2 holds by the old translation leave it. -/
def translationInvalidateComplete (s : State) : State :=
  let large := s.arg.flag
  let n := if large then 2 ^ 21 else 65536
  let x := (s.arg.ia / n * n, large)
  if !s.xlat.invals.contains x || s.pinned x.1 large || s.inFlight x.1 large then s
  else
    let inLev (c : Nat × Nat × DWord) : Bool :=
      if c.1 == 1 then c.2.1 == x.1 / 2 ^ 21 else inSpan x.1 large (65536 * c.2.1)
    let old := (s.l2.filter fun y => region (128 * y.line) == .hbm && inSpan x.1 large (128 * y.line)).map (·.line)
    old.foldl (fun s line => s.dropL2 line) { s with
      xlat := { s.xlat with invals := s.xlat.invals.filter (· != x), cache := s.xlat.cache.filter fun c => !inLev c } }

/-! ### The meanings -/

def execFaultResolveReplay (s : State) : Host.Outcome State Fault Refusal := .next (faultResolveReplay s)
def execFaultResolveAbort (s : State) : Host.Outcome State Fault Refusal := .next (faultResolveAbort s)
def execFaultReplayResend (s : State) : Host.Outcome State Fault Refusal := .next (faultReplayResend s)
def execErrorResponse (s : State) : Host.Outcome State Fault Refusal := .next (errorResponse s)
def execTranslationEntryWrite (s : State) : Host.Outcome State Fault Refusal := .next (translationEntryWrite s)
def execTranslationInvalidate (s : State) : Host.Outcome State Fault Refusal := .next (translationInvalidate s)
def execTranslationInvalidateComplete (s : State) : Host.Outcome State Fault Refusal := .next (translationInvalidateComplete s)

end Sys2Proof.Machine
end

