-- ==== Sys2Proof/Machine/Finish.lean ====
section
/-! DEFINITION. Pre-emption, cancel, the save area and completion of launches (spec/15_launch.md R301, R302, R305-R308,
spec/02_execution.md R33, spec/20_reliability.md R390, R391). -/

namespace Sys2Proof.Machine

/-! ### Requests (R301) -/

/-- A pre-emption or cancel request reaches the dispatcher. -/
def State.requestDrain (s : State) (lid : Nat) (cancel : Bool) : State :=
  let now := s.now 0
  let st := if cancel then 2 else 1
  let mark (l : Launch) : Launch := { l.reason st with cancel, drainAt := some now }
  let s : State := match s.launch? lid with
    | some l => if l.phase == .placing || l.phase == .running then (l.redo.filter (·.2 == 2)).foldl (fun s r => s.undecided l r.1) s else s
    | none => s
  (s.onLaunch lid fun l =>
    match l.phase with
    | .waiting | .counting | .holding =>
      { mark l with phase := .completing, next := 0, killed := union l.killed (l.redo.map (·.1)), redo := [] }
    | .placing | .running => { mark l with phase := .draining, killed := union l.killed (l.redo.map (·.1)), redo := [], late := [] }
    | .draining => if cancel && !l.cancel then { l with cancel := true, status := union (l.status.filter (· != 1)) [2] } else l
    | _ => l).settlePhase lid

/-- The launch that a LAUNCHCTL write names (R313). -/
def State.named (s : State) (lq : Nat) (seq : Word) : Option Launch :=
  s.launches.find? fun l => l.lq == lq && l.seq % 2 ^ 32 == seq.toNat &&
    (match l.phase with | .completing | .recording | .done => false | _ => true)

/-- The request of a LAUNCHCTL write with ACTION 1 or 2 for a launch queue and a sequence number. -/
def State.launchRequest (s : State) (lq : Nat) (seq : Word) (cancel : Bool) : State :=
  if s.fw.recovery then s
  else match s.named lq seq with | some l => s.requestDrain l.lid cancel | none => s

/-- A value written to LAUNCHCTL: SEQ, ACTION, LQ (R313). -/
def State.launchctl (s : State) (v : DWord) : State :=
  let action := (v.extractLsb' 6 2).toNat
  if action == 1 || action == 2 then s.launchRequest (v.extractLsb' 0 6).toNat (v.extractLsb' 32 32) (action == 2) else s

/-- LAUNCHCTL_PREEMPT and LAUNCHCTL_CANCEL. -/
def launchctlPreempt (s : State) : State := s.launchRequest s.arg.lq s.arg.word32 false
def launchctlCancel (s : State) : State := s.launchRequest s.arg.lq s.arg.word32 true

/-! ### The request at a core (R33, R187, R218) -/

/-- Waits that a pre-emption request ends at a barrier, which yields, and in SLEEP, which wakes. -/
def Group.drain (g : Group) (w : Workgroup) (ktan : Nat) : Group :=
  g.frags.foldl (fun (g : Group) x =>
    match x.2.st with
    | .bwait b _ _ _ _ => g.wakeBwait ktan (w.bar b) 1 x.1
    | .sleep _ => g.putFrag x.1 { x.2 with st := .ready }
    | _ => g) g

/-- The monitored wait of a fragment that a pre-emption request ends, where a page fault does not hold it (code 4, R151). -/
def State.drainMonitor (s : State) (run grp ent : Nat) : State :=
  match s.wg? run, s.group? run grp with
  | some w, some g =>
    match (g.frag? ent).elim FragSt.ready (·.st) with
    | .waitm acc till =>
      match (g.accs.find? fun a => a.id == acc).bind fun a => a.parts.head?.map fun p => (a, p) with
      | some (a, p) => if p.faultOf.isNone then s.endMonitor w g ent a p (s.wakeCode w p till 4) else s
      | none => s
    | _ => s
  | _, _ => s

/-- Queue operations of a workgroup that are blocked at their controllers; waiting for PPEND alone is not (R214). -/
def State.waitingOps (s : State) (run : Nat) : List (QKey × (Nat × Nat × Nat)) :=
  s.queues.flatMap fun q => ((q.pushW ++ s.stuckPops q.key).filter fun x => x.1 == run).map fun x => (q.key, x)

/-- The workgroup starts draining: blocked operations yield. -/
def State.drainWg (s : State) (run : Nat) : State :=
  match s.wg? run with
  | none => s
  | some w =>
    match s.launch? w.lid with
    | none => s
    | some l =>
      if w.life != .running then s
      else
        let ops := s.waitingOps run
        let s := s.onWg run fun w => { w with life := .draining }
        let s := ops.foldl (fun s x =>
          let q := s.qctl x.1
          ((s.setQctl { q with pushW := q.pushW.filter (· != x.2), popW := q.popW.filter (· != x.2) }).queueEnd x.2 1).note x.1) s
        match s.wg? run with
        | some w =>
          let s := s.putWg { w with groups := w.groups.map fun g => g.drain w l.ktan }
          (w.groups.flatMap fun g => g.frags.map fun x => (g.grp, x.1)).foldl (fun s x => s.drainMonitor run x.1 x.2) s
        | none => s

/-- PREEMPT_REQUEST_AT_CORE: the request reaches the launch's workgroups on a core. -/
def preemptRequestAtCore (s : State) : State :=
  match s.launch? s.arg.lid with
  | none => s
  | some l =>
    if l.phase != .draining then s
    else ((s.wgs.filter fun w => w.lid == l.lid && w.core == s.arg.core).map (·.run)).foldl State.drainWg s

/-- GRACE_EXPIRY: each remaining workgroup is killed and its WGX recorded. -/
def graceExpiry (s : State) : State :=
  match s.launch? s.arg.lid with
  | none => s
  | some l =>
    match l.drainAt with
    | none => s
    | some t =>
      if l.phase != .draining || decide (s.now 0 < t + l.grace) then s
      else ((s.wgs.filter fun w => w.lid == l.lid && (w.life == .running || w.life == .draining)).map (·.run)).foldl
        (fun s r => s.kill r none false) s

/-! ### CLASS0_PREEMPT_TIMEOUT (R301) -/

/-- The victims, one after the other, until the unit fits without their workgroups. -/
def State.chooseVictims (s : State) (l : Launch) (u : PlaceUnit) : List Launch → List Nat → Option (List Nat)
  | [], _ => none
  | v :: t, out =>
    let out := out ++ [v.lid]
    let without : State := { s with wgs := s.wgs.filter fun w => !out.contains w.lid }
    if (without.unitPlace l u).isSome then some out else s.chooseVictims l u t out

/-- Running launches of the domain, lowest class first and youngest first. -/
def State.victims (s : State) (l : Launch) : List Launch :=
  sortBy (fun a b => decide (b.cls < a.cls) || (a.cls == b.cls && decide (b.order ≤ a.order)))
    (s.launches.filter fun x => x.lid != l.lid && x.dom == l.dom && (x.phase == .placing || x.phase == .running))

/-- CLASS0_PREEMPT_TIMEOUT: the next workgroup of a class-0 launch has waited 2,000 ns, and no requested victim is left. -/
def class0PreemptTimeout (s : State) : State :=
  match s.launch? s.arg.lid with
  | none => s
  | some l =>
    let busy := l.victims.any fun v => (s.launch? v).isSome
    if l.cls != 0 || !(l.phase == .placing || l.phase == .running) || l.readyAt == 0 || decide (s.dtime < l.readyAt + 2000) || busy then s
    else
      match s.nextUnit l with
      | none => s
      | some u =>
        match s.chooseVictims l u (s.victims l) [] with
        | some vs => vs.foldl (fun s v => s.requestDrain v false) (s.onLaunch l.lid fun l => { l with victims := vs })
        | none => s

/-! ### The save area (R302, R390, R391) -/

def Launch.saveBytes (l : Launch) : List Byte :=
  let killed := (sortBy (fun a b => decide (a ≤ b)) l.killed).take 9216
  let low : DWord := match l.lowwid with | some w => w | none => BitVec.allOnes 64
  let head := leBytes 4 killed.length ++ leBytes 4 0x5A534156 ++ leBytes 8 l.next ++ leBytes 8 l.ndone ++ leBytes 8 l.ndisc
    ++ leBytes 8 low.toNat ++ leBytes 8 l.flags.toNat ++ leBytes 8 l.lq
    ++ leBytes 4 (l.extent 1) ++ leBytes 4 (l.extent 2) ++ leBytes 4 (l.extent 3) ++ leBytes 4 (l.extent 4) ++ leBytes 8 (l.extent 5)
    ++ List.replicate 16 0 ++ killed.flatMap (leBytes 4)
  head ++ List.replicate (40960 - head.length) 0

/-- Whether the save area at SAVE can be written: acceptance asks for a range with R, and the dispatcher for no more. -/
def State.saveOk (s : State) (l : Launch) : Bool :=
  let ia := l.iaOf l.save
  l.save != 0 && (l.violation .read 40960 true l.save).isNone && !s.unmapped ia 40960 && (s.spanError (some l.dom) ia 40960).isNone
    && (spanLines ia 40960).all fun x => !s.isolatedAt x.1

/-- MAGIC at SAVE can be reached. -/
def State.magicOpen (s : State) (l : Launch) : Bool :=
  let ia := l.iaOf l.save + 4
  l.save != 0 && (l.violation .read 8 true l.save).isNone && !s.unmapped ia 4 && (s.errorAt (some l.dom) ia).isNone && !s.isolatedAt ia

/-- MAGIC at SAVE is no longer that of a save, where it can be reached (R391). -/
def State.spoilMagic (s : State) (l : Launch) : State :=
  if s.magicOpen l then s.writeIA (l.iaOf l.save + 4) (List.replicate 4 0) else s

/-- The save: at SAVE, else in the queue's alternate area, where its HBM stack is present; else SAVE_FAIL. `err` and `err2` say
that an uncorrectable error, in the state being saved or in the write, ends the save at SAVE and the one in the alternate
area (R390, R391). `near`: SAVE lies in HBM. -/
def State.saveLaunch (s : State) (l : Launch) (near err err2 : Bool) : State :=
  if near && s.saveOk l && !err then
    s.writeSpan (l.iaOf l.save) l.saveBytes
  else
    let s := if near then s.spoilMagic l else s
    if s.dev.absent.getLsbD (8 + altPa l.lq / 2 ^ 36 % 8) || err2 then
      s.onLaunch l.lid fun l => { l with status := union (l.status.filter (· != 1)) [5] }
    else s.writePa (altPa l.lq) l.saveBytes

/-- SAVE lies in HBM. -/
def Launch.savesNear (l : Launch) : Bool := l.save == 0 || region (l.iaOf l.save) == .hbm

/-- A store of the launch's save is on its way. -/
def State.saveSent (s : State) (l : Launch) : Bool := s.msgs.any fun m => m.use_ == .save l.lid

/-- A save at a SAVE outside HBM goes by stores to where it lies (R302, R316, R317). First MAGIC is cleared; then the lines behind
the first go, and the first line last, so that MAGIC shows a whole save only. `none`: nothing is left to send. -/
def State.saveFar (s : State) (l : Launch) : Option State :=
  let ia := l.iaOf l.save
  let at_ (n : Nat) (s : State) : State := s.onLaunch l.lid fun l => { l with saving := n }
  let put (s : State) (x : Nat × Nat × Nat) : State := s.post (.save l.lid) x.1 ((l.saveBytes.drop x.2.1).take x.2.2)
  match l.saving with
  | 0 => if s.magicOpen l then some (at_ 1 (s.post (.save l.lid) (ia + 4) (List.replicate 4 0))) else none
  | 1 => some (at_ 2 (((spanLines ia 40960).drop 1).foldl put s))
  | 2 => some (at_ 3 (((spanLines ia 40960).take 1).foldl put s))
  | _ => none

/-- The save of a pre-empted launch, one step of it; with `true`, the launch goes on to its completion record. -/
def State.saveStep (s : State) (l : Launch) (err err2 : Bool) : State × Bool :=
  if l.savesNear then (s.saveLaunch l true err err2, true)
  else if s.saveSent l then (s, false)
  else if l.saving != 0 && (l.saveBad || err || (decide (l.saving < 3) && !s.saveOk l)) then (s.saveLaunch l false err err2, true)
  else match s.saveFar l with
    | some t => (t.onLaunch l.lid fun l => { l with saveBad := l.saveBad || err }, false)
    | none => if l.saving == 0 then (s.saveLaunch l false err err2, true) else (s, true)

/-! ### Completion (R305-R308) -/

/-- STATUS: the lowest code among the reasons. -/
def Launch.finalStatus (l : Launch) : Nat :=
  match l.status with
  | [] => 0
  | x :: t => t.foldl min x

/-- The completion record. -/
def Launch.completion (l : Launch) : List Byte :=
  let low : DWord := match l.lowwid with | some w => w | none => BitVec.allOnes 64
  let w0 := fields [(0, l.finalStatus), (8, l.flags.toNat), (13, if l.clamp then 1 else 0), (14, if l.lostj then 1 else 0), (32, l.seq % 2 ^ 32)]
  [w0.toNat, l.tfirst.getD 0, l.tlast, l.ndone, l.ndisc, l.nkill, low.toNat, l.nroll % 2 ^ 32].flatMap (leBytes 8)

/-- Whether the completion bumps the counter: not after a pre-emption, whatever else the launch met, nor after a restore that read poison (R301, R391, R392). -/
def Launch.bumps (l : Launch) : Bool := l.bits 0x1D8 44 1 == 1 && !(l.status.any fun c => c == 1 || c == 5 || c == 6)

def State.msix (s : State) (lq : Nat) : State := { s with dev := { s.dev with msix := s.dev.msix ++ [lq] } }

/-- LAUNCH_COMPLETE: the save where the launch was pre-empted, then the completion record as one 64-byte store at `.SYS`;
MSI-X where there is no record. The environment says which uncorrectable errors the save meets. -/
def launchComplete (s : State) : State :=
  match s.launch? s.arg.lid with
  | none => s
  | some l =>
    if l.phase != .completing || s.bottling l.lid none || decide (s.now 0 < l.bottleW) then s
    else
      let (s, go) := if l.status.contains 1 && !l.cancel then s.saveStep l s.arg.flag s.arg.flag2 else (s, true)
      if !go then s
      else match s.launch? l.lid with
      | none => s
      | some l =>
        let s := s.onLaunch l.lid fun l => { l with phase := .recording, recW := if l.crec == 0 then some 0 else none }
        if l.crec == 0 then s.msix l.lq else s.post (.complete l.lid) (l.crec / 64 * 64) l.completion

/-- COMPLETION_COUNTER_BUMP: the record is acknowledged and DTIME has reached its W. The counter rises, the vector is
raised, and the launch is done; its pins end. -/
def completionCounterBump (s : State) : State :=
  match s.launch? s.arg.lid with
  | none => s
  | some l =>
    match l.recW with
    | none => s
    | some w =>
      if l.phase != .recording || decide (s.now 0 < w) then s
      else
        let n := l.bits 0x1D8 32 12
        let v := Map.look 0 s.dev.counters n
        let s := if l.bumps then { s with dev := { s.dev with counters := Map.put 0 s.dev.counters n (BitVec.ofNat 64 ((v.toNat + 1) % 2 ^ 48)) } } else s
        let s := if l.crec == 0 then s else s.msix l.lq
        let again (x : Launch) : Launch := if x.victims.contains l.lid && x.readyAt != 0 then { x with readyAt := s.dtime } else x
        { s with launches := (s.launches.filter fun x => x.lid != l.lid).map again }

/-! ### The meanings -/

def execLaunchctlPreempt (s : State) : Host.Outcome State Fault Refusal := .next (launchctlPreempt s)
def execLaunchctlCancel (s : State) : Host.Outcome State Fault Refusal := .next (launchctlCancel s)
def execPreemptRequestAtCore (s : State) : Host.Outcome State Fault Refusal := .next (preemptRequestAtCore s)
def execGraceExpiry (s : State) : Host.Outcome State Fault Refusal := .next (graceExpiry s)
def execClass0PreemptTimeout (s : State) : Host.Outcome State Fault Refusal := .next (class0PreemptTimeout s)
def execLaunchComplete (s : State) : Host.Outcome State Fault Refusal := .next (launchComplete s)
def execCompletionCounterBump (s : State) : Host.Outcome State Fault Refusal := .next (completionCounterBump s)

end Sys2Proof.Machine
end

