-- ==== Sys2Proof/Machine/Endpoint.lean ====
section
/-! DEFINITION. The host endpoint (spec/16_host.md R308-R314, R318, R321, spec/11_queues.md R221, spec/17_debug.md R324,
spec/20_reliability.md R394): AtomicOps, BAR2, BAR0 and register writes, with what the registers read as. -/

namespace Sys2Proof.Machine

/-! ### Answers and order (R308, R314, R221) -/

/-- Unsupported Request, answered where `reply`, and logged (R308). -/
def State.unsupported (s : State) (reply : Bool) : State :=
  let s := { s with logs := { s.logs with unsupported := s.logs.unsupported + 1 } }
  if reply then s.answer .unsupported else s

/-- Every posted write of the host has arrived at its home: a non-posted request stays behind them. -/
def State.hostDrained (s : State) : Bool := s.msgs.all fun m => m.use_ != .host || !m.part.unapplied || m.part.st == .queued

/-- A host access that meets an invalid translation (R370 reason 5). -/
def State.hostFault (s : State) (ia : Nat) : State := s.faultRecord ((s.ownerDom ia).getD 0) 14 3 5 ia (BitVec.ofNat 64 ia) 0 0 0 0 0 0 0 0 false

/-- A posted write to a launch queue's block or ring, cut at line boundaries. -/
def State.queueWrite (s : State) (ia : Nat) (bs : List Byte) : State :=
  (spanLines ia bs.length).foldl (fun s x => s.post .host x.1 ((bs.drop x.2.1).take x.2.2)) s

/-- Lines of the span that a posted write of the host may reach: HBM of some domain, or of a page that faults. -/
def State.hostLine (s : State) (ia : Nat) : Bool := s.regionAt ia == .hbm && ((s.xlatFault ia).isSome || (s.ownerDom ia).isSome)

/-- Every line of a span may be reached. -/
def State.hostTakes (s : State) (ia n : Nat) : Bool := (spanLines ia n).all fun x => s.hostLine x.1

/-- A posted write of the host, cut at line boundaries; a line in no domain's channel group is refused and logged. -/
def State.hostWrite (s : State) (ia : Nat) (bs : List Byte) : State :=
  (spanLines ia bs.length).foldl (fun s x =>
    if s.hostLine x.1 then s.post .host x.1 ((bs.drop x.2.1).take x.2.2)
    else s.unsupported false) s

/-- The IA behind a BAR0 offset in the control blocks or rings of the launch queues. -/
def State.queueIa (s : State) (off : Nat) : Option Nat :=
  if (0x10000 ≤ off ∧ off < 0x12000) ∨ (0x200000 ≤ off ∧ off < 0x400000) then some (s.dev.lqia + (off - 0x10000)) else none

/-! ### HOST_ATOMICOP (R221, R308, R373, R374) -/

/-- The result of an AtomicOp on operands of `n` bits. -/
def pcieNew (op : PcieAtomic) (n old x cmp : Nat) : Nat :=
  match op with
  | .fetchAdd => (old + x) % 2 ^ n
  | .swap => x % 2 ^ n
  | .cas => if old == cmp % 2 ^ n then x % 2 ^ n else old

/-- Whether the line of an IA holds a queue's control block: one that a queue is bound to, or one that its CHK shows. -/
def State.isBlock (s : State) (ia : Nat) : Bool :=
  (List.range 64).any (fun n => s.lqBlock n == ia) || s.queues.any (fun x => x.key == .mem ia)
    || s.wgs.any (fun w => w.binds.toList.contains (some ia))
    || s.dev.classifier.any (fun x => x.1 % 4 == 3 && x.2.toNat == ia) || s.dev.txregs.any (fun x => x.2.toNat == ia)
    || (match s.block? (.mem ia) with
        | some (b, _) => decide (1 ≤ b.lslot) && b.chk == crc16 (leBytes 8 b.cfg ++ leBytes 8 b.base)
        | none => false)

/-- The launch queue whose control block or ring holds an IA (R310). -/
def State.launchQueueAt (s : State) (ia : Nat) : Option Nat :=
  (List.range 64).find? fun n => (decide (s.lqBlock n ≤ ia) && decide (ia < s.lqBlock n + 128)) ||
    (decide (s.lqRing n ≤ ia) && decide (ia < s.lqRing n + 0x8000))

/-- The domain of the queue whose block lies at an IA: that of a launch queue, else the owner of the memory. -/
def State.queueDom (s : State) (ia : Nat) : Option Nat :=
  match s.launchQueueAt ia with
  | some n => some (Map.look 255 s.dev.lqdom n)
  | none => s.ownerDom ia

/-- The memory side answers a host access with an error response: it is logged with its address (R370), and the request is
answered as unsupported. -/
def State.hostError (s : State) (ia reason : Nat) : State :=
  (s.faultRecord ((s.queueDom ia).getD 0) 13 3 reason ia 0 0 0 0 0 0 0 0 0 false).unsupported true

/-- An AtomicOp on a control block, as on RESV, TAIL or HEAD: the controller performs it, recomputes FREE and counts its waiters
anew. -/
def State.blockAtomic (s : State) (ia n x cmp : Nat) (op : PcieAtomic) : State :=
  let q : QKey := .mem (ia / 128 * 128)
  let dom := s.queueDom ia
  let s := s.ctlStart q
  let code := s.queueCode q dom
  if (s.qctl q).frozen != 0 then s.answer .abort
  else if code != 0 then (s.freezeQueue q code (dom.getD 0) none).answer .abort
  else
    let old := s.leIA ia n
    let s := (s.writeIA ia (leBytes n (pcieNew op (8 * n) old x cmp))).wakeMonitors 1 fun _ p => p.ia / 16 == ia / 16
    let s := match s.block? q with | some (b, _) => (s.putBlock q b.refree).note q | none => s
    ((s.endTries q).endYields q).answer (.data (leBytes n old) false)

/-- The operation of R167 that an AtomicOp performs. -/
def pcieOp (op : PcieAtomic) : Nat := match op with | .fetchAdd => 0 | .swap => 6 | .cas => 7

/-- An AtomicOp that finds its line taken, or a lease on it still to run out: it goes to the home's queue as an atomic does, and
is answered once it has been applied (R157, log 111). -/
def State.queueAtomic (s : State) (ia n x cmp : Nat) (op : PcieAtomic) : State :=
  let s := s.post .hostAtomic ia (leBytes n x) (some (pcieOp op, if n == 8 then 2 else 0))
  { s with msgs := s.msgs.map fun m => if m.id + 1 == s.fresh then { m with part := { m.part with cmp := cmp % 256 ^ n } } else m }

/-- An AtomicOp on other memory that no queue and no lease holds up: a read-modify-write at the home. -/
def State.memoryAtomic (s : State) (ia n x cmp : Nat) (op : PcieAtomic) : State :=
  let old := s.leIA ia n
  let bad := s.badIA ia n
  let s := (if bad then s else s.writeIA ia (leBytes n (pcieNew op (8 * n) old x cmp))).touchL2 none ia n true
  let s := (s.perfSlice (s.homeSlice ia) 4 1).wakeMonitors 1 fun _ q => (sectorsOf ia n).contains (q.ia / 16)
  s.answer (.data (leBytes n old) bad)

/-- The IA that an AtomicOp names: at offset `off` of BAR2, or, with `flag2`, at one of BAR0, where only the launch queues'
blocks and rings are memory. -/
def State.atomicIa (s : State) : Option Nat :=
  if s.arg.flag2 then s.queueIa s.arg.off
  else if s.arg.off < 2 ^ 36 then some (s.dev.winbase.toNat + s.arg.off)
  else none

/-- An AtomicOp on an IA. -/
def State.hostAtomicAt (s : State) (ia : Nat) : State :=
  let n := if s.arg.flag then 8 else 4
  if s.regionAt ia != .hbm || ia % n != 0 then s.unsupported true
  else if (s.xlatFault ia).isSome then (s.hostFault ia).answer .abort
  else match s.errorAt none ia with
  | some r => s.hostError ia r
  | none =>
  if (s.queueDom ia).isNone then s.unsupported true
  else if s.isBlock (ia / 128 * 128) then s.blockAtomic ia n s.arg.v.toNat s.arg.w.toNat s.arg.op
  else if !s.lineFree ia || decide (s.homeNow none ia < (s.home (ia / 128)).h) then
    s.queueAtomic ia n s.arg.v.toNat s.arg.w.toNat s.arg.op
  else s.memoryAtomic ia n s.arg.v.toNat s.arg.w.toNat s.arg.op

/-- HOST_ATOMICOP: `flag` selects 64-bit operands. The endpoint completes no operands of 128 bits (`size` 16), and no
AtomicOp on a register (R308). -/
def hostAtomicop (s : State) : State :=
  if s.dev.ready != 5 || !s.hostDrained then s
  else if s.arg.size == 16 then s.unsupported true
  else match s.atomicIa with
    | some ia => s.hostAtomicAt ia
    | none => s.unsupported true

/-! ### BAR0 (R310) -/

/-- HOST_BAR0_QUEUE_WRITE: dropped until the boot has completed step 5; bytes outside the areas are ignored. -/
def hostBar0QueueWrite (s : State) : State :=
  let off := s.arg.off
  let room := if off < 0x12000 then 0x12000 - off else 0x400000 - off
  match s.queueIa off with
  | none => s
  | some ia => if s.dev.ready != 5 then s else s.queueWrite ia (s.arg.bytes.take room)

/-- A completion counter set by the host: 48 bits. -/
def State.setCounter (s : State) (n : Nat) (v : DWord) : State :=
  if n < 4096 then { s with dev := { s.dev with counters := Map.put 0 s.dev.counters n (v &&& 0xFFFF_FFFF_FFFF) } } else s

def completionCounterWrite (s : State) : State := if s.fw.recovery then s else s.setCounter s.arg.num s.arg.v

/-- The bits of a classifier entry's word that are not reserved (R318). -/
def classifierBits (word : Nat) : DWord :=
  match word with
  | 0 => 0xF800_FFFF_0FFF_FFFF
  | 3 => 0x000F_FFFF_FFFF_FFFF
  | _ => 0xFFFF_FFFF_FFFF_FFFF

/-- A word of a classifier entry (R318). -/
def State.setClassifier (s : State) (n word : Nat) (v : DWord) : State :=
  if n < 1024 ∧ word < 4 then
    { s with dev := { s.dev with classifier := Map.put 0 s.dev.classifier (4 * n + word) (v &&& classifierBits word) } }
  else s

def classifierEntryWrite (s : State) : State :=
  if s.fw.recovery then s else s.setClassifier s.arg.num s.arg.word s.arg.v

/-- A word of a transmit queue register (R321). -/
def State.setTx (s : State) (n word : Nat) (v : DWord) : State :=
  if n < 64 ∧ word < 2 then
    { s with dev := { s.dev with txregs := Map.put 0 s.dev.txregs (2 * n + word) (v &&& 0x000F_FFFF_FFFF_FFFF) } }
  else s

def transmitQueueRegisterWrite (s : State) : State :=
  if s.fw.recovery then s else s.setTx s.arg.num s.arg.word s.arg.v

/-! ### What registers read as (R310-R313, R323, R324, R330, R389, R394) -/

def State.devinfo (s : State) : DWord :=
  fields [(37, s.dev.pkg.toNat), (32, s.dev.ready), (16, s.dev.absent.toNat), (8, s.dev.sku.toNat), (0, s.dev.rev.toNat)]

def State.ptpstat (s : State) : DWord :=
  fields [(32, s.ptp.offs.toNat), (2, if s.ptp.bc then 1 else 0), (1, if s.ptp.ever then 1 else 0), (0, if s.ptp.lock then 1 else 0)]

/-- An aligned 64-bit read of BAR0's registers; an offset outside the listed ranges reads as zero, as the launch queues do
before step 5: after it they are memory (`hostRead`). Nothing answers in recovery mode, and LAUNCHCTL reads as zero. -/
def State.bar0Read (s : State) (off : Nat) : DWord :=
    if s.fw.recovery then 0
    else if off == 0 then s.devinfo
    else if off == 0x08 then s.dev.winbase
    else if off == 0x10 then BitVec.ofNat 64 s.dev.lqia
    else if off == 0x18 then s.ptpstat
    else if off == 0x28 then s.dev.portabs.setWidth 64
    else if 0x20000 ≤ off ∧ off < 0x28000 then Map.look 0 s.dev.counters ((off - 0x20000) / 8)
    else if 0x40000 ≤ off ∧ off < 0x48000 then Map.look 0 s.dev.classifier ((off - 0x40000) / 8)
    else if 0x48000 ≤ off ∧ off < 0x48400 then Map.look 0 s.dev.txregs ((off - 0x48000) / 8)
    else 0

/-- A 64-bit read of the debug block; a stop record that is not valid reads as zero (R324, R330). -/
def Debug.read (d : Debug) (off : Nat) : DWord :=
  if off == 0 then
    fields [(16, d.stops.length), (12, if d.ovf then 1 else 0), (8, d.srec), (3, if d.frozen then 1 else 0), (0, if d.en then 1 else 0)]
  else if 0x40 ≤ off ∧ off < 0x80 then Map.look 0 d.bps ((off - 0x40) / 8)
  else if 0x80 ≤ off ∧ off < 0xC0 then
    if off % 16 == 0 then Map.look 0 d.wbase ((off - 0x80) / 16) else Map.look 0 d.wctl ((off - 0x80) / 16)
  else if off == 0xC0 then d.trctl
  else if off == 0xC8 then d.trbase
  else if off == 0xD0 then d.trsize
  else if off == 0xD8 then d.trptr
  else if off == 0xE0 then d.serctl
  else if off == 0xE8 then d.serbase
  else if off == 0xF0 then d.sersize
  else if 0x100 ≤ off ∧ off < 0x500 then (d.stops.getD ((off - 0x100) / 64) []).getD ((off - 0x100) / 8 % 8) 0
  else 0

/-- A 32-bit read of the recovery mailbox (R394); no command is ever found running. -/
def Firmware.read (f : Firmware) (off : Nat) : Word :=
  if off == 0 then BitVec.ofNat 32 (f.result * 256 + f.reason * 16 + f.step)
  else if off == 4 then f.argReg.setWidth 32 <<< 8
  else if 0x10 ≤ off ∧ off < 0x110 then BitVec.ofNat 32 (leNat ((f.rdata.drop (off - 0x10)).take 4))
  else 0

/-- A 64-bit read of a port's dropped-write log (R389); zero for a port without one. -/
def Logs.dropRead (l : Logs) (port off : Nat) : DWord :=
  match l.drops.find? fun d => d.1 == port with
  | none => 0
  | some (_, n, iso, dia) =>
    if off == 0 then fields [(40, port), (32, dia.length), (0, n)]
    else if off == 8 then BitVec.ofNat 64 iso
    else if off < 0x210 then BitVec.ofNat 64 (dia.getD ((off - 0x10) / 8) 0)
    else 0

/-- A host read of memory, served at the homes once no request of its lines waits there; homes that a freeze holds serve none
(R328). `owned`: in a channel group of some domain (R314). -/
def State.hostRead (s : State) (ia n : Nat) (owned : Bool) : State :=
  let lines := (spanLines ia n).map (·.1)
  if lines.any fun a => s.regionAt a != .hbm then s.unsupported true
  else if s.homesHold then s
  else match lines.find? fun a => (s.xlatFault a).isSome with
    | some a => (s.hostFault a).answer .abort
    | none =>
      match lines.findSome? fun a => (s.errorAt none a).map fun r => (a, r) with
      | some e => s.hostError e.1 e.2
      | none =>
      if owned && lines.any fun a => (s.ownerDom a).isNone then s.unsupported true
      else if lines.any fun a => !s.lineFree a then s
      else
        let xs := spanLines ia n
        (xs.foldl (fun s x => s.touchL2 none x.1 x.2.2 false) s).answer
          (.data (xs.flatMap fun x => s.readIA x.1 x.2.2) (xs.any fun x => s.badIA x.1 x.2.2))

/-- A 64-bit word of a log of records of `n` words. -/
def recordWord (log : List (List DWord)) (n off : Nat) : DWord := (log.getD (off / (8 * n)) []).getD (off / 8 % n) 0

/-- What the service firmware's mailbox reports, at offsets of the model's own (log 62): WINBASE, LQIA, RSVSZ in bytes (R8), the
invalidates that have not completed (R136), what `firmwareWrite` set, and its logs, each with its number of records: kill
records (R351), error records (R381), fault records (R363), and the ports' dropped-write logs (R389). -/
def State.firmwareRead (s : State) (off : Nat) : DWord :=
  if off == 0x08 then s.dev.winbase
  else if off == 0x10 then BitVec.ofNat 64 s.dev.lqia
  else if off == 0x18 then BitVec.ofNat 64 (s.dev.rsvsz * 2 ^ 21)
  else if off == 0x28 then BitVec.ofNat 64 s.xlat.invals.length
  else if off == 0x30 then BitVec.ofNat 64 s.logs.kills.length
  else if off == 0x38 then BitVec.ofNat 64 s.logs.errors.length
  else if off == 0x40 then BitVec.ofNat 64 s.logs.faults.length
  else if 0x1000 ≤ off ∧ off < 0x1200 then BitVec.ofNat 64 (Map.look 255 s.dev.lqdom ((off - 0x1000) / 8))
  else if 0x2000 ≤ off ∧ off < 0x2080 then BitVec.ofNat 64 (Map.look 0 s.dev.ways ((off - 0x2000) / 8))
  else if 0x3000 ≤ off ∧ off < 0x4000 then Map.look 0 s.dev.imports ((off - 0x3000) / 8)
  else if 0x5000 ≤ off ∧ off < 0x6000 then Map.look 0 s.dev.windows ((off - 0x5000) / 8)
  else if 0x10000 ≤ off ∧ off < 0x15000 then s.logs.dropRead ((off - 0x10000) / 0x400) ((off - 0x10000) % 0x400)
  else if 0x1000_0000 ≤ off ∧ off < 0x2000_0000 then recordWord s.logs.kills 4 (off - 0x1000_0000)
  else if 0x2000_0000 ≤ off ∧ off < 0x3000_0000 then recordWord s.logs.errors 8 (off - 0x2000_0000)
  else if 0x3000_0000 ≤ off then recordWord (s.logs.faults.map (·.2)) 8 (off - 0x3000_0000)
  else 0

/-- The data of a register read: 64 bits, of the recovery mailbox 32. -/
def State.registerBytes (s : State) (off : Nat) : List Byte :=
  match s.arg.space with
  | .bar0 => leBytes 8 (s.bar0Read off).toNat
  | .debug => leBytes 8 (s.dbg.read off).toNat
  | .recovery => leBytes 4 (s.fw.read off).toNat
  | .firmware => leBytes 8 (s.firmwareRead off).toNat
  | .peer => leBytes 8 (Map.look 0 s.dev.allow (off / 8))

/-- A read of a register. A launch queue's block or ring is memory, read at its home (R310); in recovery mode only the
recovery mailbox answers, and before its image is verified the service firmware answers nothing (R16). -/
def State.registerRead (s : State) : State :=
  let off := s.arg.off
  match s.arg.space, s.queueIa off with
  | .bar0, some ia =>
    if s.fw.recovery || !s.hostDrained then s
    else if s.dev.ready != 5 then s.answer (.data (List.replicate 8 0) false)
    else s.hostRead (ia / 8 * 8) 8 false
  | .firmware, _ => if s.serviceRuns then s.answer (.data (s.registerBytes off) false) else s
  | x, _ => if s.fw.recovery && x != .recovery then s else s.answer (.data (s.registerBytes off) false)

/-! ### BAR2 (R309, R314) -/

/-- HOST_BAR2_READ: a read of `size` bytes through BAR2. With `num` it is a request that a completer may refuse (R308); with
`flag2`, a read of the registers of `space` (log 62). -/
def hostBar2Read (s : State) : State :=
  let n := s.arg.size
  if s.arg.flag2 then s.registerRead
  else if s.fw.recovery || !s.hostDrained || n == 0 then s
  else if s.arg.num != 0 || decide (2 ^ 36 < s.arg.off + n) then s.unsupported true
  else s.hostRead (s.dev.winbase.toNat + s.arg.off) n true

/-- HOST_BAR2_WRITE: posted writes. -/
def hostBar2Write (s : State) : State :=
  let bs := s.arg.bytes
  if s.fw.recovery then s
  else if 2 ^ 36 < s.arg.off + bs.length then s.unsupported false
  else s.hostWrite (s.dev.winbase.toNat + s.arg.off) bs

/-! ### REGISTER_WRITE (R3, R4) -/

/-- A write to BAR0's registers; RO and unlisted offsets ignore it. -/
def State.bar0Write (s : State) (off : Nat) (v : DWord) : State :=
  if off == 0x20 then s.launchctl v
  else if 0x20000 ≤ off ∧ off < 0x28000 then s.setCounter ((off - 0x20000) / 8) v
  else if 0x40000 ≤ off ∧ off < 0x48000 then s.setClassifier ((off - 0x40000) / 32) ((off - 0x40000) / 8 % 4) v
  else if 0x48000 ≤ off ∧ off < 0x48400 then s.setTx ((off - 0x48000) / 16) ((off - 0x48000) / 8 % 2) v
  else s

/-- A write to the debug block's registers, but for CMD (`debugBlockWrite`). The bits of TRCTL and SERCTL that R331 and R332
do not name are taken as reserved: a write ignores them and they read as zero (log 98). -/
def Debug.write (d : Debug) (off : Nat) (v : DWord) : Debug :=
  if off == 0 then { d with ovf := d.ovf && !v.getLsbD 12, srec := (v.extractLsb' 8 4).toNat }
  else if 0x40 ≤ off ∧ off < 0x80 then { d with bps := Map.put 0 d.bps ((off - 0x40) / 8) (v &&& 0x81FF_FFFF_FFFF_FFF8) }
  else if 0x80 ≤ off ∧ off < 0xC0 then
    let n := (off - 0x80) / 16
    if off % 16 == 0 then { d with wbase := Map.put 0 d.wbase n v } else { d with wctl := Map.put 0 d.wctl n (v &&& 0xE000_0000_0000_003F) }
  else if off == 0xC0 then { d with trctl := v &&& 0xF1 }
  else if off == 0xC8 then { d with trbase := v }
  else if off == 0xD0 then { d with trsize := v }
  else if off == 0xD8 then { d with trptr := v }
  else if off == 0xE0 then { d with serctl := v &&& 0xFFFF_FFFF_FFFF_1F01 }
  else if off == 0xE8 then { d with serbase := v, serpos := 0 }
  else if off == 0xF0 then { d with sersize := v, serpos := 0 }
  else d

/-! The latch times of the performance series (R332) -/

def Debug.latchK (d : Debug) : Nat := (d.serctl.extractLsb' 8 5).toNat
/-- P = ⌈2^k × 5 / 7⌉ ns. -/
def Debug.latchP (d : Debug) : Nat := (2 ^ d.latchK * 5 + 6) / 7
def Debug.latchT0 (d : Debug) : Nat := (d.serctl.extractLsb' 16 48).toNat * 65536
/-- The time of latch `n`. -/
def Debug.latchAt (d : Debug) (n : Nat) : Nat := d.latchT0 + n * d.latchP

/-- The latches that have passed by a time. -/
def Debug.latchesBy (d : Debug) (t : Nat) : Nat := if t < d.latchT0 then 0 else (t - d.latchT0) / d.latchP + 1

/-- A write to the debug block; writing SERCTL, the next latch is the first that lies ahead. -/
def State.debugWrite (s : State) (off : Nat) (v : DWord) : State :=
  let d := s.dbg.write off v
  { s with dbg := if off == 0xE0 then { d with seq := d.latchesBy s.dtime } else d }

/-- A 32-bit write to RDATA of the recovery mailbox; other read-only words ignore it. -/
def Firmware.write (f : Firmware) (off : Nat) (v : Word) : Firmware :=
  if 0x10 ≤ off ∧ off < 0x110 then
    let i := (off - 0x10) / 4 * 4
    { f with rdata := f.rdata.take i ++ leBytes 4 v.toNat ++ f.rdata.drop (i + 4) }
  else f

/-- What the firmware sets (R310, R304, R316, R317), at offsets of the model's own: WINBASE and LQIA as in BAR0, the PTP
configuration (R322), the domains of the launch queues, ways of the L2 slices (R295, R319), import windows, mediated windows
(which take effect where the root firmware grants them: `flag`, R13, log 91), and the routing table. -/
def State.firmwareWrite (s : State) (off : Nat) (v : DWord) : State :=
  if off == 0x08 then { s with dev := { s.dev with winbase := v &&& 0xFFFF_FFF0_0000_0000 } }
  else if off == 0x10 then { s with dev := { s.dev with lqia := v.toNat / 128 * 128 } }
  else if off == 0x20 then { s with ptp := { s.ptp with
    bc := v.getLsbD 0, twoStep := v.getLsbD 1, peerDelay := v.getLsbD 2, transport := (v.extractLsb' 3 2).toNat } }
  else if 0x2000 ≤ off ∧ off < 0x2080 then
    if v == 0 || v == 2 || v == 4 then { s with dev := { s.dev with ways := Map.put 0 s.dev.ways ((off - 0x2000) / 8) v.toNat } } else s
  else if 0x5000 ≤ off ∧ off < 0x6000 then
    if s.arg.flag then { s with dev := { s.dev with windows := Map.put 0 s.dev.windows ((off - 0x5000) / 8) v } } else s
  else if 0x1000 ≤ off ∧ off < 0x1200 then { s with dev := { s.dev with lqdom := Map.put 255 s.dev.lqdom ((off - 0x1000) / 8) v.toNat } }
  else if 0x3000 ≤ off ∧ off < 0x4000 then { s with dev := { s.dev with imports := Map.put 0 s.dev.imports ((off - 0x3000) / 8) v } }
  else if 0x8000 ≤ off ∧ off < 0xC000 then
    let p := (off - 0x8000) / 8
    let rest := s.dev.routed.filter fun x => x.1 != p
    { s with dev := { s.dev with routed := if v.toNat < 18 then rest ++ [(p, v.toNat)] else rest } }
  else s

/-- The receiver of a port's virtual lane returns allowance: key 4 × port + lane (R316); an isolated port holds none (R387). -/
def State.returnAllowance (s : State) (key n : Nat) : State :=
  if key < 72 && !s.dev.isolated.contains (key / 4) then { s with dev := { s.dev with allow := Map.put 0 s.dev.allow key (Map.look 0 s.dev.allow key + n) } } else s

/-! ### The meanings -/

def execHostAtomicop (s : State) : Host.Outcome State Fault Refusal := .next (hostAtomicop s)
def execHostBar2Read (s : State) : Host.Outcome State Fault Refusal := .next (hostBar2Read s)
def execHostBar2Write (s : State) : Host.Outcome State Fault Refusal := .next (hostBar2Write s)
def execHostBar0QueueWrite (s : State) : Host.Outcome State Fault Refusal := .next (hostBar0QueueWrite s)
def execCompletionCounterWrite (s : State) : Host.Outcome State Fault Refusal := .next (completionCounterWrite s)
def execClassifierEntryWrite (s : State) : Host.Outcome State Fault Refusal := .next (classifierEntryWrite s)
def execTransmitQueueRegisterWrite (s : State) : Host.Outcome State Fault Refusal := .next (transmitQueueRegisterWrite s)

end Sys2Proof.Machine
end

