-- ==== Sys2Proof/Machine/Debug.lean ====
section
/-! DEFINITION. Halt, resume, step and the performance series (spec/17_debug.md R324-R333, spec/19_memfaults.md R367). -/

namespace Sys2Proof.Machine

/-! ### Halt and resume (R325, R328, R329) -/

/-- The fragment whose next word a group's stop names: the one that runs the trap handler, else the one that issues next, else
the lowest entry that is not parked; none of a group with every fragment parked (R358, R367). -/
def Group.nextWord (g : Group) (det : Bool) : Option (Nat × Frag) :=
  match g.trap with
  | some fid => g.frags.find? fun x => x.2.fid == fid
  | none =>
    match g.pick det with
    | some x => some x
    | none => g.frags.find? fun x => (match x.2.st with | .parked _ => false | _ => true)

/-- The stop records of every group, with CAUSE 4. -/
def State.haltRecords (s : State) : List ((Nat × Nat) × List DWord) :=
  s.wgs.flatMap fun w => w.groups.filterMap fun g => (g.nextWord (s.detOf w)).map fun x =>
    ((w.run, g.grp), s.stopRecord w g x.1 x.2 4 x.2.pc 0 0 0)

/-- DEBUG_HALT: CMD = 1. -/
def debugHalt (s : State) : State :=
  if !s.dbg.en || s.dbg.frozen || s.fw.recovery then s
  else { s with dbg := { s.haltRecords.foldl (fun d x => d.addStop x.1 x.2) s.dbg with frozen := true, frozenAt := s.dtime, unfrozen := false } }

/-- Graces and the wait of a class-0 launch go on without the frozen time that passed over them: from the freeze at `at_`, or
from their own start where that lies later, to `now` (R328). -/
def Launch.thaw (l : Launch) (at_ now : Nat) : Launch :=
  { l with
    drainAt := l.drainAt.map fun t => t + (now - max at_ t)
    readyAt := if l.readyAt == 0 then 0 else l.readyAt + (now - max at_ l.readyAt) }

/-- DEBUG_RESUME: CMD = 2. Every unit goes on, and FAULT_RESOLVE commands given meanwhile take effect (R367). -/
def debugResume (s : State) : State :=
  if !s.dbg.frozen || s.fw.recovery then s
  else
    let late := s.dbg.deferred
    let s := { s with
      launches := s.launches.map fun l => l.thaw s.dbg.frozenAt s.dtime
      dbg := { s.dbg with
        frozen := false, unfrozen := false, stops := [], stopped := [], halted := [], stepping := none, stepDone := false, stepFid := none
        deferred := [] } }
    late.foldl (fun s x => if x.1 then s.resolveAbort x.2.1 x.2.2 else s.resolveReplay x.2.1 x.2.2) s

/-! ### Step (R329) -/

/-- DEBUG_STEP: CMD = 3, of the group whose stop record SREC names. -/
def debugStep (s : State) : State :=
  if !s.dbg.frozen || s.dbg.stepping.isSome || s.fw.recovery then s
  else { s with dbg := { s.dbg with
    stepping := s.dbg.stopped[s.dbg.srec]?, stepDone := false, stepFid := none, stepFrom := s.fresh, unfrozen := false } }

/-- An access of the step has nothing left that a home must serve; a monitored wait has reached its sector. -/
def Access.served (a : Access) : Bool :=
  a.parts.all fun p => match p.st with | .served | .done | .faulted _ => true | .walked => a.kind == .waitm | _ => false

/-- The homes have served the accesses of the step. -/
def State.stepServed (s : State) (run grp : Nat) : Bool :=
  match s.group? run grp with
  | some g => g.accs.all fun a => decide (a.id < s.dbg.stepFrom) || a.served
  | none => true

/-- The fragment that a step has run, or the one whose word is next where it is gone. -/
def State.steppedWord (s : State) (w : Workgroup) (g : Group) : Option (Nat × Frag) :=
  match g.frags.find? fun x => s.dbg.stepFid == some x.2.fid with
  | some x => some x
  | none => g.nextWord (s.detOf w)

/-- The step ends: the group's record takes CAUSE 5 and its next word. -/
def State.stepEnds (s : State) (run grp : Nat) : State :=
  let ended : Debug := { s.dbg with stepping := none, stepDone := false, stepFid := none }
  match s.wg? run, s.group? run grp with
  | some w, some g =>
    match s.steppedWord w g with
    | some x => { s with dbg := s.dbg.setStop (run, grp) (s.stopRecord w g x.1 x.2 5 x.2.pc 0 0 0) }
    | none => { s with dbg := ended }
  | _, _ => { s with dbg := ended }

/-- DEBUG_STEP_COMPLETE: the instruction has issued and the homes have served its accesses, or it blocks, or the group has no
word to try. -/
def debugStepComplete (s : State) : State :=
  match s.dbg.stepping with
  | none => s
  | some (run, grp) =>
    let idle := match s.wg? run, s.group? run grp with
      | some w, some g => !(g.frags.any (g.mayGo (s.detOf w)))
      | _, _ => true
    if (s.dbg.stepDone || idle) && s.stepServed run grp then s.stepEnds run grp else s

/-! ### A write to the debug block (R3, R324) -/

/-- A command of DBGCTL's CMD field: 1 halt, 2 resume, 3 step. -/
def State.debugCommand (s : State) (cmd : Nat) : State :=
  match cmd with
  | 1 => debugHalt s
  | 2 => debugResume s
  | 3 => debugStep s
  | _ => s

/-- A host's write to the debug block: the fields are set, and a write of DBGCTL runs its CMD with the SREC that it sets. -/
def State.debugBlockWrite (s : State) (off : Nat) (v : DWord) : State :=
  let s := s.debugWrite off v
  if off == 0 then s.debugCommand (v.extractLsb' 1 2).toNat else s

/-! ### The performance series (R332, R333) -/

/-- Units in the order of their records: DIE, KIND, UNIT. -/
def seriesUnits : List (Nat × Nat × Nat) :=
  ([0, 1, 2, 3].flatMap fun d => (List.range 144).map (fun u => (d, 0, u)) ++ (List.range 48).map fun u => (d, 1, u))
    ++ (List.range 8).map (fun u => (0, 2, u)) ++ (List.range 23).map fun u => (0, 3, u)

/-- The counters of a KIND that are not stated to be 0. -/
def seriesWidth (kind : Nat) : Nat := match kind with | 0 => 12 | 1 => 8 | 2 => 5 | _ => 4

/-- What the model cannot count (log 49): the recalls of a slice, and the flits of a port that carries none of the trellis's. -/
def uncounted (kind unit i : Nat) : Bool := (kind == 1 && i == 3) || (kind == 3 && decide (18 ≤ unit) && decide (i < 3))

/-- Slots of a core that issued nothing for no stated reason: those of its eight partitions since the last latch, less the rest. -/
def State.emptySlots (s : State) (unit : Nat) : Nat :=
  8 * (s.cyc - s.dbg.latchCyc) - [0, 2, 3, 4, 5].foldl (fun n i => n + Map.look 0 s.dbg.perf (12 * unit + i)) 0

/-- A counter latched: the count since the last latch, at most 2^32 − 1. -/
def State.latched (s : State) (n idx : Nat) (u : Nat × Nat × Nat) (i : Nat) : Nat :=
  if seriesWidth u.2.1 ≤ i then 0
  else if uncounted u.2.1 u.2.2 i then (Config.seriesCount n idx i).toNat
  else min (2 ^ 32 - 1) (if u.2.1 == 0 && i == 1 then s.emptySlots idx else Map.look 0 s.dbg.perf (12 * idx + i))

/-- The record of a unit at latch `n`. -/
def State.seriesRecord (s : State) (n idx : Nat) (u : Nat × Nat × Nat) : List Byte :=
  leBytes 8 (s.dbg.latchAt n) ++ leBytes 8 (fields [(32, n % 2 ^ 32), (30, u.1), (16, u.2.1), (0, u.2.2)]).toNat
    ++ (List.range 12).flatMap fun i => leBytes 4 (s.latched n idx u i)

/-- SERIES_LATCH: DTIME has reached the next latch, `n`; records of the latch before that are not written are given up. -/
def seriesLatch (s : State) : State :=
  let d := s.dbg
  let n := d.seq
  if !d.serctl.getLsbD 0 || decide (d.latchK < 10) || decide (24 < d.latchK) || decide (d.latchesBy s.dtime ≤ d.seq) || decide (d.sersize.toNat < 64) then s
  else
    let s := { s with msgs := s.msgs.filter fun m => !(m.use_ == MsgUse.series && m.part.unanswered) }
    let s := (seriesUnits.zipIdx).foldl (fun s u =>
      let next := s.dbg.serpos + 64
      let r := s.seriesRecord n u.2 u.1
      { s with dbg := { s.dbg with serpos := if d.sersize.toNat < next + 64 then 0 else next } }.post .series (d.serbase.toNat + s.dbg.serpos) r) s
    { s with dbg := { s.dbg with seq := n + 1, perf := [], latchCyc := s.cyc } }

/-! ### The meanings -/

def execDebugHalt (s : State) : Host.Outcome State Fault Refusal := .next (debugHalt s)
def execDebugResume (s : State) : Host.Outcome State Fault Refusal := .next (debugResume s)
def execDebugStep (s : State) : Host.Outcome State Fault Refusal := .next (debugStep s)
def execDebugStepComplete (s : State) : Host.Outcome State Fault Refusal := .next (debugStepComplete s)
def execSeriesLatch (s : State) : Host.Outcome State Fault Refusal := .next (seriesLatch s)

end Sys2Proof.Machine
end

