-- ==== Sys2Proof/Machine/Ecdsa.lean ====
section
/-! DEFINITION. ECDSA on curve P-384 with SHA-384 (spec/01_device.md R14), the scheme of FIPS 186-5 that the spec names. The
curve's constants are those of that standard; the form of a signature is the model's (log 5). -/

namespace Sys2Proof.Machine

/-- The field's prime. -/
def p384 : Nat := 2 ^ 384 - 2 ^ 128 - 2 ^ 96 + 2 ^ 32 - 1

/-- The order of the base point. -/
def order384 : Nat := 0xFFFFFFFFFFFFFFFFFFFFFFFFFFFFFFFFFFFFFFFFFFFFFFFFC7634D81F4372DDF581A0DB248B0A77AECEC196ACCC52973

/-- A point of the curve, `none` the point at infinity. -/
abbrev Point := Option (Nat × Nat)

/-- The base point. -/
def base384 : Point := some (
  0xAA87CA22BE8B05378EB1C71EF320AD746E1D3B628BA79B9859F741E082542A385502F25DBF55296C3A545E3872760AB7,
  0x3617DE4A96262C6F5D9E98BF9292DC29F8F41DBD289A147CE9DA3113B5F0B8C00A60B1CE1D7E819D7A431D7C90EA0E5F)

/-- `x ^ e` modulo `m`, over the low `n` bits of `e`. -/
def powMod (m x e : Nat) : (n : Nat) → Nat
  | 0 => 1
  | n + 1 =>
    let y := powMod m x (e / 2) n
    y * y % m * (if e % 2 == 1 then x else 1) % m

/-- The inverse modulo a prime. -/
def invMod (m x : Nat) : Nat := powMod m x (m - 2) 384

/-- The third point of a chord or tangent of slope `k`, mirrored. -/
def Point.third (k x1 y1 x2 : Nat) : Point :=
  let x := (k * k + 2 * p384 - x1 - x2) % p384
  some (x, (k * (x1 + p384 - x) + p384 - y1) % p384)

/-- The sum of two points of y² = x³ − 3 x + b. -/
def Point.add : Point → Point → Point
  | none, q => q
  | p, none => p
  | some (x1, y1), some (x2, y2) =>
    if x1 != x2 then Point.third ((y2 + p384 - y1) * invMod p384 ((x2 + p384 - x1) % p384) % p384) x1 y1 x2
    else if (y1 + y2) % p384 == 0 then none
    else Point.third ((3 * x1 * x1 + p384 - 3) * invMod p384 (2 * y1 % p384) % p384) x1 y1 x1

/-- `k` times a point, over the low `n` bits of `k`. -/
def Point.times (q : Point) (k : Nat) : (n : Nat) → Point
  | 0 => none
  | n + 1 =>
    let y := Point.times q (k / 2) n
    let z := Point.add y y
    if k % 2 == 1 then Point.add z q else z

/-- The big-endian value of a string of bytes, and 48 bytes of a value. -/
def beNat (bs : List Byte) : Nat := bs.foldl (fun n b => n * 256 + b.toNat) 0
def beBytes48 (n : Nat) : List Byte := (leBytes 48 n).reverse

/-- The digest that ECDSA signs. -/
def digest384 (bs : List Byte) : Nat := beNat (sha384 bs)

/-- A signature (r, s) of a message under a public key. -/
def ecdsaVerify (key : Nat × Nat) (msg : List Byte) (sig : Nat × Nat) : Bool :=
  let inside (x : Nat) : Bool := decide (0 < x) && decide (x < order384)
  let w := invMod order384 sig.2
  let at_ := Point.add (Point.times base384 (digest384 msg * w % order384) 384) (Point.times (some key) (sig.1 * w % order384) 384)
  inside sig.1 && inside sig.2 && (match at_ with | some (x, _) => x % order384 == sig.1 | none => false)

/-- The signature of a message with private key `d` and the secret number `k`. -/
def ecdsaSign (d k : Nat) (msg : List Byte) : Nat × Nat :=
  let r := (match Point.times base384 k 384 with | some (x, _) => x | none => 0) % order384
  (r, invMod order384 k * (digest384 msg + r * d) % order384)

/-- A signature as bytes: r, then s, each of 48 bytes, most significant first (log 5). -/
def signatureBytes (x : Nat × Nat) : List Byte := beBytes48 x.1 ++ beBytes48 x.2

/-- The signature of an image of kind 1-3 holds with the key that its boot step uses (R14, R394), and a root extension has at
most 64 KiB (R13). -/
def imageOk (kind : Nat) (image : List Byte) : Bool :=
  (kind != 1 || decide (image.length ≤ 65536)) &&
    ecdsaVerify (Config.publicKey kind) (Config.signed image).1 (Config.signed image).2

/-- The signature with the identity key (R13, R14). -/
def identitySign (msg : List Byte) : List Byte := signatureBytes (ecdsaSign Config.identityKey (Config.secret msg) msg)

end Sys2Proof.Machine
end

