-- ==== Sys2Proof/Machine/Move.lean ====
section
/-! DEFINITION. Moves, special registers, masks and single lanes: class 2 (spec/05_catalogue.md R85-R89,
spec/03_encoding.md R41-R44). -/

namespace Sys2Proof.Machine

def bodyMov (c : Ctx) : Out := c.lanewise fun i => (c.src 0 i, 0)
def bodyMovi (c : Ctx) : Out := c.values fun i => (c.src 1 i).v
/-- SEL: a where the mask bit is 1, else b; the scalar form tests the lowest selected lane. -/
def bodySel (c : Ctx) : Out := c.lanewise fun i => (if (c.g.mask c.cnum).getLsbD i then c.src 0 i else c.src 1 i, 0)

/-- PTPT of a DTIME reading: seconds modulo 2^34 and nanoseconds (R323). -/
def ptpOf (t : Nat) : DWord := BitVec.ofNat 64 (t / 1000000000 % 2 ^ 34 * 2 ^ 30 + t % 1000000000)

/-- GSTAT (R44). -/
def Ctx.gstat (c : Ctx) : Nat :=
  (if c.g.lostj then 1 else 0) + (if c.g.trap.isSome then 2 else 0) + (if c.w.pend then 4 else 0)

/-- The bits of TINFO and of TMASK that are no reserved field: R349 reserves some of each while TCODE is ACCBUSY. -/
def Group.infoBits (g : Group) : DWord := if g.tcode == 0x0B then ~~~(3 <<< 57) else ~~~0
def Group.lanesBits (g : Group) : DWord := if g.tcode == 0x0B then ~~~(0x7F <<< 25 ||| 0x7F <<< 9) else ~~~0

/-- The value of special register `n` in a lane (R41, R86). -/
def Ctx.special (c : Ctx) (n lane : Nat) : DWord :=
  let t := c.s.now (coreDie c.w.core)
  match n with
  | 0x00 => c.f.exec
  | 0x01 => c.g.wid.at lane
  | 0x02 => c.l.widths.setWidth 64
  | 0x03 => BitVec.ofNat 64 lane
  | 0x04 => BitVec.ofNat 64 c.g.grp
  | 0x05 => BitVec.ofNat 64 c.w.wgx
  | 0x06 => BitVec.ofNat 64 (coreIdx c.w.core)
  | 0x07 => BitVec.ofNat 64 (coreClu c.w.core)
  | 0x08 => BitVec.ofNat 64 (coreDie c.w.core)
  | 0x09 => c.g.flags.setWidth 64
  | 0x0A => (c.g.spos.at lane).setWidth 64
  | 0x0B => (c.g.ord.at lane).setWidth 64
  | 0x0C => BitVec.ofNat 64 c.w.lvl
  | 0x0D => BitVec.ofNat 64 c.g.lclk
  | 0x0E => BitVec.ofNat 64 t
  | 0x0F => ptpOf t
  | 0x10 => c.g.sig.setWidth 64
  | 0x11 => BitVec.ofNat 64 c.g.accb
  | 0x12 => BitVec.ofNat 64 c.g.accl
  | 0x13 => c.g.tpc
  | 0x14 => c.g.tcode.setWidth 64
  | 0x15 => c.g.tinfo &&& c.g.infoBits
  | 0x16 => c.g.tmask &&& c.g.lanesBits
  | 0x17 => BitVec.ofNat 64 c.l.ktan
  | 0x18 => BitVec.ofNat 64 c.gstat
  | _ => c.f.link

/-- Whether an earlier instruction of the group has still to write back flags (R86): a pending long-latency result, or an
MMA in the press queue. -/
def Ctx.flagsPending (c : Ctx) : Bool :=
  !c.g.longs.isEmpty || (c.s.core c.w.core).press.any fun p => p.wg == c.w.run && p.grp == c.g.grp && p.mma

/-- RDSR; that of FLAGS waits for the flags of every earlier instruction of the group. -/
def bodyRdsr (c : Ctx) : Out :=
  if c.anum == 0x09 && c.sel != 0 && c.flagsPending then .stall .other
  else c.values fun i => c.special c.anum i

/-- WRSR of special register `n` in the group (R86, R87). -/
def Ctx.writeSpecial (c : Ctx) (n : Nat) (x : DWord) : Group :=
  let g := c.g
  match n with
  | 0x00 => g.putFrag c.ent { c.f with exec := x &&& c.f.f, shadow := x &&& c.f.f }
  | 0x09 => { g with flags := x.setWidth 5 }
  | 0x10 => { g with sig := x.setWidth 32 }
  | 0x13 => { g with tpc := x }
  | 0x14 => { g with tcode := x.setWidth 32 }
  | 0x15 => { g with tinfo := x &&& g.infoBits }
  | 0x16 => { g with tmask := x &&& g.lanesBits }
  | 0x18 => { g with lostj := g.lostj && !x.getLsbD 0 }
  | _ => g.putFrag c.ent { c.f with link := x }

def bodyWrsr (c : Ctx) : Out := .regs (if c.sel == 0 then c.g else c.writeSpecial c.dnum (c.scalar 0)) 0

/-- MLOG: each result bit is T [2 a + b], T in mod [3:0] (R88). -/
def bodyMlog (c : Ctx) : Out :=
  let bit (m : Mask) (j : Nat) : Nat := if m.getLsbD j then 1 else 0
  let x := Mask.of fun j => (c.mods 0 4).testBit (2 * bit (c.g.mask c.anum) j + bit (c.g.mask c.bnum) j)
  .regs (if c.sel == 0 then c.g else c.g.setMask c.dnum x) 0

def bodyMrd (c : Ctx) : Out := c.values fun _ => c.g.mask c.anum
def bodyMwr (c : Ctx) : Out := .regs (if c.sel == 0 then c.g else c.g.setMask c.dnum (c.scalar 0)) 0

/-- The lane that LANERD and LANEWR name: the low six bits of b (R89). -/
def Ctx.laneIndex (c : Ctx) : Nat := (c.src 1 c.low).v.toNat % 64

def bodyLanerd (c : Ctx) : Out := c.lanewise fun _ => (c.src 0 c.laneIndex, 0)

/-- LANEWR writes its lane whether or not the lane is selected. -/
def bodyLanewr (c : Ctx) : Out :=
  let o := c.opnd 3
  .regs (if c.sel == 0 then c.g else c.g.writeV o.num o.n c.l.ktan c.k (Mask.bit c.laneIndex) fun _ => c.src 0 c.low) 0

/-! ### The meanings -/

def execMov (f : FR) (s : State) : Host.Outcome State Fault Refusal := .next (runWord (.fr 0x80 f) bodyMov s)
def execMovi (f : FI) (s : State) : Host.Outcome State Fault Refusal := .next (runWord (.fi 0x81 f) bodyMovi s)
def execSel (f : FR) (s : State) : Host.Outcome State Fault Refusal := .next (runWord (.fr 0x82 f) bodySel s)
def execRdsr (f : FR) (s : State) : Host.Outcome State Fault Refusal := .next (runWord (.fr 0x83 f) bodyRdsr s)
def execWrsr (f : FR) (s : State) : Host.Outcome State Fault Refusal := .next (runWord (.fr 0x84 f) bodyWrsr s)
def execMlog (f : FR) (s : State) : Host.Outcome State Fault Refusal := .next (runWord (.fr 0x85 f) bodyMlog s)
def execMrd (f : FR) (s : State) : Host.Outcome State Fault Refusal := .next (runWord (.fr 0x86 f) bodyMrd s)
def execMwr (f : FR) (s : State) : Host.Outcome State Fault Refusal := .next (runWord (.fr 0x87 f) bodyMwr s)
def execLanerd (f : FR) (s : State) : Host.Outcome State Fault Refusal := .next (runWord (.fr 0x88 f) bodyLanerd s)
def execLanewr (f : FR) (s : State) : Host.Outcome State Fault Refusal := .next (runWord (.fr 0x89 f) bodyLanewr s)

end Sys2Proof.Machine
end

