-- ==== Sys2Proof/Machine/Firmware.lean ====
section
/-! DEFINITION. Boot, recovery, the firmware's commands, and time (spec/01_device.md R11-R16, spec/20_reliability.md R387, R390,
R393, R394, spec/19_memfaults.md R374, spec/16_host.md R322, R323). -/

namespace Sys2Proof.Machine

/-! ### Boot (R16, R393) -/

/-- The boot stops in recovery mode. -/
def State.recover (s : State) (step reason : Nat) : State :=
  { s with fw := { s.fw with recovery := true, booted := false, step, reason }, dev := { s.dev with ready := step - 1 } }

/-- The package after a fundamental reset, before step 1: flash, staging and the content of memory stay. -/
def State.fundamental (s : State) : State :=
  { State.reset with
    agenda := s.agenda, fresh := s.fresh, mem := s.mem, bad := s.l2.foldl (fun b x => union b x.lostAt) s.bad
    fw := { rootExt := s.fw.rootExt, config := s.fw.config, services := s.fw.services } }

/-- Step 2: what the verified configuration record sets, its trims and its spare map among it. The spare map stands below the
instruction set, which sees logical positions only (R6). -/
def State.applyRecord (s : State) (r : ConfigRecord) : State :=
  { s with
    dev := { s.dev with
      ready := 2, pkg := r.pkg, sku := r.sku, rev := r.rev, rsvsz := r.rsvsz, spares := r.spares, trims := r.trims, licence := r.licence }
    dbg := { s.dbg with en := r.debugOn } }

/-- A configuration record that takes effect: its signature holds, and it is bound to this package (R15). -/
def recordOk (image : List Byte) : Bool := imageOk 2 image && (Config.record image).identity == Config.identity

/-- The service image in flash with a number; no bytes where flash has none. -/
def Firmware.serviceImage (f : Firmware) (n : Nat) : List Byte := (Map.get? f.services n).getD []

/-- Items that failed training, as the log names them: bits of ABSENT, and 32 + the number of a trellis port. -/
def failedItems (tr : Training) : List Nat :=
  ((List.range 16).filter fun i => (tr.absent &&& 0xFFF0).getLsbD i) ++ ((List.range 18).filter fun i => tr.trabs.getLsbD i).map (32 + ·)

/-- Steps 4 and 5: the outcome of training, which is logged, the start of the PTP servo, and the launch queues' place; the
service image was measured at step 3. -/
def State.trainAndEnable (s : State) (tr : Training) (image : List Byte) : State :=
  { s with
    dev := { s.dev with
      ready := 5, absent := tr.absent &&& 0xFFF0, portabs := tr.trabs, lqia := tr.lqia / 128 * 128, reserved := tr.reserved }
    ptp := { s.ptp with servo := true }
    logs := { s.logs with training := failedItems tr }
    fw := { s.fw with booted := true, measured := sha384 s.fw.rootExt ++ sha384 s.fw.config ++ sha384 image } }

/-- The boot from step 1. An image of no bytes is one that flash does not give. -/
def State.boot (s : State) (tr : Training) : State :=
  let s := s.fundamental
  if s.fw.rootExt.isEmpty then s.recover 1 4
  else if !imageOk 1 s.fw.rootExt then s.recover 1 1
  else if s.fw.config.isEmpty then s.recover 2 4
  else if !recordOk s.fw.config then s.recover 2 2
  else
    let r := Config.record s.fw.config
    let image := s.fw.serviceImage r.image
    let s := s.applyRecord r
    if image.isEmpty then s.recover 3 4
    else if !imageOk 3 image then s.recover 3 3
    else s.trainAndEnable tr image

def powerOnReset (s : State) : State := s.boot s.arg.tr

/-- RESET: the recovery mailbox's command 3. -/
def mailboxReset (s : State) : State := s.boot s.arg.tr

/-- The launch ends with FAULT once its workgroups have gone. -/
def Launch.killAll (l : Launch) : Launch :=
  match l.phase with
  | .completing | .recording | .done => l
  | .waiting | .counting | .holding => { l.fault none with phase := .completing }
  | _ => { l.fault none with phase := .draining, redo := [], late := [], runs := [], streams := [] }

/-- RUNTIME_MEASUREMENT_FAILURE: every launch is killed, and the device is in recovery mode. -/
def runtimeMeasurementFailure (s : State) : State :=
  if s.dev.ready != 5 then s
  else
    let s := s.wgs.foldl (fun s w => s.kill w.run (some w.wid0)) s
    let s := (s.launches.map (·.lid)).foldl (fun s n => (s.onLaunch n Launch.killAll).settlePhase n) s
    { s with fw := { s.fw with recovery := true, booted := false, step := 0, reason := 5 }, dev := { s.dev with ready := 0 }, ptp := { s.ptp with servo := false, lock := false } }

/-! ### The recovery mailbox (R394) -/

/-- Command 1, STAGE: RDATA at offset ARG of the staging buffer. -/
def State.stageAt (s : State) (arg : Nat) : State :=
  { s with fw := { s.fw with
      argReg := BitVec.ofNat 24 arg, result := 0, staging := Map.set s.fw.staging (arg % 2 ^ 24) s.fw.rdata } }

def stage (s : State) : State := s.stageAt s.arg.num

/-- The staged image, a block never staged read as zero. -/
def Firmware.image (f : Firmware) : List Byte :=
  let n := f.staging.foldl (fun n b => max n (b.1 + 1)) 0
  (List.range n).flatMap fun i => (Map.get? f.staging i).getD (List.replicate 256 0)

/-- The minimum version of an image kind that the verified configuration record holds. -/
def Firmware.minVersion (f : Firmware) (kind : Nat) : Nat :=
  if recordOk f.config then (Config.record f.config).minVersion.getD (kind - 1) 0 else 0

/-- RESULT of a COMMIT. -/
def Firmware.commitResult (f : Firmware) (kind : Nat) (fails : Bool) : Nat :=
  if kind == 0 || decide (3 < kind) then 4
  else if !imageOk kind f.image then 1
  else if Config.version f.image < f.minVersion kind then 2
  else if fails then 3
  else 0

/-- Command 2, COMMIT: the staged image of kind ARG goes to flash, or is refused and flash stays; `fails`: the write to flash
fails. -/
def State.commitAt (s : State) (arg : Nat) (fails : Bool) : State :=
  let kind := arg % 2 ^ 24
  let r := s.fw.commitResult kind fails
  let fw := { s.fw with argReg := BitVec.ofNat 24 kind, result := r }
  let fw := if r != 0 then fw
    else match kind with
      | 1 => { fw with rootExt := s.fw.image }
      | 2 => { fw with config := s.fw.image }
      | _ => { fw with services := Map.set fw.services (Config.imageNumber s.fw.image) s.fw.image }
  { s with fw }

def commit (s : State) : State := s.commitAt s.arg.num s.arg.flag

/-- A 32-bit write to the recovery mailbox: at 0x04, ARG is set and the command in RCMD runs, or RESULT says that there is none
(R394). -/
def State.mailboxWrite (s : State) (off : Nat) (v : Word) : State :=
  if off == 4 then
    let arg := (v.extractLsb' 8 24).toNat
    match (v.extractLsb' 0 8).toNat with
    | 1 => s.stageAt arg
    | 2 => s.commitAt arg s.arg.flag
    | 3 => s.boot s.arg.tr
    | _ => { s with fw := { s.fw with argReg := BitVec.ofNat 24 arg, result := 4 } }
  else { s with fw := s.fw.write off v }

/-- REGISTER_WRITE: the space says whose register it is; `peer` stands for a receiver at a package port. -/
def registerWrite (s : State) : State :=
  match s.arg.space with
  | .recovery => s.mailboxWrite s.arg.off (s.arg.v.setWidth 32)
  | .bar0 => if s.fw.recovery then s else s.bar0Write s.arg.off s.arg.v
  | .debug => if s.fw.recovery then s else s.debugBlockWrite s.arg.off s.arg.v
  | .firmware => if s.serviceRuns then s.firmwareWrite s.arg.off s.arg.v else s
  | .peer => s.returnAllowance (s.arg.off / 8) s.arg.v.toNat

/-! ### Attestation and domains (R12, R14) -/

/-- ATTESTATION_REQUEST: the measurements of R14 and the nonce, with the signature right behind them (log 5). -/
def attestationRequest (s : State) : State :=
  if s.fw.recovery || !s.fw.booted || s.arg.bytes.length != 48 then s
  else
    let m := s.fw.measured ++ s.arg.bytes
    { s with fw := { s.fw with responses := s.fw.responses ++ [m ++ identitySign m] } }

def disjoint (a b : List Nat) : Bool := !(a.any b.contains)

/-- Two rows share no cluster, slice or channel group. -/
def rowsApart (a b : DomainRow) : Bool :=
  disjoint a.clusters b.clusters && disjoint a.slices b.slices && disjoint a.groups b.groups

/-- A row that may become effective: its parts exist, none belongs to another domain, none to an absent stack (R12, R312), and the latency class
is licensed (R1, R15). -/
def State.rowFits (s : State) (dom : Nat) (r : DomainRow) : Bool :=
  decide (dom < 8) && r.clusters.all (fun c => decide (c < 48)) && r.slices.all (fun c => decide (c < 192)) && r.groups.all (fun c => decide (c < 32))
    && r.groups.all (fun c => !s.dev.absent.getLsbD (8 + c / 4)) && (!r.latency || (s.dev.sku == 3 && s.dev.licence)) && s.dev.domains.all fun x => x.1 == dom || rowsApart r x.2

/-- DOMAIN_TABLE_WRITE: the service firmware writes a row; `flag`: the root firmware approves it, and it takes effect. -/
def domainTableWrite (s : State) : State :=
  let dom := s.arg.dom
  let rest := s.dev.wanted.filter fun x => x.1 != dom
  if !s.serviceRuns then s
  else if s.arg.flag && s.rowFits dom s.arg.row then
    { s with dev := { s.dev with domains := Map.put {} s.dev.domains dom s.arg.row, wanted := rest } }
  else { s with dev := { s.dev with wanted := rest ++ [(dom, s.arg.row)] } }

/-! ### Mailbox commands (R374, R387, R390) -/

/-- A line that a save fetch may write: HBM as the host reaches it, or another place that no error keeps it from (R370). -/
def State.fetchTakes (s : State) (ia : Nat) : Bool :=
  if region ia == .hbm then s.hostLine ia else (s.errorAt none ia).isNone

/-- SAVE_FETCH: the alternate area of a launch queue goes to an IA, through a mediated window (R13), with its poison (R377), and is
cleared: homes that a freeze holds take nothing (R328). Where the IA is refused nothing is copied and nothing cleared. -/
def saveFetch (s : State) : State :=
  let pa := altPa s.arg.lq
  if !s.serviceRuns || decide (64 ≤ s.arg.lq) || !s.windowed 1 s.arg.ia 40960 || !(spanLines s.arg.ia 40960).all (fun x => s.fetchTakes x.1) then s
  else
    let piece (s : State) (x : Nat × Nat × Nat) : State :=
      let put (s : State) (off n : Nat) : State := s.post .host (s.arg.ia + off) (s.mem.read (pa + off) n) none false (isPoisoned s.bad (pa + off) n)
      if isPoisoned s.bad (pa + x.2.1) x.2.2 then
        (sectorsOf (pa + x.2.1) x.2.2).foldl (fun s k =>
          let off := max (16 * k) (pa + x.2.1) - pa
          put s off (min (16 * k + 16) (pa + x.2.1 + x.2.2) - pa - off)) s
      else put s x.2.1 x.2.2
    ((spanLines s.arg.ia 40960).foldl piece s).writePa pa (List.replicate 40960 0)

/-- LAUNCH_QUEUE_REINIT: a fresh control block (R310: LSLOT = 6, LESZ = 9), written through a mediated window (R13), and the
freeze lifts. -/
def launchQueueReinit (s : State) : State :=
  let n := s.arg.num
  let q : QKey := .mem (s.lqBlock n)
  if s.dev.ready != 5 || decide (64 ≤ n) || !s.windowed 1 (s.lqBlock n) 128 then s
  else
    let home := homeDie (s.slices (Map.look 255 s.dev.lqdom n)) (s.lqBlock n)
    let s := s.putBlock q (QBlock.fresh (cfgOf 6 9 false false home) (s.lqRing n))
    let s := (s.writeIA (s.lqBlock n + 58) (List.replicate 70 0)).touchL2 none (s.lqBlock n) 128 true
    s.restartQueue q

/-- LINK_RESTORE: the port is retrained. -/
def linkRestore (s : State) : State :=
  if !s.serviceRuns then s else { s with dev := { s.dev with isolated := s.dev.isolated.filter (· != s.arg.port) } }

/-- POWER_GOVERNOR_ADJUST: the domains whose issue slots the governor withholds; those of a domain that holds the latency
class only once every other domain's are withheld (R11). -/
def powerGovernorAdjust (s : State) : State :=
  let asked := fun (d : Nat) => s.arg.withheld.getLsbD d
  let others := s.dev.domains.all fun d => d.2.latency || asked d.1
  let give (d : Nat) : Bool := asked d && (others || !(Map.look {} s.dev.domains d).latency)
  if !s.serviceRuns then s
  else { s with dev := { s.dev with withheld := BitVec.ofNat 8 ((List.range 8).foldl (fun n d => if give d then n + 2 ^ d else n) 0) } }

/-! ### PTP (R322, R323) -/

/-- An Ethernet port that came up at step 4 of the boot (R16). -/
def State.ethernet (s : State) (port : Nat) : Bool := decide (port < 2) && decide (4 ≤ s.dev.ready) && !s.dev.absent.getLsbD (4 + port)

/-- The hardware's timestamp of an event message on a port. -/
def State.ptpStamp (s : State) (port : Nat) : State :=
  if s.ethernet port then { s with ptp := { s.ptp with stamps := s.ptp.stamps ++ [(port, (ptpOf s.dtime).toNat)] } } else s

def ptpEventTimestamp (s : State) : State := s.ptpStamp s.arg.port

/-- The offset is within 100 ns. -/
def within100 (offs : Word) : Bool := decide (-100 ≤ offs.toInt) && decide (offs.toInt ≤ 100)

/-- PTP_FIRST_LOCK: DTIME is set once. -/
def ptpFirstLock (s : State) : State :=
  if s.ptp.ever || !s.ptp.servo then s
  else { s with
    dtime := s.arg.v.toNat, ptp := { s.ptp with offs := s.arg.word32, ever := true, lock := within100 s.arg.word32 } }

/-- PTP_SERVO_UPDATE: from the first lock on only the rate changes, by at most 500 ppm. -/
def ptpServoUpdate (s : State) : State :=
  if !s.ptp.servo then s else { s with ptp := { s.ptp with
      offs := s.arg.word32, bc := s.arg.flag2, lock := s.ptp.ever && within100 s.arg.word32
      ppm := if s.ptp.ever then min s.arg.ppm.toNat 500 else 0, faster := s.arg.flag } }

/-- PTP_MASTER_LOSS: DTIME runs free from the package oscillator; LOCK falls with the master, whatever the last offset
(log 105). -/
def ptpMasterLoss (s : State) : State := { s with ptp := { s.ptp with lock := false, ppm := 0 } }

/-! ### The meanings -/

def execPowerOnReset (s : State) : Host.Outcome State Fault Refusal := .next (powerOnReset s)
def execRegisterWrite (s : State) : Host.Outcome State Fault Refusal := .next (registerWrite s)
def execReset (s : State) : Host.Outcome State Fault Refusal := .next (mailboxReset s)
def execRuntimeMeasurementFailure (s : State) : Host.Outcome State Fault Refusal := .next (runtimeMeasurementFailure s)
def execStage (s : State) : Host.Outcome State Fault Refusal := .next (stage s)
def execCommit (s : State) : Host.Outcome State Fault Refusal := .next (commit s)
def execAttestationRequest (s : State) : Host.Outcome State Fault Refusal := .next (attestationRequest s)
def execDomainTableWrite (s : State) : Host.Outcome State Fault Refusal := .next (domainTableWrite s)
def execSaveFetch (s : State) : Host.Outcome State Fault Refusal := .next (saveFetch s)
def execLaunchQueueReinit (s : State) : Host.Outcome State Fault Refusal := .next (launchQueueReinit s)
def execLinkRestore (s : State) : Host.Outcome State Fault Refusal := .next (linkRestore s)
def execPowerGovernorAdjust (s : State) : Host.Outcome State Fault Refusal := .next (powerGovernorAdjust s)
def execPtpEventTimestamp (s : State) : Host.Outcome State Fault Refusal := .next (ptpEventTimestamp s)
def execPtpFirstLock (s : State) : Host.Outcome State Fault Refusal := .next (ptpFirstLock s)
def execPtpServoUpdate (s : State) : Host.Outcome State Fault Refusal := .next (ptpServoUpdate s)
def execPtpMasterLoss (s : State) : Host.Outcome State Fault Refusal := .next (ptpMasterLoss s)

end Sys2Proof.Machine
end

