-- ==== Sys2Proof/Machine/Half.lean ====
section
/-! DEFINITION. Paired words (spec/03_encoding.md R54-R57): the effect of each half-opcode, and the two halves of a word,
which read their sources before either writes. The meaning of a paired word is named by its half A. -/

namespace Sys2Proof.Machine

/-! ### What the halves compute from d and s -/

/-- The count, rounding and FTZ that a half computes under. -/
structure HalfMode where
  k : Nat
  mod5 : BitVec 5

def HalfMode.rnd (h : HalfMode) : Nat := (h.mod5.extractLsb' 2 2).toNat
def HalfMode.ftz (h : HalfMode) : Bool := h.mod5.getLsbD 1
/-- U and SAT of the integer halves (R56). -/
def HalfMode.signed (h : HalfMode) : Bool := !h.mod5.getLsbD 0
def HalfMode.sat (h : HalfMode) : Bool := h.mod5.getLsbD 3

abbrev HalfFn := HalfMode → Dual → Dual → Dual × FFlags

def Dual.w32 (x : Dual) : Nat := x.w.toNat

/-- An integer result: 32 bits, zero tangents (R96). -/
def halfInt (h : HalfMode) (sat : Bool) (fn : Int → Int → Int) (d s : Dual) : Dual × FFlags :=
  ({ v := BitVec.ofNat 64 (fitInt 32 h.signed sat (fn (asInt 32 h.signed d.w32) (asInt 32 h.signed s.w32))) }, 0)

def halfBits2 (fn : Word → Word → Word) (d s : Dual) : Dual × FFlags := ({ v := (fn d.w s.w).setWidth 64 }, 0)

def halfFadd : HalfFn := fun h d s => fAdd fp32 h.k h.rnd h.ftz d s {}
def halfFsub : HalfFn := fun h d s => fSub fp32 h.k h.rnd h.ftz d s {}
def halfFmul : HalfFn := fun h d s => fMul fp32 h.k h.rnd h.ftz d s {}
def halfFmin : HalfFn := fun h d s => fMinmax fp32 h.k h.ftz false d s {}
def halfFmax : HalfFn := fun h d s => fMinmax fp32 h.k h.ftz true d s {}
def halfFrsub : HalfFn := fun h d s => fSub fp32 h.k h.rnd h.ftz s d {}
def halfIadd : HalfFn := fun h d s => halfInt h h.sat (· + ·) d s
def halfIsub : HalfFn := fun h d s => halfInt h h.sat (· - ·) d s
def halfImul : HalfFn := fun h d s => halfInt h false (· * ·) d s
def halfImin : HalfFn := fun h d s => halfInt h false min d s
def halfImax : HalfFn := fun h d s => halfInt h false max d s
def halfIrsub : HalfFn := fun h d s => halfInt h h.sat (fun x y => y - x) d s
def halfAnd : HalfFn := fun _ d s => halfBits2 (· &&& ·) d s
def halfOr : HalfFn := fun _ d s => halfBits2 (· ||| ·) d s
def halfXor : HalfFn := fun _ d s => halfBits2 (· ^^^ ·) d s
def halfAndn : HalfFn := fun _ d s => halfBits2 (fun x y => x &&& ~~~ y) d s
def halfShl : HalfFn := fun _ d s => halfBits2 (fun x y => if 32 ≤ y.toNat then 0 else x <<< y.toNat) d s
def halfShr : HalfFn := fun _ d s => halfBits2 (fun x y => if 32 ≤ y.toNat then 0 else x >>> y.toNat) d s
def halfSra : HalfFn := fun _ d s => halfBits2 (fun x y => x.sshiftRight (min 32 y.toNat)) d s
def halfMov : HalfFn := fun _ _ s => (s, 0)
def halfExp2 : HalfFn := fun h _ s => fTrans .exp2 h.k h.ftz s
def halfLog2 : HalfFn := fun h _ s => fTrans .log2 h.k h.ftz s
def halfRcp : HalfFn := fun h _ s => fTrans .rcp h.k h.ftz s
def halfRsqrt : HalfFn := fun h _ s => fTrans .rsqrt h.k h.ftz s
def halfSqrt : HalfFn := fun h _ s => fTrans .sqrt h.k h.ftz s
def halfSin : HalfFn := fun h _ s => fTrans .sin h.k h.ftz s
def halfCos : HalfFn := fun h _ s => fTrans .cos h.k h.ftz s
def halfTanh : HalfFn := fun h _ s => fTrans .tanh h.k h.ftz s

/-- The function of a half-opcode; HNOP and LDS compute nothing here. -/
def halfFn : HalfOp → HalfFn
  | .hnop => fun _ d _ => (d, 0)
  | .fadd => halfFadd
  | .fsub => halfFsub
  | .fmul => halfFmul
  | .fmin => halfFmin
  | .fmax => halfFmax
  | .frsub => halfFrsub
  | .iadd => halfIadd
  | .isub => halfIsub
  | .imul => halfImul
  | .imin => halfImin
  | .imax => halfImax
  | .irsub => halfIrsub
  | .and => halfAnd
  | .or => halfOr
  | .xor => halfXor
  | .andn => halfAndn
  | .shl => halfShl
  | .shr => halfShr
  | .sra => halfSra
  | .mov => halfMov
  | .exp2 => halfExp2
  | .log2 => halfLog2
  | .rcp => halfRcp
  | .rsqrt => halfRsqrt
  | .sqrt => halfSqrt
  | .sin => halfSin
  | .cos => halfCos
  | .tanh => halfTanh
  | .lds => fun _ d _ => (d, 0)

/-! ### A half in its place -/

/-- The second source of a half in a lane: imm8, decoded from T8 or sign-extended, or register a (R56). -/
def Ctx.halfSrc (c : Ctx) (half : Nat) (op : HalfOp) (x : HalfArgs) (lane : Nat) : Dual :=
  if x.mod5.getLsbD 4 then
    let n := op.code.toNat
    if n ≤ 0x06 ∨ 0x30 ≤ n then Dual.ofWord (BitVec.ofNat 32 (t8ToFp32 x.imm8.toNat)) else Dual.ofWord (x.imm8.signExtend 32)
  else c.get { fld := 0, num := halfReg half x.a, scal := false } lane

/-- The operand that a half writes. -/
def halfDst (half : Nat) (x : HalfArgs) : Opnd := { fld := 3, num := halfReg half x.d, scal := false, role := .dst }

/-- What a half that is no LDS computes in a lane. -/
def Ctx.halfLane (c : Ctx) (half : Nat) (op : HalfOp) (x : HalfArgs) (lane : Nat) : Dual × FFlags :=
  halfFn op { k := c.k, mod5 := x.mod5 } (c.get (halfDst half x) lane) (c.halfSrc half op x lane)

/-- A half's result written into `g`, its sources being those of the word's context; HNOP writes nothing. -/
def Ctx.halfWrite (c : Ctx) (g : Group) (half : Nat) (op : HalfOp) (x : HalfArgs) : Group × FFlags :=
  if op == .hnop then (g, 0)
  else
    let r : Lanes (Dual × FFlags) := Lanes.gen fun i => if c.sel.getLsbD i then c.halfLane half op x i else ({}, 0)
    (c.writeTo g (halfDst half x) fun i => (r.at i).1, c.sel.lanes.foldl (fun f i => f ||| (r.at i).2) 0)

/-- The scratchpad offsets of an LDS half: (I ? 0 : a) + 4 × imm8 (R57). -/
def Ctx.halfOff (c : Ctx) (half : Nat) (x : HalfArgs) (lane : Nat) : Nat :=
  ((if x.mod5.getLsbD 4 then 0 else (c.g.v (halfReg half x.a) 0).at lane |>.toNat) + 4 * x.imm8.toNat) % 2 ^ 32

/-- The halves of a word, A first, and which of them is long-latency. -/
def Ctx.halfList (c : Ctx) : List (Nat × HalfOp × HalfArgs) :=
  match c.fm with
  | .pair op x y => [(0, op, x), (1, y.op, y.args)]
  | _ => []

/-- A paired word: the short halves write, and the long one's result is pending (R46, R55). -/
def Ctx.halves (c : Ctx) : Out :=
  if c.sel == 0 then .regs c.g 0
  else
    let (longs, shorts) := c.halfList.partition fun h => h.2.1.long
    let (g, fl) := shorts.foldl (fun (y : Group × FFlags) h =>
      let r := c.halfWrite y.1 h.1 h.2.1 h.2.2
      (r.1, y.2 ||| r.2)) (c.g, 0)
    match longs with
    | [] => .regs g fl
    | (half, op, x) :: _ =>
      let keep (s : State) : State := (s.onGroup c.w.run c.g.grp fun h => h.raise fl).raise c.w.lid fl
      if op == .lds then
        let as := c.spadAddrs c.sel.lanes c.k (c.halfOff half x)
        match c.checkSpad as 4 4 with
        | some o => o
        | none =>
          let parts := as.map fun a => c.spadPart a 4
          if c.g.ctrFull 1 then .stall .other
          else if parts.any (·.bad) then .poison (Mask.of fun i => parts.any fun p => p.bad && p.lane == i) 3 0
          else
            let (id, s) := c.s.new
            let a : Access := { c.access id .lds parts with dest := some { num := halfReg half x.d }, glob := false }
            .done (keep (s.putGroup c.w.run ((g.addAccess a).raiseCtr 1 id)))
      else
        let r := c.halfWrite c.g half op x
        .done (keep (c.pend c.s g r.1 [halfDst half x] r.2))

def bodyHnop (c : Ctx) : Out := c.halves
def bodyHalfFadd (c : Ctx) : Out := c.halves
def bodyHalfFsub (c : Ctx) : Out := c.halves
def bodyHalfFmul (c : Ctx) : Out := c.halves
def bodyHalfFmin (c : Ctx) : Out := c.halves
def bodyHalfFmax (c : Ctx) : Out := c.halves
def bodyHalfFrsub (c : Ctx) : Out := c.halves
def bodyHalfIadd (c : Ctx) : Out := c.halves
def bodyHalfIsub (c : Ctx) : Out := c.halves
def bodyHalfImul (c : Ctx) : Out := c.halves
def bodyHalfImin (c : Ctx) : Out := c.halves
def bodyHalfImax (c : Ctx) : Out := c.halves
def bodyHalfIrsub (c : Ctx) : Out := c.halves
def bodyHalfAnd (c : Ctx) : Out := c.halves
def bodyHalfOr (c : Ctx) : Out := c.halves
def bodyHalfXor (c : Ctx) : Out := c.halves
def bodyHalfAndn (c : Ctx) : Out := c.halves
def bodyHalfShl (c : Ctx) : Out := c.halves
def bodyHalfShr (c : Ctx) : Out := c.halves
def bodyHalfSra (c : Ctx) : Out := c.halves
def bodyHalfMov (c : Ctx) : Out := c.halves
def bodyHalfExp2 (c : Ctx) : Out := c.halves
def bodyHalfLog2 (c : Ctx) : Out := c.halves
def bodyHalfRcp (c : Ctx) : Out := c.halves
def bodyHalfRsqrt (c : Ctx) : Out := c.halves
def bodyHalfSqrt (c : Ctx) : Out := c.halves
def bodyHalfSin (c : Ctx) : Out := c.halves
def bodyHalfCos (c : Ctx) : Out := c.halves
def bodyHalfTanh (c : Ctx) : Out := c.halves
def bodyHalfLds (c : Ctx) : Out := c.halves

/-! ### The meanings -/

def execHnop (x : HalfArgs) (y : HalfWord) (s : State) : Host.Outcome State Fault Refusal :=
  .next (runWord (.pair .hnop x y) bodyHnop s)
def execHalfFadd (x : HalfArgs) (y : HalfWord) (s : State) : Host.Outcome State Fault Refusal :=
  .next (runWord (.pair .fadd x y) bodyHalfFadd s)
def execHalfFsub (x : HalfArgs) (y : HalfWord) (s : State) : Host.Outcome State Fault Refusal :=
  .next (runWord (.pair .fsub x y) bodyHalfFsub s)
def execHalfFmul (x : HalfArgs) (y : HalfWord) (s : State) : Host.Outcome State Fault Refusal :=
  .next (runWord (.pair .fmul x y) bodyHalfFmul s)
def execHalfFmin (x : HalfArgs) (y : HalfWord) (s : State) : Host.Outcome State Fault Refusal :=
  .next (runWord (.pair .fmin x y) bodyHalfFmin s)
def execHalfFmax (x : HalfArgs) (y : HalfWord) (s : State) : Host.Outcome State Fault Refusal :=
  .next (runWord (.pair .fmax x y) bodyHalfFmax s)
def execHalfFrsub (x : HalfArgs) (y : HalfWord) (s : State) : Host.Outcome State Fault Refusal :=
  .next (runWord (.pair .frsub x y) bodyHalfFrsub s)
def execHalfIadd (x : HalfArgs) (y : HalfWord) (s : State) : Host.Outcome State Fault Refusal :=
  .next (runWord (.pair .iadd x y) bodyHalfIadd s)
def execHalfIsub (x : HalfArgs) (y : HalfWord) (s : State) : Host.Outcome State Fault Refusal :=
  .next (runWord (.pair .isub x y) bodyHalfIsub s)
def execHalfImul (x : HalfArgs) (y : HalfWord) (s : State) : Host.Outcome State Fault Refusal :=
  .next (runWord (.pair .imul x y) bodyHalfImul s)
def execHalfImin (x : HalfArgs) (y : HalfWord) (s : State) : Host.Outcome State Fault Refusal :=
  .next (runWord (.pair .imin x y) bodyHalfImin s)
def execHalfImax (x : HalfArgs) (y : HalfWord) (s : State) : Host.Outcome State Fault Refusal :=
  .next (runWord (.pair .imax x y) bodyHalfImax s)
def execHalfIrsub (x : HalfArgs) (y : HalfWord) (s : State) : Host.Outcome State Fault Refusal :=
  .next (runWord (.pair .irsub x y) bodyHalfIrsub s)
def execHalfAnd (x : HalfArgs) (y : HalfWord) (s : State) : Host.Outcome State Fault Refusal :=
  .next (runWord (.pair .and x y) bodyHalfAnd s)
def execHalfOr (x : HalfArgs) (y : HalfWord) (s : State) : Host.Outcome State Fault Refusal :=
  .next (runWord (.pair .or x y) bodyHalfOr s)
def execHalfXor (x : HalfArgs) (y : HalfWord) (s : State) : Host.Outcome State Fault Refusal :=
  .next (runWord (.pair .xor x y) bodyHalfXor s)
def execHalfAndn (x : HalfArgs) (y : HalfWord) (s : State) : Host.Outcome State Fault Refusal :=
  .next (runWord (.pair .andn x y) bodyHalfAndn s)
def execHalfShl (x : HalfArgs) (y : HalfWord) (s : State) : Host.Outcome State Fault Refusal :=
  .next (runWord (.pair .shl x y) bodyHalfShl s)
def execHalfShr (x : HalfArgs) (y : HalfWord) (s : State) : Host.Outcome State Fault Refusal :=
  .next (runWord (.pair .shr x y) bodyHalfShr s)
def execHalfSra (x : HalfArgs) (y : HalfWord) (s : State) : Host.Outcome State Fault Refusal :=
  .next (runWord (.pair .sra x y) bodyHalfSra s)
def execHalfMov (x : HalfArgs) (y : HalfWord) (s : State) : Host.Outcome State Fault Refusal :=
  .next (runWord (.pair .mov x y) bodyHalfMov s)
def execHalfExp2 (x : HalfArgs) (y : HalfWord) (s : State) : Host.Outcome State Fault Refusal :=
  .next (runWord (.pair .exp2 x y) bodyHalfExp2 s)
def execHalfLog2 (x : HalfArgs) (y : HalfWord) (s : State) : Host.Outcome State Fault Refusal :=
  .next (runWord (.pair .log2 x y) bodyHalfLog2 s)
def execHalfRcp (x : HalfArgs) (y : HalfWord) (s : State) : Host.Outcome State Fault Refusal :=
  .next (runWord (.pair .rcp x y) bodyHalfRcp s)
def execHalfRsqrt (x : HalfArgs) (y : HalfWord) (s : State) : Host.Outcome State Fault Refusal :=
  .next (runWord (.pair .rsqrt x y) bodyHalfRsqrt s)
def execHalfSqrt (x : HalfArgs) (y : HalfWord) (s : State) : Host.Outcome State Fault Refusal :=
  .next (runWord (.pair .sqrt x y) bodyHalfSqrt s)
def execHalfSin (x : HalfArgs) (y : HalfWord) (s : State) : Host.Outcome State Fault Refusal :=
  .next (runWord (.pair .sin x y) bodyHalfSin s)
def execHalfCos (x : HalfArgs) (y : HalfWord) (s : State) : Host.Outcome State Fault Refusal :=
  .next (runWord (.pair .cos x y) bodyHalfCos s)
def execHalfTanh (x : HalfArgs) (y : HalfWord) (s : State) : Host.Outcome State Fault Refusal :=
  .next (runWord (.pair .tanh x y) bodyHalfTanh s)
def execHalfLds (x : HalfArgs) (y : HalfWord) (s : State) : Host.Outcome State Fault Refusal :=
  .next (runWord (.pair .lds x y) bodyHalfLds s)

end Sys2Proof.Machine
end

