-- ==== Sys2Proof/Machine/Logic.lean ====
section
/-! DEFINITION. Logic, shifts and bit fields: class 1 (spec/05_catalogue.md R84). Every result has zero tangents (R96). -/

namespace Sys2Proof.Machine

/-- W of a logic instruction: 64 under `.I64` and `.N64`, else 32. -/
def Ctx.width (c : Ctx) : Nat := if c.ty == 6 || c.ty == 7 then 64 else 32

/-- A source as an unsigned number. -/
def Ctx.nat (c : Ctx) (fld i : Nat) : Nat := (c.src fld i).v.toNat

/-- The shift count: the low word of b. -/
def Ctx.shift (c : Ctx) (i : Nat) : Nat := c.nat 1 i % 2 ^ 32

/-- A result modulo 2^W. -/
def Ctx.low64 (c : Ctx) (x : Nat) : DWord := BitVec.ofNat 64 (x % 2 ^ c.width)

def bodyAnd (c : Ctx) : Out := c.values fun i => (c.src 0 i).v &&& (c.src 1 i).v
def bodyOr (c : Ctx) : Out := c.values fun i => (c.src 0 i).v ||| (c.src 1 i).v
def bodyXor (c : Ctx) : Out := c.values fun i => (c.src 0 i).v ^^^ (c.src 1 i).v
def bodyAndn (c : Ctx) : Out := c.values fun i => (c.src 0 i).v &&& ~~~ (c.src 1 i).v
def bodyNot (c : Ctx) : Out := c.values fun i => ~~~ (c.src 0 i).v

/-- TERN: result bit j is bit a + 2 b + 4 c of the table mod [7:0]. -/
def bodyTern (c : Ctx) : Out := c.values fun i =>
  let bit (fld j : Nat) : Nat := if (c.src fld i).v.getLsbD j then 1 else 0
  (bitsOf (fun j => (c.mods 0 8).testBit (bit 0 j + 2 * bit 1 j + 4 * bit 2 j)) 32).setWidth 64

def bodyShl (c : Ctx) : Out := c.values fun i =>
  if c.width ≤ c.shift i then 0 else c.low64 (c.nat 0 i * 2 ^ c.shift i)
def bodyShr (c : Ctx) : Out := c.values fun i =>
  if c.width ≤ c.shift i then 0 else BitVec.ofNat 64 (c.nat 0 i / 2 ^ c.shift i)
/-- Every bit is the sign of a where the count is W or more. -/
def bodySra (c : Ctx) : Out := c.values fun i =>
  let n := min (c.shift i) c.width
  c.low64 ((asInt c.width true (c.nat 0 i) / 2 ^ n) % 2 ^ c.width).toNat
def bodyRot (c : Ctx) : Out := c.values fun i =>
  let n := c.shift i % c.width
  c.low64 (c.nat 0 i * 2 ^ n + c.nat 0 i / 2 ^ (c.width - n))

/-- BFE: position b [7:0], length c [7:0], `.SX` in OPX [0]. -/
def bodyBfe (c : Ctx) : Out := c.values fun i =>
  let pos := c.nat 1 i % 256
  let len := c.nat 2 i % 256
  if len == 0 || decide (c.width ≤ pos) then 0
  else
    let n := min len (c.width - pos)
    let f := c.nat 0 i / 2 ^ pos % 2 ^ n
    if c.opx.testBit 0 then c.low64 (asInt n true f % 2 ^ c.width).toNat else BitVec.ofNat 64 f

/-- BFI: position b [7:0], length b [15:8], base value c. -/
def bodyBfi (c : Ctx) : Out := c.values fun i =>
  let pos := c.nat 1 i % 256
  let len := c.nat 1 i / 256 % 256
  let base := c.nat 2 i
  if len == 0 || decide (c.width ≤ pos) then BitVec.ofNat 64 base
  else
    let n := min len (c.width - pos)
    BitVec.ofNat 64 (base - base / 2 ^ pos % 2 ^ n * 2 ^ pos + c.nat 0 i % 2 ^ n * 2 ^ pos)

def bodyPopc (c : Ctx) : Out := c.values fun i =>
  BitVec.ofNat 64 (((List.range 64).filter fun j => (c.src 0 i).v.getLsbD j).length)
def bodyClz (c : Ctx) : Out := c.values fun i =>
  BitVec.ofNat 64 (if c.nat 0 i == 0 then c.width else c.width - 1 - Nat.log2 (c.nat 0 i))
def bodyBrev (c : Ctx) : Out := c.values fun i =>
  Mask.of fun j => decide (j < c.width) && (c.src 0 i).v.getLsbD (c.width - 1 - j)
def bodyBfind (c : Ctx) : Out := c.values fun i =>
  BitVec.ofNat 64 (if c.nat 0 i == 0 then 0xFFFFFFFF else Nat.log2 (c.nat 0 i))

/-! ### The meanings -/

def execAnd (f : FR) (s : State) : Host.Outcome State Fault Refusal := .next (runWord (.fr 0x40 f) bodyAnd s)
def execAndImm (f : FI) (s : State) : Host.Outcome State Fault Refusal := .next (runWord (.fi 0x40 f) bodyAnd s)
def execOr (f : FR) (s : State) : Host.Outcome State Fault Refusal := .next (runWord (.fr 0x41 f) bodyOr s)
def execOrImm (f : FI) (s : State) : Host.Outcome State Fault Refusal := .next (runWord (.fi 0x41 f) bodyOr s)
def execXor (f : FR) (s : State) : Host.Outcome State Fault Refusal := .next (runWord (.fr 0x42 f) bodyXor s)
def execXorImm (f : FI) (s : State) : Host.Outcome State Fault Refusal := .next (runWord (.fi 0x42 f) bodyXor s)
def execAndn (f : FR) (s : State) : Host.Outcome State Fault Refusal := .next (runWord (.fr 0x43 f) bodyAndn s)
def execAndnImm (f : FI) (s : State) : Host.Outcome State Fault Refusal := .next (runWord (.fi 0x43 f) bodyAndn s)
def execNot (f : FR) (s : State) : Host.Outcome State Fault Refusal := .next (runWord (.fr 0x44 f) bodyNot s)
def execTern (f : FR) (s : State) : Host.Outcome State Fault Refusal := .next (runWord (.fr 0x45 f) bodyTern s)
def execShl (f : FR) (s : State) : Host.Outcome State Fault Refusal := .next (runWord (.fr 0x46 f) bodyShl s)
def execShlImm (f : FI) (s : State) : Host.Outcome State Fault Refusal := .next (runWord (.fi 0x46 f) bodyShl s)
def execShr (f : FR) (s : State) : Host.Outcome State Fault Refusal := .next (runWord (.fr 0x47 f) bodyShr s)
def execShrImm (f : FI) (s : State) : Host.Outcome State Fault Refusal := .next (runWord (.fi 0x47 f) bodyShr s)
def execSra (f : FR) (s : State) : Host.Outcome State Fault Refusal := .next (runWord (.fr 0x48 f) bodySra s)
def execSraImm (f : FI) (s : State) : Host.Outcome State Fault Refusal := .next (runWord (.fi 0x48 f) bodySra s)
def execRot (f : FR) (s : State) : Host.Outcome State Fault Refusal := .next (runWord (.fr 0x49 f) bodyRot s)
def execRotImm (f : FI) (s : State) : Host.Outcome State Fault Refusal := .next (runWord (.fi 0x49 f) bodyRot s)
def execBfe (f : FR) (s : State) : Host.Outcome State Fault Refusal := .next (runWord (.fr 0x4a f) bodyBfe s)
def execBfi (f : FR) (s : State) : Host.Outcome State Fault Refusal := .next (runWord (.fr 0x4b f) bodyBfi s)
def execPopc (f : FR) (s : State) : Host.Outcome State Fault Refusal := .next (runWord (.fr 0x4c f) bodyPopc s)
def execClz (f : FR) (s : State) : Host.Outcome State Fault Refusal := .next (runWord (.fr 0x4d f) bodyClz s)
def execBrev (f : FR) (s : State) : Host.Outcome State Fault Refusal := .next (runWord (.fr 0x4e f) bodyBrev s)
def execBfind (f : FR) (s : State) : Host.Outcome State Fault Refusal := .next (runWord (.fr 0x4f f) bodyBfind s)

end Sys2Proof.Machine
end

