-- ==== Sys2Proof/Machine/Net.lean ====
section
/-! DEFINITION. Frames (spec/16_host.md R318-R321, spec/11_queues.md R222, spec/17_debug.md R328): classification, landing,
transmit and departure reports. -/

namespace Sys2Proof.Machine

/-! ### Counters of the telemetry: keys of the model's own -/

def State.tally (s : State) (key : Nat) : State :=
  { s with logs := { s.logs with telemetry := Map.put 0 s.logs.telemetry key (Map.look 0 s.logs.telemetry key + 1) } }

/-- The freeze-drop counter of an Ethernet port (R328). -/
def freezeDropKey (port : Nat) : Nat := 16 + port
/-- Frames of a transmit queue that were popped and not sent (R312, R320, R377). -/
def unsentKey (n : Nat) : Nat := 32 + n
/-- Departure reports of a transmit queue that were dropped (R321). -/
def reportKey (n : Nat) : Nat := 96 + n

/-- An entry's drop counter (R319). -/
def State.countDrop (s : State) (e : Nat) : State :=
  { s with dev := { s.dev with drops := Map.put 0 s.dev.drops e (Map.look 0 s.dev.drops e + 1) } }

/-- A port's unmatched counter (R318). -/
def State.countUnmatched (s : State) (port : Nat) : State :=
  { s with dev := { s.dev with unmatched := Map.put 0 s.dev.unmatched port (Map.look 0 s.dev.unmatched port + 1) } }

/-! ### The fields of a frame that the classifier tests (R318) -/

/-- A big-endian number in a frame; a byte beyond the frame is zero. -/
def beAt (bs : List Byte) (i n : Nat) : Nat := (List.range n).foldl (fun x j => x * 256 + (bs.getD (i + j) 0).toNat) 0

/-- The type of a VLAN tag. -/
def isTag (t : Nat) : Bool := t == 0x8100 || t == 0x88A8

structure FrameKey where
  vlan : Option Nat     -- of the outer tag
  etype : Nat           -- after any VLAN tag
  dip : Option Nat      -- IPv4 address, or the low 64 bits of an IPv6 address
  l4 : Option Nat       -- UDP destination port

/-- Where the EtherType after any tag stands. -/
def etherAt (bs : List Byte) : Nat :=
  if isTag (beAt bs 12 2) then (if isTag (beAt bs 16 2) then 20 else 16) else 12

def frameKey (bs : List Byte) : FrameKey :=
  let at_ := etherAt bs
  let etype := beAt bs at_ 2
  let ip := at_ + 2
  { vlan := if isTag (beAt bs 12 2) then some (beAt bs 14 2 % 4096) else none
    etype
    dip := if etype == 0x0800 then some (beAt bs (ip + 16) 4) else if etype == 0x86DD then some (beAt bs (ip + 32) 8) else none
    l4 :=
      if etype == 0x0800 && beAt bs (ip + 9) 1 == 17 && beAt bs (ip + 6) 2 % 8192 == 0 then some (beAt bs (ip + beAt bs ip 1 % 16 * 4 + 2) 2)
      else if etype == 0x86DD && beAt bs (ip + 6) 1 == 17 then some (beAt bs (ip + 42) 2)
      else none }

/-- A PTP event message: message types 0 to 3, over IEEE 802.3 or to UDP port 319 (R322, log 63). -/
def ptpEvent (bs : List Byte) : Bool :=
  let at_ := etherAt bs
  let ip := at_ + 2
  let k := frameKey bs
  let body :=
    if k.etype == 0x88F7 then some ip
    else if k.l4 == some 319 then some (if k.etype == 0x0800 then ip + beAt bs ip 1 % 16 * 4 + 8 else ip + 48)
    else none
  match body with
  | some i => decide (beAt bs i 1 % 16 < 4)
  | none => false

/-- Word `w` of classifier entry `e`. -/
def State.entryWord (s : State) (e w : Nat) : DWord := Map.look 0 s.dev.classifier (4 * e + w)

/-- Whether a valid entry takes a frame that arrives on a port. -/
def State.takes (s : State) (e port : Nat) (k : FrameKey) : Bool :=
  let w := s.entryWord e 0
  let mask := (s.entryWord e 2).toNat
  let etype := (w.extractLsb' 32 16).toNat
  w.getLsbD 63 && w.getLsbD (61 + port) && (!w.getLsbD 60 || k.vlan == some (w.extractLsb' 16 12).toNat)
    && (!w.getLsbD 59 || k.l4 == some (w.extractLsb' 0 16).toNat) && (etype == 0 || k.etype == etype)
    && (mask == 0 || (match k.dip with | some d => d &&& mask == (s.entryWord e 1).toNat &&& mask | none => false))

/-- The first entry that takes the frame. -/
def State.classify (s : State) (port : Nat) (k : FrameKey) : Option Nat :=
  ((s.dev.classifier.filter fun x => x.1 % 4 == 0).map (·.1 / 4)).find? fun e => s.takes e port k

/-! ### Landing (R222, R319) -/

/-- LEN, ENTRY and PORT of a landing header's second word. -/
def landWord (len entry port : Nat) : DWord := fields [(48, len % 65536), (32, entry), (0, port)]

/-- An element pushed by the NIC: a slot reserved and the claims of its lines sent (R166); `false` where it does not land.
Like a `.TRY` it does not overtake a blocked push, and it never blocks (R215, R222). A failed check freezes the queue
(R374). A control block that has no translation, is misaligned, or lies outside HBM or behind an error lands nothing (log 48). -/
def State.nicPush (s : State) (qia : Nat) (bs : List Byte) : State × Bool :=
  let q : QKey := .mem qia
  let dom := s.queueDom qia
  if qia % 128 != 0 || s.regionAt qia != .hbm || (s.xlatFault qia).isSome || (s.errorAt dom qia).isSome then (s, false)
  else
    let s := s.ctlStart q
    let code := s.queueCode q dom
    if (s.qctl q).frozen != 0 then (s, false)
    else if code != 0 then (s.freezeQueue q code (dom.getD 0) none, false)
    else
      match s.block? q with
      | none => (s, false)
      | some (b, _) =>
        if b.free == 0 || !(s.qctl q).pushW.isEmpty || decide (b.esz < bs.length) then (s, false)
        else
          let cut := cutLines (b.slot b.resv) b.esz 9
          let full := bs ++ List.replicate (b.esz - bs.length) 0
          let s := (s.putBlock q ({ b with resv := (b.resv + 1) % 2 ^ 64 : QBlock }.refree)).note q
          let id := s.fresh
          let s := cut.foldl (fun s x => s.post (.element q) x.1 ((full.drop x.2.1).take x.2.2)) s
          let c := s.qctl q
          (s.setQctl { c with pushes := c.pushes ++ [(0, cut.length, id, b.resv, 1)] }, true)

/-- FRAME_ARRIVAL: dropped with a bad FCS, by a freeze, or without a match; else it lands, or is dropped and counted. -/
def frameArrival (s : State) : State :=
  let port := s.arg.port
  let bs := s.arg.bytes
  if !s.ethernet port || s.dev.ready != 5 then s
  else
    let s := if s.arg.flag && ptpEvent bs then s.ptpStamp port else s
    if s.dbg.frozen then (s.tally (freezeDropKey port)).perfUnit (portUnit (20 + port)) 3 1
    else if !s.arg.flag then s
    else match s.classify port (frameKey bs) with
    | none => s.countUnmatched port
    | some e =>
      let qia := (s.entryWord e 3).toNat
      if qia == 0 then s
      else
        let head := leBytes 8 (ptpOf s.dtime).toNat ++ leBytes 8 (landWord bs.length e port).toNat
        match s.nicPush qia (head ++ bs) with
        | (s, true) => s
        | (s, false) => (s.countDrop e).perfUnit (portUnit (20 + port)) 3 1

/-! ### Transmit (R320, R321) -/

/-- The FCS of a frame: CRC-32 of IEEE 802.3, least significant byte first. -/
def fcsByte (c : Word) (b : Byte) : Word :=
  (List.range 8).foldl (fun (c : Word) _ => if c.getLsbD 0 then (c >>> 1) ^^^ 0xEDB88320 else c >>> 1) (c ^^^ b.setWidth 32)

def fcs (bs : List Byte) : List Byte := leBytes 4 (~~~ (bs.foldl fcsByte 0xFFFFFFFF)).toNat

/-- Control block of transmit queue `n`, 0 where it is disabled. -/
def State.txQueue (s : State) (n : Nat) : Nat := (Map.look 0 s.dev.txregs (2 * n)).toNat

/-- The block of an enabled transmit queue that holds elements and whose line can be read. -/
def State.txBlock (s : State) (n : Nat) : Option QBlock :=
  let qia := s.txQueue n
  let q : QKey := .mem qia
  if qia == 0 || qia % 128 != 0 || s.regionAt qia != .hbm || (s.xlatFault qia).isSome || (s.errorAt (s.queueDom qia) qia).isSome
      || (s.qctl q).frozen != 0 then none
  else match s.block? q with
    | some (b, _) => if b.head == b.tail then none else some b
    | none => none

/-- The lines of an element, each an IA and a size. -/
def elementLines (ia n : Nat) : List (Nat × Nat) := (spanLines ia n).map fun x => (x.1, x.2.2)

/-- The head element that a transmit queue's pop may take, every line of which its home can serve or an error response answers,
as for a QPOP's slot reads (R214, R222, R316): the block and the element's IA. -/
def State.txHead (s : State) (n : Nat) : Option (QBlock × Nat) :=
  match s.txBlock n with
  | none => none
  | some b =>
    let ia := b.slot b.head
    let dom := s.queueDom (s.txQueue n)
    let waits := (elementLines ia b.esz).any fun x => (s.errorAt dom x.1).isNone && ((s.xlatFault x.1).isSome || !s.lineFree x.1 || !s.mayRead dom x.1 x.2 3)
    if b.ppend || !(s.qctl (.mem (s.txQueue n))).popW.isEmpty || waits then none else some (b, ia)

/-- `n` bytes of an element do not come back whole: an error response or an isolated port answers, or they hold poison (R370,
R377, R388). -/
def State.txLost (s : State) (dom : Option Nat) (ia n : Nat) : Bool :=
  (elementLines ia n).any fun x => (s.errorAt dom x.1).isSome || s.cutOff dom x.1 x.2 || s.badIA x.1 x.2

/-- A transmit queue whose head may go out on a port now. A header that does not come back names neither port nor time: the
first port in turn pops the element, which is counted (log 48). -/
def State.txReady (s : State) (port n : Nat) : Bool :=
  match s.txHead n with
  | none => false
  | some (_, ia) => s.txLost (s.queueDom (s.txQueue n)) ia 16 || (s.leIA (ia + 8) 8 % 2 == port && decide (s.leIA ia 8 ≤ (ptpOf s.dtime).toNat))

/-- The NIC reads the lines of an element at their homes. Each error response is logged (R370). -/
def State.txRead (s : State) (dom : Option Nat) (ia n : Nat) : Option State :=
  let xs := elementLines ia n
  let (bad, ok) := xs.partition fun x => (s.errorAt dom x.1).isSome
  (s.carryAll dom 3 ok).map fun t =>
    bad.foldl (fun t x => t.lqError (dom.getD 0) x.1 ((s.errorAt dom x.1).getD 6)) (t.touchAll dom ok)

/-- An enabled transmit queue with elements whose block fails its check. -/
def State.txCorrupt (s : State) (n : Nat) : Bool :=
  match s.txBlock n with
  | none => false
  | some _ => s.queueCode (.mem (s.txQueue n)) (s.queueDom (s.txQueue n)) != 0

/-- The departure report of a frame (R321). -/
def State.report (s : State) (n port len : Nat) : State :=
  let qia := (Map.look 0 s.dev.txregs (2 * n + 1)).toNat
  if qia == 0 then s
  else match s.nicPush qia (leBytes 8 (ptpOf s.dtime).toNat ++ leBytes 8 (landWord len 0 port).toNat) with
    | (s, true) => s
    | (s, false) => s.tally (reportKey n)

/-- FRAME_TRANSMIT: the NIC pops the next element of its port in turn and sends it, or counts a frame that it cannot send: one
that holds poison or does not come back from its home among them (R377, R388, log 48). -/
def frameTransmit (s : State) : State :=
  let port := s.arg.port
  if decide (2 ≤ port) || s.dbg.frozen || s.dev.ready != 5 then s
  else
    match (List.range 64).find? s.txCorrupt with
    | some n =>
      let dom := s.queueDom (s.txQueue n)
      s.freezeQueue (.mem (s.txQueue n)) (s.queueCode (.mem (s.txQueue n)) dom) (dom.getD 0) none
    | none =>
      let last := Map.look 0 s.dev.txturn port
      match ((List.range 64).map fun i => (last + i) % 64).find? (s.txReady port) with
      | none => s
      | some n =>
        match s.txHead n with
        | none => s
        | some (b, ia) =>
          let q : QKey := .mem (s.txQueue n)
          let dom := s.queueDom (s.txQueue n)
          let h := s.leIA (ia + 8) 8
          let len := h / 2 ^ 48
          let good := s.ethernet port && decide (60 ≤ len) && decide (len ≤ 9216) && h / 4 % 2 ^ 46 == 0
            && decide (16 + len ≤ b.esz) && !s.txLost dom ia b.esz
          let frame := s.readSpan (ia + 16) len
          match s.txRead dom ia b.esz with
          | none => s
          | some s =>
          let s := (s.putBlock q ({ b with head := (b.head + 1) % 2 ^ 64 : QBlock }.refree)).note q
          let s := { s with dev := { s.dev with txturn := Map.put 0 s.dev.txturn port ((n + 1) % 64) } }
          if good then
            let s := if ptpEvent frame then s.ptpStamp port else s
            let s := { s with dev := { s.dev with sent := s.dev.sent ++ [(port, frame ++ fcs frame)] } }
            if h.testBit 1 then s.report n port len else s
          else s.tally (unsentKey n)

/-! ### The meanings -/

def execFrameArrival (s : State) : Host.Outcome State Fault Refusal := .next (frameArrival s)
def execFrameTransmit (s : State) : Host.Outcome State Fault Refusal := .next (frameTransmit s)

end Sys2Proof.Machine
end

