-- ==== Sys2Proof/Machine/Reliability.lean ====
section
/-! DEFINITION. Errors of arrays and isolated links (spec/20_reliability.md R376, R377, R381, R387-R389). -/

namespace Sys2Proof.Machine

/-! ### ARRAY_ERROR (R376) -/

/-- The array of a site, by the rows of R376. -/
def siteArray : ArraySite → Nat
  | .vreg .. | .sreg .. => 1
  | .control .. => 2
  | .spad .. => 3
  | .l1 .. => 4
  | .accum .. => 5
  | .cellar .. => 6
  | .l2 .. => 7
  | .hbm .. => 8
  | .link .. => 9

/-- INDEX of a site's record. -/
def siteIndex : ArraySite → Nat
  | .vreg _ _ reg _ | .sreg _ _ reg => reg
  | .accum _ row _ => row
  | .cellar _ word => word
  | .link port => port
  | _ => 0

/-- The IA whose bytes lie at a PA of HBM: that of an L2 line, of a reserved region, or of a valid page of the table, 0 where
no IA reaches it. -/
def State.iaOf (s : State) (pa : Nat) : Nat :=
  match s.l2.find? fun x => region (128 * x.line) == .hbm && x.pa / 128 == pa / 128 with
  | some x => 128 * x.line + pa % 128
  | none =>
    match s.reservedIa pa with
    | some ia => ia
    | none =>
      let walksTo (ia : Nat) : Bool := match s.walk false ia with | .ok x => x == pa | .error _ => false
      (((s.xlat.lev1.flatMap fun (e : Nat × DWord) => (List.range 32).map fun i => 2 ^ 21 * e.1 + 65536 * i).map fun base =>
        if walksTo (base + pa % 65536) then base + pa % 65536 else base / 2 ^ 21 * 2 ^ 21 + pa % 2 ^ 21).find? walksTo).getD 0

/-- The IA of a site's record. -/
def State.siteIa (s : State) : ArraySite → Nat
  | .l1 _ line => 128 * line
  | .l2 sector _ => 16 * sector
  | .hbm burst => s.iaOf (64 * burst)
  | _ => 0

/-- The workgroup and group of a site. -/
def siteOwner : ArraySite → Option (Nat × Nat)
  | .vreg wg grp .. | .sreg wg grp .. | .control wg grp => some (wg, grp)
  | .spad wg _ | .accum wg .. | .cellar wg _ => some (wg, 0)
  | _ => none

/-- The site exists in the machine as it stands. -/
def State.siteExists (s : State) (x : ArraySite) : Bool :=
  match x with
  | .l1 core line => (s.core core).l1.any fun y => y.line == line
  | .l2 sector _ => (s.l2? (sector / 8)).isSome
  | .hbm burst => decide (64 * burst < 2 ^ 39)
  | .link port => decide (port < 20) || port == 22
  | _ => match siteOwner x with | some (wg, grp) => (s.group? wg grp).isSome | none => false

/-- The record of an array error that consumes nothing. -/
def State.arrayRecord (s : State) (x : ArraySite) (action : Nat) : State :=
  match siteOwner x with
  | some (wg, grp) =>
    match s.wg? wg, s.group? wg grp with
    | some w, some g =>
      let lane := match x with | .vreg _ _ _ lane => lane | _ => g.lowLane g.live
      s.errorRecord (siteArray x) action 0 (g.wid.at lane) w.wgx w.core grp (siteIndex x) 0
    | _, _ => s
  | none =>
    let core := match x with | .l1 core _ => core | _ => 0
    s.errorRecord (siteArray x) action (s.siteIa x) (BitVec.allOnes 64) 0 core 0 (siteIndex x) 0

/-- A line of a core's L1 is invalidated, and refilled from its home under a lease that ends no later than the old one
(log 50). The sectors that hold poison at home, and a line whose home is busy or unreachable, stay out until a later access. -/
def State.refillL1 (s : State) (core line : Nat) : State :=
  match (s.core core).l1.find? fun x => x.line == line with
  | none => s
  | some x =>
    let ia := 128 * line
    let dom := (s.dev.domains.find? fun d => d.2.clusters.contains (core / 12)).map (·.1)
    let s := (s.onCore core fun c => { c with l1 := c.l1.filter fun y => y.line != line }).lineGone core line
    if (x.ut || decide (s.now (coreDie core) < x.e)) && s.lineFree ia then
      x.sectors.foldl (fun s y =>
        let a := ia + 16 * y.1
        if s.cutOff dom a 16 || !s.mayRead dom a 16 0 then s
        else ((s.carry dom a 16 0).touchL2 dom a 16 false x.hint).fillL1 core a 16 x.e 0 x.hint) s
    else s

/-- A trellis, CXL or PCIe port is isolated: it holds no send allowance, and its dropped-write log starts or goes on (R376, R387,
R389, log 103). -/
def State.isolate (s : State) (port : Nat) : State :=
  if !(decide (port < 20) || port == 22) || s.dev.isolated.contains port then s
  else
    let old := s.logs.drops.find? fun d => d.1 == port
    let log := match old with | some d => (port, d.2.1, s.dtime, d.2.2.2) | none => (port, 0, s.dtime, [])
    { s with
      dev := { s.dev with
        isolated := s.dev.isolated ++ [port]
        allow := s.dev.allow.filter fun (x : Nat × Nat) => x.1 / 4 != port }
      logs := { s.logs with drops := (s.logs.drops.filter fun (d : Nat × Nat × Nat × List Nat) => d.1 != port) ++ [log] } }.errorRecord 11 5 0 (BitVec.allOnes 64) 0 0 0 port 0

/-- A clean sector of L2 is refilled from memory: with poison where its burst is lost. -/
def State.refillL2 (s : State) (sector : Nat) : State :=
  match s.l2? (sector / 8) with
  | none => s
  | some y =>
    if y.lost.contains (sector % 8) then
      { s with
        bad := union s.bad [y.pa / 16 + sector % 8]
        l2 := s.l2.map fun z => if z.line == y.line then { z with lost := z.lost.filter (· != sector % 8) } else z }
    else s

/-- The effect of an uncorrectable error: poison, a refill, or consumption at once. A burst of HBM whose sector L2 holds clean
is read from there as before, and is poisoned when the line goes. -/
def State.uncorrectable (s : State) (x : ArraySite) : State :=
  match x with
  | .vreg wg grp reg lane => (s.onGroup wg grp fun g => { g with badV := union g.badV [reg * 64 + lane % 64] }).arrayRecord x 1
  | .sreg wg grp reg => (s.onGroup wg grp fun g => { g with badS := union g.badS [reg] }).arrayRecord x 1
  | .control wg grp => if (s.wg? wg).any fun w => w.life == .killed then s.arrayRecord x 5 else s.consume wg grp 0 2 0 0
  | .spad wg sector => (s.onWg wg fun w => { w with spadBad := union w.spadBad [sector] }).arrayRecord x 1
  | .l1 core line => (s.arrayRecord x 2).refillL1 core line
  | .accum wg row col => (s.onWg wg fun w => { w with accBad := union w.accBad [row * 128 + col % 128] }).arrayRecord x 1
  | .cellar wg word => (s.onWg wg fun w => { w with cellBad := union w.cellBad [word] }).arrayRecord x 1
  | .l2 sector _ =>
    let dirty := match s.l2? (sector / 8) with | some y => y.dirty.contains (sector % 8) | none => false
    if dirty then { s with bad := union s.bad [s.key (16 * sector) / 16] }.arrayRecord x 1
    else (s.refillL2 sector).arrayRecord x 2
  | .hbm burst =>
    let ks := (List.range 4).map fun i => 4 * burst + i
    let held (k : Nat) : Bool := s.l2.any fun y => y.pa / 128 == k / 8 && y.valid.contains (k % 8)
    let clean (y : L2Line) (k : Nat) : Bool := y.pa / 128 == k / 8 && y.valid.contains (k % 8) && !y.dirty.contains (k % 8)
    let lose (y : L2Line) : L2Line := { y with lost := union y.lost ((ks.filter (clean y)).map (· % 8)) }
    { s with bad := union s.bad (ks.filter fun k => !held k), l2 := s.l2.map lose }.arrayRecord x 1
  | .link port => s.isolate port

/-- ARRAY_ERROR: `flag`: correctable, which is corrected, counted and logged. -/
def arrayError (s : State) : State :=
  let x := s.arg.site
  if !s.siteExists x then s
  else if s.arg.flag then (s.tally (siteArray x)).arrayRecord x 0
  else s.uncorrectable x

/-! ### Isolated links (R387, R389) -/

/-- LINK_ISOLATE: one flit has failed its CRC 16 times in a row, or the link has gone down. -/
def linkIsolate (s : State) : State := s.isolate s.arg.port

/-- DROPPED_WRITE_LOG_CLEAR: the log is read and cleared. -/
def droppedWriteLogClear (s : State) : State :=
  if !s.serviceRuns then s else
  { s with logs := { s.logs with drops := s.logs.drops.map fun d => if d.1 == s.arg.port then (d.1, 0, d.2.2.1, []) else d } }

/-! ### The meanings -/

def execArrayError (s : State) : Host.Outcome State Fault Refusal := .next (arrayError s)
def execLinkIsolate (s : State) : Host.Outcome State Fault Refusal := .next (linkIsolate s)
def execDroppedWriteLogClear (s : State) : Host.Outcome State Fault Refusal := .next (droppedWriteLogClear s)

end Sys2Proof.Machine
end

