-- ==== Sys2Proof/Machine/Shadow.lean ====
section
/-! DEFINITION. TMOV and TZERO, which name tangent shadows directly (spec/14_dual.md R283-R285). -/

namespace Sys2Proof.Machine

/-- Component `j` of a register of the group written in lanes `m`, or once where it is an s register. -/
def Group.putComp (g : Group) (scal : Bool) (n j : Nat) (m : Mask) (v : Lanes Word) (x : Word) : Group :=
  if scal then g.setS n j x else g.setV n j (Lanes.merge m v (g.v n j))

/-- TMOV: DIR = 0 moves a value into a shadow, DIR = 1 a shadow into a value and clears the shadows of d. -/
def bodyTmov (c : Ctx) : Out :=
  if c.sel == 0 then .regs c.g 0
  else
    let scal := c.mods 1 1 == 1
    let back := c.mods 0 1 == 1
    let j := c.subn
    let from_ := if back then j else 0
    let v := c.g.v c.anum from_
    let x := c.g.s c.anum from_
    if back then
      let g := c.g.putComp scal c.dnum 0 c.sel v x
      .regs ((List.range c.l.ktan).foldl (fun (g : Group) i => g.putComp scal c.dnum (i + 1) c.sel (Lanes.const 0) 0) g) 0
    else .regs (c.g.putComp scal c.dnum j c.sel v x) 0

/-- TZERO: component j, or every component, of n registers becomes zero. -/
def bodyTzero (c : Ctx) : Out :=
  if c.sel == 0 then .regs c.g 0
  else
    let scal := c.mods 7 1 == 1
    let js := if c.subn == 0 then (List.range c.l.ktan).map (· + 1) else [c.subn]
    .regs ((List.range (c.mods 0 7 + 1)).foldl (fun (g : Group) r =>
      js.foldl (fun (g : Group) j => g.putComp scal (c.dnum + r) j c.sel (Lanes.const 0) 0) g) c.g) 0

/-! ### The meanings -/

def execTmov (f : FR) (s : State) : Host.Outcome State Fault Refusal := .next (runWord (.fr 0x341 f) bodyTmov s)
def execTzero (f : FR) (s : State) : Host.Outcome State Fault Refusal := .next (runWord (.fr 0x342 f) bodyTzero s)

end Sys2Proof.Machine
end

