-- ==== Sys2Proof/Machine/System.lean ====
section
/-! DEFINITION. Traps by software, return, breakpoints and signature checks: class 14 (spec/18_traps.md R337, R338,
spec/17_debug.md R326, spec/20_reliability.md R385), and the DX prefix (spec/03_encoding.md R58). -/

namespace Sys2Proof.Machine

/-- The code of TRAP or BKPT: imm32, or the value of scalar position a. -/
def Ctx.codeOf (c : Ctx) : Word := match c.fm with | .fi _ f => f.imm | _ => (c.scalar 0).setWidth 32

/-- TRAP: a software trap where its selection is not empty. -/
def bodyTrap (c : Ctx) : Out := if c.sel == 0 then .regs c.g 0 else .trap 0x10 (c.codeOf.setWidth 64) c.sel

/-- RETT: acts whatever EXEC holds and leaves SIG as it is. -/
def bodyRett (c : Ctx) : Out :=
  .flow ((c.s.putGroup c.w.run (c.g.leaveTrap c.ent)).trace 7 c.pc c.w.run c.g.grp c.ent) c.g.sig

/-- BKPT: a stop with CAUSE 1 behind the word, a NOP while EN = 0 or where it selects no lane. -/
def Ctx.bkpt (c : Ctx) (code : Word) : Out :=
  if c.sel == 0 || !c.s.dbg.en then .regs c.g 0
  else .done (c.s.stopAt c.w.run c.g.grp c.ent 1 (c.pc + 8) 0 code 0)

def bodyBkpt (c : Ctx) : Out := c.bkpt 0
def bodyBkptImm (c : Ctx) : Out := c.bkpt c.codeOf

/-- SIGCHK (R385) acts whatever EXEC holds, as the class-7 words do: a failure writes an error record and takes SIGFAIL, and
where EXEC is empty the record names no lane (log 11). -/
def bodySigchk (c : Ctx) : Out :=
  if decide (2 ≤ c.g.frags.length) || c.g.trap.isSome || (c.g.sig == c.codeOf && c.f.exec == c.f.shadow) then .regs c.g 0
  else
    let wid := if c.sel == 0 then BitVec.allOnes 64 else c.g.wid.at (c.g.lowLane c.sel)
    let s := c.s.errorRecord 12 5 0 wid c.w.wgx c.w.core c.g.grp 0 c.pc
    .state (s.trap c.w.run c.g.grp c.ent c.tpc c.tpc 0x0F (fields [(32, c.codeOf.toNat), (0, c.g.sig.toNat)]) c.sel)

/-- DX: the prefix is latched, and the word behind it issues with it as one unit (R58). -/
def State.prefixWord (f : FR) (s : State) : State :=
  let s := s.passAcquire
  match s.ctx? (.fr 0x3C0 f) with
  | none => s
  | some c =>
    if c.f.st == .acquire then c.finish (.stall .acquire)
    else if c.g.acqHold || c.g.fenceHold c.ent then c.finish (.stall .other)
    else if c.illegal false != 0 then c.finish (.trap 0x01 (BitVec.ofNat 64 (c.illegal false)) c.sel)
    else { s with cursor := { s.cursor with dx := some (f.subn, c.pc), pc := c.pc + 8 } }

/-! ### The meanings -/

def execTrapReg (f : FR) (s : State) : Host.Outcome State Fault Refusal := .next (runWord (.fr 0x380 f) bodyTrap s)
def execTrap (f : FI) (s : State) : Host.Outcome State Fault Refusal := .next (runWord (.fi 0x380 f) bodyTrap s)
def execRett (f : FR) (s : State) : Host.Outcome State Fault Refusal := .next (runWord (.fr 0x381 f) bodyRett s)
def execBkpt (f : FR) (s : State) : Host.Outcome State Fault Refusal := .next (runWord (.fr 0x382 f) bodyBkpt s)
def execBkptImm (f : FI) (s : State) : Host.Outcome State Fault Refusal := .next (runWord (.fi 0x382 f) bodyBkptImm s)
def execSigchk (f : FI) (s : State) : Host.Outcome State Fault Refusal := .next (runWord (.fi 0x383 f) bodySigchk s)
def execDx (f : FR) (s : State) : Host.Outcome State Fault Refusal := .next (State.prefixWord f s)

end Sys2Proof.Machine
end

