-- ==== Sys2Proof/Machine/Wake.lean ====
section
/-! DEFINITION. What wakes sleeping fragments beside their own events (spec/09_control.md R175, R185, R187,
spec/07_memory.md R151): SLEEP, YIELD and WAITM by time, the release of stuck joins, and moves of split-table entries. -/

namespace Sys2Proof.Machine

/-- SLEEP_EXPIRY: DTIME has reached the end of the sleep. -/
def sleepExpiry (s : State) : State :=
  match s.wg? s.arg.wg with
  | none => s
  | some w => s.onGroup w.run s.arg.grp fun g =>
    match g.frag? s.arg.ent with
    | some f =>
      match f.st with
      | .sleep till => if till ≤ s.now (coreDie w.core) then g.putFrag s.arg.ent { f with st := .ready } else g
      | _ => g
    | none => g

/-- The groups of a core's partition. -/
def State.partition (s : State) (core part : Nat) : List Group :=
  (s.wgs.filter fun w => w.core == core).flatMap fun w => w.groups.filter fun g => g.part == part

/-- YIELD_EXPIRY: every other group of the partition with a ready fragment has issued since, or 64 cycles have passed. -/
def yieldExpiry (s : State) : State :=
  match s.wg? s.arg.wg, s.group? s.arg.wg s.arg.grp with
  | some w, some g =>
    match g.frag? s.arg.ent with
    | some f =>
      match f.st with
      | .yield cyc stamp =>
        let others := ((s.wgs.filter fun x => x.core == w.core).flatMap fun x => (x.groups.filter fun h =>
          h.part == g.part && !(x.run == w.run && h.grp == g.grp) && h.ready).map (·.lastIssue))
        if decide (cyc + 64 ≤ s.cyc) || others.all fun t => decide (stamp < t) then
          s.putGroup w.run (g.putFrag s.arg.ent { f with st := .ready })
        else s
      | _ => s
    | none => s
  | _, _ => s

/-- WAITM_TIMEOUT: the time limit of a monitored wait has passed (code 3). -/
def waitmTimeout (s : State) : State :=
  match s.wg? s.arg.wg, s.group? s.arg.wg s.arg.grp with
  | some w, some g =>
    match g.frag? s.arg.ent with
    | some f =>
      match f.st with
      | .waitm acc (some till) =>
        match (g.accs.find? fun a => a.id == acc).bind fun a => a.parts.head?.map fun p => (a, p) with
        | some (a, p) =>
          if p.faultOf.isNone && decide (till ≤ s.now (coreDie w.core)) then
            s.endMonitor w g s.arg.ent a p (s.wakeCode w p (some till) 3)
          else s
        | none => s
      | _ => s
    | none => s
  | _, _ => s

/-- A group that is stuck at a join (R185): the join with sleepers whose JSET executed earliest. -/
def Group.stuck (g : Group) : Option Nat :=
  let still := g.frags.all fun x => match x.2.st with | .join .. | .bwait .. | .regroup _ => true | _ => false
  let js := (List.range 8).filter fun n => !(g.sleepers n).isEmpty
  if !still then none
  else js.foldl (fun (b : Option Nat) n => match b with | none => some n | some m => if (g.join n).ord < (g.join m).ord then some n else b) none

/-- JOIN_STUCK_RELEASE: the join is released with its partial mask. In deterministic mode the group that sleeps is counted at the
quantum end, with its LCLK raised to the boundary, and stays so (R296). -/
def joinStuckRelease (s : State) : State :=
  match s.wg? s.arg.wg, s.group? s.arg.wg s.arg.grp with
  | some w, some g =>
    match g.stuck with
    | none => s
    | some n =>
      let ws := g.sleepers n
      let pc := match g.frag? (ws.headD 0) with | some f => f.pc | none => 0
      let h := g.releaseJoin n s.cyc
      let h := match s.launch? w.lid with
        | some l => if l.det then { h with lclk := g.clock l.quantum, atEnd := true, turn := false } else h
        | none => h
      let s := (s.putGroup w.run h).onLaunch w.lid fun l => { l with lostj := true }
      s.trace 5 pc w.run g.grp (ws.headD 0)
  | _, _ => s

/-- STATE, OBJ and WKIND of a fragment; `held`: another fragment of its group runs the trap handler (R175). -/
def FragSt.code (st : FragSt) (held : Bool) : Nat × Nat × Nat :=
  match st with
  | .join j _ => (1, j, 0)
  | .bwait b .. => (2, b, 0)
  | .regroup _ => (3, 0, 0)
  | .sleep _ => (4, 0, 0)
  | .parked _ => (5, 0, 0)
  | .stalled | .reading => (6, 0, 0)
  | .waitm .. => (7, 0, 0)
  | .waitc p => (7, p, 1)
  | .mwait => (7, 0, 2)
  | .queue _ => (7, 0, 3)
  | .yield .. | .fence | .held | .acquire | .other => (7, 0, 5)
  | .ready => if held then (7, 0, 4) else (0, 0, 0)

/-- A spilled entry of the split table (R175). -/
def Frag.spilled (g : Group) (f : Frag) : List Byte :=
  let (st, obj, kind) := f.st.code (match g.trap with | some fid => fid != f.fid | none => false)
  leBytes 8 (st * 2 ^ 61 + obj * 2 ^ 57 + f.pc.toNat % 2 ^ 57 / 8 * 8 + kind) ++ leBytes 8 f.f.toNat ++ leBytes 8 f.exec.toNat
    ++ leBytes 8 f.link.toNat

/-- Where entry `i` of 8-15 of a group stands, as a scratchpad offset beyond every access of a program (R28, R154, R175). -/
def Launch.spillAt (l : Launch) (grp i : Nat) : Nat := l.spad + 256 * grp + 32 * (i - 8)

/-- SPLIT_TABLE_SWAP: a ready fragment of the reserve moves to the lowest free on-chip entry, or changes places with a
sleeping on-chip fragment, the lowest, or where none sleeps with one that another holds back (R175, log 72). -/
def splitTableSwap (s : State) : State :=
  match s.wg? s.arg.wg, s.group? s.arg.wg s.arg.grp with
  | some w, some g =>
    match g.frag? s.arg.ent with
    | some f =>
      let det := s.detOf w
      if s.arg.ent < 8 || !f.wakes g || (det && g.swapDue != some s.arg.ent) then s
      else
        let rest : Group := { g with frags := Map.erase g.frags s.arg.ent }
        match (List.range 8).find? fun e => (g.frag? e).isNone with
        | some e => s.putGroup w.run (rest.putFrag e f)
        | none =>
          match g.gives det s.arg.ent with
          | some (e, x) => s.putGroup w.run ((g.putFrag e f).putFrag s.arg.ent x)
          | none => s
    | none => s
  | _, _ => s

/-! ### The meanings -/

def execSleepExpiry (s : State) : Host.Outcome State Fault Refusal := .next (sleepExpiry s)
def execYieldExpiry (s : State) : Host.Outcome State Fault Refusal := .next (yieldExpiry s)
def execWaitmTimeout (s : State) : Host.Outcome State Fault Refusal := .next (waitmTimeout s)
def execJoinStuckRelease (s : State) : Host.Outcome State Fault Refusal := .next (joinStuckRelease s)
def execSplitTableSwap (s : State) : Host.Outcome State Fault Refusal := .next (splitTableSwap s)

end Sys2Proof.Machine
end

