-- ==== Sys2Proof/Machine/Dispatch.lean ====
section
/-! DEFINITION. One arm for each instruction of spec/opcode_table.json: a direct call of its meaning. -/

namespace Sys2Proof.Machine

def exec (i : Instr) (s : State) : Host.Outcome State Fault Refusal :=
  match i with
  | .iadd f => Sys2Proof.Machine.execIadd f s
  | .iaddImm f => Sys2Proof.Machine.execIaddImm f s
  | .isub f => Sys2Proof.Machine.execIsub f s
  | .isubImm f => Sys2Proof.Machine.execIsubImm f s
  | .iaddc f => Sys2Proof.Machine.execIaddc f s
  | .isubb f => Sys2Proof.Machine.execIsubb f s
  | .imul f => Sys2Proof.Machine.execImul f s
  | .imulImm f => Sys2Proof.Machine.execImulImm f s
  | .imulh f => Sys2Proof.Machine.execImulh f s
  | .imulw f => Sys2Proof.Machine.execImulw f s
  | .imad f => Sys2Proof.Machine.execImad f s
  | .imin f => Sys2Proof.Machine.execImin f s
  | .iminImm f => Sys2Proof.Machine.execIminImm f s
  | .imax f => Sys2Proof.Machine.execImax f s
  | .imaxImm f => Sys2Proof.Machine.execImaxImm f s
  | .iclamp f => Sys2Proof.Machine.execIclamp f s
  | .iabs f => Sys2Proof.Machine.execIabs f s
  | .ineg f => Sys2Proof.Machine.execIneg f s
  | .isad f => Sys2Proof.Machine.execIsad f s
  | .idot4 f => Sys2Proof.Machine.execIdot4 f s
  | .iadd3 f => Sys2Proof.Machine.execIadd3 f s
  | .ishadd f => Sys2Proof.Machine.execIshadd f s
  | .icmp f => Sys2Proof.Machine.execIcmp f s
  | .icmpImm f => Sys2Proof.Machine.execIcmpImm f s
  | .and f => Sys2Proof.Machine.execAnd f s
  | .andImm f => Sys2Proof.Machine.execAndImm f s
  | .or f => Sys2Proof.Machine.execOr f s
  | .orImm f => Sys2Proof.Machine.execOrImm f s
  | .xor f => Sys2Proof.Machine.execXor f s
  | .xorImm f => Sys2Proof.Machine.execXorImm f s
  | .andn f => Sys2Proof.Machine.execAndn f s
  | .andnImm f => Sys2Proof.Machine.execAndnImm f s
  | .not f => Sys2Proof.Machine.execNot f s
  | .tern f => Sys2Proof.Machine.execTern f s
  | .shl f => Sys2Proof.Machine.execShl f s
  | .shlImm f => Sys2Proof.Machine.execShlImm f s
  | .shr f => Sys2Proof.Machine.execShr f s
  | .shrImm f => Sys2Proof.Machine.execShrImm f s
  | .sra f => Sys2Proof.Machine.execSra f s
  | .sraImm f => Sys2Proof.Machine.execSraImm f s
  | .rot f => Sys2Proof.Machine.execRot f s
  | .rotImm f => Sys2Proof.Machine.execRotImm f s
  | .bfe f => Sys2Proof.Machine.execBfe f s
  | .bfi f => Sys2Proof.Machine.execBfi f s
  | .popc f => Sys2Proof.Machine.execPopc f s
  | .clz f => Sys2Proof.Machine.execClz f s
  | .brev f => Sys2Proof.Machine.execBrev f s
  | .bfind f => Sys2Proof.Machine.execBfind f s
  | .mov f => Sys2Proof.Machine.execMov f s
  | .movi f => Sys2Proof.Machine.execMovi f s
  | .sel f => Sys2Proof.Machine.execSel f s
  | .rdsr f => Sys2Proof.Machine.execRdsr f s
  | .wrsr f => Sys2Proof.Machine.execWrsr f s
  | .mlog f => Sys2Proof.Machine.execMlog f s
  | .mrd f => Sys2Proof.Machine.execMrd f s
  | .mwr f => Sys2Proof.Machine.execMwr f s
  | .lanerd f => Sys2Proof.Machine.execLanerd f s
  | .lanewr f => Sys2Proof.Machine.execLanewr f s
  | .fadd f => Sys2Proof.Machine.execFadd f s
  | .faddImm f => Sys2Proof.Machine.execFaddImm f s
  | .fsub f => Sys2Proof.Machine.execFsub f s
  | .fsubImm f => Sys2Proof.Machine.execFsubImm f s
  | .fmul f => Sys2Proof.Machine.execFmul f s
  | .fmulImm f => Sys2Proof.Machine.execFmulImm f s
  | .ffma f => Sys2Proof.Machine.execFfma f s
  | .fmin f => Sys2Proof.Machine.execFmin f s
  | .fminImm f => Sys2Proof.Machine.execFminImm f s
  | .fmax f => Sys2Proof.Machine.execFmax f s
  | .fmaxImm f => Sys2Proof.Machine.execFmaxImm f s
  | .fabs f => Sys2Proof.Machine.execFabs f s
  | .fneg f => Sys2Proof.Machine.execFneg f s
  | .fcmp f => Sys2Proof.Machine.execFcmp f s
  | .fcmpImm f => Sys2Proof.Machine.execFcmpImm f s
  | .fdiv f => Sys2Proof.Machine.execFdiv f s
  | .frnd f => Sys2Proof.Machine.execFrnd f s
  | .fclass f => Sys2Proof.Machine.execFclass f s
  | .fsgn f => Sys2Proof.Machine.execFsgn f s
  | .fsat f => Sys2Proof.Machine.execFsat f s
  | .hadd2 f => Sys2Proof.Machine.execHadd2 f s
  | .hsub2 f => Sys2Proof.Machine.execHsub2 f s
  | .hmul2 f => Sys2Proof.Machine.execHmul2 f s
  | .hfma2 f => Sys2Proof.Machine.execHfma2 f s
  | .hmin2 f => Sys2Proof.Machine.execHmin2 f s
  | .hmax2 f => Sys2Proof.Machine.execHmax2 f s
  | .hcmp2 f => Sys2Proof.Machine.execHcmp2 f s
  | .hdot2 f => Sys2Proof.Machine.execHdot2 f s
  | .cvt f => Sys2Proof.Machine.execCvt f s
  | .cvtq f => Sys2Proof.Machine.execCvtq f s
  | .cvtd f => Sys2Proof.Machine.execCvtd f s
  | .pack f => Sys2Proof.Machine.execPack f s
  | .unpk f => Sys2Proof.Machine.execUnpk f s
  | .exp2 f => Sys2Proof.Machine.execExp2 f s
  | .log2 f => Sys2Proof.Machine.execLog2 f s
  | .rcp f => Sys2Proof.Machine.execRcp f s
  | .rsqrt f => Sys2Proof.Machine.execRsqrt f s
  | .sqrt f => Sys2Proof.Machine.execSqrt f s
  | .sin f => Sys2Proof.Machine.execSin f s
  | .cos f => Sys2Proof.Machine.execCos f s
  | .tanh f => Sys2Proof.Machine.execTanh f s
  | .topk f => Sys2Proof.Machine.execTopk f s
  | .shfl f => Sys2Proof.Machine.execShfl f s
  | .vote f => Sys2Proof.Machine.execVote f s
  | .ballot f => Sys2Proof.Machine.execBallot f s
  | .redux f => Sys2Proof.Machine.execRedux f s
  | .scan f => Sys2Proof.Machine.execScan f s
  | .segscan f => Sys2Proof.Machine.execSegscan f s
  | .segred f => Sys2Proof.Machine.execSegred f s
  | .bcast f => Sys2Proof.Machine.execBcast f s
  | .perm f => Sys2Proof.Machine.execPerm f s
  | .bra f => Sys2Proof.Machine.execBra f s
  | .braReg f => Sys2Proof.Machine.execBraReg f s
  | .brc f => Sys2Proof.Machine.execBrc f s
  | .brcReg f => Sys2Proof.Machine.execBrcReg f s
  | .jmpi f => Sys2Proof.Machine.execJmpi f s
  | .call f => Sys2Proof.Machine.execCall f s
  | .callReg f => Sys2Proof.Machine.execCallReg f s
  | .calli f => Sys2Proof.Machine.execCalli f s
  | .ret f => Sys2Proof.Machine.execRet f s
  | .jset f => Sys2Proof.Machine.execJset f s
  | .join f => Sys2Proof.Machine.execJoin f s
  | .jarv f => Sys2Proof.Machine.execJarv f s
  | .yield f => Sys2Proof.Machine.execYield f s
  | .sleep f => Sys2Proof.Machine.execSleep f s
  | .sleepImm f => Sys2Proof.Machine.execSleepImm f s
  | .nop f => Sys2Proof.Machine.execNop f s
  | .ld f => Sys2Proof.Machine.execLd f s
  | .ldImm f => Sys2Proof.Machine.execLdImm f s
  | .st f => Sys2Proof.Machine.execSt f s
  | .stImm f => Sys2Proof.Machine.execStImm f s
  | .lds f => Sys2Proof.Machine.execLds f s
  | .ldsImm f => Sys2Proof.Machine.execLdsImm f s
  | .sts f => Sys2Proof.Machine.execSts f s
  | .stsImm f => Sys2Proof.Machine.execStsImm f s
  | .ldu f => Sys2Proof.Machine.execLdu f s
  | .lduImm f => Sys2Proof.Machine.execLduImm f s
  | .pref f => Sys2Proof.Machine.execPref f s
  | .prefImm f => Sys2Proof.Machine.execPrefImm f s
  | .waitc f => Sys2Proof.Machine.execWaitc f s
  | .waitm f => Sys2Proof.Machine.execWaitm f s
  | .atom f => Sys2Proof.Machine.execAtom f s
  | .atoms f => Sys2Proof.Machine.execAtoms f s
  | .red f => Sys2Proof.Machine.execRed f s
  | .fence f => Sys2Proof.Machine.execFence f s
  | .qbind f => Sys2Proof.Machine.execQbind f s
  | .qpush f => Sys2Proof.Machine.execQpush f s
  | .qpop f => Sys2Proof.Machine.execQpop f s
  | .qstat f => Sys2Proof.Machine.execQstat f s
  | .qinit f => Sys2Proof.Machine.execQinit f s
  | .qinitMem f => Sys2Proof.Machine.execQinitMem f s
  | .binit f => Sys2Proof.Machine.execBinit f s
  | .barv f => Sys2Proof.Machine.execBarv f s
  | .bwait f => Sys2Proof.Machine.execBwait f s
  | .mma f => Sys2Proof.Machine.execMma f s
  | .mzero f => Sys2Proof.Machine.execMzero f s
  | .mfence f => Sys2Proof.Machine.execMfence f s
  | .mwait f => Sys2Proof.Machine.execMwait f s
  | .mread f => Sys2Proof.Machine.execMread f s
  | .msts f => Sys2Proof.Machine.execMsts f s
  | .wraccw f => Sys2Proof.Machine.execWraccw f s
  | .ldx f => Sys2Proof.Machine.execLdx f s
  | .stx f => Sys2Proof.Machine.execStx f s
  | .ldxs f => Sys2Proof.Machine.execLdxs f s
  | .stxs f => Sys2Proof.Machine.execStxs f s
  | .probe f => Sys2Proof.Machine.execProbe f s
  | .unpin f => Sys2Proof.Machine.execUnpin f s
  | .become f => Sys2Proof.Machine.execBecome f s
  | .tmov f => Sys2Proof.Machine.execTmov f s
  | .tzero f => Sys2Proof.Machine.execTzero f s
  | .trap f => Sys2Proof.Machine.execTrap f s
  | .trapReg f => Sys2Proof.Machine.execTrapReg f s
  | .rett f => Sys2Proof.Machine.execRett f s
  | .bkpt f => Sys2Proof.Machine.execBkpt f s
  | .bkptImm f => Sys2Proof.Machine.execBkptImm f s
  | .sigchk f => Sys2Proof.Machine.execSigchk f s
  | .dx f => Sys2Proof.Machine.execDx f s
  | .hnop x y => Sys2Proof.Machine.execHnop x y s
  | .halfFadd x y => Sys2Proof.Machine.execHalfFadd x y s
  | .halfFsub x y => Sys2Proof.Machine.execHalfFsub x y s
  | .halfFmul x y => Sys2Proof.Machine.execHalfFmul x y s
  | .halfFmin x y => Sys2Proof.Machine.execHalfFmin x y s
  | .halfFmax x y => Sys2Proof.Machine.execHalfFmax x y s
  | .halfFrsub x y => Sys2Proof.Machine.execHalfFrsub x y s
  | .halfIadd x y => Sys2Proof.Machine.execHalfIadd x y s
  | .halfIsub x y => Sys2Proof.Machine.execHalfIsub x y s
  | .halfImul x y => Sys2Proof.Machine.execHalfImul x y s
  | .halfImin x y => Sys2Proof.Machine.execHalfImin x y s
  | .halfImax x y => Sys2Proof.Machine.execHalfImax x y s
  | .halfIrsub x y => Sys2Proof.Machine.execHalfIrsub x y s
  | .halfAnd x y => Sys2Proof.Machine.execHalfAnd x y s
  | .halfOr x y => Sys2Proof.Machine.execHalfOr x y s
  | .halfXor x y => Sys2Proof.Machine.execHalfXor x y s
  | .halfAndn x y => Sys2Proof.Machine.execHalfAndn x y s
  | .halfShl x y => Sys2Proof.Machine.execHalfShl x y s
  | .halfShr x y => Sys2Proof.Machine.execHalfShr x y s
  | .halfSra x y => Sys2Proof.Machine.execHalfSra x y s
  | .halfMov x y => Sys2Proof.Machine.execHalfMov x y s
  | .halfExp2 x y => Sys2Proof.Machine.execHalfExp2 x y s
  | .halfLog2 x y => Sys2Proof.Machine.execHalfLog2 x y s
  | .halfRcp x y => Sys2Proof.Machine.execHalfRcp x y s
  | .halfRsqrt x y => Sys2Proof.Machine.execHalfRsqrt x y s
  | .halfSqrt x y => Sys2Proof.Machine.execHalfSqrt x y s
  | .halfSin x y => Sys2Proof.Machine.execHalfSin x y s
  | .halfCos x y => Sys2Proof.Machine.execHalfCos x y s
  | .halfTanh x y => Sys2Proof.Machine.execHalfTanh x y s
  | .halfLds x y => Sys2Proof.Machine.execHalfLds x y s
  | .powerOnReset => Sys2Proof.Machine.execPowerOnReset s
  | .runtimeMeasurementFailure => Sys2Proof.Machine.execRuntimeMeasurementFailure s
  | .stage => Sys2Proof.Machine.execStage s
  | .commit => Sys2Proof.Machine.execCommit s
  | .reset => Sys2Proof.Machine.execReset s
  | .attestationRequest => Sys2Proof.Machine.execAttestationRequest s
  | .domainTableWrite => Sys2Proof.Machine.execDomainTableWrite s
  | .hostAtomicop => Sys2Proof.Machine.execHostAtomicop s
  | .hostBar2Read => Sys2Proof.Machine.execHostBar2Read s
  | .hostBar2Write => Sys2Proof.Machine.execHostBar2Write s
  | .launchctlPreempt => Sys2Proof.Machine.execLaunchctlPreempt s
  | .launchctlCancel => Sys2Proof.Machine.execLaunchctlCancel s
  | .completionCounterWrite => Sys2Proof.Machine.execCompletionCounterWrite s
  | .classifierEntryWrite => Sys2Proof.Machine.execClassifierEntryWrite s
  | .transmitQueueRegisterWrite => Sys2Proof.Machine.execTransmitQueueRegisterWrite s
  | .registerWrite => Sys2Proof.Machine.execRegisterWrite s
  | .debugHalt => Sys2Proof.Machine.execDebugHalt s
  | .debugResume => Sys2Proof.Machine.execDebugResume s
  | .debugStep => Sys2Proof.Machine.execDebugStep s
  | .debugStepComplete => Sys2Proof.Machine.execDebugStepComplete s
  | .faultResolveReplay => Sys2Proof.Machine.execFaultResolveReplay s
  | .faultResolveAbort => Sys2Proof.Machine.execFaultResolveAbort s
  | .faultReplayResend => Sys2Proof.Machine.execFaultReplayResend s
  | .saveFetch => Sys2Proof.Machine.execSaveFetch s
  | .linkRestore => Sys2Proof.Machine.execLinkRestore s
  | .translationInvalidate => Sys2Proof.Machine.execTranslationInvalidate s
  | .translationInvalidateComplete => Sys2Proof.Machine.execTranslationInvalidateComplete s
  | .launchAccept => Sys2Proof.Machine.execLaunchAccept s
  | .launchWaitsSatisfied => Sys2Proof.Machine.execLaunchWaitsSatisfied s
  | .indirectCountRead => Sys2Proof.Machine.execIndirectCountRead s
  | .launchStartTime => Sys2Proof.Machine.execLaunchStartTime s
  | .workgroupPlace => Sys2Proof.Machine.execWorkgroupPlace s
  | .workgroupRetire => Sys2Proof.Machine.execWorkgroupRetire s
  | .launchComplete => Sys2Proof.Machine.execLaunchComplete s
  | .completionCounterBump => Sys2Proof.Machine.execCompletionCounterBump s
  | .class0PreemptTimeout => Sys2Proof.Machine.execClass0PreemptTimeout s
  | .preemptRequestAtCore => Sys2Proof.Machine.execPreemptRequestAtCore s
  | .graceExpiry => Sys2Proof.Machine.execGraceExpiry s
  | .workgroupKillRelease => Sys2Proof.Machine.execWorkgroupKillRelease s
  | .holdReserveRollback => Sys2Proof.Machine.execHoldReserveRollback s
  | .quantumEnd => Sys2Proof.Machine.execQuantumEnd s
  | .syncOperationTurn => Sys2Proof.Machine.execSyncOperationTurn s
  | .redundantCompare => Sys2Proof.Machine.execRedundantCompare s
  | .urgencyPrediction => Sys2Proof.Machine.execUrgencyPrediction s
  | .joinStuckRelease => Sys2Proof.Machine.execJoinStuckRelease s
  | .splitTableSwap => Sys2Proof.Machine.execSplitTableSwap s
  | .sleepExpiry => Sys2Proof.Machine.execSleepExpiry s
  | .yieldExpiry => Sys2Proof.Machine.execYieldExpiry s
  | .waitmTimeout => Sys2Proof.Machine.execWaitmTimeout s
  | .leaseExpiry => Sys2Proof.Machine.execLeaseExpiry s
  | .homeFill => Sys2Proof.Machine.execHomeFill s
  | .homeWriteArrival => Sys2Proof.Machine.execHomeWriteArrival s
  | .homeWriteApply => Sys2Proof.Machine.execHomeWriteApply s
  | .writeAcknowledgement => Sys2Proof.Machine.execWriteAcknowledgement s
  | .loadReturn => Sys2Proof.Machine.execLoadReturn s
  | .acceptanceArrival => Sys2Proof.Machine.execAcceptanceArrival s
  | .translationWalk => Sys2Proof.Machine.execTranslationWalk s
  | .engineLineFinish => Sys2Proof.Machine.execEngineLineFinish s
  | .copyFetch => Sys2Proof.Machine.execCopyFetch s
  | .copyClaimsComplete => Sys2Proof.Machine.execCopyClaimsComplete s
  | .copyChunkLand => Sys2Proof.Machine.execCopyChunkLand s
  | .copyCycleFault => Sys2Proof.Machine.execCopyCycleFault s
  | .gatherWindowClose => Sys2Proof.Machine.execGatherWindowClose s
  | .pressOperationStart => Sys2Proof.Machine.execPressOperationStart s
  | .pressOperationComplete => Sys2Proof.Machine.execPressOperationComplete s
  | .queuePushGrant => Sys2Proof.Machine.execQueuePushGrant s
  | .queuePopGrant => Sys2Proof.Machine.execQueuePopGrant s
  | .queuePopCommit => Sys2Proof.Machine.execQueuePopCommit s
  | .queueTailAdvance => Sys2Proof.Machine.execQueueTailAdvance s
  | .barrierArrival => Sys2Proof.Machine.execBarrierArrival s
  | .regroup => Sys2Proof.Machine.execRegroup s
  | .errorResponse => Sys2Proof.Machine.execErrorResponse s
  | .arrayError => Sys2Proof.Machine.execArrayError s
  | .linkIsolate => Sys2Proof.Machine.execLinkIsolate s
  | .frameArrival => Sys2Proof.Machine.execFrameArrival s
  | .frameTransmit => Sys2Proof.Machine.execFrameTransmit s
  | .ptpEventTimestamp => Sys2Proof.Machine.execPtpEventTimestamp s
  | .ptpFirstLock => Sys2Proof.Machine.execPtpFirstLock s
  | .seriesLatch => Sys2Proof.Machine.execSeriesLatch s
  | .longLatencyComplete => Sys2Proof.Machine.execLongLatencyComplete s
  | .remoteLineCopyDrop => Sys2Proof.Machine.execRemoteLineCopyDrop s
  | .powerGovernorAdjust => Sys2Proof.Machine.execPowerGovernorAdjust s
  | .translationEntryWrite => Sys2Proof.Machine.execTranslationEntryWrite s
  | .launchQueueReinit => Sys2Proof.Machine.execLaunchQueueReinit s
  | .hostBar0QueueWrite => Sys2Proof.Machine.execHostBar0QueueWrite s
  | .ptpServoUpdate => Sys2Proof.Machine.execPtpServoUpdate s
  | .ptpMasterLoss => Sys2Proof.Machine.execPtpMasterLoss s
  | .droppedWriteLogClear => Sys2Proof.Machine.execDroppedWriteLogClear s

end Sys2Proof.Machine
end

