-- ==== Sys2Proof/Machine/Fetch.lean ====
section
/-! DEFINITION. Instruction fetch and the issue of one word (spec/07_memory.md R132, R139, spec/18_traps.md R339, R341 rank 1,
spec/19_memfaults.md R361-R365, R370, spec/20_reliability.md R378, spec/17_debug.md R325): what a step of a fragment does. -/

namespace Sys2Proof.Machine

/-! ### Fetching one word -/

/-- What a fetch comes to: the word with the state after the fetch; a state in which the fragment has trapped, is parked,
killed or rolled back; or a line that cannot be read yet. -/
inductive Fetched where
  | word (w : DWord) (s : State)
  | ended (s : State)
  | wait (s : State)

/-- The fetch at `pc` outside every X range: the instruction-fetch trap. TINFO is the word that sent control here, TMASK is
F; behind a prefix TPC is the prefix's address. -/
def Ctx.fetchTrap (c : Ctx) (pc : DWord) : State :=
  let s := c.s.passAcquire
  let tpc := match s.cursor.dx with | some x => x.2 | none => pc
  if c.f.st == .acquire && !c.g.drained then c.finish (.stall .acquire)
  else if c.g.acqHold || c.g.fenceHold c.ent then c.finish (.stall .other)
  else s.trap c.w.run c.g.grp c.ent tpc pc 0x02 c.f.sent (c.f.f.setWidth 64)

/-- A page fault at fetch: one KIND 6 record for F, and the fragment parks at once (R362). -/
def Ctx.fetchPark (c : Ctx) (ia reason : Nat) : State :=
  let (id, s) := c.s.new
  let parts : List Part := c.f.f.lanes.map fun i => { lane := i, va := c.pc.toNat, ia, size := 8, st := .faulted reason }
  let a : Access := { id, kind := .fetch, pc := c.tpc, fid := c.f.fid, ent := c.ent, exec := c.f.f, parts, glob := false }
  let s := s.putGroup c.w.run { c.g.putFrag c.ent { c.f with st := .parked id } with accs := c.g.accs ++ [a] }
  { (s.countWalk ia false (some c.l.dom)).recordFaults c.w.run c.g.grp id with cursor := { c.s.cursor with dx := none } }

/-- An error response that the address of a fetch brings; others come by ERROR_RESPONSE (R370). -/
def Ctx.fetchError (c : Ctx) (ia reason : Nat) : State := c.s.fetchErrorAt c.w c.l c.g c.ent c.f c.pc c.tpc ia reason

/-- A poisoned word is consumed (R378). -/
def Ctx.fetchPoison (c : Ctx) (ia : Nat) : State :=
  c.s.consume c.w.run c.g.grp 0 (if (c.s.l2? (ia / 128)).isSome then 7 else 8) ia c.tpc

/-- A fetch-buffer fill of the word's line: every sector without poison, under the line's lease. A fill for an urgent group
counts as `.EL` in L2 (R142). -/
def Ctx.fetchFill (c : Ctx) (ia : Nat) : State :=
  let line := ia / 128
  let g := c.s.homeNow (some c.l.dom) ia
  let at_ := 128 * line
  let s := (c.s.carry (some c.l.dom) at_ 128 0).touchL2 (some c.l.dom) at_ 128 false 0 (if c.g.urgent then 2 else 0)
  let s := s.grant ia g c.l.lease
  let sectors := ((List.range 8).filter fun i => !s.badIA (128 * line + 16 * i) 16).map fun i => (i, s.readIA (128 * line + 16 * i) 16)
  let x : CacheLine := { line, sectors, e := g + c.l.lease, ut := region ia != .hbm, stamp := s.cyc }
  s.onCore c.w.core fun k => { k with fetchBuf := (k.fetchBuf.filter fun y => y.line != line) ++ [x] }

/-- The word at an IA, from the fetch buffer or from its home. -/
def Ctx.fetchAt (c : Ctx) (ia : Nat) : Fetched :=
  let now := c.s.now (coreDie c.w.core)
  match cacheHit (c.s.core c.w.core).fetchBuf now ia with
  | some bs => .word (BitVec.ofNat 64 (leNat ((bs.drop (ia % 16)).take 8))) c.s
  | none =>
    match c.s.xlatFault ia with
    | some why => .ended (c.fetchPark ia why)
    | none =>
      match c.s.errorAt (some c.l.dom) ia with
      | some why => .ended (c.fetchError ia why)
      | none =>
        let s := if region ia == .hbm then c.s.cacheWalk ia false (some c.l.dom) else c.s
        let c : Ctx := { c with s }
        let line := ia / 128 * 128
        if !s.lineFree ia || !s.mayRead (some c.l.dom) line 128 0 then .wait s
        else if s.badIA ia 8 || s.cutOff (some c.l.dom) line 128 then .ended (c.fetchPoison ia)
        else
          let s := c.fetchFill ia
          .word (BitVec.ofNat 64 (leNat (s.readIA ia 8))) s

/-- The next word of the unit, of a fragment stalled at its source read (R342). -/
def Ctx.keptWord (c : Ctx) : Option DWord := if c.f.st == .reading then c.f.kept[c.s.cursor.words.length]? else none

/-- The word at the cursor. -/
def State.fetchWord (s : State) : Fetched :=
  match s.ctx? .event with
  | none => .ended s
  | some c =>
    match c.keptWord with
    | some w => .word w s
    | none =>
      match c.l.rangeOf c.pc.toNat with
      | some x => if x.x then c.fetchAt (x.iaOf c.pc.toNat) else .ended (c.fetchTrap c.pc)
      | none => .ended (c.fetchTrap c.pc)

/-- The same, noted at the cursor. -/
def State.fetch (s : State) : Fetched :=
  match s.fetchWord with
  | .word w s => .word w { s with cursor := { s.cursor with words := s.cursor.words ++ [w] } }
  | x => x

/-! ### Running it -/

/-- The predicate fields of a word that is no instruction (R49, R53). -/
def wordPred (w : DWord) : BitVec 3 × Bool :=
  if w.getLsbD 63 then (0, false)
  else if w.getLsbD 62 then (w.extractLsb' 49 3, w.getLsbD 32)
  else (w.extractLsb' 17 3, w.getLsbD 16)

/-- A word with bit 0 set where it must be clear: the lowest case that applies (R61). -/
def State.illegalBit (s : State) (i : Instr) : State :=
  match s.ctx? i.form with
  | none => s
  | some c => s.illegalWord (c.illegal true) c.sh.pm c.sh.pn

/-- A fetched word issues. -/
def State.runWordAt (s : State) (w : DWord) : Host.Outcome State Fault Refusal :=
  match parse w with
  | .bad n => .next (s.illegalWord n (wordPred w).1 (wordPred w).2)
  | .word i true => .next (s.illegalBit i)
  | .word i false => exec i s

/-- The fragment waits for its line. -/
def State.fetchWait (s : State) : State :=
  { s.onGroup s.cursor.wg s.cursor.grp (fun g => match g.frag? s.cursor.ent with
      | some f => if f.st == .ready then g.putFrag s.cursor.ent { f with st := .other } else g
      | none => g) with cursor := { s.cursor with dx := none } }

/-- The word behind a prefix issues with it as one unit (R58). -/
def behindPrefix (o : Host.Outcome State Fault Refusal) : Host.Outcome State Fault Refusal :=
  match o with
  | .next s =>
    if s.cursor.dx.isNone then .next s
    else match s.fetch with
      | .word w s => s.runWordAt w
      | .ended s => .next { s with cursor := { s.cursor with dx := none } }
      | .wait s => .next s.fetchWait
  | o => o

/-- The fragment at a breakpoint (R325). -/
def State.atBreakpoint (s : State) (pc : DWord) : Bool :=
  s.dbg.en && s.dbg.bps.any fun x => x.2.getLsbD 63 && x.2.extractLsb' 3 54 == pc.extractLsb' 3 54

/-- One issue of the fragment at the cursor: its word is fetched and runs. -/
def State.issueAt (s : State) : Host.Outcome State Fault Refusal :=
  match s.fetch with
  | .word w s => behindPrefix (s.runWordAt w)
  | .ended s => .next s
  | .wait s => .next s.fetchWait

/-! ### Which fragments may try (R175, R176, R295, R296, R334) -/

/-- The fragments of a workgroup issue. -/
def Workgroup.issues (w : Workgroup) : Bool := w.life == .running || w.life == .draining

/-- A trace record of the group cannot be written yet: the group stalls (R331). -/
def State.traceWaits (s : State) (run grp : Nat) : Bool :=
  s.msgs.any fun m => m.use_ == .trace run grp && (match m.part.st with | .issued | .walked | .faulted _ => true | _ => false)

/-- A fragment tries to issue its next word. -/
def State.issue (s : State) (run grp ent : Nat) : Host.Outcome State Fault Refusal :=
  match s.wg? run, s.group? run grp with
  | some w, some g =>
    match g.frag? ent with
    | none => .next s
    | some f =>
      if !w.issues || !g.mayGo (s.detOf w) (ent, f) || w.heldOver.contains grp || s.traceWaits run grp then .next s
      else if s.atBreakpoint f.pc then .next (s.stopAt run grp ent 2 f.pc 0 0 0)
      else { s with cursor := { wg := run, grp, ent, pc := f.pc, dx := none } }.issueAt
  | _, _ => .next s

end Sys2Proof.Machine
end

