-- ==== Sys2Proof/Machine/Sched.lean ====
section
/-! DEFINITION. Which agent moves (log 1): the passing of time, what a freeze lets happen (spec/17_debug.md R328, R329), the
arbitration of issue (spec/15_launch.md R293, spec/09_control.md R176), and the schedule that the machine follows where its
agenda names none. -/

namespace Sys2Proof.Machine

/-! ### Time (R156, R323) -/

/-- Partition cycles in `ns` of DTIME at the servo's rate, with what is left over, in units of 1 / 5,000,000 cycle. -/
def Ptp.cycles (p : Ptp) (ns : Nat) : Nat × Nat :=
  let rate := if p.faster then 1000000 + p.ppm else 1000000 - p.ppm
  let total := p.frac + ns * 7000000 * 1000000 / rate
  (total / 5000000, total % 5000000)

/-- A group that cannot issue has waited for no slot so far; cycles in which its partition may not issue, frozen or withheld,
do not count (R34, R293). -/
def Group.tick (g : Group) (paused can : Bool) (n cyc : Nat) : Group :=
  { g with avail := can, readySince := if !can then cyc else if paused then max g.readySince g.lastIssue + n else g.readySince }

/-- The clocks of the dies may take these skews: at most ε apart, and none runs backwards. -/
def State.skewsOk (s : State) (ns : Nat) (skews : List Nat) : Bool :=
  (List.range 4).all fun d => decide (skews.getD d 0 ≤ 8) && decide (s.skews.getD d 0 ≤ ns + skews.getD d 0)

/-- The power governor withholds the issue slots of a core: its domain's (R11). -/
def State.withheldAt (s : State) (core : Nat) : Bool :=
  s.dev.domains.any fun d => s.dev.withheld.getLsbD d.1 && d.2.clusters.contains (core / 12)

/-! ### What a freeze holds (R328, R329) -/

/-- The request belongs to the instruction that a step runs: an access of it, or its trace record. -/
def State.stepSrc (s : State) (src : Src) : Bool :=
  match src, s.dbg.stepping with
  | .lane run grp acc _, some (r, g) => run == r && grp == g && decide (s.dbg.stepFrom ≤ acc)
  | .posted id, some (r, g) => decide (s.dbg.stepFrom ≤ id) && (match s.msg? id with | some m => m.use_ == .trace r g | none => false)
  | _, _ => false

/-- The channel has begun to land a chunk. -/
def State.midChunk (s : State) (core ch : Nat) : Bool := !((s.core core).chan ch).pending.isEmpty

/-- Steps of units that a freeze does not hold: the host and the firmware, time, what has already arrived at a home or a
controller, answers under way, the running press operation, the chunk and the gather window that have begun, frames that are
dropped, and the accesses of a step. -/
def State.thawed (s : State) (i : Instr) (a : Arg) : Bool :=
  match i with
  | .powerOnReset | .runtimeMeasurementFailure | .stage | .commit | .reset | .attestationRequest | .domainTableWrite
  | .hostBar2Read | .hostBar2Write | .hostBar0QueueWrite | .launchctlPreempt | .launchctlCancel | .completionCounterWrite | .classifierEntryWrite
  | .transmitQueueRegisterWrite | .registerWrite | .debugHalt | .debugResume | .debugStep | .debugStepComplete
  | .faultResolveReplay | .faultResolveAbort | .linkRestore | .translationInvalidate | .homeWriteApply | .arrayError | .linkIsolate | .frameArrival | .ptpEventTimestamp | .ptpFirstLock
  | .seriesLatch | .pressOperationComplete | .powerGovernorAdjust | .ptpServoUpdate | .ptpMasterLoss | .droppedWriteLogClear
  | .loadReturn | .longLatencyComplete | .writeAcknowledgement | .queuePushGrant | .queuePopGrant | .queuePopCommit
  | .queueTailAdvance | .engineLineFinish | .gatherWindowClose => true
  | .homeFill => (match a.src with | .remote _ => false | _ => true)
  | .copyChunkLand => s.midChunk a.core a.ch
  | .translationWalk | .acceptanceArrival | .homeWriteArrival | .errorResponse => s.stepSrc a.src
  | _ => false

/-- An event of an agent other than an issuing fragment happens; an instruction word is no such event. -/
def State.event (s : State) (i : Instr) (a : Arg) : Host.Outcome State Fault Refusal :=
  match i.form with
  | .event => if s.homesHold && !s.thawed i a then .next s else exec i { s with arg := a }
  | _ => .next s

/-! ### Issue under a step (R329) -/

/-- The group has gone on: a word retired, or its fragment trapped, or the workgroup was stopped. -/
def State.wentOn (s t : State) (run grp : Nat) : Bool :=
  match s.wg? run, t.wg? run with
  | some w, some v =>
    (match w.group? grp, v.group? grp with
     | some g, some h => g.retired != h.retired || g.trap != h.trap
     | _, _ => true) || v.life != w.life
  | _, _ => true

/-- The word has gone to a controller or a monitor: a queue operation or a monitored wait that completes later. -/
def State.sentWord (s : State) (run grp ent : Nat) : Bool :=
  match (s.group? run grp).bind (·.frag? ent) with
  | some f => (match f.st with | .queue _ | .waitm .. => true | _ => false)
  | none => false

/-- The issue of the word that a step runs. Where it stops, the step is over; where it blocks with nothing under way at a
home, it is done without having issued, and one that a controller or a monitor holds is the step's one instruction. -/
def State.stepIssue (s : State) (run grp ent : Nat) : Host.Outcome State Fault Refusal :=
  match s.issue run grp ent with
  | .next t =>
    if t.dbg.stepping.isNone then .next t
    else
      let fid := ((s.group? run grp).bind (·.frag? ent)).map (·.fid)
      .next { t with dbg := { t.dbg with stepFid := fid, stepDone := s.wentOn t run grp || t.sentWord run grp ent || t.stepServed run grp } }
  | o => o

/-- A fragment's turn, where its slot is not withheld: of a frozen package the group that a step runs, at most one
instruction, and until its partition freezes one that has not stopped (R11, R328, R329). -/
def State.turnIssue (s : State) (run grp ent : Nat) : Host.Outcome State Fault Refusal :=
  if !s.dbg.frozen then
    (match s.wg? run with
     | some w => if s.withheldAt w.core then .next s else s.issue run grp ent
     | none => .next s)
  else if s.dbg.stepping == some (run, grp) then (if s.dbg.stepDone then .next s else s.stepIssue run grp ent)
  else if s.dbg.late s.dtime && !s.dbg.halted.contains (run, grp) then s.issue run grp ent
  else .next s

/-! ### Arbitration (R293, R176) -/

/-- A fragment can issue: it is ready, or what it waits for has come, so that its word would go on. -/
def State.canIssue (s : State) (w : Workgroup) (g : Group) (x : Nat × Frag) : Bool :=
  g.mayGo (s.detOf w) x && !s.traceWaits w.run g.grp && !w.heldOver.contains g.grp &&
    (x.2.st == .ready || (match s.issue w.run g.grp x.1 with
      | .next t => t.dbg.frozen || s.wentOn t w.run g.grp || (match t.group? w.run g.grp with
          | some h => h.frag? x.1 != some x.2
          | none => true)
      | _ => true))

/-- The fragments of a group that can issue. -/
def State.able (s : State) (w : Workgroup) (g : Group) : List (Nat × Frag) :=
  if w.issues then g.frags.filter (s.canIssue w g) else []

/-- The fragment that R176 picks: the one that has waited longest since it issued or came into being, the lower entry of a
tie. In deterministic mode only one can issue (R296). -/
def oldest (xs : List (Nat × Frag)) : Option (Nat × Frag) :=
  xs.foldl (fun (b : Option (Nat × Frag)) x =>
    match b with
    | none => some x
    | some y => if x.2.stamp < y.2.stamp then some x else b) none

/-- A group that competes for its partition's slot. -/
structure Bid where
  wgx : Nat
  run : Nat
  grp : Nat
  ent : Nat
  since : Nat     -- waiting since
  last : Nat      -- last issued
  urgent : Bool

/-- The lower (WGX, GRP). -/
def Bid.before (a b : Bid) : Bool := decide (a.wgx < b.wgx) || (a.wgx == b.wgx && decide (a.grp < b.grp))

/-- The groups of a partition that have a fragment which can issue. -/
def State.bids (s : State) (core part : Nat) : List Bid :=
  (s.wgs.filter fun w => w.core == core).flatMap fun w =>
    (w.groups.filter fun g => g.part == part).filterMap fun g =>
      (oldest (s.able w g)).map fun x =>
        { wgx := w.wgx, run := w.run, grp := g.grp, ent := x.1, since := max g.readySince g.lastIssue, last := g.lastIssue, urgent := g.urgent }

/-- The best of a list under an order. -/
def best (lt : Bid → Bid → Bool) : List Bid → Option Bid
  | [] => none
  | b :: t => some (t.foldl (fun (x : Bid) y => if lt y x then y else x) b)

/-- The group that a partition chooses: starvation, reserved slots, age, ties; and whether by a reserved slot. -/
def State.arbitrate (s : State) (core part : Nat) : Option (Bid × Bool) :=
  let bs := s.bids core part
  let starved := bs.filter fun b => decide (b.since + 63 ≤ s.cyc)
  let urgent := bs.filter (·.urgent)
  if !starved.isEmpty then (best Bid.before starved).map (·, false)
  else if s.cyc % 4 == 0 && !urgent.isEmpty then (best Bid.before urgent).map (·, true)
  else (best (fun a b => decide (a.last < b.last) ||
    (a.last == b.last && ((a.urgent && !b.urgent) || (a.urgent == b.urgent && a.before b)))) bs).map (·, false)

/-- The partition has used its slot of this cycle. -/
def State.slotUsed (s : State) (core part : Nat) : Bool :=
  ((s.core core).spentAt == s.cyc && (s.core core).spent.contains part) || s.wgs.any fun w => w.core == core && w.groups.any fun g => g.part == part && g.issuedAt == some s.cyc

/-- Partitions that hold a group. -/
def State.partitions (s : State) : List (Nat × Nat) :=
  s.wgs.foldl (fun l w => w.groups.foldl (fun l g => if l.contains (w.core, g.part) then l else l ++ [(w.core, g.part)]) l) []

/-- The next issue: the winner of the first partition with a free slot and a group that can issue. -/
def State.nextIssue (s : State) : Option Turn :=
  s.partitions.findSome? fun p =>
    if s.slotUsed p.1 p.2 || s.withheldAt p.1 then none
    else (s.arbitrate p.1 p.2).map fun b => .issue b.1.run b.1.grp b.1.ent

/-- An issue that won its partition's slot because it is reserved for urgency is counted (R293, R333). -/
def State.countUrgent (s t : State) (run grp : Nat) : State :=
  match s.wg? run, s.group? run grp with
  | some w, some g =>
    if s.cyc % 4 == 0 && g.urgent && g.issuedAt != some s.cyc && ((t.group? run grp).any fun h => h.issuedAt == some s.cyc)
        && ((s.arbitrate w.core g.part).any fun b => b.2 && b.1.run == run && b.1.grp == grp) then
      t.perf w.core 11 1
    else t
  | _, _ => t

/-! ### Time passes -/

/-- The counter of a core's record for a partition that issues nothing: 2 a stall on an empty register, 3 on WAITC or a
barrier, 4 a blocked queue operation, 5 a withheld slot (log 49). -/
def State.slotCounter (s : State) (core part : Nat) : Option Nat :=
  let sts := (s.wgs.filter fun w => w.core == core).flatMap fun w => (w.groups.filter fun g => g.part == part).flatMap fun g => g.frags.map (·.2.st)
  let some_ (p : FragSt → Bool) : Bool := sts.any p
  if s.withheldAt core then some 5
  else if some_ (fun x => match x with | .stalled | .reading => true | _ => false) then some 2
  else if some_ (fun x => match x with | .waitc _ | .bwait .. => true | _ => false) then some 3
  else if some_ (fun x => match x with | .queue _ => true | _ => false) then some 4
  else none

/-- What `n` cycles add to the series counters: unused slots, running presses, lanes without an allowance. -/
def State.countCycles (s : State) (n : Nat) : State :=
  let s := s.partitions.foldl (fun t p =>
    let m := if s.slotUsed p.1 p.2 then n - 1 else n
    match s.slotCounter p.1 p.2 with
    | some i => if m == 0 then t else t.perf p.1 i m
    | none => t) s
  let s := s.cores.foldl (fun t c => if c.2.running && decide (0 < n) then t.perf c.1 6 n else t) s
  (union [] (s.dev.routed.map (·.2))).foldl (fun t p =>
    if decide (0 < n) && (List.range 4).any (fun l => s.allowance p l == 0) then t.perfUnit (portUnit p) 2 n else t) s

/-- DTIME advances; it is a count of 64 bits. -/
def State.advance (s : State) (ns : Nat) (skews : List Nat) : State :=
  let (n, frac) := s.ptp.cycles ns
  let cyc := s.cyc + n
  let tick (w : Workgroup) (g : Group) : Group :=
    g.tick (s.dbg.frozen || s.withheldAt w.core) (!(s.able w g).isEmpty) n cyc
  { s.countCycles n with
    dtime := (s.dtime + ns) % 2 ^ 64, cyc, ptp := { s.ptp with frac }
    skews := if s.skewsOk ns skews then skews else s.skews
    wgs := s.wgs.map fun w => { w with groups := w.groups.map (tick w) } }

/-! ### Events of the machine's own agents -/

/-- Events of one part of an access. -/
def partEvents (src : Src) (p : Part) (replay : Bool) : List (Instr × Arg) :=
  let a : Arg := { src, flag := true }
  (match p.st with
   | .issued => [(Instr.translationWalk, a)]
   | .walked => [(.homeFill, a), (.homeWriteArrival, a)] ++ [1, 6].map fun r => (.errorResponse, { a with reason := r })
   | .served => [(.writeAcknowledgement, a)]
   | .faulted _ => if replay then [(.faultReplayResend, a)] else []
   | _ => [])
  ++ (if p.accepted then [] else match p.st with
      | .issued | .window | .faulted _ => []
      | _ => [(.acceptanceArrival, a)])

def accessEvents (run grp : Nat) (a : Access) : List (Instr × Arg) :=
  (a.parts.mapIdx fun i p => partEvents (.lane run grp a.id i) p a.replay).flatten
    ++ (if a.returned then [(.loadReturn, { wg := run, grp, acc := a.id })] else [])

def groupEvents (run : Nat) (g : Group) : List (Instr × Arg) :=
  (g.accs.flatMap (accessEvents run g.grp))
    ++ g.longs.map (fun x => (Instr.longLatencyComplete, { wg := run, grp := g.grp, acc := x.id }))
    ++ (if g.barvs.isEmpty then [] else [(.barrierArrival, { wg := run, grp := g.grp })])
    ++ (g.frags.flatMap fun x => match x.2.st with
        | .sleep _ => [(Instr.sleepExpiry, { wg := run, grp := g.grp, ent := x.1 })]
        | .yield .. => [(.yieldExpiry, { wg := run, grp := g.grp, ent := x.1 })]
        | .waitm .. => [(.waitmTimeout, { wg := run, grp := g.grp, ent := x.1 })]
        | _ => if 8 ≤ x.1 then [(.splitTableSwap, { wg := run, grp := g.grp, ent := x.1 })] else [])
    ++ (if g.stuck.isSome then [(.joinStuckRelease, { wg := run, grp := g.grp })] else [])

def State.workgroupEvents (s : State) (w : Workgroup) : List (Instr × Arg) :=
  w.groups.flatMap (groupEvents w.run)
    ++ (match w.life with
        | .running | .draining => [(Instr.regroup, { wg := w.run })]
        | .retiring => [(.workgroupRetire, { wg := w.run })]
        | .killed => [(.workgroupKillRelease, { wg := w.run })]
        | .retired => [])
    ++ (match s.launch? w.lid with
        | some l =>
          (if l.det then w.groups.map fun g => (Instr.syncOperationTurn, { wg := w.run, grp := g.grp }) else [])
            ++ (if l.phase == .draining then [(.preemptRequestAtCore, { lid := l.lid, core := w.core })] else [])
        | none => [])

def State.coreEvents (s : State) (core : Nat) (c : CoreSt) : List (Instr × Arg) :=
  ((List.range 16).flatMap fun ch =>
    let x := c.chan ch
    if x.trigs.isEmpty then [] else
      let a : Arg := { core, ch }
      ((s.channelLines core ch).flatMap fun n => [1, 6].map fun r => (Instr.errorResponse, ({ src := .claim core ch n, reason := r } : Arg))) ++
      match x.st with
      | .idle | .fetch => [(Instr.copyFetch, a)]
      | .claim => (x.claims.map fun y => (Instr.homeWriteArrival, { src := .claim core ch y.1 })) ++ [(.copyClaimsComplete, a), (.copyCycleFault, a)]
      | .move => (x.pending.map fun p => (Instr.engineLineFinish, { core, ch, line := p.1 / 128 })) ++ [(.copyChunkLand, a), (.copyCycleFault, a)]
      | .signal => [(.copyChunkLand, a)])
    ++ (if c.window.isEmpty then [] else [(.gatherWindowClose, { core := core })])
    ++ (if c.press.isEmpty then [] else [(.pressOperationComplete, { core := core }), (.pressOperationStart, { core := core })])
    ++ ((c.l1 ++ c.fetchBuf).filterMap fun x => if !x.ut && x.e ≤ s.now (coreDie core) then some (Instr.leaseExpiry, { core, line := x.line }) else none)

def launchEvents (s : State) (l : Launch) : List (Instr × Arg) :=
  let a : Arg := { lid := l.lid }
  match l.phase with
  | .waiting => [(.launchWaitsSatisfied, a)]
  | .counting => [(.indirectCountRead, a)]
  | .holding => (s.launchDies l).map fun d => (Instr.launchStartTime, { a with die := d })
  | .placing | .running => [(.workgroupPlace, a), (.class0PreemptTimeout, a)]
  | .draining => [(.graceExpiry, a)]
  | .completing => [(.launchComplete, a)]
  | .recording => [(.completionCounterBump, a)]
  | .done => []

/-- Events of a running launch that its mode adds. -/
def modeEvents (l : Launch) : List (Instr × Arg) :=
  let a : Arg := { lid := l.lid }
  (if l.holds then [(Instr.holdReserveRollback, a)] else []) ++ (if l.det then [(.quantumEnd, a)] else [])
    ++ (union [] (l.runs.map (·.1))).map fun x => (Instr.redundantCompare, { a with wgx := x })

/-- Everything that an agent of the package might do now; an event that cannot happen changes nothing. -/
def State.events (s : State) : List (Instr × Arg) :=
  (s.homes.filterMap fun h => if h.2.queue.isEmpty then none else some (Instr.homeWriteApply, { line := h.1 }))
    ++ (s.homes.filterMap fun h => match h.2.owner with | some (.nic _) => some (Instr.engineLineFinish, { line := h.1 }) | _ => none)
    ++ s.wgs.flatMap s.workgroupEvents
    ++ (s.msgs.flatMap fun m => partEvents (.posted m.id) { m.part with accepted := true } false)
    ++ (s.cores.flatMap fun c => s.coreEvents c.1 c.2)
    ++ (s.queues.flatMap fun q => [(Instr.queuePopCommit, { q := q.key }), (.queueTailAdvance, { q := q.key }), (.queuePushGrant, { q := q.key }),
          (.queuePopGrant, { q := q.key })])
    ++ s.launches.flatMap (fun l => launchEvents s l ++ modeEvents l)
    ++ (s.dev.domains.map fun d => (Instr.launchAccept, { dom := d.1 }))
    ++ (s.xlat.invals.map fun x => (Instr.translationInvalidateComplete, { ia := x.1, flag := x.2 }))
    ++ (s.l2.filterMap fun x => if region (128 * x.line) == .package then some (Instr.remoteLineCopyDrop, { line := x.line }) else none)
    ++ (if s.dev.txregs.isEmpty then [] else [(.frameTransmit, { port := 0 }), (.frameTransmit, { port := 1 })])
    ++ (if s.dbg.serctl.getLsbD 0 then [(Instr.seriesLatch, ({} : Arg))] else [])
    ++ (if s.dbg.stepping.isSome then [(Instr.debugStepComplete, ({} : Arg))] else [])
    ++ ((union [] (s.wgs.map (·.core))).filter fun c => s.cyc / 256 != (s.core c).pred).map fun c => (Instr.urgencyPrediction, { core := c })

/-! ### The machine's own schedule -/

/-- A turn of the agenda. -/
def State.perform (s : State) (t : Turn) : Host.Outcome State Fault Refusal :=
  match t with
  | .issue run grp ent => (match s.turnIssue run grp ent with | .next t => .next (s.countUrgent t run grp) | o => o)
  | .event i a => s.event i a
  | .advance ns skews => .next (s.advance ns skews)
  | .auto _ => .next s

/-- Two states differ in more than the model's own argument and cursor. -/
def State.moved (s t : State) : Bool := { s with arg := {}, cursor := {} } != { t with arg := {}, cursor := {} }

/-- The outcome of the first turn of a list that does something. -/
def State.firstMove (s : State) : List Turn → Option (Host.Outcome State Fault Refusal)
  | [] => none
  | t :: ts =>
    match s.perform t with
    | .next s' => if s.moved s' then some (.next s') else s.firstMove ts
    | o => some o

/-- The fragment whose word a step runs: the one that it has begun, else the one that would issue next, else one that
may try its word. -/
def State.stepTurn (s : State) : List Turn :=
  match s.dbg.stepping with
  | some (run, grp) =>
    (match s.wg? run, s.group? run grp with
     | some w, some g =>
       let x := match g.frags.find? fun x => s.dbg.stepFid == some x.2.fid && g.mayGo (s.detOf w) x with
         | some x => some x
         | none => match oldest (s.able w g) with | some x => some x | none => g.frags.find? (g.mayGo (s.detOf w))
       (x.map fun (x : Nat × Frag) => Turn.issue run grp x.1).toList
     | _, _ => [])
  | none => []

/-- The winner of a partition issues. -/
def State.winnerIssues (s : State) : Option (Host.Outcome State Fault Refusal) := s.nextIssue.map s.perform

/-- The step of the machine's own schedule: an event that can happen, else the next issue, else one nanosecond passes. A
freeze is complete at once. -/
def State.auto (s : State) : Host.Outcome State Fault Refusal :=
  let s := if s.dbg.frozen then { s with dbg := { s.dbg with unfrozen := false } } else s
  match s.firstMove (s.events.map fun e => Turn.event e.1 e.2) with
  | some o => o
  | none =>
    match (if s.dbg.frozen then s.firstMove s.stepTurn else s.winnerIssues) with
    | some o => o
    | none => .next (s.advance 1 s.skews)

end Sys2Proof.Machine
end

