-- ==== Sys2Proof/Machine/Step.lean ====
section
/-! DEFINITION. The step of the machine, and a state whose next step fetches and runs a given instruction. -/

namespace Sys2Proof.Machine

/-- One step (log 1): the head of the agenda, or the machine's own schedule where it names none. -/
def step (s : State) : Host.Outcome State Fault Refusal :=
  match s.agenda with
  | [] => s.auto
  | .auto 0 :: rest => .next { s with agenda := rest }
  | .auto (n + 1) :: rest => { s with agenda := .auto n :: rest }.auto
  | t :: rest => { s with agenda := rest }.perform t

/-- The record of the launch whose one workgroup runs a placed instruction (log 6): code at VA 0 in range 0 (IA 0, 64 KiB,
R, X, PIN), E0 = 64, every other extent 1, VREGS 128, SREGS 64, SPADSZ 1, KTAN 4 with its planes, domain 0. -/
def probeRecord : List DWord :=
  (List.range 64).map fun i =>
    match i with
    | 1 => 0x10000
    | 3 => 0x25
    | 41 => 0x100
    | 44 => 6
    | 45 => 0x1_0000_0040
    | 46 => 0x1_0000_0001
    | 47 => 0x1_0000_0001
    | 50 => 0x1_4080
    | 51 => 0x4000
    | 56 => 0x80
    | 57 => 0x10_0000_0010
    | _ => 0

def probeLaunch (lid cyc : Nat) : Launch :=
  { lid, lq := 16, seq := 0, record := probeRecord, phase := .running, ext := [64, 1, 1, 1, 1, 1], next := 1, order := cyc }

/-- The state whose next step fetches and runs the instruction with bits `w`, the bits above `nbits` zero (log 6): one
workgroup of 64 threads on core 0, about to issue at VA 0, with the instruction's bytes at IA 0. -/
def State.withFetchWord (s : State) (nbits w : Nat) : State :=
  let lid := s.fresh
  let l := probeLaunch lid s.cyc
  let g : Group := l.newGroup 0 0 0 0 (lid + 2) s.cyc
  let wg : Workgroup := { run := lid + 1, lid, wgx := 0, core := 0, groups := [g] }
  { s with
    agenda := .issue (lid + 1) 0 0 :: s.agenda
    cursor := {}
    fresh := lid + 3
    mem := s.mem.write 0 (leBytes 8 (w % 2 ^ nbits))
    bad := s.bad.filter (· != 0)
    l2 := s.l2.filter fun x => x.line != 0
    homes := Map.erase s.homes 0
    xlat := { s.xlat with lev1 := Map.put 0 s.xlat.lev1 0 3, cache := s.xlat.cache.filter fun c => c.2.1 != 0 }
    cores := Map.put {} s.cores 0 { s.core 0 with fetchBuf := (s.core 0).fetchBuf.filter fun x => x.line != 0 }
    wgs := s.wgs ++ [wg]
    launches := s.launches ++ [l]
    dev := { s.dev with
      absent := 0
      withheld := 0
      domains := Map.put {} s.dev.domains 0 { clusters := [0], slices := [0], groups := [0], hold := 0, latency := false } }
    dbg := { s.dbg with frozen := false, bps := [] } }

end Sys2Proof.Machine
end

