-- ==== Sys2Proof/Safety.lean ====
section
/-! DEFINITION. The terms in which claims speak of runs: when nothing stands before a word's own effect (spec/18_traps.md
R341, spec/03_encoding.md R46, R47, spec/19_memfaults.md R361, spec/08_ordering.md R162, R163), what a word that changed
registers leaves and what it keeps, and the invariant of every run. -/

namespace Sys2Proof.Machine

/-- Nothing stands before the word's own effect: no acquire or fence of the group is being waited for, the word is legal
where it stands, its R361 hold is over, every register that it names is full, no register that it reads is poisoned, and in
deterministic mode a synchronising operation has its turn. -/
def Ctx.clear (c : Ctx) : Bool :=
  c.f.st != .acquire && c.g.accs.all (fun a => !a.acq)
    && !c.g.fenceHold c.ent
    && c.illegal false == 0
    && (!heldWord (formCode c.fm) || (c.g.unaccepted c.f).isNone)
    && c.sh.ops.all (fun o => !c.g.emptyOpnd o)
    && c.sh.ops.all (fun o => o.role == .dst || c.g.badLanes o == 0)
    && !(c.l.det && syncWord (formCode c.fm) && !c.g.turn && c.sel != 0)

/-- The context of a word at the cursor that may have its own effect at once. -/
def State.ready (s : State) (fm : Form) : Option Ctx := (s.ctx? fm).filter Ctx.clear

/-- The group of a context in a state. -/
def Ctx.groupIn (c : Ctx) (s : State) : Option Group := s.group? c.w.run c.g.grp

/-! ### What a word that changed registers leaves -/

/-- What retirement of a register word keeps of its group: every special register but FLAGS, LCLK and SIG, the joins, the
empty and full marks, and everything in flight. -/
structure Group.Kept (g h : Group) : Prop where
  grp : h.grp = g.grp
  part : h.part = g.part
  live : h.live = g.live
  emptyV : h.emptyV = g.emptyV
  emptyS : h.emptyS = g.emptyS
  joins : h.joins = g.joins
  wid : h.wid = g.wid
  spos : h.spos = g.spos
  ord : h.ord = g.ord
  accb : h.accb = g.accb
  accl : h.accl = g.accl
  tpc : h.tpc = g.tpc
  tcode : h.tcode = g.tcode
  tinfo : h.tinfo = g.tinfo
  tmask : h.tmask = g.tmask
  lostj : h.lostj = g.lostj
  trap : h.trap = g.trap
  ctrs : h.ctrs = g.ctrs
  accs : h.accs = g.accs
  maxw : h.maxw = g.maxw
  longs : h.longs = g.longs
  pins : h.pins = g.pins
  barvs : h.barvs = g.barvs
  lclk : h.lclk = g.lclk + 1

/-- The fragment that issued stands behind its word with its lanes, EXEC and LINK as before; every other fragment of the
group is as before. -/
structure Ctx.Passed (c : Ctx) (h : Group) : Prop where
  here : ∃ f, h.frag? c.ent = some f ∧ f.pc = c.pc + 8 ∧ f.f = c.f.f ∧ f.exec = c.f.exec ∧ f.link = c.f.link ∧ f.fid = c.f.fid
  others : ∀ e, e ≠ c.ent → h.frag? e = c.g.frag? e

/-- Nothing but the word's group, its launch's record of flags and issue, and the core's series counters has changed: of
the workgroup everything else is as before, every other workgroup, and every unit of the package, memory among them. -/
structure Ctx.Only (c : Ctx) (t : State) (h : Group) : Prop where
  wg : ∃ w, t.wg? c.w.run = some w ∧ { w with groups := c.w.groups } = c.w ∧ w.group? c.g.grp = some h
    ∧ ∀ n, n ≠ c.g.grp → w.group? n = c.w.group? n
  otherWg : ∀ r, r ≠ c.w.run → t.wg? r = c.s.wg? r
  mem : t.mem = c.s.mem
  bad : t.bad = c.s.bad
  l2 : t.l2 = c.s.l2
  homes : t.homes = c.s.homes
  xlat : t.xlat = c.s.xlat
  cores : t.cores = c.s.cores
  msgs : t.msgs = c.s.msgs
  queues : t.queues = c.s.queues
  dev : t.dev = c.s.dev
  fw : t.fw = c.s.fw
  logs : t.logs = c.s.logs
  ptp : t.ptp = c.s.ptp
  dtime : t.dtime = c.s.dtime
  cyc : t.cyc = c.s.cyc
  otherLaunch : ∀ n, n ≠ c.w.lid → t.launch? n = c.s.launch? n

/-- The registers of a group, their tangents, masks, joins and FLAGS are as before. -/
structure Group.SameRegs (g h : Group) : Prop where
  vregs : h.vregs = g.vregs
  sregs : h.sregs = g.sregs
  masks : h.masks = g.masks
  joins : h.joins = g.joins
  flags : h.flags = g.flags

/-- The special registers of a group beside FLAGS, LCLK and SIG, its lanes' identities and its pins are as before. -/
structure Group.SameSpecial (g h : Group) : Prop where
  grp : h.grp = g.grp
  part : h.part = g.part
  live : h.live = g.live
  wid : h.wid = g.wid
  spos : h.spos = g.spos
  ord : h.ord = g.ord
  accb : h.accb = g.accb
  accl : h.accl = g.accl
  tpc : h.tpc = g.tpc
  tcode : h.tcode = g.tcode
  tinfo : h.tinfo = g.tinfo
  tmask : h.tmask = g.tmask
  lostj : h.lostj = g.lostj
  trap : h.trap = g.trap
  pins : h.pins = g.pins

/-- Outside a word's workgroup and the units that serve it nothing has changed: every other workgroup and launch, memory
and its poison, the device's registers, time. -/
structure Ctx.Beside (c : Ctx) (t : State) : Prop where
  otherWg : ∀ r, r ≠ c.w.run → t.wg? r = c.s.wg? r
  otherLaunch : ∀ n, n ≠ c.w.lid → t.launch? n = c.s.launch? n
  mem : t.mem = c.s.mem
  bad : t.bad = c.s.bad
  dev : t.dev = c.s.dev
  fw : t.fw = c.s.fw
  ptp : t.ptp = c.s.ptp
  dtime : t.dtime = c.s.dtime

/-- The word's workgroup is as before but for its groups and the fields that `u` sets back, and every other group of it. -/
def Ctx.WgBut (c : Ctx) (t : State) (u : Workgroup → Workgroup) : Prop :=
  ∃ w, t.wg? c.w.run = some w ∧ { u w with groups := c.w.groups } = c.w ∧ ∀ n, n ≠ c.g.grp → w.group? n = c.w.group? n

/-- The word's group is `h`, and nothing else has changed but units that serve it: its workgroup is as before, and what
`Beside` names. -/
def Ctx.Near (c : Ctx) (t : State) (h : Group) : Prop := c.groupIn t = some h ∧ c.Beside t ∧ c.WgBut t id

/-- The state `t` after a word that changed the registers, masks and FLAGS of its group only: component `j` of v`m` holds
`v m j i` in lane `i`, component `j` of s`m` holds `x m j`, mask `n` is `k n`, and the flags `fl` have been raised in the
group and in its launch. -/
structure Ctx.Gives (c : Ctx) (t : State) (v : Nat → Nat → Nat → Word) (x : Nat → Nat → Word) (k : Nat → Mask) (fl : BitVec 5) : Prop where
  group : ∃ h, c.Only t h ∧ c.g.Kept h ∧ c.Passed h ∧ h.flags = c.g.flags ||| fl
    ∧ (∀ m j i, m < 128 → i < 64 → (h.v m j).at i = v m j i)
    ∧ (∀ m j, m < 64 → h.s m j = x m j)
    ∧ (∀ n, n < 8 → h.mask n = k n)
  launch : ∃ l, t.launch? c.w.lid = some l ∧ l.flags = c.l.flags ||| fl ∧ l.phase = c.l.phase ∧ l.record = c.l.record

/-- The vector registers as they are. -/
def Ctx.oldV (c : Ctx) (m j i : Nat) : Word := (c.g.v m j).at i
/-- The scalar registers as they are. -/
def Ctx.oldS (c : Ctx) (m j : Nat) : Word := c.g.s m j

/-- The vector registers once the destination `o` has taken the result `r` in the selected lanes: the words of its value
and of its tangents, +0 in the shadows above k (R50, R51, R271, R274). -/
def Ctx.newV (c : Ctx) (o : Opnd) (r : Nat → Dual) (m j i : Nat) : Word :=
  if o.scal = false ∧ o.num ≤ m ∧ m < o.num + o.n ∧ j ≤ c.l.ktan ∧ c.sel.getLsbD i = true then wordPart (m - o.num) ((r i).out c.k j)
  else c.oldV m j i

/-- The scalar registers once the destination `o` has taken the result of the lowest selected lane; `zero` takes nothing
(R45, R50). -/
def Ctx.newS (c : Ctx) (o : Opnd) (r : Nat → Dual) (m j : Nat) : Word :=
  if o.scal = true ∧ o.num ≤ m ∧ m < o.num + o.n ∧ o.num < 64 ∧ j ≤ c.l.ktan ∧ c.sel ≠ 0 then wordPart (m - o.num) ((r c.low).out c.k j)
  else c.oldS m j

/-- The masks once mask `n` has taken `x`; m0 takes nothing (R39), and nothing is taken where no lane is selected (R51). -/
def Ctx.setM (c : Ctx) (n : Nat) (x : Mask) (old : Nat → Mask) (m : Nat) : Mask :=
  if m = n % 8 ∧ m ≠ 0 ∧ c.sel ≠ 0 then x else old m

/-- The masks once mask `n` has taken the bits `p` in the selected lanes, or in all 64 bits from the lowest selected lane
under S = 1 (R83). -/
def Ctx.newM (c : Ctx) (n : Nat) (once : Bool) (p : Nat → Bool) (old : Nat → Mask) : Nat → Mask :=
  c.setM n (Mask.of fun i => if once then p c.low else if c.sel.getLsbD i then p i else (old (n % 8)).getLsbD i) old

/-- The word wrote the result `r` to its field d, changing nothing else. -/
def Ctx.Wrote (c : Ctx) (t : State) (r : Nat → Dual) (fl : BitVec 5) : Prop :=
  c.Gives t (c.newV (c.opnd 3) r) (c.newS (c.opnd 3) r) c.g.mask fl

/-- The same for a result that is one value with zero tangents. -/
def Ctx.WroteValue (c : Ctx) (t : State) (r : Nat → DWord) : Prop := c.Wrote t (fun i => { v := r i }) 0

/-- The flags that the working lanes of a word raise. -/
def Ctx.flagsOf (c : Ctx) (r : Nat → Dual × BitVec 5) : BitVec 5 := c.work.foldl (fun f i => f ||| (r i).2) 0

/-- What a lane-wise word's lanes deliver: a lane that does not work delivers zero, which nothing takes. -/
def Ctx.laneResult (c : Ctx) (r : Nat → Dual × BitVec 5) (i : Nat) : Dual := if c.work.contains i then (r i).1 else {}

/-- A lane-wise word wrote field d: the result and the flags of the lanes that work. -/
def Ctx.WroteLanes (c : Ctx) (t : State) (r : Nat → Dual × BitVec 5) : Prop := c.Wrote t (c.laneResult r) (c.flagsOf r)

/-- Nothing of the machine changed but that the fragment passed the word. -/
def Ctx.Nothing (c : Ctx) (t : State) : Prop := c.Gives t c.oldV c.oldS c.g.mask 0

/-! ### The invariant -/

/-- The invariant of every step: memory keeps its canonical form, and the clocks of the dies stand at most ε = 8 ns apart
(R156). -/
structure State.Inv (s : State) : Prop where
  memory : Memory.wf s.mem = true
  clocks : ∀ d, d < 4 → s.skews.getD d 0 ≤ 8

/-! ### Poison -/

/-- No poison stands in memory, nor behind a line of L2 (R376). -/
def State.Clean (s : State) : Prop := s.bad = [] ∧ ∀ y ∈ s.l2, y.lost = []

end Sys2Proof.Machine
end

