-- ==== Sys2Proof/WellFormed.lean ====
section
/-! DEFINITION. Well-formed instructions (spec/03_encoding.md R61, spec/18_traps.md R343): one named check for each case,
under the largest register counts that a launch can have, and a check that the operation is the row its word names. -/

namespace Sys2Proof

/-- Case 1 and 2: the opcode map has the opcode and the word's form of it (R60). A step of another agent has no word. -/
def Instr.formExists (i : Instr) : Bool := i.form.badForm.isNone

/-- Case 3: every bit that the form leaves unused is zero. -/
def Instr.unusedZero (i : Instr) : Bool := !i.form.shape.bad3

/-- Case 4: every field holds a value that the word accepts. -/
def Instr.valuesAccepted (i : Instr) : Bool := !i.form.shape.bad4

/-- Case 5: every register that the word names exists, and pairs start at an even one (R37, R38). -/
def Instr.registersExist (i : Instr) : Bool := i.form.shape.ops.all (Opnd.ok maxVregs maxSregs)

/-- Case 6: pn = 1 stands only beside a mask other than m0 (R49). -/
def Instr.predicateNamed (i : Instr) : Bool := !(i.form.shape.pn && i.form.shape.pm == 0)

/-- Case 7: the special register exists and may be written (R41). -/
def Instr.specialAccepted (i : Instr) : Bool := !i.form.shape.bad7

/-- Case 8: at most one half of a paired word is long-latency (R55). -/
def Instr.pairAllowed (i : Instr) : Bool :=
  match i.form with
  | .pair op _ y => !(op.long && y.op.long)
  | _ => true

/-- Case 9: a prefix names 1 to KTAN components (R58). -/
def Instr.prefixAllowed (i : Instr) : Bool :=
  match i.form with
  | .fr 0x3C0 f => !(f.subn == 0 || decide (maxKtan < f.subn))
  | _ => true

/-- Reason 12 of R343: TMOV and TZERO name a component that exists (R283). -/
def Instr.tangentExists (i : Instr) : Bool :=
  match i.form with
  | .fr 0x341 f | .fr 0x342 f => decide (f.subn ≤ maxKtan)
  | _ => true

/-- The two rows of QINIT are told apart by MEM, mod [4] (R209). -/
def Instr.rowFits : Instr → Bool
  | .qinit f => !f.md.getLsbD 4
  | .qinitMem f => f.md.getLsbD 4
  | _ => true

/-- Every check. -/
def Instr.wellFormed (i : Instr) : Bool :=
  i.formExists && i.unusedZero && i.valuesAccepted && i.registersExist && i.predicateNamed && i.specialAccepted
    && i.pairAllowed && i.prefixAllowed && i.tangentExists && i.rowFits

abbrev WellFormed (i : Instr) : Prop := i.wellFormed = true

/-- The instruction has a word: it is no step of another agent. -/
def Instr.isWord (i : Instr) : Bool := match i.form with | .event => false | _ => true

end Sys2Proof
end

