-- ==== Sys2Proof/Certificates/Slice0/Obligations.lean ====
section
/-! DEFINITION. The statements for the provers, from the numbered rules of spec/. Words complete where nothing stands before
their own effect (`State.ready`); `Ctx.Gives` and `Ctx.Only` say with each result what stays as it was. -/

open Sys2Proof Sys2Proof.Machine

/-! ### Decoding, encoding and the step -/

/-- O1. Words written out from the encodings of R49, R53, R54 and R58 decode to the instructions they stand for: IADD of
N32 with c unused, the immediate MOVI, BRA with a negative offset, a predicated LD, a paired FADD and FMUL, the DX
prefix, MMA of slot pair 2 and RETT. -/
def Obligations.DecodeWords : Prop :=
  ∀ p ∈ ([
    (0x00000A0C20000040, .iadd { d := 5, a := 3, b := 4, md := 0x040 }),
    (0x481002003F800000, .movi { d := 1, imm := 0x3F800000 }),
    (0x5C000000FFFFFFFF, .bra { imm := 0xFFFFFFFF }),
    (0x2000040818064040, .ld { d := 2, a := 2, b := 3, pm := 3, ea := 2, md := 0x040 }),
    (0x821040000C104000, .halfFadd { d := 2, a := 2 } { op := .fmul, args := { d := 1, a := 1 } }),
    (0x3C04000000000000, .dx { sub := 2 }),
    (0x2C04001030600000, .mma { sub := 2, a := 4, b := 6, c := 6 }),
    (0x3810000000000000, .rett {})] : List (DWord × Instr)),
    decodeWord p.1 = .ok p.2

/-- O2. Decode and encode agree (R48-R58): the bytes of every well-formed instruction with a word, followed by any
bytes, decode to that instruction and leave the bytes behind it. -/
def Obligations.DecodeEncode : Prop :=
  ∀ (i : Instr) (rest : List Byte), i.isWord = true → WellFormed i →
    ∃ bs, encodeBytes i = some bs ∧ bs.length = 8 ∧ decode (bs ++ rest) = .ok (i, rest)

/-- O3. No two words stand for one instruction: a word that decodes is the encoding of what it decodes to, and that is
well-formed. Words that the opcode map does not admit are no instructions (R60, R61 cases 1 and 2): an opcode that the
map does not list, a form that its opcode lacks, and S = 1 on an opcode without a scalar form. -/
def Obligations.OnlyEncodings : Prop :=
  (∀ (w : DWord) (i : Instr), decodeWord w = .ok i → encode i = some w ∧ WellFormed i ∧ i.isWord = true) ∧
  (∀ (w : DWord), w.getLsbD 63 = false →
     (forms (w.extractLsb' 52 10).toNat = none → decodeWord w = .error .unlistedOpcode) ∧
     (∀ g, forms (w.extractLsb' 52 10).toNat = some g →
       (if w.getLsbD 62 then g.i else g.r) = false ∨ (g.s = false ∧ w.getLsbD 48 = true) → decodeWord w = .error .noSuchForm))

/-- O4. A step runs the decoded instruction. Where the agenda's head is the issue of a fragment that may issue, its slot
is not withheld and no trace record of its group waits, the package is not frozen and no breakpoint stands at its PC,
and the fetch at the PC gives the word `w` that decodes to `i`, the step is `exec i` on the state after the fetch, and
where `i` is the prefix DX, the word behind it runs in the same step (R58); an issue that won the slot reserved for
urgency is counted (R333). An instruction other than DX uses up the prefix: after it no word runs in the same step, so
that the step is the instruction alone. -/
def Obligations.StepRunsDecoded : Prop :=
  (∀ (s u : State) (run grp ent : Nat) (rest : List Turn) (x : Workgroup) (g : Group) (f : Frag) (w : DWord) (i : Instr),
     s.agenda = .issue run grp ent :: rest → s.dbg.frozen = false → s.wg? run = some x → s.group? run grp = some g →
     g.frag? ent = some f → x.issues = true → g.mayGo (s.detOf x) (ent, f) = true → x.heldOver.contains grp = false →
     s.withheldAt x.core = false → s.traceWaits run grp = false → s.atBreakpoint f.pc = false →
     ({ s with agenda := rest, cursor := { wg := run, grp, ent, pc := f.pc, dx := none } } : State).fetch = .word w u →
     decodeWord w = .ok i →
     step s = (match behindPrefix (exec i u) with
       | .next t => .next (({ s with agenda := rest } : State).countUrgent t run grp)
       | o => o)) ∧
  (∀ (i : Instr) (s t : State) (w : DWord), decodeWord w = .ok i → (∀ f, i ≠ .dx f) → s.ctx? i.form ≠ none →
     exec i s = .next t → behindPrefix (exec i s) = .next t)

/-- O5. The fetch (R132, R139): the word at a PC in a range with X is the eight bytes at its IA, from a home that holds
the line free and readable, a port carrying it where L2 does not hold it, or the copy of the line in the core's fetch
buffer; a fragment that stalled at its source read goes on with the words that it holds (R342). A PC outside every range
with X takes the instruction-fetch trap (R339): TINFO the word that sent control there, TMASK F. -/
def Obligations.Fetch : Prop :=
  let gave (s : State) (w : DWord) (u : State) : Fetched := .word w { u with cursor := { u.cursor with words := s.cursor.words ++ [w] } }
  (∀ (s : State) (c : Ctx) (x : Range), s.ctx? .event = some c → c.l.rangeOf c.pc.toNat = some x → x.x = true →
     c.f.st ≠ .reading →
     let ia := x.iaOf c.pc.toNat
     (∀ bs, cacheHit (s.core c.w.core).fetchBuf (s.now (coreDie c.w.core)) ia = some bs →
       s.fetch = gave s (BitVec.ofNat 64 (leNat ((bs.drop (ia % 16)).take 8))) s) ∧
     (cacheHit (s.core c.w.core).fetchBuf (s.now (coreDie c.w.core)) ia = none → s.xlatFault ia = none →
       s.errorAt (some c.l.dom) ia = none →
       let v := if region ia == .hbm then s.cacheWalk ia false (some c.l.dom) else s
       let line := ia / 128 * 128
       v.lineFree ia = true → v.mayRead (some c.l.dom) line 128 0 = true → v.badIA ia 8 = false →
       v.cutOff (some c.l.dom) line 128 = false →
       ∃ u, s.fetch = gave s (BitVec.ofNat 64 (leNat (u.readIA ia 8))) u ∧ u.mem = s.mem)) ∧
  (∀ (s : State) (c : Ctx) (w : DWord), s.ctx? .event = some c → c.f.st = .reading →
     c.f.kept[s.cursor.words.length]? = some w → s.fetch = gave s w s) ∧
  (∀ (s : State) (c : Ctx), s.ctx? .event = some c → c.f.st ≠ .acquire → c.f.st ≠ .reading → c.g.acqHold = false →
     c.g.fenceHold c.ent = false → c.g.trap = none →
     (∀ x, c.l.rangeOf c.pc.toNat = some x → x.x = false) →
     ∃ t h f, s.fetch = .ended t ∧ c.groupIn t = some h ∧ h.tcode = 2 ∧ h.tinfo = c.f.sent ∧ h.tmask = c.f.f ∧
       h.tpc = (match s.cursor.dx with | some x => x.2 | none => c.pc) ∧
       h.trap = some c.f.fid ∧ h.frag? c.ent = some f ∧ f.pc = c.l.trapv &&& ~~~ 7)

/-! ### The invariant and reset -/

/-- O6. Every step keeps the invariant: memory in its canonical form (log 2) and die clocks at most 8 ns apart (R156).
-/
def Obligations.StepKeepsInv : Prop :=
  ∀ s t : State, s.Inv → step s = .next t → t.Inv

/-- O7. What the specification says of the package before it boots (R16, R290, R310, R324): no step done, nothing
resident, completion counters 0, recovery mode off, the debug block disabled, no launch waiting, and a word of memory
never written reads as zero (the model's choice, log 2). The invariant holds at reset. -/
def Obligations.ResetState : Prop :=
  (State.reset.dev.ready = 0 ∧ State.reset.fw.booted = false ∧ State.reset.fw.step = 0 ∧ State.reset.fw.reason = 0
     ∧ State.reset.wgs = [] ∧ State.reset.launches = [] ∧ (∀ n, Map.look 0 State.reset.dev.counters n = 0)
     ∧ State.reset.dbg.en = false ∧ State.reset.dbg.frozen = false ∧ State.reset.dbg.stops = []
     ∧ State.reset.logs.faults = [] ∧ State.reset.logs.kills = [] ∧ State.reset.logs.errors = []
     ∧ (∀ a, State.reset.mem.byte a = 0)) ∧
  (State.reset.Inv)

/-! ### Traps (R334-R344) -/

/-- O8. Taking a trap outside the handler (R334): TPC, TCODE, TINFO and TMASK are written, INTRAP is set, and the
fragment goes to TRAPV with bits [2:0] ignored; registers, masks, flags, memory and every other fragment stay. Any trap
condition while INTRAP = 1 kills the workgroup, and the kill is reported in the kill record: the code of the trap, the
workgroup and group, and TINFO (R336, R351). -/
def Obligations.TakingTraps : Prop :=
  (∀ (s : State) (fm : Form) (c : Ctx) (tpc kpc : DWord) (code : Nat) (info mask : DWord),
     s.ctx? fm = some c → c.g.trap = none →
     ∃ h f, c.groupIn (s.trap c.w.run c.g.grp c.ent tpc kpc code info mask) = some h ∧
       h.tpc = tpc ∧ h.tcode = BitVec.ofNat 32 code ∧ h.tinfo = info ∧ h.tmask = mask ∧ h.trap = some c.f.fid ∧
       h.frag? c.ent = some f ∧ f.pc = c.l.trapv &&& ~~~ 7 ∧ f.f = c.f.f ∧ f.exec = c.f.exec ∧ f.link = c.f.link ∧
       (∀ e, e ≠ c.ent → h.frag? e = c.g.frag? e) ∧
       h.vregs = c.g.vregs ∧ h.sregs = c.g.sregs ∧ h.masks = c.g.masks ∧ h.flags = c.g.flags ∧ h.joins = c.g.joins ∧
       h.emptyV = c.g.emptyV ∧ h.emptyS = c.g.emptyS ∧
       (s.trap c.w.run c.g.grp c.ent tpc kpc code info mask).mem = s.mem ∧
       (∀ r, r ≠ c.w.run → (s.trap c.w.run c.g.grp c.ent tpc kpc code info mask).wg? r = s.wg? r)) ∧
  (∀ (s : State) (fm : Form) (c : Ctx) (tpc kpc : DWord) (code : Nat) (info mask : DWord),
     s.ctx? fm = some c → c.g.trap ≠ none → c.w.life ≠ .killed → c.l.redn = false →
     (∃ w, (s.trap c.w.run c.g.grp c.ent tpc kpc code info mask).wg? c.w.run = some w ∧ w.life = .killed ∧ w.held = [] ∧
       ∀ g ∈ w.groups, g.frags = [] ∧ g.trap = none) ∧
     (∃ r, (s.trap c.w.run c.g.grp c.ent tpc kpc code info mask).logs.kills = s.logs.kills ++ [r] ∧
       r.getD 2 0 = fields [(32, c.w.wgx), (24, code), (16, c.g.tcode.toNat % 256), (11, c.g.grp)] ∧ r.getD 3 0 = info ∧
       r.getD 1 0 = kpc &&& 0x1FF_FFFF_FFFF_FFFF))

/-- O9. An illegal word traps before any effect (R61, R343): whatever the instruction, the lowest case that applies, or
the reason for which the handler forbids the word, stands in TINFO, bits above it zero, and the word lies at TPC.
ILLEGAL's reason (R343, R61): the lowest case of the word itself or of its prefix; where the word itself is sound,
reason 10 for a join word inside the handler and for a branch there that would split the fragment, 13 for BECOME there,
and 11 for RETT outside it. -/
def Obligations.IllegalWords : Prop :=
  (∀ (i : Instr) (s : State) (c : Ctx), i.isWord = true → s.ctx? i.form = some c → c.f.st ≠ .acquire →
     c.g.acqHold = false → c.g.fenceHold c.ent = false → c.g.trap = none →
     c.illegal false ≠ 0 →
     ∃ h f, exec i s = .next (s.trap c.w.run c.g.grp c.ent c.tpc c.tpc 1 (BitVec.ofNat 64 (c.illegal false)) c.sel) ∧
       c.illegal false ≤ 13 ∧
       c.groupIn (s.trap c.w.run c.g.grp c.ent c.tpc c.tpc 1 (BitVec.ofNat 64 (c.illegal false)) c.sel) = some h ∧
       h.tcode = 1 ∧ h.tinfo = BitVec.ofNat 64 (c.illegal false) ∧ h.tpc = c.tpc ∧ h.frag? c.ent = some f ∧
       f.pc = c.l.trapv &&& ~~~ 7 ∧ h.vregs = c.g.vregs ∧ h.sregs = c.g.sregs ∧ h.masks = c.g.masks ∧ h.flags = c.g.flags) ∧
  (∀ (s : State) (c : Ctx), (s.ctx? c.fm = some c) →
     let own := illegalForm (min c.l.vregs 128) (min c.l.sregs 64) c.l.ktan false c.fm
     let prefixed := s.cursor.dx ≠ none ∧ c.fm.dual = false
     (∀ n, own = some n → ¬ prefixed → c.illegal false = n) ∧
     (∀ n, own = some n → prefixed → c.illegal false = min n 9) ∧
     (own = none → prefixed → c.illegal false = 9) ∧
     (own = none → ¬ prefixed → c.g.trap ≠ none → formCode c.fm ∈ [0x1C6, 0x1C7, 0x1C8] → c.illegal false = 10) ∧
     (own = none → ¬ prefixed → c.g.trap ≠ none → formCode c.fm ∈ [0x1C0, 0x1C1] →
       (c.illegal false = 10 ↔ c.taken ≠ 0 ∧ c.taken ≠ c.f.f)) ∧
     (own = none → ¬ prefixed → c.g.trap ≠ none → formCode c.fm = 0x340 → c.illegal false = 13) ∧
     (own = none → ¬ prefixed → c.g.trap = none → formCode c.fm = 0x381 → c.illegal false = 11))

/-- O10. EMPTY (R344, R47): a word that is legal, not held, and whose destinations are full, with a source register that
is empty under its empty-action bit, traps with code 3 before any effect; TINFO [1:0] is the bit's number, [8:2] the
value of the field that named the register, [9] whether that field is a scalar position. Of several the lowest bit
counts. The register interlock (R46, R47, R342): a legal word that is not held and names a destination that is empty
does not issue, nor does one that reads an empty register whose bit is 0; its fragment stalls, keeping the words of its
unit, and nothing else of the machine changes. -/
def Obligations.EmptyRegisters : Prop :=
  (∀ (i : Instr) (s : State) (c : Ctx) (o : Opnd), i.isWord = true → (∀ f, i ≠ .dx f) → s.ctx? i.form = some c →
     c.f.st ≠ .acquire → c.g.acqHold = false → c.g.fenceHold c.ent = false → c.illegal false = 0 →
     (heldWord (formCode c.fm) = true → c.g.unaccepted c.f = none) →
     (∀ p ∈ c.sh.ops, isDest p = true → c.g.emptyOpnd p = false) →
     o ∈ c.sh.ops → isDest o = false → o.ea = true → c.g.emptyOpnd o = true →
     (∀ p ∈ c.sh.ops, p = o ∨ isDest p = true ∨ p.ea = false ∨ c.g.emptyOpnd p = false ∨ o.fld < p.fld) →
     exec i s = .next (s.trap c.w.run c.g.grp c.ent c.tpc c.tpc 3
       (fields [(0, if o.fld = 3 then 2 else o.fld), (2, o.num), (9, if o.scal then 1 else 0)]) c.sel)) ∧
  (∀ (i : Instr) (s : State) (c : Ctx), i.isWord = true → (∀ f, i ≠ .dx f) → s.ctx? i.form = some c → c.f.st ≠ .acquire →
     c.g.acqHold = false → c.g.fenceHold c.ent = false → c.illegal false = 0 →
     (heldWord (formCode c.fm) = true → c.g.unaccepted c.f = none) →
     let stalls (st : FragSt) : Prop := ∃ t, exec i s = .next t ∧ t.launches = s.launches ∧
       c.Only t (c.g.putFrag c.ent { c.f with st, kept := s.cursor.words })
     ((∃ o ∈ c.sh.ops, isDest o = true ∧ c.g.emptyOpnd o = true) → stalls .stalled) ∧
     ((∀ o ∈ c.sh.ops, isDest o = true ∨ o.ea = true → c.g.emptyOpnd o = false) →
       (∃ o ∈ c.sh.ops, isDest o = false ∧ c.g.emptyOpnd o = true) → stalls .reading))

/-- O11. TRAP takes the software trap 0x10 with its code in TINFO and TPC behind it where it selects a lane (R338), and
is a NOP where it selects none. RETT (R337): INTRAP is cleared, the handler's fragment goes on at TPC with bits [2:0]
ignored, its lanes as the handler left them, and no register, mask or flag changes; SIG stays. -/
def Obligations.TrapAndReturn : Prop :=
  (∀ (f : FR) (g : FI) (s : State) (c : Ctx), ∀ i ∈ [Instr.trap g, Instr.trapReg f], s.ready i.form = some c → c.g.trap = none →
     (c.sel ≠ 0 → ∃ t h, exec i s = .next t ∧ c.groupIn t = some h ∧ h.tcode = 0x10 ∧ h.tpc = c.pc + 8 ∧ h.tmask = c.sel ∧
       h.tinfo = (match i with | .trap g => g.imm | _ => (c.scalar 0).setWidth 32).setWidth 64 ∧ h.trap = some c.f.fid ∧
       c.g.SameRegs h ∧ c.Beside t) ∧
     (c.sel = 0 → ∃ t, exec i s = .next t ∧ c.Nothing t)) ∧
  (∀ (f : FR) (s : State) (c : Ctx), s.ready (.fr 0x381 f) = some c →
     ∃ t h x, exec (.rett f) s = .next t ∧ c.Near t h ∧ h.trap = none ∧ h.frag? c.ent = some x ∧ x.pc = c.g.tpc &&& ~~~ 7 ∧
       x.f = c.f.f ∧ x.exec = c.f.exec ∧ x.shadow = c.f.exec ∧ h.sig = c.g.sig ∧ (∀ e, e ≠ c.ent → h.frag? e = c.g.frag? e) ∧
       c.g.SameRegs h ∧ c.g.SameSpecial { h with trap := c.g.trap })

/-! ### Words that compute registers -/

/-- O12. R80: an exact result is wrapped to the W bits of its type or, under `.SAT`, replaced by the nearest value of
the type, and then sign- or zero-extended to 32 bits, or kept as 64 bits. Every NaN that arithmetic produces is the
canonical NaN of its format, and a signalling operand raises NV (R105). `.FTZ` (R107): a subnormal operand is read as
zero of its sign, and no result is subnormal. Signed zeros, infinities and division by zero (R104-R106, R116): the
difference of equal finite values is +0, or -0 under `.RM`; the sum of opposite infinities, zero times infinity, 0/0 and
∞/∞ raise NV; a finite value over zero is an infinity of the sign of both and raises DZ alone. -/
def Obligations.NumberRules : Prop :=
  (∀ (w : Nat) (sgn sat : Bool) (x : Int), w ∈ [8, 16, 32, 64] →
     let lo : Int := if sgn then -(2 ^ (w - 1) : Nat) else 0
     let hi : Int := if sgn then (2 ^ (w - 1) : Nat) - 1 else (2 ^ w : Nat) - 1
     let r := asInt w sgn (fitInt w sgn sat x)
     fitInt w sgn sat x < 2 ^ (max w 32) ∧ lo ≤ r ∧ r ≤ hi ∧
     (lo ≤ x → x ≤ hi → r = x) ∧
     (sat = true → x < lo → r = lo) ∧ (sat = true → hi < x → r = hi) ∧
     (sat = false → (r - x) % (2 ^ w : Nat) = 0) ∧
     (sgn = true → w < 32 → asInt 32 true (fitInt w sgn sat x) = r) ∧ (sgn = false → (fitInt w sgn sat x : Int) = r)) ∧
  (∀ (m : Fmt) (rnd : Nat) (ftz isMax : Bool) (a b c : Nat), m ∈ [fp32, fp16, bf16] → a < 2 * m.signBit → b < 2 * m.signBit →
     c < 2 * m.signBit →
     (∀ r ∈ [m.addF rnd ftz a b, m.subF rnd ftz a b, m.mulF rnd ftz a b, m.fmaF rnd ftz a b c, m.divF rnd ftz a b,
         m.minmaxF isMax ftz a b],
       ((m.value r.1).isNan = true → r.1 = m.nan) ∧
       ((m.value a).isSNan = true ∨ (m.value b).isSNan = true → r.2.getLsbD 4 = true))) ∧
  (∀ (m : Fmt) (rnd : Nat) (a b c : Nat), m ∈ [fp32, fp16, bf16] → a < 2 * m.signBit → b < 2 * m.signBit → c < 2 * m.signBit →
     (m.isSub a = true → ∀ q ∈ [m.addF rnd true, m.subF rnd true, m.mulF rnd true, m.divF rnd true, m.minmaxF false true,
       m.minmaxF true true], q a b = q (if m.signBit ≤ a then m.signBit else 0) b) ∧
     (∀ r ∈ [m.addF rnd true a b, m.subF rnd true a b, m.mulF rnd true a b, m.fmaF rnd true a b c, m.divF rnd true a b],
       m.isSub r.1 = false)) ∧
  (∀ (m : Fmt) (rnd : Nat) (a b : Nat), m ∈ [fp32, fp16, bf16] → rnd < 4 → a < 2 * m.signBit → b < 2 * m.signBit →
     let inf (n : Bool) : Nat := if n then m.signBit + m.infBits else m.infBits
     let zero (n : Bool) : Nat := if n then m.signBit else 0
     let neg (x : Nat) : Bool := decide (m.signBit ≤ x)
     ((m.value a).isNan = false → (m.value a).isInf = false → m.subF rnd false a a = (zero (rnd == 3), 0)) ∧
     (∀ n, m.addF rnd false (inf n) (inf !n) = (m.nan, fNV)) ∧
     (∀ n k, m.mulF rnd false (zero n) (inf k) = (m.nan, fNV) ∧ m.divF rnd false (zero n) (zero k) = (m.nan, fNV) ∧
       m.divF rnd false (inf n) (inf k) = (m.nan, fNV)) ∧
     (∀ n, (m.value a).isNan = false → (m.value a).isInf = false → (m.value a).isZero = false →
       m.divF rnd false a (zero n) = (inf (neg a != n), fDZ)))

/-- O13. Integer arithmetic (R80, R81): each word completes, and its destination holds the exact integer result fitted
to the word's type, in the selected lanes, with zero tangents; nothing else changes. Carry chains (R82): IADDC and ISUBB
write the sum or difference of two unsigned words and a carry in from mask c, and the carry or borrow out to the mask
that OPX names, m0 taking nothing. -/
def Obligations.IntegerWords : Prop :=
  (∀ (f : FR) (g : FI) (s : State) (c : Ctx),
     ∀ p ∈ ([
       ([.iadd f, .iaddImm g], fun i => c.fit c.sat (c.int 0 i + c.int 1 i)),
       ([.isub f, .isubImm g], fun i => c.fit c.sat (c.int 0 i - c.int 1 i)),
       ([.iadd3 f], fun i => c.fit c.sat (c.int 0 i + c.int 1 i + c.int 2 i)),
       ([.imul f, .imulImm g], fun i => c.fit false (c.int 0 i * c.int 1 i)),
       ([.imulh f], fun i => c.fit false (c.int 0 i * c.int 1 i / 2 ^ tyWidth c.ty)),
       ([.imulw f], fun i => BitVec.ofInt 64 (c.int 0 i * c.int 1 i)),
       ([.imad f], fun i => c.fit c.sat (c.int 0 i * c.int 1 i + c.int 2 i)),
       ([.imin f, .iminImm g], fun i => c.fit false (min (c.int 0 i) (c.int 1 i))),
       ([.imax f, .imaxImm g], fun i => c.fit false (max (c.int 0 i) (c.int 1 i))),
       ([.iclamp f], fun i => c.fit false (min (max (c.int 0 i) (c.int 1 i)) (c.int 2 i))),
       ([.iabs f], fun i => c.fit c.sat (c.int 0 i).natAbs),
       ([.ineg f], fun i => c.fit c.sat (-c.int 0 i)),
       ([.isad f], fun i => c.fit false ((c.int 0 i - c.int 1 i).natAbs + c.int 2 i)),
       ([.ishadd f], fun i => c.fit false (c.int 0 i * 2 ^ c.opx + c.int 1 i)),
       ([.idot4 f], fun i => c.fit c.sat (c.int 2 i + ((List.range 4).map fun j =>
         asInt 8 (tySigned c.ty) ((c.src 0 i).v.toNat / 256 ^ j) * asInt 8 (tySigned c.ty) ((c.src 1 i).v.toNat / 256 ^ j)).sum))]
       : List (List Instr × (Nat → DWord))),
     ∀ i ∈ p.1, s.ready i.form = some c → ∃ t, exec i s = .next t ∧ c.WroteValue t p.2) ∧
  (∀ (f : FR) (s : State) (c : Ctx),
     let a (i : Nat) : Int := ((c.src 0 i).v.toNat % 2 ^ 32 : Nat)
     let b (i : Nat) : Int := ((c.src 1 i).v.toNat % 2 ^ 32 : Nat)
     let k (i : Nat) : Int := if (c.g.mask c.cnum).getLsbD i then 1 else 0
     ∀ p ∈ ([(.iaddc f, fun i => a i + b i + k i, fun i => decide (2 ^ 32 ≤ a i + b i + k i)),
         (.isubb f, fun i => a i - b i - k i, fun i => decide (a i - b i - k i < 0))] : List (Instr × (Nat → Int) × (Nat → Bool))),
       s.ready p.1.form = some c →
       let r (i : Nat) : Dual := { v := BitVec.ofInt 64 (p.2.1 i % 2 ^ 32) }
       ∃ t, exec p.1 s = .next t ∧
         c.Gives t (c.newV (c.opnd 3) r) (c.newS (c.opnd 3) r) (c.newM c.opx c.sh.s p.2.2 c.g.mask) 0)

/-- O14. Compares into a mask (R83, R118, R121): the condition of d [6:4] on each selected lane goes to the mask of d
[2:0], one bit from the lowest selected lane into all 64 under S = 1; HCMP2 writes element 0 to that mask and element 1
to the next. No register changes. -/
def Obligations.Compares : Prop :=
  ∀ (f : FR) (g : FI) (s : State) (c : Ctx),
    (∀ i ∈ [Instr.icmp f, .icmpImm g], s.ready i.form = some c →
      ∃ t, exec i s = .next t ∧ c.Gives t c.oldV c.oldS
        (c.newM (c.dnum % 8) c.sh.s (fun i => intCond (c.dnum / 16) (c.int 0 i) (c.int 1 i)) c.g.mask) 0) ∧
    (∀ i ∈ [Instr.fcmp f, .fcmpImm g], s.ready i.form = some c →
      let r (i : Nat) := fp32.cmpF (c.dnum / 16) c.ftz (c.src 0 i).w.toNat (c.src 1 i).w.toNat
      ∃ t, exec i s = .next t ∧ c.Gives t c.oldV c.oldS (c.newM (c.dnum % 8) c.sh.s (fun i => (r i).1) c.g.mask)
        (c.flagsOf fun i => ({}, (r i).2))) ∧
    (s.ready (.fr 0x106 f) = some c →
      let r (j i : Nat) := c.half.cmpF (c.dnum / 16) c.ftz ((c.src 0 i).elem j).w.toNat ((c.src 1 i).elem j).w.toNat
      let m := c.dnum % 8
      ∃ t, exec (.hcmp2 f) s = .next t ∧ c.Gives t c.oldV c.oldS
        (if m = 0 then c.g.mask else c.newM (m + 1) c.sh.s (fun i => (r 1 i).1) (c.newM m c.sh.s (fun i => (r 0 i).1) c.g.mask))
        (c.flagsOf fun i => ({}, (r 0 i).2 ||| (r 1 i).2)))

/-- O15. Logic, shifts, bit fields and bit counts (R84): each word completes and writes its value in the selected lanes.
-/
def Obligations.LogicWords : Prop :=
  ∀ (f : FR) (g : FI) (s : State) (c : Ctx),
    let w := c.width
    let a (i : Nat) := (c.src 0 i).v
    let b (i : Nat) := (c.src 1 i).v
    let n (i : Nat) := (b i).toNat % 2 ^ 32
    ∀ p ∈ ([
      ([.and f, .andImm g], fun i => a i &&& b i),
      ([.or f, .orImm g], fun i => a i ||| b i),
      ([.xor f, .xorImm g], fun i => a i ^^^ b i),
      ([.andn f, .andnImm g], fun i => a i &&& ~~~ (b i)),
      ([.not f], fun i => ~~~ (a i)),
      ([.tern f], fun i => (bitsOf (fun j => (c.mods 0 8).testBit (((a i).getLsbD j).toNat + 2 * ((b i).getLsbD j).toNat
        + 4 * ((c.src 2 i).v.getLsbD j).toNat)) 32).setWidth 64),
      ([.shl f, .shlImm g], fun i => if w ≤ n i then 0 else BitVec.ofNat 64 ((a i).toNat * 2 ^ n i % 2 ^ w)),
      ([.shr f, .shrImm g], fun i => if w ≤ n i then 0 else BitVec.ofNat 64 ((a i).toNat / 2 ^ n i)),
      ([.sra f, .sraImm g], fun i => BitVec.ofNat 64 ((asInt w true (a i).toNat / 2 ^ min (n i) w) % 2 ^ w).toNat),
      ([.rot f, .rotImm g], fun i => BitVec.ofNat 64
        (((a i).toNat * 2 ^ (n i % w) + (a i).toNat / 2 ^ (w - n i % w)) % 2 ^ w)),
      ([.popc f], fun i => BitVec.ofNat 64 (Mask.count (a i))),
      ([.brev f], fun i => Mask.of fun j => decide (j < w) && (a i).getLsbD (w - 1 - j)),
      ([.clz f], fun i => BitVec.ofNat 64 (if (a i).toNat = 0 then w else w - 1 - Nat.log2 (a i).toNat)),
      ([.bfind f], fun i => BitVec.ofNat 64 (if (a i).toNat = 0 then 0xFFFFFFFF else Nat.log2 (a i).toNat)),
      ([.bfe f], fun i =>
        let pos := (b i).toNat % 256
        let len := (c.src 2 i).v.toNat % 256
        if len = 0 ∨ w ≤ pos then 0
        else if c.opx.testBit 0 then
          BitVec.ofNat 64 (asInt (min len (w - pos)) true ((a i).toNat / 2 ^ pos % 2 ^ min len (w - pos)) % 2 ^ w).toNat
        else BitVec.ofNat 64 ((a i).toNat / 2 ^ pos % 2 ^ min len (w - pos))),
      ([.bfi f], fun i =>
        let pos := (b i).toNat % 256
        let len := (b i).toNat / 256 % 256
        let x := (c.src 2 i).v.toNat
        if len = 0 ∨ w ≤ pos then BitVec.ofNat 64 x
        else BitVec.ofNat 64 (x - x / 2 ^ pos % 2 ^ min len (w - pos) * 2 ^ pos + (a i).toNat % 2 ^ min len (w - pos) * 2 ^ pos))]
      : List (List Instr × (Nat → DWord))),
    ∀ i ∈ p.1, s.ready i.form = some c → ∃ t, exec i s = .next t ∧ c.WroteValue t p.2

/-- O16. Moves and reads (R85, R86, R88, R89): MOV, MOVI, SEL, RDSR, MRD and LANERD write what they read, tangents with
the values that carry them. RDSR of FLAGS completes once no flag of an earlier word of the group is pending. Mask and
lane writes (R39, R88, R89, R92): MLOG, MWR and VOTE write one mask and no register, m0 ignoring the write; LANEWR
writes its one lane, selected or not. -/
def Obligations.MoveWords : Prop :=
  (∀ (f : FR) (g : FI) (s : State) (c : Ctx),
     (s.ready (.fr 0x080 f) = some c → ∃ t, exec (.mov f) s = .next t ∧ c.WroteLanes t fun i => (c.src 0 i, 0)) ∧
     (s.ready (.fi 0x081 g) = some c → ∃ t, exec (.movi g) s = .next t ∧ c.WroteValue t fun _ => g.imm.setWidth 64) ∧
     (s.ready (.fr 0x082 f) = some c → ∃ t, exec (.sel f) s = .next t ∧
       c.WroteLanes t fun i => (if (c.g.mask f.cn).getLsbD i then c.src 0 i else c.src 1 i, 0)) ∧
     (s.ready (.fr 0x083 f) = some c → f.an ≠ 0x09 ∨ c.sel = 0 ∨ c.flagsPending = false →
       ∃ t, exec (.rdsr f) s = .next t ∧ c.WroteValue t (c.special f.an)) ∧
     (s.ready (.fr 0x086 f) = some c → ∃ t, exec (.mrd f) s = .next t ∧ c.WroteValue t fun _ => c.g.mask f.an) ∧
     (s.ready (.fr 0x088 f) = some c → ∃ t, exec (.lanerd f) s = .next t ∧
       c.WroteLanes t fun _ => (c.src 0 ((c.src 1 c.low).v.toNat % 64), 0))) ∧
  (∀ (f : FR) (s : State) (c : Ctx),
     (s.ready (.fr 0x085 f) = some c → ∃ t, exec (.mlog f) s = .next t ∧ c.Gives t c.oldV c.oldS
       (c.setM f.dn (Mask.of fun j => (c.mods 0 4).testBit (2 * ((c.g.mask f.an).getLsbD j).toNat + ((c.g.mask f.bn).getLsbD j).toNat))
         c.g.mask) 0) ∧
     (s.ready (.fr 0x087 f) = some c → ∃ t, exec (.mwr f) s = .next t ∧ c.Gives t c.oldV c.oldS (c.setM f.dn (c.scalar 0) c.g.mask) 0) ∧
     (s.ready (.fr 0x181 f) = some c → ∃ t, exec (.vote f) s = .next t ∧ c.Gives t c.oldV c.oldS
       (c.setM f.dn (if (match c.mods 0 2 with
           | 0 => c.sel &&& ~~~ (c.g.mask f.an) == 0
           | 1 => c.sel &&& c.g.mask f.an != 0
           | 2 => c.sel &&& c.g.mask f.an == 0
           | _ => c.sel &&& ~~~ (c.g.mask f.an) == 0 || c.sel &&& c.g.mask f.an == 0)
         then BitVec.allOnes 64 else 0) c.g.mask) 0) ∧
     (s.ready (.fr 0x089 f) = some c →
       let o := c.opnd 3
       let k := (c.src 1 c.low).v.toNat % 64
       ∃ t, exec (.lanewr f) s = .next t ∧ c.Gives t (fun m j i =>
         if c.sel ≠ 0 ∧ o.num ≤ m ∧ m < o.num + o.n ∧ j ≤ c.l.ktan ∧ i = k then wordPart (m - o.num) ((c.src 0 c.low).out c.k j)
         else c.oldV m j i) c.oldS c.g.mask 0))

/-- O17. The special registers as RDSR reads them (R41, R43, R44): EXEC, WID, WIDW, LANE, GRP, WGX, CORE, CLU, DIE,
FLAGS, SPOS, ORD, LVL, LCLK, DTIME, PTPT, SIG, ACCB, ACCL, TPC, TCODE, TINFO, TMASK, KTAN, GSTAT, LINK. WRSR (R86, R87):
exactly the register that field d names takes the value, cut to its width; EXEC is cut to F, LOSTJ is cleared by a 1 and
never set; while TCODE is ACCBUSY the bits of TINFO and TMASK that R349 reserves read 0 and ignore writes (R42, R4);
without a selected lane nothing changes. -/
def Obligations.SpecialRegisters : Prop :=
  let infoBits (g : Group) : DWord := if g.tcode = 0x0B then 0xF9FFFFFFFFFFFFFF else 0xFFFFFFFFFFFFFFFF
  let lanesBits (g : Group) : DWord := if g.tcode = 0x0B then 0xFFFFFFFF01FF01FF else 0xFFFFFFFFFFFFFFFF
  (∀ (c : Ctx) (i : Nat), c.w.core < 576 →
     let t := (c.s.dtime + c.s.skews.getD (coreDie c.w.core) 0) % 2 ^ 64
     [0x00, 0x01, 0x02, 0x03, 0x04, 0x05, 0x06, 0x07, 0x08, 0x09, 0x0A, 0x0B, 0x0C, 0x0D, 0x0E, 0x0F, 0x10, 0x11, 0x12, 0x13,
       0x14, 0x15, 0x16, 0x17, 0x18, 0x19].map (fun n => c.special n i)
     = [c.f.exec, c.g.wid.at i, BitVec.ofNat 64 (c.l.word 0x160).toNat &&& 0x1FFFFFFF, BitVec.ofNat 64 i, BitVec.ofNat 64 c.g.grp,
       BitVec.ofNat 64 c.w.wgx, BitVec.ofNat 64 (c.w.core % 12), BitVec.ofNat 64 (c.w.core / 12 % 12),
       BitVec.ofNat 64 (c.w.core / 144), c.g.flags.setWidth 64, (c.g.spos.at i).setWidth 64, (c.g.ord.at i).setWidth 64,
       BitVec.ofNat 64 c.w.lvl, BitVec.ofNat 64 c.g.lclk, BitVec.ofNat 64 t,
       BitVec.ofNat 64 (t / 10 ^ 9 % 2 ^ 34) <<< 30 ||| BitVec.ofNat 64 (t % 10 ^ 9),
       c.g.sig.setWidth 64, BitVec.ofNat 64 c.g.accb, BitVec.ofNat 64 c.g.accl, c.g.tpc, c.g.tcode.setWidth 64,
       c.g.tinfo &&& infoBits c.g, c.g.tmask &&& lanesBits c.g, BitVec.ofNat 64 c.l.ktan,
       (if c.g.lostj then 1 else 0) ||| (if c.g.trap.isSome then 2 else 0) ||| (if c.w.life = .draining then 4 else 0),
       c.f.link]) ∧
  (∀ (f : FR) (s : State) (c : Ctx), s.ready (.fr 0x084 f) = some c →
     let x := c.scalar 0
     let n := if c.sel = 0 then 0xFF else f.dn
     ∃ t h y, exec (.wrsr f) s = .next t ∧ c.Only t h ∧ h.frag? c.ent = some y ∧ y.pc = c.pc + 8 ∧ y.f = c.f.f ∧
       y.exec = (if n = 0x00 then x &&& c.f.f else c.f.exec) ∧ y.link = (if n = 0x19 then x else c.f.link) ∧
       h.flags = (if n = 0x09 then x.setWidth 5 else c.g.flags) ∧
       h.tpc = (if n = 0x13 then x else c.g.tpc) ∧ h.tcode = (if n = 0x14 then x.setWidth 32 else c.g.tcode) ∧
       h.tinfo = (if n = 0x15 then x &&& infoBits c.g else c.g.tinfo) ∧
       h.tmask = (if n = 0x16 then x &&& lanesBits c.g else c.g.tmask) ∧
       h.lostj = (if n = 0x18 ∧ x.getLsbD 0 = true then false else c.g.lostj) ∧
       (n = 0x10 → h.sig = x.setWidth 32) ∧ (n = 0x00 → h.sig = 0xFFFFFFFF) ∧
       h.vregs = c.g.vregs ∧ h.sregs = c.g.sregs ∧ h.masks = c.g.masks ∧ h.joins = c.g.joins ∧ h.trap = c.g.trap ∧
       h.accb = c.g.accb ∧ h.accl = c.g.accl ∧ h.wid = c.g.wid)

/-- O18. TMOV (R283): DIR = 0 moves a value into component sub of d, DIR = 1 moves component sub into the value of d and
clears every component of d, in the selected lanes, or once for s registers. TZERO (R285): zero in component sub, or in
every component 1 to KTAN where sub = 0, of the registers d to d + n - 1, in the selected lanes, or once for s
registers; values are unchanged and no flag is raised. Where a named register is empty it waits. -/
def Obligations.Tangents : Prop :=
  (∀ (f : FR) (s : State) (c : Ctx), s.ready (.fr 0x341 f) = some c →
     let scal := f.mods 1 1 = 1
     let back := f.mods 0 1 = 1
     let src := if back then f.subn else 0
     ∃ t, exec (.tmov f) s = .next t ∧ c.Gives t
       (fun m j i => if ¬ scal ∧ m = f.dn ∧ c.sel.getLsbD i = true then
           (if back then (if j = 0 then (c.g.v f.an src).at i else if j ≤ c.l.ktan then 0 else c.oldV m j i)
            else if j = f.subn then (c.g.v f.an src).at i else c.oldV m j i)
         else c.oldV m j i)
       (fun m j => if scal ∧ m = f.dn ∧ c.sel ≠ 0 then
           (if back then (if j = 0 then c.g.s f.an src else if j ≤ c.l.ktan then 0 else c.oldS m j)
            else if j = f.subn then c.g.s f.an src else c.oldS m j)
         else c.oldS m j) c.g.mask 0) ∧
  (∀ (f : FR) (s : State) (c : Ctx),
     let scal := f.mods 7 1 = 1
     let n := f.mods 0 7 + 1
     let named (m j : Nat) : Prop := f.dn ≤ m ∧ m < f.dn + n ∧ (if f.subn = 0 then 1 ≤ j ∧ j ≤ c.l.ktan else j = f.subn)
     (s.ready (.fr 0x342 f) = some c →
       ∃ t, exec (.tzero f) s = .next t ∧ c.Gives t
         (fun m j i => open Classical in if ¬ scal ∧ named m j ∧ c.sel.getLsbD i = true then 0 else c.oldV m j i)
         (fun m j => open Classical in if scal ∧ named m j ∧ c.sel ≠ 0 then 0 else c.oldS m j) c.g.mask 0) ∧
     (s.ctx? (.fr 0x342 f) = some c → c.f.st ≠ .acquire → c.g.acqHold = false → c.g.fenceHold c.ent = false →
       c.illegal false = 0 → (∃ r, r < n ∧ c.g.full (decide scal) (f.dn + r) = false) →
       ∃ t, exec (.tzero f) s = .next t ∧ c.groupIn t = some (c.g.putFrag c.ent { c.f with st := .stalled, kept := s.cursor.words })))

/-! ### Floating words, conversions, transcendentals -/

/-- O19. Floating arithmetic with tangents (R115-R119, R276, R277): each word completes, its lanes deliver the operation
on their sources with k tangent components, and FLAGS takes what the working lanes raise. Packed halves and FCLASS
(R119-R122): the same for the two 16-bit elements of each register, each with its own flags; HDOT2 into FP32; FCLASS
writes an integer. -/
def Obligations.FloatWords : Prop :=
  (∀ (f : FR) (g : FI) (s : State) (c : Ctx),
     let k := c.k
     let r := c.rnd
     let z := c.ftz
     ∀ p ∈ ([
       ([.fadd f, .faddImm g], fAdd fp32 k r z),
       ([.fsub f, .fsubImm g], fSub fp32 k r z),
       ([.fmul f, .fmulImm g], fMul fp32 k r z),
       ([.ffma f], fFma fp32 k r z),
       ([.fdiv f], fDiv fp32 k r z),
       ([.fmin f, .fminImm g], fMinmax fp32 k z false),
       ([.fmax f, .fmaxImm g], fMinmax fp32 k z true),
       ([.fabs f], fAbs fp32 k),
       ([.fneg f], fNeg fp32 k),
       ([.fsgn f], fSgn fp32 k),
       ([.frnd f], fRnd k r z),
       ([.fsat f], fSat k z)] : List (List Instr × (Dual → Dual → Dual → Dual × FFlags))),
     ∀ i ∈ p.1, s.ready i.form = some c →
       ∃ t, exec i s = .next t ∧ c.WroteLanes t fun i => p.2 (c.src 0 i) (c.src 1 i) (c.src 2 i)) ∧
  (∀ (f : FR) (s : State) (c : Ctx),
     (∀ p ∈ ([
         (.hadd2 f, fAdd c.half c.k c.rnd c.ftz), (.hsub2 f, fSub c.half c.k c.rnd c.ftz),
         (.hmul2 f, fMul c.half c.k c.rnd c.ftz), (.hfma2 f, fFma c.half c.k c.rnd c.ftz),
         (.hmin2 f, fMinmax c.half c.k c.ftz false), (.hmax2 f, fMinmax c.half c.k c.ftz true)]
         : List (Instr × (Dual → Dual → Dual → Dual × FFlags))),
       s.ready p.1.form = some c → ∃ t, exec p.1 s = .next t ∧ c.WroteLanes t fun i =>
         let lo := p.2 ((c.src 0 i).elem 0) ((c.src 1 i).elem 0) ((c.src 2 i).elem 0)
         let hi := p.2 ((c.src 0 i).elem 1) ((c.src 1 i).elem 1) ((c.src 2 i).elem 1)
         (lo.1.both hi.1, lo.2 ||| hi.2)) ∧
     (s.ready (Instr.hdot2 f).form = some c → ∃ t, exec (.hdot2 f) s = .next t ∧
       c.WroteLanes t fun i => fDot2 c.half c.k c.rnd c.ftz (c.src 0 i) (c.src 1 i) (c.src 2 i)) ∧
     (s.ready (Instr.fclass f).form = some c → ∃ t, exec (.fclass f) s = .next t ∧
       c.WroteValue t fun i => BitVec.ofNat 64 (fclassF (c.src 0 i).w.toNat)))

/-- O20. Words complete (R46, R51, R86, R127, R143, R146-R151, R162, R168-R170, R178-R187, R213-R227, R246-R269): where
nothing stands before a word's own effect and the conditions that the specification sets on its operands hold, the word
has its effect and its group counts it, and its fragment stands behind it, at its target, or asleep as the word says. -/
def Obligations.WordsComplete : Prop :=
  ∀ (f : FR) (g : FI) (x : HalfArgs) (y : HalfWord) (s : State) (c : Ctx),
    let completes (i : Instr) (ok : Group → Prop) : Prop := ∃ t h, exec i s = .next t ∧ c.groupIn t = some h ∧
      h.lclk = c.g.lclk + 1 ∧ ok h
    let stands (pc : DWord) (h : Group) : Prop := ∃ z, h.frag? c.ent = some z ∧ z.pc = pc
    let behind := stands (c.pc + 8)
    let sends (h : Group) : Prop := behind h ∧ h.accs.length = c.g.accs.length + 1
    let as := c.globAddrs c.sel.lanes c.k c.va
    let sp := c.spadAddrs c.sel.lanes c.k c.spadOff
    let n := atomBytes c.atomTy
    let out := (∀ i ∈ c.sel.lanes, inAperture (c.va i) = false) ∧ planeInAperture as = false
    let free (as : List LaneAddr) (n : Nat) : Prop := ∀ a ∈ as, isPoisoned c.w.spadBad a.va.toNat n = false
    (∀ i ∈ [Instr.wrsr f, .nop f, .yield f, .sleep f, .sleepImm g, .tmov f, .tzero f, .bkpt f, .bkptImm g],
      s.ready i.form = some c → completes i behind) ∧
    (s.ready (Instr.wrsr f).form = some c → c.sel ≠ 0 → completes (.wrsr f) fun h =>
      (f.dn = 0x09 → h.flags = (c.scalar 0).setWidth 5) ∧ (f.dn = 0x13 → h.tpc = c.scalar 0) ∧
      ∀ z, h.frag? c.ent = some z → (f.dn = 0x00 → z.exec = c.scalar 0 &&& c.f.f) ∧ (f.dn = 0x19 → z.link = c.scalar 0)) ∧
    (∀ i ∈ [Instr.exp2 f, .log2 f, .rcp f, .rsqrt f, .sqrt f, .sin f, .cos f, .tanh f], s.ready i.form = some c →
      completes i fun h => behind h ∧ h.longs.length = c.g.longs.length + (if c.sel = 0 then 0 else 1)) ∧
    (∀ i ∈ [Instr.hnop x y, .halfFadd x y, .halfFsub x y, .halfFmul x y, .halfFmin x y, .halfFmax x y, .halfFrsub x y,
        .halfIadd x y, .halfIsub x y, .halfImul x y, .halfImin x y, .halfImax x y, .halfIrsub x y, .halfAnd x y, .halfOr x y,
        .halfXor x y, .halfAndn x y, .halfShl x y, .halfShr x y, .halfSra x y, .halfMov x y, .halfExp2 x y, .halfLog2 x y,
        .halfRcp x y, .halfRsqrt x y, .halfSqrt x y, .halfSin x y, .halfCos x y, .halfTanh x y, .halfLds x y],
      s.ready i.form = some c →
      (∀ z ∈ c.halfList, z.2.1 = .lds → c.g.ctrFull 1 = false ∧
        let as := c.spadAddrs c.sel.lanes c.k (c.halfOff z.1 z.2.2)
        c.checkSpad as 4 4 = none ∧ free as 4) → completes i behind) ∧
    (∀ i ∈ [Instr.bra g, .braReg f, .brc g, .brcReg f], s.ready i.form = some c →
      (c.taken = 0 → completes i behind) ∧
      (c.taken = c.f.f → c.taken ≠ 0 → completes i (stands c.target)) ∧
      (c.taken ≠ c.f.f → c.taken ≠ 0 → c.g.frags.length < 16 → ∀ e, c.g.freeEntry = some e → completes i fun h => behind h ∧
        ∃ z, h.frag? e = some z ∧ z.pc = c.target ∧ z.f = c.taken)) ∧
    (∀ p ∈ [(Instr.call g, c.target), (.callReg f, c.target), (.ret f, c.f.link &&& ~~~ 7)], s.ready p.1.form = some c →
      completes p.1 (stands p.2)) ∧
    (∀ i ∈ [Instr.jmpi f, .calli f], s.ready i.form = some c → c.f.f ≠ 0 → c.g.frags.length + c.parts.length ≤ 17 →
      (c.g.trap = none ∨ c.parts.length ≤ 1) → completes i fun h => ∃ i, c.f.f.getLsbD i = true ∧ stands ((c.src 0 i).v &&& ~~~ 7) h) ∧
    (s.ready (Instr.jset f).form = some c → completes (.jset f) fun h => (h.join (f.dn % 8)).exp = c.g.mask f.an) ∧
    (∀ i ∈ [Instr.join f, .jarv f], s.ready i.form = some c → completes i fun h =>
      let j := c.g.join (f.dn % 8)
      (h.join (f.dn % 8)).arr = if j.exp &&& ~~~ (j.arr ||| c.f.f) = 0 then 0 else j.arr ||| c.f.f) ∧
    (s.ready (Instr.waitc f).form = some c → (c.g.ctr (f.mods 0 2)).length ≤ (c.scalar 0).toNat → completes (.waitc f) behind) ∧
    (c.sel ≠ 0 → out →
      (∀ i ∈ [Instr.ld f, .ldImm g], s.ready i.form = some c → c.g.ctrFull 0 = false → c.checkGlobal as c.bytes c.bytes .read = none →
        c.watchpoint as c.bytes true false = none → completes i sends) ∧
      (∀ i ∈ [Instr.st f, .stImm g], s.ready i.form = some c → c.ord ≠ 2 → c.checkGlobal as c.bytes c.bytes .write = none →
        c.watchpoint as c.bytes false true = none → (c.l.holds = true → c.holdFull (as.length * c.bytes) = false) →
        completes i behind)) ∧
    (∀ i ∈ [Instr.ldu f, .lduImm g], s.ready i.form = some c → c.sel ≠ 0 →
      let as := c.globAddrs [c.low] c.k c.va
      inAperture (c.va c.low) = false → planeInAperture as = false → c.g.ctrFull 0 = false →
      c.checkGlobal as c.bytes c.bytes .read = none →
      c.watchpoint (c.globAddrs c.sel.lanes c.k fun _ => c.va c.low) c.bytes true false = none → completes i sends) ∧
    (c.checkSpad sp c.bytes c.bytes = none → c.sel ≠ 0 →
      (∀ i ∈ [Instr.lds f, .ldsImm g], s.ready i.form = some c → c.g.ctrFull 1 = false → free sp c.bytes → completes i sends) ∧
      (∀ i ∈ [Instr.sts f, .stsImm g], s.ready i.form = some c → completes i behind)) ∧
    (∀ i ∈ [Instr.pref f, .prefImm g], s.ready i.form = some c → (∀ i ∈ c.sel.lanes, inAperture (c.va i) = false) →
      completes i behind) ∧
    (s.ready (Instr.waitm f).form = some c → c.sel ≠ 0 → inAperture (c.base c.low) = false → c.l.det = false →
      c.checkGlobal [{ lane := c.low, plane := 0, va := (c.base c.low) }] 1 1 .read = none →
      c.watchpoint (c.globAddrs c.sel.lanes 0 fun _ => c.base c.low / 16 * 16) 16 true false = none →
      s.badIA (c.part { lane := c.low, plane := 0, va := (c.base c.low / 16 * 16 : Nat) } 16 0 0).ia 16 = false →
      completes (.waitm f) behind) ∧
    (s.ready (Instr.fence f).form = some c → c.ord = 1 ∨ c.released c.scope = true → c.ord = 2 ∨ c.g.drained = true →
      completes (.fence f) behind) ∧
    (c.work ≠ [] → c.ord ≠ 2 →
      let as := c.globAddrs c.work 0 c.va
      let sp := c.spadAddrs c.work 0 c.spadOff
      (∀ p ∈ [(Instr.atom f, true), (.red f, false)], s.ready p.1.form = some c → (∀ i ∈ c.work, inAperture (c.va i) = false) →
        c.checkGlobal as n n .write ((c.subn == 0 || c.subn == 6 || c.subn == 7) && decide (c.atomTy ≤ 3)) = none →
        c.watchpoint as n p.2 true = none → (p.2 = true → c.g.ctrFull 0 = false ∧ c.l.redn = false) →
        (c.l.holds = true → c.holdFull (as.length * n) = false) → completes p.1 behind) ∧
      (s.ready (Instr.atoms f).form = some c → c.checkSpad sp n n = none → c.g.ctrFull 1 = false → free sp n →
        completes (.atoms f) behind)) ∧
    (c.sel ≠ 0 →
      (s.ready (Instr.qbind f).form = some c → f.an = 64 ∨ ((c.scalar 0).toNat % 128 = 0 ∧ c.l.blockAt (c.scalar 0).toNat ≠ none) →
        completes (.qbind f) behind) ∧
      (s.ready (Instr.binit f).form = some c → (c.scalar 0).toNat ≠ 0 → (c.scalar 0).toNat ≤ 255 → completes (.binit f) behind) ∧
      (s.ready (Instr.bwait f).form = some c → c.l.det = false → completes (.bwait f) behind)) ∧
    (c.sel ≠ 0 →
      let a := (c.scalar 0).toNat
      let b := (c.scalar 1).toNat
      (s.ready (Instr.mzero f).form = some c → c.g.outside a b c.k = none → completes (.mzero f) behind) ∧
      (s.ready (Instr.mfence f).form = some c → c.batches.length < 16 → completes (.mfence f) behind) ∧
      (s.ready (Instr.mwait f).form = some c → c.batches = [] → completes (.mwait f) behind) ∧
      (s.ready (Instr.mread f).form = some c → c.g.outside a 64 c.k = none → b + c.mods 0 3 + 1 ≤ 128 → c.accBusy a = none →
        c.accPoison a b (c.mods 0 3 + 1) c.sel.lanes = false → completes (.mread f) behind) ∧
      (s.ready (Instr.msts f).form = some c → c.g.outside a 64 c.k = none → c.accBusy a = none →
        c.checkTile b (64 * (c.l.slotAt c.subn).mstsRow + 64 * (c.l.slotAt c.subn).blocks 128) = none →
        c.accPoison a 0 128 (List.range 64) = false → completes (.msts f) behind)) ∧
    (c.sel ≠ 0 →
      let as := c.globAddrs c.sel.lanes c.k c.gva
      let sp := c.spadAddrs c.sel.lanes c.k c.gspad
      (s.ready (Instr.ldx f).form = some c → c.gatherCheck false = none → c.g.ctrFull 2 = false → completes (.ldx f) behind) ∧
      (s.ready (Instr.stx f).form = some c → c.gatherCheck true = none → c.holdFull (as.length * c.bytes) = false →
        completes (.stx f) behind) ∧
      (s.ready (Instr.ldxs f).form = some c → c.checkSpad sp c.bytes c.bytes = none → c.g.ctrFull 2 = false → free sp c.bytes →
        completes (.ldxs f) behind) ∧
      (s.ready (Instr.stxs f).form = some c → c.checkSpad sp c.bytes c.bytes = none → completes (.stxs f) behind) ∧
      (s.ready (Instr.probe f).form = some c →
        let flying := c.g.accs.find? fun a => a.kind == .probe && a.fid == c.f.fid
        let wrote (n : Nat) (sel out : Mask) (h : Group) : Prop := behind h ∧
          h.masks = (c.g.setMask n (Mask.of fun i => if sel.getLsbD i then out.getLsbD i else (c.g.mask n).getLsbD i)).masks
        (flying = none → (∀ i ∈ c.sel.lanes, c.l.readable (c.gva i) (2 ^ c.mods 10 3) = true → c.pageStarts (c.gva i) (2 ^ c.mods 10 3) = []) →
          c.pinning.length ≤ 256 → completes (.probe f) (wrote c.dnum c.sel
            (Mask.of fun i => c.sel.getLsbD i && !c.l.readable (c.gva i) (2 ^ c.mods 10 3)))) ∧
        (∀ a, flying = some a → (∀ p ∈ a.parts, p.st = .done) → completes (.probe f) (wrote a.probeMask a.sel a.probeOut)))) ∧
    (c.sel ≠ 0 →
      let a := (c.scalar 0).toNat
      let b := (c.scalar 1).toNat
      let q := (c.scalar 2).toNat
      let sb := c.l.slotAt (c.subn + 1)
      (s.ready (Instr.mma f).form = some c → c.sel = BitVec.allOnes 64 → slotsOk (c.l.slotAt c.subn) sb = true → c.g.outside a 64 c.k = none →
        (∀ j, j ≤ c.k → q * sb.bElem + j * c.l.cplane + (32 + sb.blocks 32) * sb.bElem ≤ c.l.cell * 1024) →
        c.checkTile b (c.l.slotAt c.subn).aBytes = none → completes (.mma f) behind) ∧
      (s.ready (Instr.wraccw f).form = some c → c.g.grp = 0 → a < c.l.ng → c.w.poolBase ≤ b →
        b + q ≤ c.w.poolBase + c.l.ng * c.l.arows → c.groupOps a = [] → completes (.wraccw f) behind) ∧
      (s.ready (Instr.qinitMem f).form = some c → ∀ lslot lesz ia r, qinitCfg q = some (lslot, lesz) → c.l.blockAt a = some ia →
        c.l.rangeOf b = some r → a % 128 = 0 → b % 128 = 0 → r.r = true → r.w = true → b + 2 ^ lslot * 2 ^ lesz ≤ r.base + r.size →
        completes (.qinitMem f) sends) ∧
      (s.ready (Instr.unpin f).form = some c → (∀ a ∈ c.g.accs, a.kind ≠ .unpin ∧ a.glob = false) → completes (.unpin f) fun h => h.pins = [])) ∧
    (c.sel ≠ 0 → c.work ≠ [] → ∀ q b, c.queueKey = some q → c.l.redn = false → c.l.det = false → c.blockReady q = true →
      let v := c.atController q
      let k := c.work.length
      c.arriveCode v q = 0 → v.block? q = some (b, false) → (v.qctl q).pushW = [] → (v.qctl q).popW = [] → (v.qctl q).pop = none →
      (s.qctl q).requeue = false → c.blockError q = none → b.lesz = 3 → c.mods 3 1 = 0 → k ≤ b.slots →
      (s.ready (Instr.qstat f).form = some c → completes (.qstat f) behind) ∧
      (s.ready (Instr.qpush f).form = some c → c.released (queueScope q) = true → k ≤ b.free → completes (.qpush f) behind) ∧
      (s.ready (Instr.qpop f).form = some c → c.g.ctrFull 3 = false → k ≤ b.tail - b.head → b.ppend = false →
        ∃ t h z a, exec (.qpop f) s = .next t ∧ c.groupIn t = some h ∧ h.frag? c.ent = some z ∧ z.st = .queue a.id ∧ a ∈ h.accs ∧
          a.kind = .pop)) ∧
    (s.ready (Instr.become f).form = some c → (∀ i, i < 64 → (c.src 0 i).w.toNat < 2 ^ 24) → completes (.become f) fun h =>
      ∃ z n, h.frag? c.ent = some z ∧ z.st = .regroup n) ∧
    (s.ready (Instr.sigchk g).form = some c → 2 ≤ c.g.frags.length ∨ c.g.trap ≠ none ∨ (c.g.sig = g.imm ∧ c.f.exec = c.f.shadow) →
      completes (.sigchk g) behind) ∧
    (s.ready (Instr.rett f).form = some c → completes (.rett f) fun h => h.trap = none ∧ stands (c.g.tpc &&& ~~~ 7) h)

/-- O21. Events take effect (R14, R16, R26, R32, R33, R136, R157, R164, R183-R187, R213-R216, R249, R287-R303,
R318-R333, R362-R368, R374-R387, R393): each event of the package, in its ordinary case, answers a state in which it has
happened: what it sends is sent, what it ends is gone, what it moves stands where the specification says. The model's
choices: memory keeps its content across power-on and RESET (log 5); the fragments that change places in the split table
and the groups by which YIELD ends (logs 72, 73); how a frame is parsed and its element reserved and landed (logs 47,
48). -/
def Obligations.EventsComplete : Prop :=
  ∀ s : State,
    let a := s.arg
    let gives (i : Instr) (ok : State → Prop) : Prop := ∃ t, exec i s = .next t ∧ ok t
    let up := s.fw.recovery = false
    let serves := s.serviceRuns = true
    let bar2 := s.dev.winbase.toNat + a.off
    -- firmware, host, registers
    (∀ i ∈ [Instr.powerOnReset, .reset], gives i fun t => t.wgs = [] ∧ t.launches = [] ∧ t.msgs = [] ∧ t.mem = s.mem) ∧
    (s.dev.ready = 5 → gives .runtimeMeasurementFailure fun t => t.fw.recovery = true ∧ t.dev.ready = 0) ∧
    gives .stage (fun t => t.fw.result = 0) ∧
    gives .commit (fun t => t.fw.result = s.fw.commitResult (a.num % 2 ^ 24) a.flag ∧
      (t.fw.result = 0 → a.num % 2 ^ 24 = 1 → t.fw.rootExt = s.fw.image)) ∧
    (up → s.fw.booted = true → a.bytes.length = 48 → gives .attestationRequest fun t =>
      t.fw.responses.length = s.fw.responses.length + 1) ∧
    (serves → a.flag = true → s.rowFits a.dom a.row = true → gives .domainTableWrite fun t => t.row a.dom = a.row) ∧
    (s.dev.ready = 5 → s.hostDrained = true → a.size ≠ 16 → a.flag2 = false → a.off < 2 ^ 36 → s.regionAt bar2 = .hbm →
      bar2 % 8 = 0 → s.xlatFault bar2 = none → s.queueDom bar2 ≠ none → s.errorAt none bar2 = none →
      s.isBlock (bar2 / 128 * 128) = false → s.lineFree bar2 = true →
      (s.home (bar2 / 128)).h ≤ s.homeNow none bar2 → s.badIA bar2 (if a.flag then 8 else 4) = false →
      gives .hostAtomicop fun t => t.dev.answers = s.dev.answers
        ++ [.data (leBytes (if a.flag then 8 else 4) (s.leIA bar2 (if a.flag then 8 else 4))) false]) ∧
    (up → s.hostDrained = true → a.flag2 = false → a.num = 0 → a.size ≠ 0 → a.off + a.size ≤ 2 ^ 36 →
      s.homesHold = false → (∀ x ∈ spanLines bar2 a.size, s.regionAt x.1 = .hbm ∧ s.xlatFault x.1 = none ∧ s.errorAt none x.1 = none ∧
        s.ownerDom x.1 ≠ none ∧ s.lineFree x.1 = true) →
      gives .hostBar2Read fun t => t.dev.answers.length = s.dev.answers.length + 1) ∧
    (up → a.off + a.bytes.length ≤ 2 ^ 36 → (∀ x ∈ spanLines bar2 a.bytes.length, s.regionAt x.1 = .hbm ∧ s.ownerDom x.1 ≠ none) →
      gives .hostBar2Write fun t => t.msgs.length = s.msgs.length + (spanLines bar2 a.bytes.length).length) ∧
    (∀ l, up → s.named a.lq a.word32 = some l → (∀ x ∈ s.launches, x.lid = l.lid → x = l) → l.phase ∈ [.waiting, .counting, .holding] →
      ∀ i ∈ [Instr.launchctlPreempt, .launchctlCancel], gives i fun t => ∃ l', t.launch? l.lid = some l' ∧ l'.phase = .completing) ∧
    (up → a.num < 4096 → gives .completionCounterWrite fun t => Map.look 0 t.dev.counters a.num = a.v &&& 0xFFFFFFFFFFFF) ∧
    (up → a.num < 1024 → a.word < 4 → gives .classifierEntryWrite fun t => t.entryWord a.num a.word = a.v &&& classifierBits a.word) ∧
    (up → a.num < 64 → a.word < 2 → gives .transmitQueueRegisterWrite fun t =>
      Map.look 0 t.dev.txregs (2 * a.num + a.word) = a.v &&& 0xFFFFFFFFFFFFF) ∧
    (up → a.space = .debug → a.off = 0xC8 → gives .registerWrite fun t => t.dbg.trbase = a.v) ∧
    (∀ at_, s.queueIa a.off = some at_ → s.dev.ready = 5 → a.off + a.bytes.length ≤ (if a.off < 0x12000 then 0x12000 else 0x400000) →
      gives .hostBar0QueueWrite fun t => t.msgs.length = s.msgs.length + (spanLines at_ a.bytes.length).length) ∧
    (serves → a.lq < 64 → s.windowed 1 a.ia 40960 = true → (∀ x ∈ spanLines a.ia 40960, s.fetchTakes x.1 = true) → gives .saveFetch fun t =>
      ∀ i, i < 40960 → t.mem.byte (altPa a.lq + i) = 0) ∧
    (serves → gives .linkRestore fun t => t.dev.isolated.contains a.port = false) ∧
    (serves → gives .droppedWriteLogClear fun t => ∀ d ∈ t.logs.drops, d.1 = a.port → d.2.2.2 = []) ∧
    (a.num < 64 → s.dev.ready = 5 → s.windowed 1 (s.lqBlock a.num) 128 = true → s.dev.lqia % 128 = 0 → (s.l2? (s.lqBlock a.num / 128)).isSome →
      s.hostDrained = true → gives .launchQueueReinit fun t => (t.qctl (.mem (s.lqBlock a.num))).frozen = 0) ∧
    -- debug
    (up → s.dbg.en = true → s.dbg.frozen = false → gives .debugHalt fun t => t.dbg.frozen = true) ∧
    (up → s.dbg.frozen = true → s.dbg.deferred = [] → gives .debugResume fun t => t.dbg.frozen = false) ∧
    (∀ x, up → s.dbg.frozen = true → s.dbg.stepping = none → s.dbg.stopped[s.dbg.srec]? = some x →
      gives .debugStep fun t => t.dbg.stepping = some x) ∧
    (∀ run grp w g x, s.dbg.stepping = some (run, grp) → s.wg? run = some w → w.group? grp = some g → s.dbg.stepDone = true →
      (∀ a ∈ g.accs, a.served = true) → s.steppedWord w g = some x → gives .debugStepComplete fun t => t.dbg.stepping = none) ∧
    (s.dbg.serctl.getLsbD 0 = true → 10 ≤ s.dbg.latchK → s.dbg.latchK ≤ 24 → s.dbg.seq < s.dbg.latchesBy s.dtime →
      64 ≤ s.dbg.sersize.toNat → (∀ m ∈ s.msgs, m.use_ ≠ .series) → gives .seriesLatch fun t => t.dbg.seq = s.dbg.seq + 1) ∧
    -- faults and translation
    (serves → s.dbg.frozen = true → ∀ i ∈ [Instr.faultResolveReplay, .faultResolveAbort], gives i fun t =>
      t.dbg.deferred.length = s.dbg.deferred.length + 1) ∧
    (∀ run grp g, serves → s.dbg.frozen = false → s.group? run grp = some g → gives .faultResolveReplay fun t => ∃ h, t.group? run grp = some h ∧
      ∀ x ∈ h.accs, (∃ p ∈ x.parts, p.faultOf.isSome = true ∧ inSpan a.ia a.flag p.ia = true) → x.replay = true) ∧
    (∀ (r : LaneReq) (why : Nat), s.lane? a.src = some r → r.a.replay = true → r.a.recorded = true → r.p.st = .faulted why →
      r.a.kind = .load → s.Clean →
      (∀ x ∈ r.g.frags, ∀ u, x.2.st ≠ .waitm r.a.id u) → gives .faultReplayResend fun t => ∃ q, t.lane? a.src = some q ∧ q.p.st = .issued) ∧
    (serves → gives .translationInvalidate fun t => (a.ia / (if a.flag then 2 ^ 21 else 65536) * (if a.flag then 2 ^ 21 else 65536), a.flag) ∈ t.xlat.invals) ∧
    (let x := (a.ia / (if a.flag then 2 ^ 21 else 65536) * (if a.flag then 2 ^ 21 else 65536), a.flag)
     x ∈ s.xlat.invals → s.pinned x.1 x.2 = false → s.inFlight x.1 x.2 = false → gives .translationInvalidateComplete fun t => x ∉ t.xlat.invals) ∧
    (serves → s.regionAt a.ia = .hbm → s.tablesOpen = true → s.mapsReserved a.level a.v = false → a.level = 1 → gives .translationEntryWrite fun t =>
      Map.look 0 t.xlat.lev1 (a.ia / 2 ^ 21) = a.v) ∧
    (∀ r : LaneReq, s.lane? a.src = some r → r.p.unanswered = true → r.w.life ≠ .killed → s.reasonFits (some r.l.dom) r.p.ia a.reason = true →
      gives .errorResponse fun t => t.logs.faults.length = s.logs.faults.length + 1) ∧
    (s.siteExists a.site = true → a.flag = true → gives .arrayError fun t => t.logs.errors.length = s.logs.errors.length + 1) ∧
    (a.port < 20 ∨ a.port = 22 → s.dev.isolated.contains a.port = false → gives .linkIsolate fun t => a.port ∈ t.dev.isolated) ∧
    -- the memory machine
    (∀ r : LaneReq, s.lane? a.src = some r → r.w.life ≠ .killed → (∀ x ∈ r.g.frags, ∀ u, x.2.st ≠ .waitm r.a.id u) →
      (∀ pa, r.p.st = .issued → r.a.kind = .load → s.l2? (r.p.ia / 128) = none → s.walk a.flag r.p.ia = .ok pa →
        gives .translationWalk fun t => ∃ q, t.lane? a.src = some q ∧ q.p.st = .walked) ∧
      (r.p.st = .walked → gives .acceptanceArrival fun t => ∃ q, t.lane? a.src = some q ∧ q.p.accepted = true) ∧
      (s.Clean → r.p.st = .walked → r.a.kind = .load → s.lineFree r.p.ia = true → r.afterWrites = false → r.afterReads = false →
        s.errorAt (some r.l.dom) r.p.ia = none → s.maySend r.p.ia 0 = true → s.isolatedAt r.p.ia = false →
        gives .homeFill fun t => ∃ q, t.lane? a.src = some q ∧ q.p.st = .served) ∧
      (s.Clean → r.p.st = .walked → r.a.kind = .store → r.afterOthers = false → (s.home (r.p.ia / 128)).owner = none →
        s.errorAt (some r.l.dom) r.p.ia = none → region r.p.ia = .hbm → gives .homeWriteArrival fun t =>
          (t.home (r.p.ia / 128)).queue.length = (s.home (r.p.ia / 128)).queue.length + 1) ∧
      (r.p.st = .served → r.a.kind = .store → r.p.accepted = true → r.a.parts = [r.p] → gives .writeAcknowledgement fun t =>
        ∃ h, t.group? r.w.run r.g.grp = some h ∧ ∀ x ∈ h.accs, x.id ≠ r.a.id)) ∧
    (∀ (r : Req) (rest : List Req) (q : LaneReq), (s.home a.line).queue = r :: rest → (s.home a.line).owner = none → s.lane? r.src = some q →
      r.w ≤ s.homeNow (s.srcDom r.src) (128 * a.line) → q.a.kind = .store → q.p.st = .queued →
      gives .homeWriteApply fun t => (t.home a.line).queue = rest) ∧
    (∀ w g l x d, s.wg? a.wg = some w → w.group? a.grp = some g → s.launch? w.lid = some l → w.life ≠ .killed →
      g.accs.find? (fun x => x.id == a.acc) = some x → x.kind = .load → x.dest = some d → d.scal = false → d.num + d.n ≤ 128 →
      (∀ p ∈ x.parts, p.accepted = true ∧ p.st = .served ∧ p.bad = false) → gives .loadReturn fun t => ∃ h, t.group? a.wg a.grp = some h ∧
        ∀ y ∈ h.accs, y.id ≠ x.id) ∧
    ((s.core a.core).window ≠ [] → (s.core a.core).windowAt + 32 ≤ s.cyc → gives .gatherWindowClose fun t => (t.core a.core).window = []) ∧
    -- fragments, and what passes with time
    (∀ w g f, s.wg? a.wg = some w → w.group? a.grp = some g → g.frag? a.ent = some f →
      let ready (t : State) : Prop := ∃ h z, t.group? a.wg a.grp = some h ∧ h.frag? a.ent = some z ∧ z.st = .ready
      (∀ till, f.st = .sleep till → till ≤ s.now (coreDie w.core) → gives .sleepExpiry ready) ∧
      (∀ cyc stamp, f.st = .yield cyc stamp → cyc + 64 ≤ s.cyc → gives .yieldExpiry ready) ∧
      (∀ acc till x p, f.st = .waitm acc (some till) → g.accs.find? (fun x => x.id == acc) = some x → x.parts.head? = some p →
        p.faultOf = none → s.badIA p.ia 16 = false → till ≤ s.now (coreDie w.core) → gives .waitmTimeout ready) ∧
      (∀ e, s.detOf w = false → 8 ≤ a.ent → f.wakes g = true → e < 8 → g.frag? e = none → (∀ k, k < e → (g.frag? k).isSome) →
        gives .splitTableSwap fun t => ∃ h, t.group? a.wg a.grp = some h ∧ h.frag? e = some f) ∧
      (∀ n e rest, (∀ x ∈ g.frags, match x.2.st with | .join .. | .bwait .. | .regroup _ => True | _ => False) → n < 8 →
        g.sleepers n = e :: rest → e ∉ rest → (∀ m, m < 8 → m ≠ n → g.sleepers m ≠ [] → (g.join n).ord < (g.join m).ord) →
        gives .joinStuckRelease fun t => ∃ h, t.group? a.wg a.grp = some h ∧ h.lostj = true)) ∧
    (∀ r w, s.cyc / 256 ≠ (s.core a.core).pred → s.wg? r = some w → w.core = a.core → (w.groups.map (·.grp)).Nodup →
      gives .urgencyPrediction fun t => ∃ x, t.wg? r = some x ∧ ((∃ g ∈ w.groups, g.ready = true) → ∃ g ∈ x.groups, g.urgent = true)) ∧
    ((∃ x ∈ (s.core a.core).l1, x.line = a.line ∧ x.ut = false ∧ x.e ≤ s.now (coreDie a.core)) → gives .leaseExpiry fun t =>
      ∀ x ∈ (t.core a.core).l1, ¬ (x.line = a.line ∧ x.ut = false ∧ x.e ≤ s.now (coreDie a.core))) ∧
    (∀ x l, s.l2? a.line = some x → s.launches = [l] → (∃ r ∈ l.ranges, r.ia < 128 * x.line + 128 ∧ 128 * x.line < r.ia + r.size) →
      region (128 * x.line) = .package → x.fillAt + l.lease ≤ s.dtime → gives .remoteLineCopyDrop fun t => t.l2? a.line = none) ∧
    (serves → (∀ x ∈ s.dev.domains, x.2.latency = false) → ∀ d, d < 8 → a.withheld.getLsbD d = true →
      gives .powerGovernorAdjust fun t => t.dev.withheld.getLsbD d = true) ∧
    (∀ (w : Workgroup) (g : Group) (x : Long), s.wg? a.wg = some w → w.group? a.grp = some g → g.longs.find? (fun y => y.id == a.acc) = some x →
      gives .longLatencyComplete fun t => ∃ h, t.group? a.wg a.grp = some h ∧ h.longs = g.longs.filter (fun y => y.id != x.id)) ∧
    -- queues, barriers, streams, the press
    (∀ ia b x g y op w l, a.q = .mem ia → (s.l2? (ia / 128)).isSome → s.block? (.mem ia) = some (b, false) → s.waiter x = some (g, y) →
      y.q = some op → s.wg? x.1 = some w → s.launch? w.lid = some l → (s.qctl (.mem ia)).requeue = false → (s.qctl (.mem ia)).frozen = 0 →
      s.queueCode (.mem ia) (some l.dom) = 0 → s.errorAt (some l.dom) ia = none →
      let c := s.qctl (.mem ia)
      s.beatenTries (s.popLeft (.mem ia) b) false c.popW = [] → (∀ z ∈ c.popW, ∀ u, s.wg? z.1 = some u → u.pend = false) →
      op.overrun l.spad b = [] →
      (∀ rest, c.pushW = x :: rest → op.misfit b = false → op.lanes.length ≤ b.free → b.resv + op.lanes.length < 2 ^ 64 →
        gives .queuePushGrant fun t => (t.qctl (.mem ia)).pushW = rest) ∧
      (∀ rest, c.popW = x :: rest → op.misfit b = false → op.tryForm = false → b.ppend = false → op.lanes.length ≤ b.tail - b.head →
        gives .queuePopGrant fun t => (t.qctl (.mem ia)).popW = rest) ∧
      (∀ n, c.pop = some x → c.stale = [] → w.life ≠ .killed → op.data = [n] → op.spad = false → b.head + n < 2 ^ 64 →
        (∀ p ∈ y.parts, (p.st = .served ∨ p.st = .done) ∧ p.bad = false) → gives .queuePopCommit fun t => (t.qctl (.mem ia)).pop = none) ∧
      (∀ first n rest, c.pushes = (x.1, x.2.1, x.2.2, first, n) :: rest → x.1 ≠ 0 → y.prefixDone (s.now (s.ctlDie (.mem ia) (some l.dom))) = n →
        first ≤ b.tail → b.tail < first + n → first + n < 2 ^ 64 → gives .queueTailAdvance fun t => (t.qctl (.mem ia)).pushes = rest)) ∧
    (∀ w g b rest, s.wg? a.wg = some w → w.group? a.grp = some g → g.barvs = b :: rest → b.waits.any g.pendingAcc = false →
      gives .barrierArrival fun t => ∃ h, t.group? a.wg a.grp = some h ∧ h.barvs = rest) ∧
    (∀ w l, s.wg? a.wg = some w → s.launch? w.lid = some l → w.life = .running → l.det = false → w.vatFaults = [] → w.levels = [] →
      (∀ g ∈ w.groups, ∀ x ∈ g.frags, ∃ n, x.2.st = .regroup n) → (∃ g ∈ w.groups, g.frags ≠ []) → (∀ g ∈ w.groups, g.frags = [] ∨ g.settled = true) →
      (w.threads.map (·.n)).sum = 0 → gives .regroup fun t => ∃ x, t.wg? a.wg = some x ∧ x.life = .retiring) ∧
    (∀ (p : PressOp) (rest : List PressOp) (w : Workgroup) (l : Launch), (s.core a.core).press = p :: rest → s.wg? p.wg = some w →
      s.launch? w.lid = some l → p.mma = false →
      ((s.core a.core).running = false → s.dbg.frozen = false → gives .pressOperationStart fun t => (t.core a.core).running = true) ∧
      ((s.core a.core).running = true → (s.core a.core).endCyc ≤ s.cyc → w.life ≠ .killed → p.poison l w = none →
        gives .pressOperationComplete fun t => (t.core a.core).press = rest)) ∧
    -- copies
    (∀ (t0 : Trigger) (w : Workgroup) (l : Launch), let x := (s.core a.core).chan a.ch
      a.ch < 16 → s.copy? a.core a.ch = some (t0, w, l) → x.paused = none → let c : Copy := { l, w, word := t0.word, r := x.record }
      (x.st = .idle → (t0.word.extractLsb' 56 8).toNat < l.ntpl →
        let ia := l.iaOf (l.ttab + 128 * (t0.word.extractLsb' 56 8).toNat)
        s.xlatFault ia = none → s.freeFor a.core a.ch ia = true → s.errorAt (some l.dom) ia = none →
        s.mayRead (some l.dom) ia 128 0 = true → s.cutOff (some l.dom) ia 128 = false → s.badIA ia 128 = false →
        let c : Copy := { l, w, word := t0.word, r := (List.range 16).map fun i => BitVec.ofNat 64 (leNat (((s.readIA ia 128).drop (8 * i)).take 8)) }
        c.wellFormed = true → c.kind = 0 → gives .copyFetch fun t => ((t.core a.core).chan a.ch).st = .move) ∧
      (x.st = .claim → (∀ y ∈ x.claims, y.2 ≠ 0) → gives .copyClaimsComplete fun t => ((t.core a.core).chan a.ch).st = .move) ∧
      (x.st = .signal → c.ben = false → gives .copyChunkLand fun t => ((t.core a.core).chan a.ch).done = x.done + 1) ∧
      (∀ p, x.st = .move → x.pending = [p] → c.kind = 1 → p.1 / 128 = a.line → (s.home a.line).owner = some (.copy a.core a.ch) →
        s.errorAt (some l.dom) (128 * a.line) = none → region p.1 = .hbm → c.ben = false → w.life ≠ .killed →
        gives .engineLineFinish fun t => ((t.core a.core).chan a.ch).pending = []) ∧
      (∀ o, x.st = .move → s.waitsFor a.core a.ch = some o → s.waitsFor o.1 o.2 = some (a.core, a.ch) → 2 ≤ 16 * s.cores.length →
        ((s.core o.1).chan o.2).order ≤ x.order → l.redn = false → w.life ≠ .killed → w.core = a.core → (∀ u ∈ x.trigs.drop 1, u.wg ≠ w.run) →
        (∀ k, k < 16 → k ≠ a.ch → ((s.core a.core).chan k).trigs = []) →
        gives .copyCycleFault fun t => ((t.core a.core).chan a.ch).done = x.done + 1)) ∧
    -- launches
    (∀ n b, s.dev.ready = 5 → s.nextQueue a.dom = some n → s.block? (.mem (s.lqBlock n)) = some (b, false) →
      s.queueCode (.mem (s.lqBlock n)) (some a.dom) = 0 → s.errorAt none (s.lqBlock n) = none → (∀ l ∈ s.launches, l.lid ≠ s.fresh) →
      gives .launchAccept fun t =>
        ∃ l, t.launch? s.fresh = some l ∧ l.lq = n ∧ l.seq = b.head) ∧
    (∀ l, s.launch? a.lid = some l →
      let phase (p : Phase) (t : State) : Prop := ∃ l', t.launch? a.lid = some l' ∧ l'.phase = p
      (l.phase = .waiting → (∀ o ∈ [0x1E0, 0x1E8, 0x1F0, 0x1F8], s.waitHolds (l.word o) = true) →
        (∀ x ∈ s.launches, x.lq = l.lq → x.order < l.order → x.phase ≠ .waiting) → gives .launchWaitsSatisfied (phase .counting)) ∧
      (l.phase = .counting → l.resume = false → l.icnt = 0 → gives .indirectCountRead (phase .holding)) ∧
      (l.phase = .holding → l.start ≤ s.now a.die → (∀ d ∈ s.launchDies l, d = a.die ∨ d ∈ l.dies) →
        (∀ x ∈ s.launches, x.lq = l.lq → x.order < l.order → x.leftPlacing = true) → gives .launchStartTime (phase .placing)) ∧
      (∀ core fit, (l.phase = .placing ∨ l.phase = .running) → s.yieldsTo l = false → l.redo = [] → l.next < l.limit → l.limit = l.total →
        l.extent 1 ≤ 1 → l.avoid = [] → (∀ w ∈ s.wgs, w.run < s.fresh ∧ (w.lid = l.lid → w.rolled = false)) → l.redn = false →
        s.unitPlace l { wgxs := [l.next], copy := 0, fresh := true } = some [(l.next, core, fit)] →
        gives .workgroupPlace fun t => ∃ w, t.wg? s.fresh = some w ∧ w.wgx = l.next ∧ w.core = core ∧ w.life = .running) ∧
      (l.phase = .completing → s.bottling l.lid none = false → l.bottleW ≤ s.now 0 → 1 ∉ l.status → l.crec ≠ 0 → (∀ x ∈ l.status, x < 256) →
        gives .launchComplete (phase .recording)) ∧
      (∀ w, l.phase = .recording → l.recW = some w → w ≤ s.now 0 → gives .completionCounterBump fun t => t.launch? l.lid = none) ∧
      (∀ t0, l.phase = .draining → l.drainAt = some t0 → t0 + l.grace ≤ s.now 0 → gives .graceExpiry fun t =>
        ∀ w, s.wg? w.run = some w → w.lid = l.lid → w.life = .running → ∃ x, t.wg? w.run = some x ∧ x.life = .killed) ∧
      (∀ w, l.phase = .draining → s.wg? w.run = some w → w.lid = l.lid → w.core = a.core → w.life = .running → (∀ q ∈ s.queues, q.pushW = [] ∧ q.popW = []) → s.Clean →
        gives .preemptRequestAtCore fun t => ∃ x, t.wg? w.run = some x ∧ x.life = .draining) ∧
      (∀ u v, l.cls = 0 → l.phase ∈ [.placing, .running] → l.readyAt ≠ 0 → (∀ v ∈ l.victims, s.launch? v = none) → s.nextUnit l = some u →
        (s.victims l).head? = some v → l.readyAt + 2000 ≤ s.dtime →
        (({ s with wgs := s.wgs.filter fun w => w.lid != v.lid } : State).unitPlace l u).isSome = true → (∃ w ∈ s.wgs, w.lid = v.lid) →
        (∀ x ∈ s.launches, x.lid = v.lid → x = v) → gives .class0PreemptTimeout fun t => ∃ l', t.launch? v.lid = some l' ∧ l'.phase = .draining)) ∧
    (∀ w l, s.wg? a.wg = some w → s.launch? w.lid = some l → s.busyWith w = false →
      (w.life = .retiring → l.cont = false → l.det = false → l.redn = false → s.bottling l.lid (some w.wgx) = false → l.bottleW ≤ s.now (coreDie w.core) →
        (∀ g ∈ w.groups, g.maxw ≤ s.now (coreDie w.core)) → gives .workgroupRetire fun t => t.wg? w.run = none) ∧
      (w.life = .killed → w.rolled = false → gives .workgroupKillRelease fun t => t.wg? w.run = none)) ∧
    -- modes
    (∀ w, s.wg? w.run = some w → w.lid = a.lid → (s.launch? a.lid).isSome → (∀ x ∈ s.wgs, x.lid = a.lid →
        (x.life = .running ∨ x.life = .draining) ∧ x.overHold = true ∧ (x = w ∨ 4 * x.wgx + x.copy < 4 * w.wgx + w.copy)) →
      gives .holdReserveRollback fun t => ∃ x, t.wg? w.run = some x ∧ x.rolled = true) ∧
    (∀ l, s.launch? a.lid = some l → (∃ r ∈ l.runs, r.1 = a.wgx ∧ r.2.1 = 3) → s.bottling l.lid (some a.wgx) = false → l.bottleW ≤ s.now 0 →
      gives .redundantCompare fun t => ∃ l', t.launch? l.lid = some l' ∧ l'.ndone = l.ndone + 1) ∧
    (∀ w g l, s.wg? a.wg = some w → w.group? a.grp = some g → s.launch? w.lid = some l → l.det = true → l.ending = false → g.atEnd = false →
      (∀ x ∈ s.running l.lid, ∀ h ∈ x.groups, h.atomWaits = false ∧ h.barvs = [] ∧ (h.frags ≠ [] → g.lclk < h.clock l.quantum ∨
        (h.clock l.quantum = g.lclk ∧ (w.wgx < x.wgx ∨ (w.wgx = x.wgx ∧ g.grp ≤ h.grp))))) → gives .syncOperationTurn fun t =>
        ∃ h, t.group? a.wg a.grp = some h ∧ h.turn = true) ∧
    (∀ l, s.launch? a.lid = some l → l.det = true → l.ending = true → (∃ w ∈ s.wgs, w.lid = l.lid ∧ w.life ≠ .killed) →
      (∀ w ∈ s.wgs, w.lid = l.lid → w.held = []) → s.bottling l.lid none = false → s.copying l.lid = false →
      (∀ w ∈ s.running l.lid, l.bottleW ≤ s.now (coreDie w.core)) →
      (∀ w ∈ s.running l.lid, w.vatFaults = [] ∧ ∀ g ∈ w.groups, ∃ x ∈ g.frags, ∀ n, x.2.st ≠ .regroup n) →
      (∀ w ∈ s.running l.lid, w.groups ≠ []) → gives .quantumEnd fun t => ∃ l', t.launch? l.lid = some l' ∧ l'.ending = false) ∧
    -- network and time
    (∀ e b, s.dev.ready = 5 → s.ethernet a.port = true → s.dbg.frozen = false → a.flag = true →
      s.classify a.port (frameKey a.bytes) = some e → let qia := (s.entryWord e 3).toNat
      qia ≠ 0 → qia % 128 = 0 → s.regionAt qia = .hbm → s.xlatFault qia = none → s.errorAt (s.queueDom qia) qia = none →
      (s.qctl (.mem qia)).requeue = false → (s.qctl (.mem qia)).frozen = 0 → s.queueCode (.mem qia) (s.queueDom qia) = 0 → s.block? (.mem qia) = some (b, false) → 0 < b.free →
      (s.qctl (.mem qia)).pushW = [] → 16 + a.bytes.length ≤ b.esz →
      gives .frameArrival fun t => (t.qctl (.mem qia)).pushes.length = (s.qctl (.mem qia)).pushes.length + 1) ∧
    (∀ n b ia, s.dev.ready = 5 → s.dbg.frozen = false → a.port < 2 → s.ethernet a.port = true → (∀ n, n < 64 → s.txCorrupt n = false) →
      (∀ k, k < 64 → k ≠ n → s.txReady a.port k = false) → n < 64 → s.txReady a.port n = true → s.txHead n = some (b, ia) →
      60 ≤ s.leIA (ia + 8) 8 / 2 ^ 48 → s.leIA (ia + 8) 8 / 2 ^ 48 ≤ 9216 → s.leIA (ia + 8) 8 / 4 % 2 ^ 46 = 0 →
      (s.leIA (ia + 8) 8).testBit 1 = false → 16 + s.leIA (ia + 8) 8 / 2 ^ 48 ≤ b.esz →
      s.txLost (s.queueDom (s.txQueue n)) ia b.esz = false →
      (∃ u, s.txRead (s.queueDom (s.txQueue n)) ia b.esz = some u ∧ (u.l2? (s.txQueue n / 128)).isSome) → b.head + 1 < 2 ^ 64 → gives .frameTransmit fun t => t.dev.sent.length = s.dev.sent.length + 1) ∧
    (s.ethernet a.port = true → gives .ptpEventTimestamp fun t => t.ptp.stamps.length = s.ptp.stamps.length + 1) ∧
    (s.ptp.ever = false → s.ptp.servo = true → gives .ptpFirstLock fun t => t.ptp.ever = true ∧ t.dtime = a.v.toNat) ∧
    (s.ptp.servo = true → gives .ptpServoUpdate fun t => t.ptp.offs = a.word32) ∧
    gives .ptpMasterLoss (fun t => t.ptp.lock = false)

/-- O22. Conversions (R123-R126, R129): CVT, CVTQ and CVTD convert the value and each tangent component alike, and raise
the flags of all of them; PACK and UNPK move bits, component by component. -/
def Obligations.Conversions : Prop :=
  ∀ (f : FR) (s : State) (c : Ctx),
    let all (fn : Nat → Nat × FFlags) : Dual × FFlags :=
      ({ v := BitVec.ofNat 64 (fn 0).1, t := (List.range c.k).map fun j => BitVec.ofNat 64 (fn (j + 1)).1 },
        (List.range (c.k + 1)).foldl (fun x j => x ||| (fn j).2) 0)
    let slot := Slot.ofWord (c.l.slot f.subn)
    (s.ready (Instr.cvt f).form = some c → ∃ t, exec (.cvt f) s = .next t ∧
      c.WroteLanes t fun i => all fun j => cvtF c.ty f.subn c.rnd c.ftz (c.opx.testBit 0) ((c.src 0 i).comp j).toNat) ∧
    (s.ready (Instr.cvtq f).form = some c → ∃ t, exec (.cvtq f) s = .next t ∧
      c.WroteLanes t fun i => all fun j => cvtqLane slot c.sel (fun l => ((c.src 0 l).comp j).toNat) i) ∧
    (s.ready (Instr.cvtd f).form = some c → ∃ t, exec (.cvtd f) s = .next t ∧
      c.WroteLanes t fun i => all fun j => slot.decodeScaled ((c.src 0 i).comp j).toNat) ∧
    (s.ready (Instr.pack f).form = some c → ∃ t, exec (.pack f) s = .next t ∧
      c.WroteLanes t fun i => all fun j => ((packWords c.ty ((c.src 0 i).comp j) ((c.src 1 i).comp j)).toNat, 0)) ∧
    (s.ready (Instr.unpk f).form = some c → ∃ t, exec (.unpk f) s = .next t ∧
      c.WroteLanes t fun i => all fun j => ((unpkWord c.ty ((c.src 1 i).w.toNat % 8) ((c.src 0 i).comp j)).toNat, 0))

/-- O23. Transcendentals (R46, R127): the word retires, its destination becomes empty and keeps its values, and one
result is pending that holds, for the selected lanes, the function of a with its tangents, and the flags. Without a
selected lane nothing happens. LONG_LATENCY_COMPLETE (R46): a pending result is written in its lanes, its registers
become full, and its flags are raised in the group and in its launch (R109). -/
def Obligations.Transcendentals : Prop :=
  (∀ (f : FR) (s : State) (c : Ctx),
     ∀ p ∈ ([(.exp2 f, .exp2), (.log2 f, .log2), (.rcp f, .rcp), (.rsqrt f, .rsqrt), (.sqrt f, .sqrt), (.sin f, .sin),
         (.cos f, .cos), (.tanh f, .tanh)] : List (Instr × TFn)),
       s.ready p.1.form = some c →
       let r (i : Nat) := fTrans p.2 c.k c.ftz (c.src 0 i)
       let o := c.opnd 3
       (c.sel = 0 → ∃ t, exec p.1 s = .next t ∧ c.Nothing t) ∧
       (c.sel ≠ 0 → ∃ t h x, exec p.1 s = .next t ∧ c.Only t h ∧ c.Passed h ∧
         h.longs = c.g.longs ++ [x] ∧ x.id = s.fresh ∧ x.sel = c.sel ∧ x.flags = c.flagsOf r ∧
         (∀ m j i, o.scal = false → o.num ≤ m → m < o.num + o.n → j ≤ c.l.ktan → i < 64 →
           ∃ y, Map.get? x.writes (m + 128 * j) = some y ∧ y.at i = c.newV o (c.laneResult r) m j i) ∧
         (∀ m j, o.scal = true → o.num < 64 → o.num ≤ m → m < o.num + o.n → j ≤ c.l.ktan →
           Map.get? x.swrites (m + 64 * j) = some (c.newS o (c.laneResult r) m j)) ∧
         (∀ n, h.emptyV.contains n = (c.g.emptyV.contains n || (!o.scal && decide (o.num ≤ n) && decide (n < o.num + o.n)))) ∧
         (∀ n, h.emptyS.contains n
           = (c.g.emptyS.contains n || (o.scal && decide (o.num < 64) && decide (o.num ≤ n) && decide (n < o.num + o.n)))) ∧
         h.vregs = c.g.vregs ∧ h.sregs = c.g.sregs ∧ h.masks = c.g.masks ∧ h.flags = c.g.flags)) ∧
  (∀ (s : State) (w : Workgroup) (g : Group) (x : Long), s.wg? s.arg.wg = some w → w.group? s.arg.grp = some g →
     g.longs.find? (fun y => y.id == s.arg.acc) = some x → x.writes.Pairwise (fun a b => a.1 ≠ b.1) →
     x.swrites.Pairwise (fun a b => a.1 ≠ b.1) →
     ∃ t h, exec .longLatencyComplete s = .next t ∧ t.group? s.arg.wg s.arg.grp = some h ∧
       (∀ k y i, (k, y) ∈ x.writes → i < 64 →
         (Map.look (Lanes.const 0) h.vregs k).at i
           = if x.sel.getLsbD i then y.at i else (Map.look (Lanes.const 0) g.vregs k).at i) ∧
       (∀ k, (∀ p ∈ x.writes, p.1 ≠ k) → Map.look (Lanes.const 0) h.vregs k = Map.look (Lanes.const 0) g.vregs k) ∧
       (∀ k y, (k, y) ∈ x.swrites → Map.look 0 h.sregs k = y) ∧
       (∀ k, (∀ p ∈ x.swrites, p.1 ≠ k) → Map.look 0 h.sregs k = Map.look 0 g.sregs k) ∧
       (∀ n, h.emptyV.contains n = (g.emptyV.contains n && !x.dests.contains (false, n))) ∧
       (∀ n, h.emptyS.contains n = (g.emptyS.contains n && !x.dests.contains (true, n))) ∧
       h.longs = g.longs.filter (fun y => y.id != x.id) ∧ h.flags = g.flags ||| x.flags ∧ t.mem = s.mem ∧
       ∀ l, s.launch? w.lid = some l → ∃ l', t.launch? w.lid = some l' ∧ l'.flags = l.flags ||| x.flags)

/-! ### Cross-lane words -/

/-- O24. Lane exchanges and BALLOT (R90-R92): every selected lane takes the value of the lane that it names, selected or
not; BALLOT gathers one bit of each selected lane into the scalar pair d. TOPK (R128): every selected lane takes its
rank among the selected lanes, or 0xFFFFFFFF where that is k or more, k being b capped at 64; the mask of field c takes
the ranked lanes; NV where a ranked lane holds a NaN. -/
def Obligations.LaneExchanges : Prop :=
  (∀ (f : FR) (s : State) (c : Ctx),
     (s.ready (Instr.shfl f).form = some c → ∃ t, exec (.shfl f) s = .next t ∧ c.WroteLanes t fun i =>
       let b := (c.src 1 i).w.toNat
       (c.src 0 (match c.mods 0 2 with
         | 0 => b % 64
         | 1 => if b ≤ i then i - b else i
         | 2 => if i + b ≤ 63 then i + b else i
         | _ => i ^^^ (b % 64)), 0)) ∧
     (s.ready (Instr.bcast f).form = some c → ∃ t, exec (.bcast f) s = .next t ∧
       c.WroteLanes t fun i => (c.src 0 ((c.src 1 i).w.toNat % 64), 0)) ∧
     (s.ready (Instr.perm f).form = some c → ∃ t, exec (.perm f) s = .next t ∧
       c.WroteLanes t fun i => (c.src (if (c.src 1 i).w.getLsbD 6 then 2 else 0) ((c.src 1 i).w.toNat % 64), 0)) ∧
     (s.ready (Instr.ballot f).form = some c → ∃ t, exec (.ballot f) s = .next t ∧
       c.WroteValue t fun _ => Mask.of fun i => c.sel.getLsbD i && (c.src 0 i).w != 0)) ∧
  (∀ (f : FR) (s : State) (c : Ctx), s.ready (Instr.topk f).form = some c → c.sel ≠ 0 →
     let k := min 64 (c.scalar 1).toNat
     let key (i : Nat) := topkKey c.ty (c.opx.testBit 0) (c.src 0 i).w.toNat
     let rank (i : Nat) : Nat := ((List.range 64).filter fun j => c.sel.getLsbD j && topkAhead j (key j) i (key i)).length
     let r (i : Nat) : Dual := { v := if rank i < k then BitVec.ofNat 64 (rank i) else 0xFFFFFFFF }
     ∃ t, exec (.topk f) s = .next t ∧ c.Gives t (c.newV (c.opnd 3) r) (c.newS (c.opnd 3) r)
       (c.setM f.cn (Mask.of fun i => c.sel.getLsbD i && decide (rank i < k)) c.g.mask)
       (if c.sel.lanes.any fun i => decide (rank i < k) && (key i).isNone then fNV else 0))

/-- O25. Reductions and scans (R93-R95): REDUX combines the selected lanes in the fixed binary tree; SCAN and SEGSCAN
run over the selected lanes in ascending order, SEGSCAN starting anew at the heads of mask c and carrying through the
scalar b; SEGRED gives every lane the value at the last lane of its segment. -/
def Obligations.ReductionsAndScans : Prop :=
  ∀ (f : FR) (s : State) (c : Ctx),
    let at_ (x : Scan) (i : Nat) : Dual := (Map.get? x.out i).getD {}
    (s.ready (Instr.redux f).form = some c → ∃ t, exec (.redux f) s = .next t ∧
      c.Wrote t (fun _ => (c.treeNode 6 0).1.getD {}) (c.treeNode 6 0).2) ∧
    (s.ready (Instr.scan f).form = some c → ∃ t, exec (.scan f) s = .next t ∧
      let x := c.scan none (fun _ => false) c.excl
      c.Wrote t (at_ x) x.flags) ∧
    (∀ p ∈ ([(.segscan f, c.excl, fun (x : Scan) i => at_ x i),
          (.segred f, false, fun (x : Scan) i =>
            let seg := (Map.get? x.segs i).getD 0
            at_ x (((x.segs.filter fun p => p.2 == seg).map (·.1)).foldl max 0))] : List (Instr × Bool × (Scan → Nat → Dual))),
      s.ready p.1.form = some c →
      let x := c.segScan p.2.1
      ∃ t, exec p.1 s = .next t ∧ c.Gives t (c.newV (c.opnd 3) (p.2.2 x))
        (fun m j => if c.sel ≠ 0 ∧ m = f.bn ∧ j ≤ c.l.ktan then wordPart 0 ((x.acc.getD {}).out c.k j) else c.oldS m j)
        c.g.mask x.flags)

/-! ### Paired words -/

/-- O26. Paired words (R54-R57): both halves compute from the registers as they stand before the word, half A writing
even registers and half B odd ones, in the lanes that EXEC selects; the word's flags are those of both halves. It holds
for every half A that is not long-latency beside such a half B. What the halves compute (R56, R57): an integer or bit
half acts on the 32-bit words of d and of its second source, imm8 sign-extended under I = 1; a shift count of 32 or more
shifts everything out. -/
def Obligations.PairedShort : Prop :=
  (∀ (x : HalfArgs) (y : HalfWord) (s : State) (c : Ctx),
     ∀ p ∈ ([(.hnop x y, .hnop), (.halfFadd x y, .fadd), (.halfFsub x y, .fsub), (.halfFmul x y, .fmul), (.halfFmin x y, .fmin),
         (.halfFmax x y, .fmax), (.halfFrsub x y, .frsub), (.halfIadd x y, .iadd), (.halfIsub x y, .isub), (.halfImul x y, .imul),
         (.halfImin x y, .imin), (.halfImax x y, .imax), (.halfIrsub x y, .irsub), (.halfAnd x y, .and), (.halfOr x y, .or),
         (.halfXor x y, .xor), (.halfAndn x y, .andn), (.halfShl x y, .shl), (.halfShr x y, .shr), (.halfSra x y, .sra),
         (.halfMov x y, .mov)] : List (Instr × HalfOp)),
       y.op.long = false → s.ready p.1.form = some c →
       let a (i : Nat) := c.halfLane 0 p.2 x i
       let b (i : Nat) := c.halfLane 1 y.op y.args i
       let fl (op : HalfOp) (r : Nat → Dual × FFlags) : BitVec 5 :=
         if op = .hnop then 0 else c.sel.lanes.foldl (fun f i => f ||| (r i).2) 0
       ∃ t, exec p.1 s = .next t ∧ c.Gives t
         (fun m j i =>
           if c.sel.getLsbD i = true ∧ j ≤ c.l.ktan ∧ p.2 ≠ .hnop ∧ m = 2 * x.d.toNat then wordPart 0 ((a i).1.out c.k j)
           else if c.sel.getLsbD i = true ∧ j ≤ c.l.ktan ∧ y.op ≠ .hnop ∧ m = 2 * y.args.d.toNat + 1 then wordPart 0 ((b i).1.out c.k j)
           else c.oldV m j i) c.oldS c.g.mask (fl p.2 a ||| fl y.op b)) ∧
  (∀ (h : HalfMode) (d s : Dual),
     let x := d.w
     let y := s.w
     (∀ p ∈ ([(.and, x &&& y), (.or, x ||| y), (.xor, x ^^^ y), (.andn, x &&& ~~~ y),
         (.shl, if 32 ≤ y.toNat then 0 else x <<< y.toNat), (.shr, if 32 ≤ y.toNat then 0 else x >>> y.toNat),
         (.sra, if 32 ≤ y.toNat then (if x.msb then BitVec.allOnes 32 else 0) else x.sshiftRight y.toNat),
         (.imul, x * y)] : List (HalfOp × Word)),
       (halfFn p.1 h d s).1.w = p.2 ∧ (halfFn p.1 h d s).2 = 0 ∧ (halfFn p.1 h d s).1.t = []) ∧
     (h.sat = false → (halfFn .iadd h d s).1.w = x + y ∧ (halfFn .isub h d s).1.w = x - y ∧ (halfFn .irsub h d s).1.w = y - x) ∧
     (h.signed = true → (halfFn .imin h d s).1.w = (if x.sle y then x else y) ∧ (halfFn .imax h d s).1.w = (if x.sle y then y else x)) ∧
     (h.signed = false → (halfFn .imin h d s).1.w = (if x.ule y then x else y) ∧ (halfFn .imax h d s).1.w = (if x.ule y then y else x)))

/-- O27. Paired words with a long-latency half, in either place beside any short half (R46, R55, R57): the short half
writes at once and raises its flags. The result of a transcendental half, the function of R127 with its tangents, is
pending in an empty register. A half LDS, with room in the scratchpad counter and every offset aligned, inside SPAD and
free of poison, has captured, for every selected lane and plane, the word at (I ? 0 : a) + 4 × imm8; its register is
empty and the counter has risen. Without a selected lane a paired word changes nothing. -/
def Obligations.PairedLong : Prop :=
  ∀ (x : HalfArgs) (y : HalfWord) (s : State) (c : Ctx),
    ∀ p ∈ ([(.hnop x y, .hnop), (.halfFadd x y, .fadd), (.halfFsub x y, .fsub), (.halfFmul x y, .fmul), (.halfFmin x y, .fmin),
        (.halfFmax x y, .fmax), (.halfFrsub x y, .frsub), (.halfIadd x y, .iadd), (.halfIsub x y, .isub), (.halfImul x y, .imul),
        (.halfImin x y, .imin), (.halfImax x y, .imax), (.halfIrsub x y, .irsub), (.halfAnd x y, .and), (.halfOr x y, .or),
        (.halfXor x y, .xor), (.halfAndn x y, .andn), (.halfShl x y, .shl), (.halfShr x y, .shr), (.halfSra x y, .sra),
        (.halfMov x y, .mov), (.halfExp2 x y, .exp2), (.halfLog2 x y, .log2), (.halfRcp x y, .rcp), (.halfRsqrt x y, .rsqrt),
        (.halfSqrt x y, .sqrt), (.halfSin x y, .sin), (.halfCos x y, .cos), (.halfTanh x y, .tanh), (.halfLds x y, .lds)]
        : List (Instr × HalfOp)),
      s.ready p.1.form = some c →
      (c.sel = 0 → ∃ t, exec p.1 s = .next t ∧ c.Nothing t) ∧
      (c.sel ≠ 0 → ∀ n op a sh b, ((n, op, a, sh, b) = (0, p.2, x, y.op, y.args) ∨ (n, op, a, sh, b) = (1, y.op, y.args, p.2, x)) →
        sh.long = false →
        let d := 2 * a.d.toNat + n
        let short (i : Nat) := c.halfLane (1 - n) sh b i
        let same (h : Group) : Prop := c.Passed h ∧ h.sregs = c.g.sregs ∧ h.masks = c.g.masks ∧ h.joins = c.g.joins ∧
          c.g.SameSpecial h ∧ h.emptyS = c.g.emptyS ∧ (∀ m, h.emptyV.contains m = (c.g.emptyV.contains m || m == d)) ∧
          h.flags = c.g.flags ||| (if sh = .hnop then 0 else c.sel.lanes.foldl (fun f i => f ||| (short i).2) 0) ∧
          ∀ m j i, m < 128 → i < 64 → (h.v m j).at i =
            if c.sel.getLsbD i = true ∧ j ≤ c.l.ktan ∧ sh ≠ .hnop ∧ m = 2 * b.d.toNat + (1 - n) then wordPart 0 ((short i).1.out c.k j)
            else c.oldV m j i
        (∀ fn, (op, fn) ∈ ([(.exp2, .exp2), (.log2, .log2), (.rcp, .rcp), (.rsqrt, .rsqrt), (.sqrt, .sqrt), (.sin, .sin),
            (.cos, .cos), (.tanh, .tanh)] : List (HalfOp × TFn)) →
          ∃ t h z, exec p.1 s = .next t ∧ c.Only t h ∧ same h ∧ h.accs = c.g.accs ∧ h.longs = c.g.longs ++ [z] ∧
            z.dests = [(false, d)] ∧ z.sel = c.sel ∧
            ∀ j i, j ≤ c.l.ktan → i < 64 → c.sel.getLsbD i = true → ∃ l, Map.get? z.writes (d + 128 * j) = some l ∧
              l.at i = wordPart 0 ((fTrans fn c.k (a.mod5.getLsbD 1) (c.halfSrc n op a i)).1.out c.k j)) ∧
        (op = .lds → c.g.ctrFull 1 = false →
          let as := c.spadAddrs c.sel.lanes c.k (c.halfOff n a)
          c.checkSpad as 4 4 = none → (∀ a ∈ as, isPoisoned c.w.spadBad a.va.toNat 4 = false) →
          ∃ t h z, exec p.1 s = .next t ∧ c.Only t h ∧ same h ∧ h.longs = c.g.longs ∧ h.accs = c.g.accs ++ [z] ∧ z.kind = .lds ∧
            z.dest = some { num := d } ∧ h.ctr 1 = c.g.ctr 1 ++ [(z.id, false)] ∧
            z.parts.map (fun p => (p.lane, p.plane, p.va)) = as.map (fun a => (a.lane, a.plane, a.va.toNat)) ∧
            (c.l.det = false → z.parts.map (·.res) = as.map fun a => c.w.spad.le a.va.toNat 4)))

/-! ### Control flow -/

/-- O28. BRA and BRC in both forms (R178, R179): without a lane of T the word falls through, with T = F the whole
fragment goes to the target, and else the fragment splits: the lanes outside T keep the entry and fall through, those of
T take the lowest free entry at the target. EXEC is cut with F, and no register, mask or flag changes. Where the split
table is full the fragment takes FRAGOVF with the number of entries needed. CALL, RET, JMPI and CALLI (R180, R181): CALL
sets LINK to the word behind it, RET goes to LINK; JMPI and CALLI send every lane of F to the target that its own source
names, bits [2:0] ignored, in one fragment for each target, which holds all lanes of F with that target; where the split
table does not hold them the first part that finds no entry takes FRAGOVF, and in a handler a split is illegal (R335). -/
def Obligations.ControlTransfer : Prop :=
  (∀ (f : FR) (g : FI) (s : State) (c : Ctx),
     ∀ i ∈ [Instr.bra g, .braReg f, .brc g, .brcReg f], s.ready i.form = some c →
       let same (h : Group) : Prop := c.g.SameRegs h ∧ c.g.SameSpecial h
       (c.taken = 0 → ∃ t h, exec i s = .next t ∧ c.Near t h ∧ c.Passed h ∧ same h) ∧
       (c.taken = c.f.f → c.taken ≠ 0 → ∃ t h x, exec i s = .next t ∧ c.Near t h ∧ same h ∧ h.frag? c.ent = some x ∧
         x.pc = c.target ∧ x.f = c.f.f ∧ x.exec = c.f.exec ∧ x.link = c.f.link ∧ (∀ e, e ≠ c.ent → h.frag? e = c.g.frag? e)) ∧
       (c.taken ≠ 0 → c.taken ≠ c.f.f → c.g.frags.length < 16 → ∀ n, c.g.freeEntry = some n →
         ∃ t h x y, exec i s = .next t ∧ c.Near t h ∧ same h ∧ h.frag? c.ent = some x ∧ h.frag? n = some y ∧
           x.pc = c.pc + 8 ∧ x.f = c.f.f &&& ~~~ c.taken ∧ x.exec = c.f.exec &&& ~~~ c.taken ∧ x.link = c.f.link ∧
           y.pc = c.target ∧ y.f = c.taken ∧ y.exec = c.f.exec &&& c.taken ∧ y.link = c.f.link ∧ y.fid = s.fresh ∧
           (∀ e, e ≠ c.ent → e ≠ n → h.frag? e = c.g.frag? e)) ∧
       (c.taken ≠ 0 → c.taken ≠ c.f.f → 16 ≤ c.g.frags.length →
         exec i s = .next (s.trap c.w.run c.g.grp c.ent c.tpc c.tpc 5 (BitVec.ofNat 64 (c.g.frags.length + 1)) c.taken))) ∧
  (∀ (f : FR) (g : FI) (s : State) (c : Ctx),
     let goes (i : Instr) (pc link : DWord) : Prop := ∃ t h x, exec i s = .next t ∧ c.Near t h ∧ h.frag? c.ent = some x ∧ x.pc = pc ∧
       x.link = link ∧ x.f = c.f.f ∧ x.exec = c.f.exec ∧ (∀ e, e ≠ c.ent → h.frag? e = c.g.frag? e) ∧
       c.g.SameRegs h ∧ c.g.SameSpecial h
     (∀ i ∈ [Instr.call g, .callReg f], s.ready i.form = some c → goes i c.target (c.pc + 8)) ∧
     (s.ready (Instr.ret f).form = some c → goes (.ret f) (c.f.link &&& ~~~ 7) c.f.link) ∧
     let target (i : Nat) : DWord := (c.src 0 i).v &&& ~~~ 7
     (∀ p ∈ [(Instr.jmpi f, c.f.link), (.calli f, c.pc + 8)], s.ready p.1.form = some c → c.f.f ≠ 0 →
       c.g.frags.length + c.parts.length ≤ 17 → (c.g.trap = none ∨ c.parts.length ≤ 1) →
       ∃ t h, exec p.1 s = .next t ∧ c.Near t h ∧ c.g.SameRegs h ∧ c.g.SameSpecial h ∧
         (∃ entry : DWord → Nat, ∀ i, i < 64 → c.f.f.getLsbD i = true → ∃ x, h.frag? (entry (target i)) = some x ∧ x.pc = target i ∧
           x.f = Mask.of (fun j => c.f.f.getLsbD j && target j == target i) ∧ x.exec = c.f.exec &&& x.f ∧ x.link = p.2) ∧
         (∀ e x, h.frag? e = some x → e ≠ c.ent → (∃ y, c.g.frag? e = some y) → c.g.frag? e = some x)) ∧
     (∀ i ∈ [Instr.jmpi f, .calli f], s.ready i.form = some c →
       (∀ x, c.g.trap = none → c.parts[16 - c.g.frags.length + 1]? = some x → exec i s
         = .next (s.trap c.w.run c.g.grp c.ent c.tpc c.tpc 5 (BitVec.ofNat 64 (c.g.frags.length + c.parts.length - 1)) x.2)) ∧
       (c.g.trap ≠ none → 1 < c.parts.length → exec i s = .next (s.trap c.w.run c.g.grp c.ent c.tpc c.tpc 1 10 c.sel))))

/-- O29. Joins (R182-R184): JSET releases the fragments that sleep at the join with a lost join, then loads the
expectation and clears the arrivals. JOIN adds F to the arrivals; while they do not cover the expectation its fragment
sleeps there, and once they do the sleepers fuse with it, in order of arrival, into the entry of the first, behind its
JOIN and with its LINK, and the join is cleared. JARV adds F and goes on; where the arrivals then cover the expectation
the waiting fragments, without it, fuse in the same way and the join is cleared. No register, mask or flag changes. -/
def Obligations.Joins : Prop :=
  ∀ (f : FR) (s : State) (c : Ctx),
    let n := f.dn % 8
    let arr := (c.g.join n).arr ||| c.f.f
    let full : Prop := (c.g.join n).exp &&& ~~~ arr = 0
    let same (h : Group) : Prop := h.vregs = c.g.vregs ∧ h.sregs = c.g.sregs ∧ h.masks = c.g.masks ∧ h.flags = c.g.flags
      ∧ ∀ m, m < 8 → m ≠ n → h.join m = c.g.join m
    let asleep (e : Nat) (rest : List Nat) (y : Frag) : Prop :=
      c.g.sleepers n = e :: rest ∧ c.g.frag? e = some y ∧ e ∉ rest ∧ c.ent ∉ e :: rest
    let fused (h : Group) (e : Nat) (rest : List Nat) (y : Frag) (lanes exec : Mask) : Prop :=
      (∃ x, h.frag? e = some x ∧ x.st = .ready ∧ x.pc = y.pc + 8 ∧ x.link = y.link ∧
        x.f = (rest.filterMap c.g.frag?).foldl (fun m z => m ||| z.f) y.f ||| lanes ∧
        x.exec = (rest.filterMap c.g.frag?).foldl (fun m z => m ||| z.exec) y.exec ||| exec) ∧
      ∀ k, k ≠ e → k ≠ c.ent → h.frag? k = if k ∈ rest then none else c.g.frag? k
    let goesOn (h : Group) : Prop :=
      ∃ x, h.frag? c.ent = some x ∧ x.pc = c.pc + 8 ∧ x.f = c.f.f ∧ x.exec = c.f.exec ∧ x.link = c.f.link
    let clear (h : Group) : Prop := (h.join n).exp = 0 ∧ (h.join n).arr = 0
    (s.ready (Instr.jset f).form = some c →
      (c.g.sleepers n = [] → ∃ t h, exec (.jset f) s = .next t ∧ c.Near t h ∧ c.Passed h ∧ same h ∧ c.g.SameSpecial h ∧
        (h.join n).exp = c.g.mask f.an ∧ (h.join n).arr = 0) ∧
      (∀ e rest y, asleep e rest y → ∃ t h l, exec (.jset f) s = .next t ∧ c.Near t h ∧ goesOn h ∧ fused h e rest y 0 0 ∧ same h ∧
        c.g.SameSpecial { h with lostj := c.g.lostj } ∧ h.lostj = true ∧ t.launch? c.w.lid = some l ∧ l.lostj = true ∧
        (h.join n).exp = c.g.mask f.an ∧ (h.join n).arr = 0)) ∧
    (s.ready (Instr.join f).form = some c →
      (¬ full → ∃ t h x, exec (.join f) s = .next t ∧ c.Near t h ∧ same h ∧ c.g.SameSpecial h ∧ h.frag? c.ent = some x ∧
        x.st = .join n s.fresh ∧ x.pc = c.pc ∧ x.f = c.f.f ∧ x.exec = c.f.exec ∧ x.link = c.f.link ∧
        (∀ e, e ≠ c.ent → h.frag? e = c.g.frag? e) ∧ (h.join n).arr = arr ∧ (h.join n).exp = (c.g.join n).exp) ∧
      (full → c.g.sleepers n = [] → c.f.pc = c.pc → ∃ t h, exec (.join f) s = .next t ∧ c.Near t h ∧ c.Passed h ∧ same h ∧
        c.g.SameSpecial h ∧ clear h) ∧
      (full → ∀ e rest y, asleep e rest y → ∃ t h, exec (.join f) s = .next t ∧ c.Near t h ∧ same h ∧ c.g.SameSpecial h ∧
        fused h e rest y c.f.f c.f.exec ∧ h.frag? c.ent = none ∧ clear h)) ∧
    (s.ready (Instr.jarv f).form = some c →
      (¬ full → ∃ t h, exec (.jarv f) s = .next t ∧ c.Near t h ∧ c.Passed h ∧ same h ∧ c.g.SameSpecial h ∧
        (h.join n).arr = arr ∧ (h.join n).exp = (c.g.join n).exp) ∧
      (full → c.g.sleepers n = [] → ∃ t h, exec (.jarv f) s = .next t ∧ c.Near t h ∧ c.Passed h ∧ same h ∧
        c.g.SameSpecial h ∧ clear h) ∧
      (full → ∀ e rest y, asleep e rest y → ∃ t h, exec (.jarv f) s = .next t ∧ c.Near t h ∧ goesOn h ∧
        fused h e rest y 0 0 ∧ same h ∧ c.g.SameSpecial h ∧ clear h))

/-- O30. Waiting words (R150, R187): NOP does nothing; SLEEP in both forms sleeps until DTIME has advanced by its count,
and with 0 or under a pre-emption request goes on at once; YIELD gives its turn away; WAITC goes on once its counter is
down to the operand and else stalls. None changes a register. -/
def Obligations.WaitingWords : Prop :=
  ∀ (f : FR) (g : FI) (s : State) (c : Ctx),
    let now := (s.dtime + s.skews.getD (coreDie c.w.core) 0) % 2 ^ 64
    let sleeps (i : Instr) (st : FragSt) : Prop := ∃ t h x, exec i s = .next t ∧ c.Only t h ∧ h.frag? c.ent = some x ∧ x.st = st ∧
      x.pc = c.pc + 8 ∧ x.f = c.f.f ∧ x.exec = c.f.exec ∧ x.link = c.f.link ∧ c.g.SameRegs h ∧ c.g.SameSpecial h ∧
      ∀ e, e ≠ c.ent → h.frag? e = c.g.frag? e
    (s.ready (Instr.nop f).form = some c → ∃ t, exec (.nop f) s = .next t ∧ c.Nothing t) ∧
    (∀ p ∈ [(Instr.sleep f, (c.scalar 0).toNat), (.sleepImm g, g.imm.toNat)], s.ready p.1.form = some c →
      (p.2 = 0 ∨ c.w.life = .draining → ∃ t, exec p.1 s = .next t ∧ c.Nothing t) ∧
      (p.2 ≠ 0 → c.w.life ≠ .draining → sleeps p.1 (.sleep (now + p.2)))) ∧
    (s.ready (Instr.yield f).form = some c → sleeps (.yield f) (.yield s.cyc s.cyc)) ∧
    (s.ready (Instr.waitc f).form = some c →
      (c.sel = 0 ∨ (c.g.ctr (f.mods 0 2)).length ≤ (c.scalar 0).toNat → ∃ t, exec (.waitc f) s = .next t ∧ c.Nothing t) ∧
      (c.sel ≠ 0 → (c.scalar 0).toNat < (c.g.ctr (f.mods 0 2)).length → ∃ t, exec (.waitc f) s = .next t ∧
        c.Only t (c.g.putFrag c.ent { c.f with st := .waitc (f.mods 0 2), kept := s.cursor.words })))

/-! ### Memory words -/

/-- O31. Loads (R145, R146, R153, R160): with every selected lane's address in a readable range, aligned, outside the
copy aperture in every plane and unwatched (LDU's for every selected lane), and room in its counter, LD and LDU send one
access with a part for each lane and plane (LDU one for the lowest lane), at the base plus the lane's offset; LDS, outside
deterministic mode, captures the scratchpad's bytes. The destination is empty meanwhile with its values as they were, the
counter has risen, and memory does not change. Where the checks find a trap the word takes it before any effect (R154);
the checks come in the order PLANE, MISALIGN, RANGE, and for the scratchpad MISALIGN, SPADB, and name the lanes concerned
in TMASK, and the address, plane and reason of the lowest in TINFO (R341, R346; for PLANE log 12 follows R346). -/
def Obligations.Loads : Prop :=
  (∀ (c : Ctx) (as : List LaneAddr) (n size : Nat) (need : Need) (hostOk : Bool), (∀ a ∈ as, a.lane < 64) →
    let wraps (a : LaneAddr) : Prop := a.va < 0 ∨ (2 ^ 64 : Int) ≤ a.va
    let askew (a : LaneAddr) : Prop := a.va % (n : Int) ≠ 0
    let takes (o : Option Out) (code : Nat) (why : LaneAddr → Option Nat) : Prop := ∃ info mask, o = some (.trap code info mask) ∧
      (∀ i, i < 64 → (mask.getLsbD i = true ↔ ∃ a ∈ as, a.lane = i ∧ why a ≠ none)) ∧
      ∃ a ∈ as, ∃ r, why a = some r ∧ a.lane = c.g.lowLane mask ∧ info = fields [(0, (a.va % 2 ^ 57).toNat), (57, a.plane), (60, r)]
    ((∃ a ∈ as, wraps a) → takes (c.checkGlobal as n size need hostOk) 0x12 fun a => if a.va < 0 ∨ (2 ^ 64 : Int) ≤ a.va then some 0 else none) ∧
    ((∀ a ∈ as, ¬ wraps a) →
      ((∃ a ∈ as, askew a) → takes (c.checkGlobal as n size need hostOk) 0x06 fun a => if a.va % (n : Int) ≠ 0 then some 0 else none) ∧
      ((∀ a ∈ as, ¬ askew a) →
        ((∃ a ∈ as, c.l.violation need size hostOk a.va ≠ none) →
          takes (c.checkGlobal as n size need hostOk) 0x07 fun a => c.l.violation need size hostOk a.va) ∧
        ((∀ a ∈ as, c.l.violation need size hostOk a.va = none) → c.checkGlobal as n size need hostOk = none))) ∧
    ((∃ a ∈ as, askew a) → takes (c.checkSpad as n size) 0x06 fun a => if a.va % (n : Int) ≠ 0 then some 0 else none) ∧
    ((∀ a ∈ as, ¬ askew a) →
      ((∃ a ∈ as, (c.l.spad : Int) < a.va + size) →
        takes (c.checkSpad as n size) 0x08 fun a => if (c.l.spad : Int) < a.va + size then some 0 else none) ∧
      ((∀ a ∈ as, a.va + size ≤ (c.l.spad : Int)) → c.checkSpad as n size = none))) ∧
  ∀ (f : FR) (g : FI) (s : State) (c : Ctx), c.sel ≠ 0 →
    let sent (i : Instr) (kind : AccKind) (ctr : Nat) (lanes : List (Nat × Nat × Nat)) (ok : Access → Prop) : Prop :=
      ∃ t h a, exec i s = .next t ∧ c.groupIn t = some h ∧ c.Passed h ∧ c.g.SameRegs h ∧ c.g.SameSpecial h ∧ c.Beside t ∧
        c.WgBut t id ∧ t.homes = s.homes ∧ h.accs = c.g.accs ++ [a] ∧ ok a ∧ a.kind = kind ∧ a.dest = c.dest ∧ a.fid = c.f.fid ∧ a.ty = c.memTy ∧ a.parts.map (fun p => (p.lane, p.plane, p.va)) = lanes ∧
        (∀ p ∈ a.parts, p.size = c.bytes) ∧ h.ctr ctr = c.g.ctr ctr ++ [(a.id, false)] ∧
        (∀ p, p ≠ ctr → p < 4 → h.ctr p = c.g.ctr p) ∧
        (∀ d, c.dest = some d → ∀ v n, h.full v n = (c.g.full v n && !(v == d.scal && decide (d.num ≤ n) && decide (n < d.num + d.n))))
    let traps (i : Instr) (o : Option Out) : Prop := ∀ code info mask, o = some (.trap code info mask) →
      exec i s = .next (s.trap c.w.run c.g.grp c.ent c.tpc c.tpc code info mask)
    (∀ p ∈ [(Instr.ld f, false), (.ldImm g, false), (.ldu f, true), (.lduImm g, true)], s.ready p.1.form = some c →
      c.g.ctrFull 0 = false →
      let lanes := if p.2 then [c.low] else c.sel.lanes
      let as := c.globAddrs lanes c.k c.va
      (∀ i ∈ lanes, inAperture (c.va i) = false) → planeInAperture as = false → c.checkGlobal as c.bytes c.bytes .read = none →
      c.watchpoint (if p.2 then c.globAddrs c.sel.lanes c.k (fun _ => c.va c.low) else as) c.bytes true false = none →
      sent p.1 .load 0 (as.map fun a => (a.lane, a.plane, a.va.toNat)) fun _ => True) ∧
    (∀ p ∈ [(Instr.ld f, false), (.ldImm g, false), (.ldu f, true), (.lduImm g, true)], s.ready p.1.form = some c →
      let lanes := if p.2 then [c.low] else c.sel.lanes
      let as := c.globAddrs lanes c.k c.va
      (∀ i ∈ lanes, inAperture (c.va i) = false) → planeInAperture as = false → traps p.1 (c.checkGlobal as c.bytes c.bytes .read)) ∧
    (∀ i ∈ [Instr.lds f, .ldsImm g], s.ready i.form = some c →
      let as := c.spadAddrs c.sel.lanes c.k c.spadOff
      traps i (c.checkSpad as c.bytes c.bytes) ∧
      (c.g.ctrFull 1 = false → c.checkSpad as c.bytes c.bytes = none → (∀ a ∈ as, isPoisoned c.w.spadBad a.va.toNat c.bytes = false) →
        sent i .lds 1 (as.map fun a => (a.lane, a.plane, a.va.toNat)) fun a =>
          c.l.det = false → a.parts.map (·.res) = as.map fun a => c.w.spad.le a.va.toNat c.bytes))

/-- O32. Stores (R145-R147, R153, R160, R173): under the same conditions a relaxed ST of a mode that holds nothing sends
one access whose parts carry the low bytes of field d, plane by plane, in ascending lane order, and memory changes only
when its home applies it; in a holding mode with room in the reserve the stores are held by the workgroup, one access
waiting for the acceptance of those whose translation is not yet known (R361). STS writes exactly the bytes at its
lanes' offsets, in lane order. Where the checks find a trap the word takes it before any effect (R154). -/
def Obligations.Stores : Prop :=
  ∀ (f : FR) (g : FI) (s : State) (c : Ctx), c.sel ≠ 0 →
    let traps (i : Instr) (o : Option Out) : Prop := ∀ code info mask, o = some (.trap code info mask) →
      exec i s = .next (s.trap c.w.run c.g.grp c.ent c.tpc c.tpc code info mask)
    (∀ i ∈ [Instr.st f, .stImm g], s.ready i.form = some c → c.ord ≠ 2 →
      let as := c.globAddrs c.sel.lanes c.k c.va
      (∀ i ∈ c.sel.lanes, inAperture (c.va i) = false) → planeInAperture as = false → traps i (c.checkGlobal as c.bytes c.bytes .write) ∧ (c.checkGlobal as c.bytes c.bytes .write = none →
      c.watchpoint as c.bytes false true = none →
      (c.l.holds = false → ∃ t h a, exec i s = .next t ∧ c.groupIn t = some h ∧ c.Passed h ∧ c.g.SameRegs h ∧ c.g.SameSpecial h ∧
        c.Beside t ∧ c.WgBut t id ∧ t.homes = s.homes ∧ h.accs = c.g.accs ++ [a] ∧ a.kind = .store ∧ a.dest = none ∧
        a.parts.map (fun p => (p.lane, p.plane, p.va, p.size, p.dat))
          = as.map (fun a => (a.lane, a.plane, a.va.toNat, c.bytes, c.datum a.lane a.plane c.bytes)) ∧
        h.emptyV = c.g.emptyV ∧ h.emptyS = c.g.emptyS) ∧
      (c.l.holds = true → c.holdFull (as.length * c.bytes) = false → ∃ t h w, exec i s = .next t ∧ c.groupIn t = some h ∧
        c.Passed h ∧ c.g.SameRegs h ∧ c.g.SameSpecial h ∧ c.Beside t ∧ c.WgBut t (fun w => { w with held := c.w.held }) ∧
        (∃ xs : List Access, h.accs = c.g.accs ++ xs ∧ xs.length ≤ 1 ∧ ∀ x ∈ xs, x.kind = .accept 1 ∧ x.dest = none ∧ x.fid = c.f.fid) ∧
        t.wg? c.w.run = some w ∧
        w.held.map (fun x => (x.grp, x.ia, x.size, x.dat)) = c.w.held.map (fun x => (x.grp, x.ia, x.size, x.dat))
          ++ as.map (fun a => (c.g.grp, c.l.iaOf a.va.toNat, c.bytes, c.datum a.lane a.plane c.bytes))))) ∧
    (∀ i ∈ [Instr.sts f, .stsImm g], s.ready i.form = some c →
      let as := c.spadAddrs c.sel.lanes c.k c.spadOff
      traps i (c.checkSpad as c.bytes c.bytes) ∧ (c.l.det = false → c.checkSpad as c.bytes c.bytes = none →
      ∃ t h w, exec i s = .next t ∧ c.groupIn t = some h ∧ c.Passed h ∧ c.g.SameRegs h ∧ c.g.SameSpecial h ∧ c.Beside t ∧
        c.WgBut t (fun w => { w with spad := c.w.spad, spadBad := c.w.spadBad }) ∧ h.accs = c.g.accs ∧ t.wg? c.w.run = some w ∧
        w.spad = as.foldl (fun m a => m.setLe a.va.toNat c.bytes (c.datum a.lane a.plane c.bytes)) c.w.spad ∧
        (∀ x, (∀ a ∈ as, ¬ (a.va.toNat ≤ x ∧ x < a.va.toNat + c.bytes)) → w.spad.byte x = c.w.spad.byte x)))

/-- O33. PREF, WAITM and FENCE (R149, R151, R162): PREF sends one access for the readable lines of its lanes and writes
nothing; WAITM on a line that the core's L1 holds sleeps as a monitor with its time limit, and under a pre-emption
request ends with code 4, where its sector is not poisoned; a FENCE whose accesses are complete goes on, an acquiring
one dropping the core's UT lines, and any other waits. -/
def Obligations.MemoryWaits : Prop :=
  ∀ (f : FR) (g : FI) (s : State) (c : Ctx), c.sel ≠ 0 →
    (∀ i ∈ [Instr.pref f, .prefImm g], s.ready i.form = some c → (∀ i ∈ c.sel.lanes, inAperture (c.va i) = false) →
      let good := c.sel.lanes.filter fun i => (c.l.violation .read 1 true (c.va i)).isNone
      (good = [] → ∃ t, exec i s = .next t ∧ c.Nothing t) ∧
      (good ≠ [] → ∃ t h a, exec i s = .next t ∧ c.Only t h ∧ c.Passed h ∧ h.accs = c.g.accs ++ [a] ∧ a.kind = .pref ∧ a.dest = none ∧
        a.parts.map (fun p => (p.lane, p.va, p.size)) = good.map (fun i => (i, c.va i / 128 * 128, 128)) ∧
        c.g.SameRegs h ∧ c.g.SameSpecial h ∧ h.emptyV = c.g.emptyV ∧ h.emptyS = c.g.emptyS)) ∧
    (s.ready (Instr.waitm f).form = some c → inAperture (c.base c.low) = false → c.l.det = false →
      let a : LaneAddr := { lane := c.low, plane := 0, va := (c.base c.low) }
      let p := c.part { a with va := ((c.base c.low) / 16 * 16 : Nat) } 16 0 0
      let now := (s.dtime + s.skews.getD (coreDie c.w.core) 0) % 2 ^ 64
      c.checkGlobal [a] 1 1 .read = none →
      c.watchpoint (c.globAddrs c.sel.lanes 0 fun _ => c.base c.low / 16 * 16) 16 true false = none →
      (c.w.life = .draining → s.badIA p.ia 16 = false → ∃ t, exec (.waitm f) s = .next t ∧ c.WroteValue t fun _ => 4) ∧
      (c.w.life ≠ .draining → s.badIA p.ia 16 = false → (∃ x, c.l.rangeOf (c.base c.low) = some x ∧ x.ut = false) →
        cacheHit (s.core c.w.core).l1 now p.ia = none → ∃ t, exec (.waitm f) s = .next t ∧ c.WroteValue t fun _ => 2) ∧
      (c.w.life ≠ .draining → cacheHit (s.core c.w.core).l1 now p.ia ≠ none → ∃ t h b x, exec (.waitm f) s = .next t ∧
        c.Only t h ∧ h.accs = c.g.accs ++ [b] ∧ b.kind = .waitm ∧ b.parts = [p] ∧ h.frag? c.ent = some x ∧ x.pc = c.pc + 8 ∧ x.f = c.f.f ∧ x.exec = c.f.exec ∧
        c.g.SameRegs h ∧ c.g.SameSpecial h ∧ (∀ e, e ≠ c.ent → h.frag? e = c.g.frag? e) ∧
        x.st = .waitm b.id (if (c.scalar 1).toNat = 0 then none else some (now + (c.scalar 1).toNat)))) ∧
    (s.ready (Instr.fence f).form = some c →
      let done := (c.ord = 1 ∨ c.released c.scope = true) ∧ (c.ord = 2 ∨ c.g.drained = true)
      (done → ∃ t h, exec (.fence f) s = .next t ∧ c.groupIn t = some h ∧ c.Passed h ∧ c.g.SameRegs h ∧
        c.g.SameSpecial h ∧ c.Beside t ∧ c.WgBut t id ∧ h.accs = c.g.accs ∧
        (c.ord ≠ 2 → ∀ x ∈ (t.core c.w.core).l1, x.ut = false)) ∧
      (¬ done → ∃ t, exec (.fence f) s = .next t ∧ c.Only t (c.g.putFrag c.ent { c.f with st := .fence, kept := s.cursor.words })))

/-- O34. Atomics (R167-R170, R173): outside the holding modes ATOM and RED send one access with a part for each selected
lane that carries the operand and CAS's compare value, ATOM's with room in counter G making its destination empty; RED
of a holding mode is held, and no RED makes a register empty. ATOMS updates the scratchpad at once, lane after lane in ascending order, and captures the
old values, its destination empty; lanes that `.COMM` combines all take the value before (R171). The update of an atomic (R169): add wraps to
the width of its type, minimum and maximum take the type's sign, the bit operations act bit by bit, swap takes the
operand and compare-and-swap takes it where the old value equals the compare value. -/
def Obligations.Atomics : Prop :=
  (∀ (f : FR) (s : State) (c : Ctx), c.work ≠ [] → c.ord ≠ 2 →
     let n := atomBytes c.atomTy
     let as := c.globAddrs c.work 0 c.va
     let ok := (∀ i ∈ c.work, inAperture (c.va i) = false) ∧ c.checkGlobal as n n .write
         ((c.subn == 0 || c.subn == 6 || c.subn == 7) && decide (c.atomTy ≤ 3)) = none ∧ ∀ ret, c.watchpoint as n ret true = none
     let parts := as.map fun a => (a.lane, a.va.toNat, n, (c.atomData a.lane).1, (c.atomData a.lane).2)
     let empties (v : Bool) (n : Nat) : Bool := c.dest.any fun d => v == d.scal && decide (d.num ≤ n) && decide (n < d.num + d.n)
     (∀ p ∈ [(Instr.atom f, true), (.red f, false)], s.ready p.1.form = some c → ok → c.l.holds = false →
       (p.2 = true → c.g.ctrFull 0 = false) →
       ∃ t h a, exec p.1 s = .next t ∧ c.groupIn t = some h ∧ c.Passed h ∧ c.g.SameRegs h ∧ c.g.SameSpecial h ∧ c.Beside t ∧
         c.WgBut t id ∧ t.homes = s.homes ∧ h.accs = c.g.accs ++ [a] ∧ a.kind = .atomic c.subn c.atomTy p.2 (c.mods 1 1 == 1) ∧
         a.dest = (if p.2 then c.dest else none) ∧ a.parts.map (fun q => (q.lane, q.va, q.size, q.dat, q.cmp)) = parts ∧
         h.ctr 0 = (if p.2 then c.g.ctr 0 ++ [(a.id, false)] else c.g.ctr 0) ∧
         (∀ v n, h.full v n = (c.g.full v n && !(p.2 && empties v n)))) ∧
     (s.ready (Instr.red f).form = some c → ok → c.l.holds = true → c.holdFull (as.length * n) = false →
       ∃ t h w, exec (.red f) s = .next t ∧ c.groupIn t = some h ∧ c.Passed h ∧ c.g.SameRegs h ∧ c.g.SameSpecial h ∧ c.Beside t ∧
         c.WgBut t (fun w => { w with held := c.w.held }) ∧
         (∃ xs : List Access, h.accs = c.g.accs ++ xs ∧ xs.length ≤ 1 ∧ ∀ x ∈ xs, x.kind = .accept 4 ∧ x.dest = none ∧ x.fid = c.f.fid) ∧
         t.wg? c.w.run = some w ∧ w.held.map (fun x => (x.ia, x.size, x.dat, x.red)) = c.w.held.map (fun x => (x.ia, x.size, x.dat, x.red))
           ++ as.map (fun a => (c.l.iaOf a.va.toNat, n, (c.atomData a.lane).1, some (c.subn, c.atomTy)))) ∧
     (s.ready (Instr.atoms f).form = some c → c.l.det = false →
       let as := c.spadAddrs c.work 0 c.spadOff
       c.checkSpad as n n = none → c.g.ctrFull 1 = false → (∀ a ∈ as, isPoisoned c.w.spadBad a.va.toNat n = false) →
       let run := as.foldl (fun (x : Memory × List Nat) a =>
         let old := x.1.le a.va.toNat n
         (x.1.setLe a.va.toNat n (atomNew c.subn c.atomTy old (c.atomData a.lane).1 (c.atomData a.lane).2), x.2 ++ [old])) (c.w.spad, [])
       ∃ t h w a, exec (.atoms f) s = .next t ∧ c.groupIn t = some h ∧ c.Passed h ∧ c.g.SameRegs h ∧ c.g.SameSpecial h ∧ c.Beside t ∧
         c.WgBut t (fun w => { w with spad := c.w.spad, spadBad := c.w.spadBad }) ∧ t.wg? c.w.run = some w ∧
         h.accs = c.g.accs ++ [a] ∧ a.kind = .lds ∧ a.dest = c.dest ∧ h.ctr 1 = c.g.ctr 1 ++ [(a.id, false)] ∧
         (∀ v n, h.full v n = (c.g.full v n && !empties v n)) ∧ a.parts.map (·.lane) = c.work ∧ (c.spadTrees as = [] → w.spad = run.1 ∧ a.parts.map (·.res) = run.2) ∧
         (∀ u ∈ c.spadTrees as, ∀ off, (∀ i x, as[i]? = some x → (x.va.toNat = off ↔ i ∈ combLeaves u)) →
           (∀ (i : Nat) x q, i ∈ combLeaves u → as[i]? = some x → q ∈ a.parts → q.lane = x.lane → q.res = c.w.spad.le off n) ∧
           w.spad.le off n = atomNew c.subn c.atomTy (c.w.spad.le off n)
             (combValue c.subn c.atomTy (fun i => ((as[i]?).map fun x => (c.atomData x.lane).1).getD 0) u) 0))) ∧
  (∀ (ty old x cmp : Nat), ty ≤ 3 →
     let w := 8 * atomBytes ty
     old < 2 ^ w → x < 2 ^ w → cmp < 2 ^ w →
     let i (a : Nat) : Int := if ty % 2 = 0 ∧ 2 ^ (w - 1) ≤ a then (a : Int) - 2 ^ w else a
     w = (if ty ≤ 1 then 32 else 64) ∧
     atomNew 0 ty old x cmp = (old + x) % 2 ^ w ∧
     i (atomNew 1 ty old x cmp) = min (i old) (i x) ∧ i (atomNew 2 ty old x cmp) = max (i old) (i x) ∧
     (∀ b, (atomNew 3 ty old x cmp).testBit b = (old.testBit b && x.testBit b) ∧
       (atomNew 4 ty old x cmp).testBit b = (old.testBit b || x.testBit b) ∧
       (atomNew 5 ty old x cmp).testBit b = (old.testBit b != x.testBit b)) ∧
     atomNew 6 ty old x cmp = x ∧ atomNew 7 ty old x cmp = (if old = cmp then x else old))

/-! ### Queues and barriers -/

/-- O35. Queue words (R207-R215, R220). QBIND binds a memory queue or takes the binding away; QINIT writes the fresh
control block of a local queue into the scratchpad, QINIT.MEM sends the fresh block of a memory queue as one store of
its line. At a sound queue that no one waits for: QPUSH with room reserves an element for each lane and ends with status
0, and under `.TRY` with every lane in its mask; QPOP with the elements there is granted them and waits for its slots;
QSTAT reads a field of the block. -/
def Obligations.QueueWords : Prop :=
  ∀ (f : FR) (s : State) (c : Ctx) (q : QKey) (b : QBlock), c.sel ≠ 0 → (∀ a ∈ c.g.accs, a.id < s.fresh) →
    let v := c.atController q
    let k := c.work.length
    let kept (h : Group) : Prop := c.Passed h ∧ c.g.SameRegs h ∧ c.g.SameSpecial h
    let apart (t : State) : Prop := ∀ r n x, (r ≠ c.w.run ∨ n ≠ c.g.grp) → s.group? r n = some x →
      ∃ y, t.group? r n = some y ∧ x.SameRegs y ∧ x.SameSpecial y ∧ y.frags = x.frags
    let lines (t : State) : Prop :=
      (∀ x, (∀ ia, q = .mem ia → ¬ (v.key ia ≤ x ∧ x < v.key ia + 128)) → t.mem.byte x = s.mem.byte x) ∧
      (∀ r n a, q = .loc r n → v.locBlock r n = some (c.w, a) → ∃ w, t.wg? c.w.run = some w ∧
        ∀ x, (x < a ∨ a + 128 ≤ x) → (x < b.base ∨ b.base + b.slots * b.esz ≤ x) → w.spad.byte x = c.w.spad.byte x) ∧
      apart t
    let sound := c.queueKey = some q ∧ c.blockError q = none ∧ (c.l.redn = false ∨ ∃ r n, q = .loc r n) ∧ c.blockReady q = true ∧ c.arriveCode v q = 0 ∧
      v.block? q = some (b, false) ∧ (v.qctl q).pushW = [] ∧ (v.qctl q).popW = [] ∧ (s.qctl q).requeue = false
    (s.ready (Instr.qbind f).form = some c →
      (f.an = 64 → ∃ t w h, exec (.qbind f) s = .next t ∧ t.wg? c.w.run = some w ∧ c.groupIn t = some h ∧ kept h ∧
        c.Beside t ∧ c.WgBut t (fun w => { w with binds := c.w.binds }) ∧
        w.binds = c.w.binds.set ((c.objn - 16) % 16) none (Nat.mod_lt _ (by decide))) ∧
      (f.an ≠ 64 → (c.scalar 0).toNat % 128 = 0 → ∀ ia, c.l.blockAt (c.scalar 0).toNat = some ia →
        ∃ t w h, exec (.qbind f) s = .next t ∧ t.wg? c.w.run = some w ∧ c.groupIn t = some h ∧ kept h ∧
          c.Beside t ∧ c.WgBut t (fun w => { w with binds := c.w.binds }) ∧
          w.binds = c.w.binds.set ((c.objn - 16) % 16) (some ia) (Nat.mod_lt _ (by decide)))) ∧
    (s.ready (Instr.qinit f).form = some c → ∀ lslot lesz, qinitCfg (c.scalar 2).toNat = some (lslot, lesz) → c.objn < 16 →
      let a := (c.scalar 0).toNat
      let e := (c.scalar 1).toNat
      a % 128 = 0 → e % 128 = 0 → a + 128 ≤ c.l.spad → e + 2 ^ lslot * 2 ^ lesz ≤ c.l.spad →
      (s.qctl (.loc c.w.run c.objn)).pushW = [] → (s.qctl (.loc c.w.run c.objn)).popW = [] →
      (s.qctl (.loc c.w.run c.objn)).pushes = [] →
      ∃ t h w, exec (.qinit f) s = .next t ∧ c.groupIn t = some h ∧ kept h ∧ apart t ∧ t.mem = s.mem ∧ t.bad = s.bad ∧
        t.dev = s.dev ∧ t.wg? c.w.run = some w ∧ (∀ x, (x < a ∨ a + 128 ≤ x) → w.spad.byte x = c.w.spad.byte x) ∧
        w.bars = c.w.bars ∧ w.binds = c.w.binds ∧ w.accum = c.w.accum ∧ w.cell = c.w.cell ∧ w.held = c.w.held ∧
        t.block? (.loc c.w.run c.objn) = some (QBlock.fresh (cfgOf lslot lesz true false 0xFF) e, false)) ∧
    (s.ready (Instr.qinitMem f).form = some c → ∀ lslot lesz ia r, qinitCfg (c.scalar 2).toNat = some (lslot, lesz) →
      c.l.blockAt (c.scalar 0).toNat = some ia → c.l.rangeOf (c.scalar 1).toNat = some r → (c.scalar 0).toNat % 128 = 0 →
      (c.scalar 1).toNat % 128 = 0 → r.r = true → r.w = true →
      (c.scalar 1).toNat + 2 ^ lslot * 2 ^ lesz ≤ r.base + r.size →
      ∃ t h a p, exec (.qinitMem f) s = .next t ∧ c.groupIn t = some h ∧ kept h ∧ c.Beside t ∧ c.WgBut t id ∧ h.accs = c.g.accs ++ [a] ∧
        a.kind = .qinit ∧ a.parts = [p] ∧ p.ia = ia ∧ p.size = 128 ∧ p.dat = leNat (QBlock.fresh
          (cfgOf lslot lesz false (region (r.iaOf (c.scalar 1).toNat) != .hbm) (homeDie (s.slices c.l.dom) ia))
          (r.iaOf (c.scalar 1).toNat)).bytes) ∧
    (s.ready (Instr.qpush f).form = some c → sound → c.released (queueScope q) = true → c.mods 3 1 = 0 → b.lesz = 3 →
      k ≤ b.slots → k ≤ b.free → c.l.det = false → f.bn < 64 →
      ∃ t h a o, exec (.qpush f) s = .next t ∧ c.groupIn t = some h ∧ c.Passed h ∧ h.s f.bn 0 = 0 ∧
        (∀ m j, m < 64 → m ≠ f.bn → h.s m j = c.g.s m j) ∧ h.vregs = c.g.vregs ∧ h.joins = c.g.joins ∧
        h.masks = (if c.mods 0 2 = 1 then (c.g.setMask (c.mods 5 3) (if c.sh.s then BitVec.allOnes 64 else Mask.of c.work.contains)).masks
          else c.g.masks) ∧
        h.flags = c.g.flags ∧ c.g.SameSpecial h ∧ lines t ∧ a ∈ h.accs ∧
        a.kind = .push ∧ a.q = some o ∧ o.granted = true ∧ o.seq = b.resv ∧ o.lanes = c.work ∧
        o.data = c.work.map (fun i => (c.src 0 i).v.toNat)) ∧
    (s.ready (Instr.qpop f).form = some c → sound → c.g.ctrFull 3 = false → c.mods 3 1 = 0 → b.lesz = 3 → k ≤ b.slots →
      (v.qctl q).pop = none → b.ppend = false → k ≤ b.tail - b.head →
      ∃ t h a o x, exec (.qpop f) s = .next t ∧ c.groupIn t = some h ∧ c.g.SameRegs h ∧ c.g.SameSpecial h ∧ lines t ∧
        h.frag? c.ent = some x ∧ x.st = .queue a.id ∧ a ∈ h.accs ∧
        a.kind = .pop ∧ a.acq = true ∧ a.dest = c.dest ∧ a.q = some o ∧ o.granted = true ∧ o.seq = b.head ∧ o.lanes = c.work ∧
        h.ctr 3 = c.g.ctr 3 ++ [(a.id, false)]) ∧
    (s.ready (Instr.qstat f).form = some c → sound → f.dn + 1 < 64 →
      ∃ t h, exec (.qstat f) s = .next t ∧ c.groupIn t = some h ∧ c.Passed h ∧ h.vregs = c.g.vregs ∧ h.masks = c.g.masks ∧
        h.joins = c.g.joins ∧ h.flags = c.g.flags ∧ c.g.SameSpecial h ∧ lines t ∧
        (∀ m j, m < 64 → m ≠ f.dn → m ≠ f.dn + 1 → h.s m j = c.g.s m j) ∧
        let x : DWord := BitVec.ofNat 64 (match c.subn with
          | 0 => b.head | 1 => b.tail | 2 => b.resv | 3 => b.cfg | 4 => b.base | 5 => b.free | 6 => b.wait | _ => b.chk)
        h.s f.dn 0 = DWord.lo x ∧ h.s (f.dn + 1) 0 = DWord.hi x)

/-- O36. Barriers (R223-R227). BINIT sets the expected counts, clears the arrivals and keeps the phase, and with no
members or more than 255 takes the object-use trap; BARV whose group has nothing outstanding arrives at once with one
member and its bytes; BWAIT whose condition holds writes the phase with status 0, and one whose condition does not hold
sleeps at the barrier, or under a pre-emption request ends with status 1. Phases of a barrier (R223, R224): an arrival
adds its members and bytes, saturating; while both counts then cover the expected ones the phase advances by one and
they are taken off; with no expectation no phase ends. -/
def Obligations.Barriers : Prop :=
  (∀ (f : FR) (s : State) (c : Ctx), c.sel ≠ 0 →
     let n := c.objn
     let b := c.w.bar n
     let form := c.mods 0 2
     let a := (c.scalar 0).setWidth 32
     let e := if form = 2 then (c.scalar 2).setWidth 32 else 0
     let kept (h : Group) : Prop := (∀ m j, m < 64 → m ≠ f.bn → h.s m j = c.g.s m j) ∧ h.vregs = c.g.vregs ∧ h.masks = c.g.masks ∧
       h.joins = c.g.joins ∧ h.flags = c.g.flags ∧ c.g.SameSpecial h
     (s.ready (Instr.binit f).form = some c → (c.scalar 0).toNat ≠ 0 → (c.scalar 0).toNat ≤ 255 →
       ∃ t w h, exec (.binit f) s = .next t ∧ t.wg? c.w.run = some w ∧ c.groupIn t = some h ∧ c.Passed h ∧ c.g.SameRegs h ∧
         c.g.SameSpecial h ∧ c.Beside t ∧ c.WgBut t (fun w => { w with bars := c.w.bars }) ∧
         w.bar n = { phase := b.phase, expm := (c.scalar 0).toNat, expb := (c.scalar 1).toNat, arvm := 0, arvb := 0 } ∧
         ∀ m, m % 16 ≠ n % 16 → w.bar m = c.w.bar m) ∧
     (s.ready (Instr.binit f).form = some c → (c.scalar 0).toNat = 0 ∨ 255 < (c.scalar 0).toNat →
       exec (.binit f) s = .next (s.trap c.w.run c.g.grp c.ent c.tpc c.tpc 0x09 (fields [(0, 5), (8, n)]) c.sel)) ∧
     (s.ready (Instr.barv f).form = some c → c.g.barvs = [] → c.g.accs.filter Access.outstanding = [] →
       ∃ t w h, exec (.barv f) s = .next t ∧ c.Beside t ∧ t.wg? c.w.run = some w ∧ c.groupIn t = some h ∧ h.vregs = c.g.vregs ∧
         h.masks = c.g.masks ∧ h.joins = c.g.joins ∧ h.flags = c.g.flags ∧ c.g.SameSpecial h ∧ w.spad = c.w.spad ∧
         w.bar n = b.arrive 1 (c.scalar 0).toNat ∧ ∀ m, m % 16 ≠ n % 16 → w.bar m = c.w.bar m) ∧
     (s.ready (Instr.bwait f).form = some c → b.holds form a e = true → f.bn < 64 →
       ∃ t h, exec (.bwait f) s = .next t ∧ c.groupIn t = some h ∧ c.Passed h ∧ c.Beside t ∧ c.WgBut t id ∧
         h.s f.bn 0 = BitVec.ofNat 32 (b.phase.toNat * 65536) ∧ kept h) ∧
     (s.ready (Instr.bwait f).form = some c → b.holds form a e = false → c.l.det = false →
       (c.w.life = .draining → f.bn < 64 → ∃ t h, exec (.bwait f) s = .next t ∧ c.Only t h ∧ c.Passed h ∧ kept h ∧
         h.s f.bn 0 = BitVec.ofNat 32 (b.phase.toNat * 65536 + 1)) ∧
       (c.w.life ≠ .draining → ∃ t h x, exec (.bwait f) s = .next t ∧ c.Only t h ∧ h.frag? c.ent = some x ∧
         x.st = .bwait n form a e f.bn ∧ x.pc = c.pc + 8 ∧ x.f = c.f.f ∧ x.exec = c.f.exec ∧ c.g.SameRegs h ∧
         c.g.SameSpecial h ∧ ∀ e, e ≠ c.ent → h.frag? e = c.g.frag? e))) ∧
  (∀ (b : Barrier) (m n : Nat), b.arvm ≤ 255 → b.arvb < 2 ^ 32 →
     let r := b.arrive m n
     let am := min 255 (b.arvm + m)
     let ab := min (2 ^ 32 - 1) (b.arvb + n)
     r.expm = b.expm ∧ r.expb = b.expb ∧
     (b.expm = 0 ∨ am < b.expm ∨ ab < b.expb → r = { b with arvm := am, arvb := ab }) ∧
     (0 < b.expm → ∃ k, r.phase = b.phase + BitVec.ofNat 16 k ∧ r.arvm + k * b.expm = am ∧ r.arvb + k * b.expb = ab ∧
       (r.arvm < b.expm ∨ r.arvb < b.expb)))

/-! ### Matrix words, gather and scatter, system words -/

/-- O37. Matrix words (R246-R257): with all 64 lanes, a fitting slot pair, rows in the window, the B rows in the cellar
and the A tile in the scratchpad, MMA joins the press queue; MZERO the same for its rows; MFENCE closes the group's open
operations into a batch and returns its number; MWAIT goes on once no batch up to its operand is open; MREAD's columns
are pending in empty registers, with the elements of its rows in the selected lanes and their flags; MSTS writes no byte
outside its tile and raises the flags of its elements; WRACCW moves the window of a group. Rows outside the window take
WINDOW in MREAD and MSTS (R348). Registers other than a destination and memory do not change. -/
def Obligations.MatrixWords : Prop :=
  ∀ (f : FR) (s : State) (c : Ctx), c.sel ≠ 0 →
    let a := (c.scalar 0).toNat
    let b := (c.scalar 1).toNat
    let q := (c.scalar 2).toNat
    let same (h : Group) : Prop := c.g.SameRegs h ∧ c.g.SameSpecial h
    let queued (i : Instr) (ok : PressOp → Prop) : Prop := ∃ t h p, exec i s = .next t ∧ c.groupIn t = some h ∧ c.Passed h ∧
      same h ∧ c.Beside t ∧ c.WgBut t id ∧ (t.core c.w.core).press = (s.core c.w.core).press ++ [p] ∧ p.wg = c.w.run ∧ p.grp = c.g.grp ∧
      p.k = c.k ∧ p.batch = 0 ∧ ok p
    (s.ready (Instr.mma f).form = some c → c.sel = BitVec.allOnes 64 → slotsOk (c.l.slotAt c.subn) (c.l.slotAt (c.subn + 1)) = true →
      c.g.outside a 64 c.k = none →
      (∀ j, j ≤ c.k → q * (c.l.slotAt (c.subn + 1)).bElem + j * c.l.cplane
        + (32 + (c.l.slotAt (c.subn + 1)).blocks 32) * (c.l.slotAt (c.subn + 1)).bElem ≤ c.l.cell * 1024) →
      c.checkTile b (c.l.slotAt c.subn).aBytes = none →
      queued (.mma f) fun p => p.mma = true ∧ p.slot = c.subn ∧ p.row = a ∧ p.count = 64 ∧ p.aoff = b ∧ p.brow = q) ∧
    (s.ready (Instr.mzero f).form = some c → b ≠ 0 → c.g.outside a b c.k = none →
      queued (.mzero f) fun p => p.mma = false ∧ p.row = a ∧ p.count = b) ∧
    (s.ready (Instr.mfence f).form = some c → c.batches.length < 16 → ∃ t h, exec (.mfence f) s = .next t ∧ c.groupIn t = some h ∧
      c.Passed h ∧ c.Beside t ∧ c.WgBut t id ∧ h.vregs = c.g.vregs ∧ h.masks = c.g.masks ∧ h.joins = c.g.joins ∧
      h.flags = c.g.flags ∧ c.g.SameSpecial h ∧
      (∀ m j, m < 64 → h.s m j = c.newS (c.opnd 3) (fun _ => { v := BitVec.ofNat 64 c.g.nextBatch }) m j) ∧
      (t.core c.w.core).press = (s.core c.w.core).press.map fun p =>
        if p.wg = c.w.run ∧ p.grp = c.g.grp ∧ p.batch = 0 then { p with batch := c.g.nextBatch } else p) ∧
    (s.ready (Instr.mwait f).form = some c →
      (∀ n ∈ c.batches, a = 0 ∨ 2 ^ 31 ≤ (a + 2 ^ 32 - n) % 2 ^ 32) → ∃ t, exec (.mwait f) s = .next t ∧ c.Nothing t) ∧
    (s.ready (Instr.mwait f).form = some c → a ≠ 0 → (∃ n ∈ c.batches, (a + 2 ^ 32 - n) % 2 ^ 32 < 2 ^ 31) →
      ∃ t, exec (.mwait f) s = .next t ∧ c.Only t (c.g.putFrag c.ent { c.f with st := .mwait, kept := s.cursor.words })) ∧
    (s.ready (Instr.mread f).form = some c → c.g.outside a 64 c.k = none → b + c.mods 0 3 + 1 ≤ 128 → c.accBusy a = none →
      c.accPoison a b (c.mods 0 3 + 1) c.sel.lanes = false →
      ∃ t h x, exec (.mread f) s = .next t ∧ c.Only t h ∧ c.Passed h ∧ same h ∧ h.emptyS = c.g.emptyS ∧
        h.longs = c.g.longs ++ [x] ∧ x.sel = c.sel ∧ x.swrites = [] ∧
        (∀ i j m, i ≤ c.mods 0 3 → j ≤ c.l.ktan → m < 64 → ∃ y, Map.get? x.writes ((c.opnd 3).num + i + 128 * j) = some y ∧
          y.at m = if c.sel.getLsbD m then (if j ≤ c.k then BitVec.ofNat 32 (c.readCell (c.l.slotAt c.subn) a j (b + i) m).1 else 0)
            else c.oldV ((c.opnd 3).num + i) j m) ∧
        x.flags = (List.range (c.mods 0 3 + 1)).foldl (fun fl i => c.sel.lanes.foldl (fun fl m => fl ||| (List.range (c.k + 1)).foldl
          (fun fl j => fl ||| (c.readCell (c.l.slotAt c.subn) a j (b + i) m).2) 0) fl) 0 ∧
        (∀ n, h.emptyV.contains n = (c.g.emptyV.contains n || (decide ((c.opnd 3).num ≤ n) && decide (n < (c.opnd 3).num + (c.opnd 3).n))))) ∧
    (∀ i ∈ [Instr.mread f, .msts f], s.ready i.form = some c → ∀ r, c.g.outside a 64 c.k = some r →
      exec i s = .next (s.trap c.w.run c.g.grp c.ent c.tpc c.tpc 0x0A (fields [(0, 1), (16, r % 512)]) c.sel)) ∧
    (s.ready (Instr.msts f).form = some c → c.g.outside a 64 c.k = none →
      c.checkTile b (64 * (c.l.slotAt c.subn).mstsRow + 64 * (c.l.slotAt c.subn).blocks 128) = none → c.accBusy a = none →
      c.accPoison a 0 128 (List.range 64) = false → c.l.det = false →
      ∃ t h w, exec (.msts f) s = .next t ∧ c.groupIn t = some h ∧ c.Passed h ∧ h.vregs = c.g.vregs ∧ h.sregs = c.g.sregs ∧
        h.masks = c.g.masks ∧ h.joins = c.g.joins ∧ c.g.SameSpecial h ∧ c.Beside t ∧ t.wg? c.w.run = some w ∧
        c.WgBut t (fun w => { w with spad := c.w.spad, spadBad := c.w.spadBad }) ∧
        (let fl := ((List.range (c.k + 1)).flatMap fun j => (List.range 64).map fun m => (c.mstsLine (c.l.slotAt c.subn) a j m).2.2).foldl
            (fun x y => x ||| y) 0
         h.flags = c.g.flags ||| fl ∧ ∃ l, t.launch? c.w.lid = some l ∧ l.flags = c.l.flags ||| fl) ∧
        ∀ x, (∀ j, j ≤ c.k → ¬ (c.l.planeOff b j ≤ x ∧
            x < c.l.planeOff b j + 64 * (c.l.slotAt c.subn).mstsRow + 64 * (c.l.slotAt c.subn).blocks 128)) →
          w.spad.byte x = c.w.spad.byte x) ∧
    (s.ready (Instr.wraccw f).form = some c → c.g.grp = 0 → a < c.l.ng → c.w.poolBase ≤ b → b + q ≤ c.w.poolBase + c.l.ng * c.l.arows →
      c.groupOps a = [] →
      (∀ g, c.w.group? a = some g → a ≠ 0 →
        ∃ t h x, exec (.wraccw f) s = .next t ∧ t.group? c.w.run a = some h ∧ h = { g with accb := b, accl := q } ∧
          c.groupIn t = some x ∧ c.Passed x ∧ same x ∧ c.Beside t) ∧
      (a = 0 → ∃ t h, exec (.wraccw f) s = .next t ∧ c.groupIn t = some h ∧ h.accb = b ∧ h.accl = q ∧ c.Passed h ∧ c.g.SameRegs h ∧
        c.g.SameSpecial { h with accb := c.g.accb, accl := c.g.accl } ∧ c.Beside t))

/-- O38. Gather and scatter, PROBE and UNPIN (R259-R269): LDX and STX send one access whose parts, at base +
(index << scale), wait in the core's window, which counts their lanes; LDXS and STXS act on the scratchpad; where their
checks find a trap the word takes it before any effect (R265); PROBE of pages that need no pin writes its mask,
a bit for each lane out of range; UNPIN empties the pin set, and waits while an earlier global access, of the kinds that
R361 lists, has neither returned nor been acknowledged; that an earlier PROBE in flight counts among them and a prefetch
does not is the model's choice (log 88). In a holding mode STX's stores are held by the workgroup. -/
def Obligations.GatherWords : Prop :=
  ∀ (f : FR) (s : State) (c : Ctx), c.sel ≠ 0 →
    let as := c.globAddrs c.sel.lanes c.k c.gva
    let sp := c.spadAddrs c.sel.lanes c.k c.gspad
    let same (h : Group) : Prop := c.g.SameRegs h ∧ c.g.SameSpecial h
    let others (t : State) : Prop := t.mem = s.mem ∧ t.bad = s.bad ∧ t.dev = s.dev ∧ ∀ r n x y, s.group? r n = some x →
      t.group? r n = some y → x.SameRegs y ∧ x.SameSpecial y ∧ (r ≠ c.w.run ∨ n ≠ c.g.grp → y.frags = x.frags)
    let windowed (t : State) : Prop := (c.w.run, c.g.grp, s.fresh, c.sel.count * (c.k + 1)) ∈ (t.core c.w.core).window
    let traps (i : Instr) (o : Option Out) : Prop := s.ready i.form = some c → ∀ code info mask, o = some (.trap code info mask) →
      exec i s = .next (s.trap c.w.run c.g.grp c.ent c.tpc c.tpc code info mask)
    traps (.ldx f) (c.gatherCheck false) ∧ traps (.stx f) (c.gatherCheck true) ∧ traps (.ldxs f) (c.checkSpad sp c.bytes c.bytes) ∧
    traps (.stxs f) (c.checkSpad sp c.bytes c.bytes) ∧
    (∀ i, i < 64 → c.gva i = ((((c.scalar 0).toNat : Int) + (c.src 1 i).w.toInt * 2 ^ c.mods 10 3) % 2 ^ 64).toNat) ∧
    (s.ready (Instr.ldx f).form = some c → c.gatherCheck false = none → c.g.ctrFull 2 = false →
      (∀ x ∈ c.g.accs, x.id < s.fresh) → (∀ x ∈ (s.core c.w.core).window, x.2.2.1 < s.fresh) →
      ∃ t h a, exec (.ldx f) s = .next t ∧ c.groupIn t = some h ∧ c.Passed h ∧ same h ∧ others t ∧ t.homes = s.homes ∧ a ∈ h.accs ∧
        windowed t ∧ (∀ p ∈ a.parts, p.st = .window) ∧ a.id = s.fresh ∧ a.kind = .gather ∧ a.dest = c.dest ∧ h.ctr 2 = c.g.ctr 2 ++ [(a.id, false)] ∧
        a.parts.map (fun p => (p.lane, p.plane, p.va, p.size)) = as.map (fun x => (x.lane, x.plane, x.va.toNat, c.bytes))) ∧
    (s.ready (Instr.stx f).form = some c → c.gatherCheck true = none → c.l.holds = false → (∀ x ∈ c.g.accs, x.id < s.fresh) →
      (∀ x ∈ (s.core c.w.core).window, x.2.2.1 < s.fresh) →
      ∃ t h a, exec (.stx f) s = .next t ∧ c.groupIn t = some h ∧ c.Passed h ∧ same h ∧ others t ∧ t.homes = s.homes ∧ a ∈ h.accs ∧
        windowed t ∧ (∀ p ∈ a.parts, p.st = .window) ∧ a.id = s.fresh ∧ a.kind = .scatter ∧ a.parts.map (fun p => (p.lane, p.plane, p.va, p.size, p.dat))
          = as.map (fun x => (x.lane, x.plane, x.va.toNat, c.bytes, c.datum x.lane x.plane c.bytes))) ∧
    (s.ready (Instr.ldxs f).form = some c → c.checkSpad sp c.bytes c.bytes = none → c.g.ctrFull 2 = false →
      (∀ a ∈ sp, isPoisoned c.w.spadBad a.va.toNat c.bytes = false) → c.l.det = false →
      ∃ t h a, exec (.ldxs f) s = .next t ∧ c.Only t h ∧ c.Passed h ∧ same h ∧ h.accs = c.g.accs ++ [a] ∧
        a.kind = .lds ∧ a.dest = c.dest ∧ h.ctr 2 = c.g.ctr 2 ++ [(a.id, false)] ∧
        a.parts.map (fun p => (p.lane, p.plane, p.res)) = sp.map (fun x => (x.lane, x.plane, c.w.spad.le x.va.toNat c.bytes))) ∧
    (s.ready (Instr.stxs f).form = some c → c.checkSpad sp c.bytes c.bytes = none → c.l.det = false →
      ∃ t h w, exec (.stxs f) s = .next t ∧ c.groupIn t = some h ∧ c.Passed h ∧ same h ∧ c.Beside t ∧ t.wg? c.w.run = some w ∧
        c.WgBut t (fun w => { w with spad := c.w.spad, spadBad := c.w.spadBad }) ∧
        w.spad = sp.foldl (fun m a => m.setLe a.va.toNat c.bytes (c.datum a.lane a.plane c.bytes)) c.w.spad) ∧
    (s.ready (Instr.probe f).form = some c → (∀ a ∈ c.g.accs, a.kind ≠ .probe) → c.g.pins.length ≤ 256 →
      let n := 2 ^ c.mods 10 3
      (∀ i, i < 64 → c.sel.getLsbD i = true → c.l.readable (c.gva i) n = true → c.pageStarts (c.gva i) n = []) →
      ∃ t, exec (.probe f) s = .next t ∧ c.Gives t c.oldV c.oldS
        (c.newM f.dn false (fun i => !c.l.readable (c.gva i) n) c.g.mask) 0) ∧
    (s.ready (Instr.stx f).form = some c → c.gatherCheck true = none → c.l.holds = true → c.holdFull (as.length * c.bytes) = false →
      ∃ t h w xs, exec (.stx f) s = .next t ∧ c.groupIn t = some h ∧ c.Passed h ∧ same h ∧ others t ∧ t.homes = s.homes ∧
        t.wg? c.w.run = some w ∧ h.accs = c.g.accs ++ xs ∧ xs.length ≤ 1 ∧ (∀ x ∈ xs, x.kind = .accept 3) ∧
        w.held.map (fun x => (x.grp, x.ia, x.size, x.dat)) = c.w.held.map (fun x => (x.grp, x.ia, x.size, x.dat))
          ++ as.map (fun a => (c.g.grp, c.l.iaOf a.va.toNat, c.bytes, c.datum a.lane a.plane c.bytes))) ∧
    (s.ready (Instr.unpin f).form = some c → (∀ a ∈ c.g.accs, a.kind ≠ .unpin) →
      let settled (a : Access) : Prop := a.glob = false ∨ a.kind = .pref ∨ ∃ x y, a.kind = .trigger x y
      ((∀ a ∈ c.g.accs, settled a) → ∃ t h, exec (.unpin f) s = .next t ∧ c.Only t h ∧ c.Passed h ∧ h.pins = [] ∧ c.g.SameRegs h ∧
        h.accs = c.g.accs) ∧
      ((∃ a ∈ c.g.accs, ¬ settled a) → ∃ t h, exec (.unpin f) s = .next t ∧ c.groupIn t = some h ∧ c.Beside t ∧ same h ∧
        h.pins = c.g.pins))

/-- O39. BKPT, SIGCHK, DX and BECOME (R58, R191, R326, R385): BKPT stops the package behind itself while the debug block
is enabled, and is else a NOP; SIGCHK with the right signature, or in a group of several fragments or in a handler, does
nothing but begin a new signature, and else, whatever EXEC holds (log 11, an inference from R385), takes SIGFAIL with
both values and writes an error record; DX is latched with its count and the next word follows in the same step; BECOME
records each lane's count, 1 for a lane outside EXEC, and sleeps at the regroup. -/
def Obligations.SystemWords : Prop :=
  ∀ (f : FR) (g : FI) (s : State) (c : Ctx),
    (∀ p ∈ [(Instr.bkpt f, (0 : Word)), (.bkptImm g, g.imm)], s.ready p.1.form = some c →
      (s.dbg.en = false ∨ c.sel = 0 → ∃ t, exec p.1 s = .next t ∧ c.Nothing t) ∧
      (s.dbg.en = true → c.sel ≠ 0 → s.dbg.stops.length < 16 → ∃ t h r, exec p.1 s = .next t ∧ c.Only t h ∧ c.Passed h ∧
        c.g.SameRegs h ∧ c.g.SameSpecial h ∧ t.dbg.frozen = true ∧ r ∈ t.dbg.stops ∧ r.getD 1 0 = fields [(60, 1), (0, ((c.pc + 8) &&& 0x1FF_FFFF_FFFF_FFFF).toNat)] ∧
        r.getD 3 0 = c.f.exec ∧ r.getD 6 0 = fields [(32, p.2.toNat)])) ∧
    (s.ready (Instr.sigchk g).form = some c →
      let passes := 2 ≤ c.g.frags.length ∨ c.g.trap ≠ none ∨ (c.g.sig = g.imm ∧ c.f.exec = c.f.shadow)
      (passes → ∃ t h, exec (.sigchk g) s = .next t ∧ c.Only t h ∧ c.Passed h ∧ h.sig = 0xFFFFFFFF ∧ c.g.SameRegs h ∧
        c.g.SameSpecial h) ∧
      (¬ passes → ∃ t h, exec (.sigchk g) s = .next t ∧ c.groupIn t = some h ∧ h.tcode = 0x0F ∧ h.tpc = c.tpc ∧
        h.tinfo = fields [(32, g.imm.toNat), (0, c.g.sig.toNat)] ∧ t.logs.errors.length = s.logs.errors.length + 1)) ∧
    (s.ready (Instr.dx f).form = some c →
      exec (.dx f) s = .next { s with cursor := { s.cursor with dx := some (f.sub.toNat, c.pc), pc := c.pc + 8 } }) ∧
    (s.ready (Instr.become f).form = some c →
      let n (i : Nat) : Nat := if c.f.exec.getLsbD i then (c.src 0 i).w.toNat else 1
      ((∀ i, i < 64 → c.f.f.getLsbD i = true → n i < 2 ^ 24) → ∃ t h x, exec (.become f) s = .next t ∧ c.Only t h ∧
        h.frag? c.ent = some x ∧ x.st = .regroup ((List.range 64).map fun i => if c.f.f.getLsbD i then n i else 0) ∧
        x.f = c.f.f ∧ x.pc = c.f.pc ∧ c.g.SameRegs h ∧ c.g.SameSpecial h ∧ h.sig = 0xFFFFFFFF) ∧
      ((∃ i, i < 64 ∧ c.f.f.getLsbD i = true ∧ 2 ^ 24 ≤ n i) → c.g.trap = none → ∃ t h, exec (.become f) s = .next t ∧
        c.groupIn t = some h ∧ h.tcode = 0x0C ∧ h.tpc = c.tpc))

/-! ### Events: fragments that wake, and what passes with time -/

/-- O40. What wakes a sleeping fragment beside its own event (R151, R175, R185, R187): SLEEP by DTIME and not before,
YIELD after 64 cycles or when every other ready group of the partition has issued, WAITM by its time limit with code 3
(4 under a pre-emption request) and zero in the shadows of its register, where its sector is not poisoned; a group that
is stuck releases the join whose JSET is the oldest, with a lost join; a ready fragment of the reserve takes the lowest
free on-chip entry, or changes places with a sleeper, the lowest on-chip one, or where none sleeps with one that another holds back, which the model
chooses (log 72), as it judges the end of YIELD by the groups that are ready at the check (log 73). What passes with time (R11, R140, R151,
R294, R317): every 256 cycles the ready group that has retired the fewest words of each workgroup of the core becomes
urgent, the lowest GRP of a tie, and no other; a line whose lease has ended leaves L1 and the fetch buffer, and, with no
poison in memory, a fragment that monitors one of its sectors wakes; a copy of another package's line leaves L2 once
LEASE ns have passed since its fill, and not before, the shortest LEASE of the launches that map it being the model's
choice (log 43); the governor withholds the slots of the domains that it is asked to, of one that holds the latency
class only with every other domain's, and changes nothing else. -/
def Obligations.FragmentWakes : Prop :=
  (∀ (s : State) (w : Workgroup) (g : Group), s.wg? s.arg.wg = some w → w.group? s.arg.grp = some g →
     let now := s.now (coreDie w.core)
     let ent := s.arg.ent
     (∀ f, g.frag? ent = some f →
       let woken (i : Instr) (f' : Frag) : Prop := ∃ t, exec i s = .next t ∧ t.mem = s.mem ∧
         t.group? s.arg.wg s.arg.grp = some (g.putFrag ent f')
       (∀ till, f.st = .sleep till → till ≤ now → woken .sleepExpiry { f with st := .ready }) ∧
       (∀ till, f.st = .sleep till → now < till → ∃ t, exec .sleepExpiry s = .next t ∧ t.group? s.arg.wg s.arg.grp = some g) ∧
       (∀ cyc stamp, f.st = .yield cyc stamp →
         (cyc + 64 ≤ s.cyc ∨ ∀ x ∈ s.wgs, x.core = w.core → ∀ h ∈ x.groups, h.part = g.part → (x.run ≠ w.run ∨ h.grp ≠ g.grp) →
           h.ready = true → stamp < h.lastIssue) → woken .yieldExpiry { f with st := .ready }) ∧
       (∀ acc till a p, f.st = .waitm acc (some till) → g.accs.find? (fun a => a.id == acc) = some a → a.parts.head? = some p →
         p.faultOf = none → till ≤ now → s.badIA p.ia 16 = false →
         ∃ t h, exec .waitmTimeout s = .next t ∧ t.mem = s.mem ∧ t.group? s.arg.wg s.arg.grp = some h ∧
           h.frag? ent = some { f with st := .ready } ∧ h.accs = g.accs.filter (fun a => a.id != acc) ∧
           h.vregs = g.vregs ∧ (∀ d, a.dest = some d → d.num < 64 → h.s d.num 0 = (if w.life = .draining then 4 else 3) ∧
             ∀ j, 1 ≤ j → j ≤ s.ktan w → h.s d.num j = 0)) ∧
       (8 ≤ ent → f.wakes g = true → s.detOf w = false ∨ g.swapDue = some ent →
         (∀ e, e < 8 → g.frag? e = none → (∀ k, k < e → (g.frag? k).isSome) →
           ∃ t h, exec .splitTableSwap s = .next t ∧ t.mem = s.mem ∧ t.group? s.arg.wg s.arg.grp = some h ∧ h.frag? e = some f ∧
             h.frag? ent = none ∧ ∀ k, k ≠ e → k ≠ ent → h.frag? k = g.frag? k) ∧
         (∀ e x, (∀ k, k < 8 → (g.frag? k).isSome) →
           (let sleeper := g.frags.find? fun x => decide (x.1 < 8) && x.2.sleeps && !(s.detOf w && x.2.keeps && !g.suspends x.2)
            sleeper = some (e, x) ∨ (sleeper = none ∧ (g.frags.find? fun x => x.1 == ent).any g.heldBack = false ∧
              (g.frags.find? fun x => decide (x.1 < 8) && g.heldBack x) = some (e, x))) →
           ∃ t h, exec .splitTableSwap s = .next t ∧ t.mem = s.mem ∧ t.group? s.arg.wg s.arg.grp = some h ∧ h.frag? e = some f ∧
             h.frag? ent = some x ∧ ∀ k, k ≠ e → k ≠ ent → h.frag? k = g.frag? k))) ∧
     (∀ n e rest y, (∀ x ∈ g.frags, match x.2.st with | .join .. | .bwait .. | .regroup _ => True | _ => False) → n < 8 →
       g.sleepers n = e :: rest → e ∉ rest → g.frag? e = some y →
       (∀ m, m < 8 → m ≠ n → g.sleepers m ≠ [] → (g.join n).ord < (g.join m).ord) →
       ∃ t h x, exec .joinStuckRelease s = .next t ∧ t.mem = s.mem ∧ t.group? s.arg.wg s.arg.grp = some h ∧ h.lostj = true ∧
         h.frag? e = some x ∧ x.pc = y.pc + 8 ∧ x.st = .ready ∧ x.f = (rest.filterMap g.frag?).foldl (fun m z => m ||| z.f) y.f ∧
         (∀ k ∈ rest, h.frag? k = none) ∧ h.vregs = g.vregs ∧ h.sregs = g.sregs ∧ h.masks = g.masks ∧
         (∀ l, s.launch? w.lid = some l → ∃ l', t.launch? w.lid = some l' ∧ l'.lostj = true))) ∧
  (∀ s : State,
     (s.cyc / 256 ≠ (s.core s.arg.core).pred → ∃ t, exec .urgencyPrediction s = .next t ∧ t.mem = s.mem ∧
       ∀ r w, s.wg? r = some w → (if w.core = s.arg.core then
         (w.groups.map (·.grp)).Nodup → ∃ x, t.wg? r = some x ∧ x.groups.map (·.grp) = w.groups.map (·.grp) ∧
           ∀ h ∈ x.groups, h.urgent = true ↔ h.ready = true ∧ ∀ k ∈ x.groups, k.ready = true →
             h.retired < k.retired ∨ (h.retired = k.retired ∧ h.grp ≤ k.grp)
         else t.wg? r = some w)) ∧
     (let core := s.arg.core
      let dead (x : CacheLine) : Bool := x.line == s.arg.line && !x.ut && decide (x.e ≤ s.now (coreDie core))
      (∃ x ∈ (s.core core).l1, dead x = true) → s.Clean →
       ∃ t, exec .leaseExpiry s = .next t ∧ t.mem = s.mem ∧ (t.core core).l1 = (s.core core).l1.filter (fun x => !dead x) ∧
         (t.core core).fetchBuf = (s.core core).fetchBuf.filter (fun x => !dead x) ∧
         (∀ run w grp g ent f acc till a p, s.wg? run = some w → w.core = core → w.group? grp = some g → g.frag? ent = some f →
           f.st = .waitm acc till → g.accs.find? (fun a => a.id == acc) = some a → a.parts.head? = some p → p.faultOf = none →
           p.ia / 128 = s.arg.line → region p.ia = .hbm → (∀ x ∈ g.frags, x.1 ≠ ent → ∀ u, x.2.st ≠ .waitm acc u) →
           ∃ h, t.group? run grp = some h ∧ h.frag? ent = some { f with st := .ready })) ∧
     (∀ x l, s.l2? s.arg.line = some x → s.launches = [l] → (∃ r ∈ l.ranges, r.ia < 128 * x.line + 128 ∧ 128 * x.line < r.ia + r.size) →
       region (128 * x.line) = .package → (∀ y ∈ s.l2, y.line = x.line → y.fillAt = x.fillAt) → ∃ t, exec .remoteLineCopyDrop s = .next t ∧ t.mem = s.mem ∧
         t.l2? s.arg.line = if x.fillAt + l.lease ≤ s.dtime then none else some x) ∧
     (s.serviceRuns = true → ∃ n, exec .powerGovernorAdjust s = .next { s with dev := { s.dev with withheld := n } } ∧
       ∀ d, d < 8 → (n.getLsbD d = true ↔ s.arg.withheld.getLsbD d = true ∧ ((Map.look {} s.dev.domains d).latency = false ∨
         ∀ x ∈ s.dev.domains, x.2.latency = true ∨ s.arg.withheld.getLsbD x.1 = true))))

/-! ### Events of the memory machine (R155-R170) -/

/-- O41. An access on its way (R136, R157, R159-R165, R361, R362). A walk that finds a translation leaves its part
walked, one that does not faults it with the reason of the level; the home's acceptance marks it; a fill reads the bytes
as they stand at the home, overlaid with the group's own held stores, and takes a lease, and a store that arrives joins
its line's queue with completion time max(arrival, H), both with no poison in memory, which a monitor that they wake
could consume; its acknowledgement raises MAXW and ends it; a gather window that closes leaves no part waiting in it.
Memory changes at none of them. LOAD_RETURN (R46, R143, R163, R378): when every part of a load is accepted and served,
its destination takes the values in the lanes of its parts and becomes full, and the counter that counted it alone is 0;
an acquire drops the core's UT lines. A poisoned part is consumed instead: an error record, and outside contained and
redundant mode the workgroup is killed. -/
def Obligations.MemoryPath : Prop :=
  (∀ (s : State) (r : LaneReq), s.lane? s.arg.src = some r → r.w.life ≠ .killed →
     let src := s.arg.src
     let dom := some r.l.dom
     let here (i : Instr) (ok : LaneReq → State → Prop) : Prop := ∃ t q, exec i s = .next t ∧ t.mem = s.mem ∧
       t.lane? src = some q ∧ q.a.kind = r.a.kind ∧ ok q t
     let quiet := ∀ x ∈ r.g.frags, ∀ u, x.2.st ≠ .waitm r.a.id u
     (r.p.st = .issued → r.a.kind ∈ [.load, .store, .gather] →
       (∀ pa, s.l2? (r.p.ia / 128) = none → s.walk s.arg.flag r.p.ia = .ok pa →
         here .translationWalk fun q _ => q.p = { r.p with st := .walked }) ∧
       (∀ why, s.l2? (r.p.ia / 128) = none → s.walk s.arg.flag r.p.ia = .error why →
         here .translationWalk fun q t => q.p = { r.p with st := .faulted why } ∧
           (r.a.kind ≠ .gather → r.a.parts = [r.p] → r.a.recorded = false → r.a.replay = false → r.p.lane < 64 → ∃ x, t.logs.faults = s.logs.faults ++ [(r.l.dom, x)] ∧
             x.getD 1 0 = fields [(60, r.a.kind.recordKind), (56, 0), (52, why), (0, r.p.ia % 2 ^ 52)] ∧
             x.getD 2 0 = BitVec.ofNat 64 r.p.va ∧ x.getD 3 0 = r.g.wid.at r.p.lane ∧ x.getD 4 0 = Mask.bit r.p.lane ∧
             x.getD 5 0 = r.a.pc &&& 0x1FF_FFFF_FFFF_FFFF))) ∧
     (r.p.st = .walked → here .acceptanceArrival fun q _ => q.p = { r.p with accepted := true }) ∧
     (r.p.st = .walked → r.a.kind = .load → s.lineFree r.p.ia = true → r.afterWrites = false → r.afterReads = false →
       s.errorAt dom r.p.ia = none → s.mayRead dom r.p.ia r.p.size 0 r.a.acq = true → s.cutOff dom r.p.ia r.p.size r.a.acq = false →
       s.Clean → quiet →
       here .homeFill fun q t => q.p.st = .served ∧ q.p.res = applyOverlay (s.leIA r.p.ia r.p.size) r.p.size r.p.dat r.p.cmp ∧
         (region r.p.ia = .hbm → r.a.acq = false → s.homeNow dom r.p.ia + r.l.lease + 8 ≤ (t.home (r.p.ia / 128)).h)) ∧
     (r.p.st = .walked → r.a.kind = .store → r.afterOthers = false → (s.home (r.p.ia / 128)).owner = none →
       s.errorAt dom r.p.ia = none → region r.p.ia = .hbm → s.Clean → quiet →
       let w := max (s.homeNow dom r.p.ia) (s.home (r.p.ia / 128)).h
       here .homeWriteArrival fun q t => q.p.st = .queued ∧ q.p.w = w ∧
         (t.home (r.p.ia / 128)).queue = (s.home (r.p.ia / 128)).queue ++ [{ src := src, w := w }]) ∧
     (r.p.st = .served → r.a.kind = .store → r.p.accepted = true → r.a.parts = [r.p] →
       ∃ t h, exec .writeAcknowledgement s = .next t ∧ t.mem = s.mem ∧ t.group? r.w.run r.g.grp = some h ∧
         h.maxw = max r.g.maxw r.p.w ∧ h.accs = r.g.accs.filter (fun a => a.id != r.a.id) ∧ h.frags = r.g.frags) ∧
     (let c := s.core s.arg.core
      c.window ≠ [] → c.windowAt + 32 ≤ s.cyc ∨ 256 ≤ c.window.foldl (fun n x => n + x.2.2.2) 0 →
       ∃ t, exec .gatherWindowClose s = .next t ∧ t.mem = s.mem ∧ (t.core s.arg.core).window = [] ∧
         ∀ run grp acc n, c.window = [(run, grp, acc, n)] → ∀ h a, t.group? run grp = some h → a ∈ h.accs → a.id = acc →
           ∀ p ∈ a.parts, p.st ≠ .window)) ∧
  (∀ (s : State) (w : Workgroup) (g : Group) (l : Launch) (a : Access), s.wg? s.arg.wg = some w → w.group? s.arg.grp = some g →
     s.launch? w.lid = some l → g.accs.find? (fun a => a.id == s.arg.acc) = some a → w.life ≠ .killed →
     a.kind = .load → (∀ p ∈ a.parts, p.st = .done ∨ (p.accepted = true ∧ p.st = .served)) →
     ((∀ p ∈ a.parts, p.bad = false) → ∀ d, a.dest = some d → d.scal = false → d.num + d.n ≤ 128 →
       ∃ t h, exec .loadReturn s = .next t ∧ t.mem = s.mem ∧ t.group? s.arg.wg s.arg.grp = some h ∧
         (∀ m j i, m < 128 → j ≤ l.ktan → i < 64 → (h.v m j).at i =
           if d.num ≤ m ∧ m < d.num + d.n ∧ (∃ p ∈ a.parts, p.lane = i) then wordPart (m - d.num) ((a.value i).out a.k j)
           else (g.v m j).at i) ∧
         (∀ n, h.full false n = (g.full false n || decide (d.num ≤ n ∧ n < d.num + d.n))) ∧ h.sregs = g.sregs ∧
         h.emptyS = g.emptyS ∧ h.accs = g.accs.filter (fun b => b.id != a.id) ∧ h.frags = g.frags ∧
         (∀ k, k < 4 → (∀ x ∈ g.ctr k, x.1 = a.id) → h.ctr k = []) ∧
         (a.acq = true → ∀ x ∈ (t.core w.core).l1, x.ut = false)) ∧
     ((∃ p ∈ a.parts, p.bad = true) → l.cont = false → l.redn = false →
       ∃ t x, exec .loadReturn s = .next t ∧ t.wg? s.arg.wg = some x ∧ x.life = .killed ∧
         t.logs.errors.length = s.logs.errors.length + 1))

/-- O42. HOME_WRITE_APPLY (R157, R169, R170): the oldest request of a line waits for its W; then a store changes exactly
its own bytes, and an atomic replaces the value at its address by the update of R169 and its part takes the old value;
the request leaves the queue. Every other byte of memory stays. An ATOM of which a lane consumes poison changes no memory
(R378). -/
def Obligations.WritesApply : Prop :=
  ∀ (s : State) (r : Req) (rest : List Req) (q : LaneReq), (s.home s.arg.line).queue = r :: rest →
    (s.home s.arg.line).owner = none → s.lane? r.src = some q →
    let p := q.p
    let key := s.key p.ia
    let early := s.homeNow (s.srcDom r.src) (128 * s.arg.line) < r.w
    (early → exec .homeWriteApply s = .next s) ∧
    (¬ early → q.a.kind = .store → p.st = .queued → ∃ t z, exec .homeWriteApply s = .next t ∧ t.lane? r.src = some z ∧ z.p.st = .served ∧
      (t.home s.arg.line).queue = rest ∧
      ∀ a, t.mem.byte a = if key ≤ a ∧ a < key + p.size then BitVec.ofNat 8 (p.dat / 256 ^ (a - key)) else s.mem.byte a) ∧
    (¬ early → ∀ op ty comm n, q.a.kind = .atomic op ty true comm → s.arg.comb = .leaf n → s.spoilt r.src = true →
      ∃ t z, exec .homeWriteApply s = .next t ∧ t.mem = s.mem ∧ t.lane? r.src = some z ∧ z.p.st = .served ∧
        (∃ x ∈ z.a.parts, x.bad = true) ∧ (t.home s.arg.line).queue = rest) ∧
    (¬ early → ∀ op ty ret comm n, q.a.kind = .atomic op ty ret comm → s.arg.comb = .leaf n → s.badIA p.ia (atomBytes ty) = false →
      s.spoilt r.src = false →
      ∃ t z, exec .homeWriteApply s = .next t ∧ t.lane? r.src = some z ∧ z.p.st = .served ∧ z.p.w = r.w ∧
        z.p.res = s.leIA p.ia (atomBytes ty) ∧ (t.home s.arg.line).queue = rest ∧
        t.mem = s.mem.setLe key (atomBytes ty) (atomNew op ty (s.leIA p.ia (atomBytes ty)) p.dat p.cmp) ∧
        ∀ a, a < key ∨ key + atomBytes ty ≤ a → t.mem.byte a = s.mem.byte a)

/-! ### Page faults, errors, translation (R136, R137, R362-R370) -/

/-- O43. Resolution of faults and error responses (R364, R365, R367, R370). A replay command marks exactly the accesses
with a fault in its span, an abort kills the workgroups that own one, with FAULT for their launch; a command given
during a freeze only waits for the resume; a marked access whose record is written sends every lane with a fault again
and its fragment tries its word again; an error response leaves one record with its reason and kills the workgroup. -/
def Obligations.FaultResolution : Prop :=
  ∀ s : State,
    let ia := s.arg.ia
    let large := s.arg.flag
    (s.serviceRuns = true → s.dbg.frozen = true → ∀ p ∈ [(Instr.faultResolveReplay, false), (.faultResolveAbort, true)],
      exec p.1 s = .next { s with dbg := { s.dbg with deferred := s.dbg.deferred ++ [(p.2, ia, large)] } }) ∧
    (s.serviceRuns = true → s.dbg.frozen = false → ∃ t, exec .faultResolveReplay s = .next t ∧ t.mem = s.mem ∧ t.homes = s.homes ∧ t.launches = s.launches ∧
      ∀ run grp g, s.group? run grp = some g → t.group? run grp = some { g with
        accs := g.accs.map fun a => if a.parts.any fun p => p.faultOf.isSome && inSpan ia large p.ia then { a with replay := true } else a }) ∧
    (s.serviceRuns = true → s.dbg.frozen = false → ∃ t, exec .faultResolveAbort s = .next t ∧ t.xlat = s.xlat ∧
      ∀ run w g a p why, s.wg? run = some w → w.life ≠ .killed → g ∈ w.groups → a ∈ g.accs → p ∈ a.parts → p.st = .faulted why →
        inSpan ia large p.ia = true → (∃ x, t.wg? run = some x ∧ x.life = .killed) ∧
          ∀ l, s.launch? w.lid = some l → ∃ l', t.launch? w.lid = some l' ∧ 3 ∈ l'.status) ∧
    (∀ (r : LaneReq) (why : Nat), s.lane? s.arg.src = some r → r.a.replay = true → r.a.recorded = true → r.p.st = .faulted why → r.a.kind = .load →
      (∀ x ∈ r.g.frags, ∀ u, x.2.st ≠ .waitm r.a.id u) →
      ∃ t q, exec .faultReplayResend s = .next t ∧ t.mem = s.mem ∧ t.lane? s.arg.src = some q ∧ q.p = { r.p with st := .issued } ∧
        q.a.replay = false ∧ q.a.recorded = false ∧
        q.a.parts = r.a.parts.map (fun p => if p.faultOf.isSome then { p with st := .issued } else p) ∧
        ∀ e f, r.g.frag? e = some f → f.st = .parked r.a.id → (∀ x ∈ r.g.frags, x.1 = e → x.2 = f) →
          q.g.frag? e = some { f with st := .ready }) ∧
    (∀ r : LaneReq, s.lane? s.arg.src = some r → r.p.unanswered = true → r.w.life ≠ .killed →
      s.reasonFits (some r.l.dom) r.p.ia s.arg.reason = true →
      ∃ t w x, exec .errorResponse s = .next t ∧ t.wg? r.w.run = some w ∧ w.life = .killed ∧
        t.logs.faults = s.logs.faults ++ [(r.l.dom, x)] ∧
        x.getD 1 0 = fields [(60, if s.arg.reason = 3 ∨ s.arg.reason = 4 then 14 else 13), (56, 3), (52, s.arg.reason), (0, r.p.ia % 2 ^ 52)])

/-- O44. Translation (R13, R136, R137, R268): the firmware's write of a level-1 entry is what walks find from then on,
one of level 2, of an IA's block or of a block that is not linked yet, changes its eight bytes of memory alone, where
they lie in a reserved region and a window; an invalidate is pending until it completes, waits for every pin of its
span, and then leaves no entry of the span in a walker's cache. The model's choices: it waits as well for the requests
that have taken their translation from the span (log 58, an inference), and leaves no line of the span in L2 (log 14);
an entry that maps a page into a reserved region is not written (log 59); the windows as they are asked for (log 61) and
the IAs of the reserved regions (log 84). -/
def Obligations.TranslationChanges : Prop :=
  ∀ s : State, s.regionAt s.arg.ia = .hbm → s.serviceRuns = true →
    let ia := s.arg.ia
    let n := if s.arg.flag then 2 ^ 21 else 65536
    let x := (ia / n * n, s.arg.flag)
    let e := Map.look 0 s.xlat.lev1 (ia / 2 ^ 21)
    let at_ := if s.arg.flag2 then s.arg.off else entryAddr e + 8 * (ia / 65536 % 32)
    let writes := s.mapsReserved s.arg.level s.arg.v = false
    (s.mapsReserved s.arg.level s.arg.v = true → exec .translationEntryWrite s = .next s) ∧
    (writes → s.arg.level = 1 → s.tablesOpen = true → ∃ t, exec .translationEntryWrite s = .next t ∧ t.mem = s.mem ∧
      ∀ i, Map.look 0 t.xlat.lev1 i = if i = ia / 2 ^ 21 then s.arg.v else Map.look 0 s.xlat.lev1 i) ∧
    (writes → s.arg.level = 2 → (if s.arg.flag2 then s.arg.off % 8 = 0 else e.getLsbD 0 = true ∧ e.getLsbD 1 = false) →
      ∀ y, s.reservedIa at_ = some y → s.windowed 1 y 8 = true → ∃ t, exec .translationEntryWrite s = .next t ∧
      t.xlat = s.xlat ∧ t.mem.le at_ 8 = s.arg.v.toNat ∧ ∀ a, a < at_ ∨ at_ + 8 ≤ a → t.mem.byte a = s.mem.byte a) ∧
    (∃ t, exec .translationInvalidate s = .next t ∧ x ∈ t.xlat.invals ∧ t.xlat.cache = s.xlat.cache ∧ t.mem = s.mem) ∧
    (x ∈ s.xlat.invals → s.pinned x.1 x.2 = true ∨ s.inFlight x.1 x.2 = true → exec .translationInvalidateComplete s = .next s) ∧
    (x ∈ s.xlat.invals → s.pinned x.1 x.2 = false → s.inFlight x.1 x.2 = false →
      ∃ t, exec .translationInvalidateComplete s = .next t ∧ x ∉ t.xlat.invals ∧
      t.mem = s.mem ∧ (∀ y ∈ t.l2, y ∈ s.l2 ∧ 128 * y.line / n ≠ ia / n) ∧ (∀ c ∈ t.xlat.cache, c ∈ s.xlat.cache) ∧ (∀ e, (2, ia / 65536, e) ∉ t.xlat.cache) ∧
      (∀ e, (1, ia / 2 ^ 21, e) ∉ t.xlat.cache))

/-! ### Events of queues, barriers, streams and the press -/

/-- O45. The controllers of queues at work on sound memory queues whose block L2 holds, where no `.TRY` pop stands
behind a blocked one, no pop waits of a workgroup that drains, and an SP operation's elements fit in SPAD (R213-R216): the oldest waiting push that fits takes the next sequence numbers and RESV rises by
its lanes; the oldest pop takes elements and PPEND is set; its commit moves HEAD past them and clears PPEND; TAIL passes
the elements that are written, in reservation order. -/
def Obligations.QueueEvents : Prop :=
  ∀ (s : State) (ia : Nat) (b : QBlock) (x : Nat × Nat × Nat) (g : Group) (a : Access) (op : QOp) (w : Workgroup) (l : Launch),
    s.arg.q = .mem ia → (s.l2? (ia / 128)).isSome → s.block? (.mem ia) = some (b, false) → s.waiter x = some (g, a) → a.q = some op →
    s.wg? x.1 = some w → s.launch? w.lid = some l → (s.qctl (.mem ia)).requeue = false → (s.qctl (.mem ia)).frozen = 0 →
    s.queueCode (.mem ia) (some l.dom) = 0 → s.errorAt (some l.dom) ia = none →
    s.beatenTries (s.popLeft (.mem ia) b) false (s.qctl (.mem ia)).popW = [] →
    (∀ z ∈ (s.qctl (.mem ia)).popW, ∀ u, s.wg? z.1 = some u → u.pend = false) → op.overrun l.spad b = [] →
    let c := s.qctl (.mem ia)
    let k := op.lanes.length
    let block (t : State) (ok : QBlock → Prop) : Prop := ∃ b' bad, t.block? (.mem ia) = some (b', bad) ∧ ok b'
    (∀ rest, c.pushW = x :: rest → op.misfit b = false → k ≤ b.free → b.resv + k < 2 ^ 64 →
      ∃ t, exec .queuePushGrant s = .next t ∧ (t.qctl (.mem ia)).pushW = rest ∧
        (t.qctl (.mem ia)).pushes = c.pushes ++ [(x.1, x.2.1, x.2.2, b.resv, k)] ∧
        block t fun b' => b'.resv = b.resv + k ∧ b'.head = b.head ∧ b'.tail = b.tail ∧ b'.cfg = b.cfg ∧ b'.base = b.base) ∧
    (∀ rest, c.popW = x :: rest → op.misfit b = false → op.tryForm = false → b.ppend = false → k ≤ b.tail - b.head →
      ∃ t, exec .queuePopGrant s = .next t ∧ (t.qctl (.mem ia)).popW = rest ∧ (t.qctl (.mem ia)).pop = some x ∧
        block t fun b' => b'.ppend = true ∧ b'.head = b.head ∧ b'.tail = b.tail ∧ b'.resv = b.resv) ∧
    (∀ n, c.pop = some x → c.stale = [] → w.life ≠ .killed → op.data = [n] → op.spad = false → b.head + n < 2 ^ 64 →
      (∀ p ∈ a.parts, (p.st = .served ∨ p.st = .done) ∧ p.bad = false) →
      ∃ t h, exec .queuePopCommit s = .next t ∧ (t.qctl (.mem ia)).pop = none ∧ t.group? x.1 x.2.1 = some h ∧
        (∀ y ∈ h.accs, y.id ≠ a.id) ∧ (∀ y ∈ (t.core w.core).l1, y.ut = false) ∧
        block t fun b' => b'.head = b.head + n ∧ b'.ppend = false ∧ b'.tail = b.tail ∧ b'.resv = b.resv) ∧
    (∀ first n rest, c.pushes = (x.1, x.2.1, x.2.2, first, n) :: rest → x.1 ≠ 0 →
      a.prefixDone (s.now (s.ctlDie (.mem ia) (some l.dom))) = n → first ≤ b.tail → b.tail < first + n →
      first + n < 2 ^ 64 →
      ∃ t, exec .queueTailAdvance s = .next t ∧ (t.qctl (.mem ia)).pushes = rest ∧
        block t fun b' => b'.tail = first + n ∧ b'.head = b.head ∧ b'.resv = b.resv)

/-- O46. Arrivals and regroups (R189-R198, R223, R226). BARV's arrival waits for the accesses that were outstanding at
its issue, then counts one member and its bytes. A regroup without children ends a workgroup that has no parked parents;
one whose children fit and go on at one address racks them densely: position p in lane p mod 64 of group p div 64, with
SPOS p, in one fragment for each group. -/
def Obligations.ArrivalsAndRegroups : Prop :=
  ∀ (s : State) (w : Workgroup), s.wg? s.arg.wg = some w →
    (∀ g b rest, w.group? s.arg.grp = some g → g.barvs = b :: rest →
      (b.waits.any g.pendingAcc = true → exec .barrierArrival s = .next s) ∧
      (b.waits.any g.pendingAcc = false → ∃ t x, exec .barrierArrival s = .next t ∧ t.mem = s.mem ∧ t.wg? s.arg.wg = some x ∧
        x.bar b.bar = (w.bar b.bar).arrive 1 b.bytes ∧ (∀ m, m % 16 ≠ b.bar % 16 → x.bar m = w.bar m) ∧
        ∃ h, x.group? s.arg.grp = some h ∧ h.barvs = rest)) ∧
    (∀ l, s.launch? w.lid = some l → w.life = .running → l.det = false → w.vatFaults = [] →
      (∀ g ∈ w.groups, ∀ x ∈ g.frags, ∃ n, x.2.st = .regroup n) → (∃ g ∈ w.groups, g.frags ≠ []) →
      (∀ g ∈ w.groups, g.frags = [] ∨ g.settled = true) →
      let total := (w.threads.map (·.n)).sum
      (total = 0 → w.levels = [] → ∃ t x, exec .regroup s = .next t ∧ t.mem = s.mem ∧ t.wg? s.arg.wg = some x ∧ x.life = .retiring ∧
        ∀ g ∈ x.groups, g.frags = []) ∧
      (∀ pc link, 0 < total → total ≤ 64 * l.ng → (∀ y ∈ w.threads, y.p.pc = pc ∧ y.p.link = link) → total < 2 ^ 32 →
        ∃ t x, exec .regroup s = .next t ∧ t.mem = s.mem ∧ t.wg? s.arg.wg = some x ∧ x.lvl = w.lvl ∧
          x.groups.map (·.grp) = w.groups.map (·.grp) ∧ ∀ g ∈ x.groups, (∀ i, i < 64 → g.live.getLsbD i = decide (64 * g.grp + i < total) ∧
              (64 * g.grp + i < total → (g.spos.at i).toNat = 64 * g.grp + i)) ∧
            (64 * g.grp < total → ∃ f, g.frags = [(0, f)] ∧ f.pc = pc ∧ f.link = link ∧ f.f = g.live ∧ f.exec = g.live) ∧
            (total ≤ 64 * g.grp → g.frags = [])))

/-- O47. Press operations: the head of a core's queue starts when nothing runs, no cellar chunk waits for the port that
an MMA needs and the package is not frozen, and takes its cycles (R249); when they have passed MZERO has cleared exactly
its rows of every plane, and MMA has written only its own rows and tagged them with its slot; the operation leaves the
queue, and memory stays. One pass of an MMA (R248): every accumulator of its 64 rows takes, block after block of the K
dimension, its value plus the exact dot product of the block's elements times the blocks' scale, rounded once to FP32.
-/
def Obligations.PressEvents : Prop :=
  (∀ (s : State) (p : PressOp) (rest : List PressOp) (w : Workgroup) (l : Launch),
     let core := s.arg.core
     let c := s.core core
     c.press = p :: rest → s.wg? p.wg = some w → s.launch? w.lid = some l →
     (c.running = false → p.mma = false ∨ s.portWanted c = false → s.dbg.frozen = false → p.mma = false ∨ (l.slotAt p.slot).fmt ≠ 4 →
       ∃ t, exec .pressOperationStart s = .next t ∧ t.mem = s.mem ∧ (t.core core).running = true ∧ (t.core core).press = c.press ∧
         (t.core core).endCyc = s.cyc + (if p.mma then (if (l.slotAt p.slot).fmt ∈ [1, 2] then 32 else 16) * (1 + 2 * p.k)
           else (p.count + 63) / 64)) ∧
     (c.running = true → s.cyc < c.endCyc → exec .pressOperationComplete s = .next s) ∧
     (c.running = true → c.endCyc ≤ s.cyc → w.life ≠ .killed → p.poison l w = none → (p.mma = true → p.count = 64) →
       ∃ t x, exec .pressOperationComplete s = .next t ∧ t.mem = s.mem ∧ (t.core core).press = rest ∧ (t.core core).running = false ∧
         t.wg? p.wg = some x ∧ x.spad = w.spad ∧ x.cell = w.cell ∧
         (∀ key, p.owns (key / 128) = false → Map.look 0 x.accum key = Map.look 0 w.accum key) ∧
         (∀ row, p.owns row = false → Map.look 0 x.tags row = Map.look 0 w.tags row) ∧
         (p.mma = false → (∀ key, p.owns (key / 128) = true → Map.look 0 x.accum key = 0) ∧
           ∀ row, p.owns row = true → Map.look 0 x.tags row = 0) ∧
         (p.mma = true → ∀ row, p.owns row = true → Map.look 0 x.tags row = p.slot + 1))) ∧
  (∀ (w : Workgroup) (sa sb : Slot) (row off q m n : Nat), m < 64 → n < 128 →
     let bs := if sa.blockSize = 0 then 32 else sa.blockSize
     let old := (Map.look 0 w.accum (128 * (row + m) + n)).toNat
     let pairs (j : Nat) : List (FV × FV) := (List.range bs).map fun i =>
       (sa.decode (w.aElem sa off m (j * bs + i)), sb.decode (w.cellLe n (q + (j * bs + i) * sb.bElem) sb.bElem))
     let scale (j : Nat) : Option Int := if sa.blockSize = 0 then some 0
       else seOf (w.spad.le (off + 64 * sa.aRow + m * (32 / bs) + j) 1) (w.cellLe n (q + (32 + j) * sb.bElem) 1)
     bs ∈ [16, 32] →
     Map.look 0 (w.mmaPass sa sb row off q).1.accum (128 * (row + m) + n)
       = BitVec.ofNat 32 ((List.range (32 / bs)).foldl (fun x j => (accStep x (blockSum (pairs j)) (scale j)).1) old))

/-! ### Copies (R164, R166, R236-R243) -/

/-- O48. A copy on its way (R164, R165, R232, R236-R243, R369): the fetch of a template at its home starts a copy to the
scratchpad at once, and one whose template number is not below NTPL is abandoned; a piece of a global source is read at
its home, at most a line, with its bytes as they stand there; claims that are complete acknowledge the trigger and let
the copy move; a scratchpad chunk lands sector by sector, each in one step that changes exactly its bytes, and counts
after the last one, the last chunk leading to SIGNAL and that to IDLE; a line of a global chunk is written by the
channel that owns it, changing no other line; the youngest copy of a cycle of held reads is abandoned. An abandoned copy
leaves a record, DONE rises and its workgroup is killed. -/
def Obligations.CopyEvents : Prop :=
  ∀ (s : State) (t0 : Trigger) (w : Workgroup) (l : Launch),
    let core := s.arg.core
    let ch := s.arg.ch
    let x := (s.core core).chan ch
    ch < 16 → s.copy? core ch = some (t0, w, l) → x.paused = none → let alone := l.redn = false ∧ w.life ≠ .killed ∧ w.core = core ∧
      (∀ u ∈ x.trigs.drop 1, u.wg ≠ w.run) ∧ ∀ k, k < 16 → k ≠ ch → ((s.core core).chan k).trigs = []
    let c : Copy := { l, w, word := t0.word, r := x.record }
    let abandoned (i : Instr) (why : Nat) : Prop := ∃ t v, exec i s = .next t ∧ t.wg? w.run = some v ∧ v.life = .killed ∧
      ((t.core core).chan ch).done = x.done + 1 ∧ ∃ r, t.logs.faults = s.logs.faults ++ [(l.dom, r)] ∧
        (r.getD 1 0).extractLsb' 52 12 = BitVec.ofNat 12 (12 * 256 + 3 * 16 + why)
    (x.st = .idle → l.ntpl ≤ (t0.word.extractLsb' 56 8).toNat → alone → abandoned .copyFetch 1) ∧
    (x.st = .idle → (t0.word.extractLsb' 56 8).toNat < l.ntpl →
      let ia := l.iaOf (l.ttab + 128 * (t0.word.extractLsb' 56 8).toNat)
      s.xlatFault ia = none → s.freeFor core ch ia = true → s.errorAt (some l.dom) ia = none →
      s.mayRead (some l.dom) ia 128 0 = true → s.cutOff (some l.dom) ia 128 = false → s.badIA ia 128 = false →
      let r := (List.range 16).map fun i => BitVec.ofNat 64 (leNat (((s.readIA ia 128).drop (8 * i)).take 8))
      let c : Copy := { l, w, word := t0.word, r }
      c.wellFormed = true → c.kind = 0 → ∃ t, exec .copyFetch s = .next t ∧ t.mem = s.mem ∧
        ((t.core core).chan ch).st = .move ∧ ((t.core core).chan ch).record = r ∧ ((t.core core).chan ch).next = 0) ∧
    (x.st = .claim → (∀ y ∈ x.claims, y.2 ≠ 0) → x.trigs ≠ [] → ∃ t, exec .copyClaimsComplete s = .next t ∧ t.mem = s.mem ∧
      ((t.core core).chan ch).st = .move ∧ ((t.core core).chan ch).claims = x.claims ∧
      (t0.acked = false → ∀ g, s.group? t0.wg t0.grp = some g → ∃ h, t.group? t0.wg t0.grp = some h ∧
        h.maxw = max g.maxw x.claimedW ∧ h.accs = g.accs.filter (fun a => a.id != t0.acc))) ∧
    (∀ i ia bs, x.st = .move → x.pending = [] → s.sourceBytes c core ch (c.chunk x.next) = .piece i ia bs →
      1 ≤ bs.length ∧ bs.length ≤ 128 ∧ s.freeFor core ch ia = true ∧
      (∀ j, j < bs.length → (bs.getD j (0, false)).1 = s.mem.byte (s.key ia + j)) ∧
      ∃ t, exec .copyChunkLand s = .next t ∧ t.mem = s.mem ∧ t.wgs = s.wgs ∧ ((t.core core).chan ch).got = Map.set x.got i bs ∧
        ((t.core core).chan ch).st = .move ∧ ((t.core core).chan ch).next = x.next ∧ ((t.core core).chan ch).pending = []) ∧
    (∀ bs, x.st = .move → x.pending = [] → c.kind = 0 → s.chanTurn core ch = true →
      s.sourceBytes c core ch (c.chunk x.next) = .data bs →
      ∃ t, exec .copyChunkLand s = .next t ∧ t.mem = s.mem ∧ t.wg? w.run = s.wg? w.run ∧
        let ps := ((t.core core).chan ch).pending
        let dst := (c.chunk x.next).dst.toNat
        ((t.core core).chan ch).st = .move ∧ ((t.core core).chan ch).next = x.next ∧
        (∀ p ∈ ps, p.2.1 ≠ [] ∧ dst ≤ p.1 ∧ p.1 + p.2.1.length ≤ dst + bs.length ∧ p.1 / 16 = (p.1 + p.2.1.length - 1) / 16 ∧
          ∀ i, i < p.2.1.length → p.2.1.getD i 0 = (bs.getD (p.1 + i - dst) (0, false)).1) ∧
        ∀ a, dst ≤ a → a < dst + bs.length → ∃ p ∈ ps, p.1 ≤ a ∧ a < p.1 + p.2.1.length) ∧
    (∀ p rest, x.st = .move → x.pending = p :: rest → c.kind = 0 → c.ben = false → w.life ≠ .killed →
      ∃ t v, exec .copyChunkLand s = .next t ∧ t.mem = s.mem ∧ t.wg? w.run = some v ∧
        (∀ a, v.spad.byte a = if p.1 ≤ a ∧ a < p.1 + p.2.1.length then p.2.1.getD (a - p.1) 0 else w.spad.byte a) ∧
        ((t.core core).chan ch).pending = rest ∧ ((t.core core).chan ch).done = x.done ∧
        ((t.core core).chan ch).next = (if rest = [] then x.next + 1 else x.next) ∧
        ((t.core core).chan ch).st = (if rest = [] ∧ c.chunks ≤ x.next + 1 then .signal else .move)) ∧
    (x.st = .signal → c.ben = false → ∃ t, exec .copyChunkLand s = .next t ∧ t.mem = s.mem ∧
      ((t.core core).chan ch).st = .idle ∧ ((t.core core).chan ch).done = x.done + 1 ∧
      ((t.core core).chan ch).trigs = x.trigs.drop 1) ∧
    (∀ p, x.st = .move → x.pending = [p] → c.kind = 1 → p.1 / 128 = s.arg.line → (s.home s.arg.line).owner = some (.copy core ch) →
      s.errorAt (some l.dom) (128 * s.arg.line) = none → region p.1 = .hbm → c.ben = false → w.life ≠ .killed →
      s.Clean → p.2.2 = false →
      ∃ t, exec .engineLineFinish s = .next t ∧ ((t.core core).chan ch).pending = [] ∧
        (c.later x.next s.arg.line = false → (t.home s.arg.line).owner = none) ∧
        ∀ a, t.mem.byte a = if s.key p.1 ≤ a ∧ a < s.key p.1 + p.2.1.length then p.2.1.getD (a - s.key p.1) 0 else s.mem.byte a) ∧
    (∀ o, x.st = .move → s.waitsFor core ch = some o → s.waitsFor o.1 o.2 = some (core, ch) → 2 ≤ 16 * s.cores.length →
      ((s.core o.1).chan o.2).order ≤ x.order → alone → abandoned .copyCycleFault 3)

/-! ### Launches (R20-R33, R287-R308) -/

/-- O49. A launch on its way to Placing (R26, R287-R291). The dispatcher takes the record at HEAD of the queue whose
turn it is, with status code of the first failed check or Waiting; a waiting launch goes on once its counter waits hold
and its queue's earlier launches have; indirect counts are read at their home, each cut to its width; once DTIME of
every die of its domain has reached START and its queue's earlier launches have left Placing it begins to place. -/
def Obligations.LaunchesBegin : Prop :=
  ∀ s : State,
    (∀ n b at_, s.dev.ready = 5 → s.nextQueue s.arg.dom = some n → s.block? (.mem (s.lqBlock n)) = some (b, false) →
      s.queueCode (.mem (s.lqBlock n)) (some s.arg.dom) = 0 → s.errorAt none (s.lqBlock n) = none → b.slot b.head = at_ →
      s.spanError none at_ 512 = none → (∀ l ∈ s.launches, l.lid ≠ s.fresh) →
      let u := s.touchAll (some s.arg.dom) ((spanLines at_ 512).map fun x => (x.1, x.2.2))
      let record := (List.range 64).map fun i => BitVec.ofNat 64 (leNat (((u.readSpan at_ 512).drop (8 * i)).take 8))
      ∃ t l, exec .launchAccept s = .next t ∧ t.launch? s.fresh = some l ∧ l.record = record ∧ l.lq = n ∧ l.seq = b.head ∧
        l.ext = l.extents ∧ (∀ m, m ≠ s.fresh → t.launch? m = s.launch? m) ∧
        let st := u.verdict { lid := s.fresh, lq := n, seq := b.head, record, order := s.fresh, ext := l.extents } s.arg.dom (u.badSpan at_ 512)
        (st = 0 → l.phase = .waiting ∧ l.status = []) ∧ (st ≠ 0 → l.phase = .completing ∧ l.status = [st])) ∧
    (∀ l, s.launch? s.arg.lid = some l →
      let after (i : Instr) (ok : Launch → Prop) : Prop := ∃ t l', exec i s = .next t ∧ t.mem = s.mem ∧
        t.launch? s.arg.lid = some l' ∧ l'.record = l.record ∧ ok l'
      (l.phase = .waiting → (∀ o ∈ [0x1E0, 0x1E8, 0x1F0, 0x1F8], s.waitHolds (l.word o) = true) →
        (∀ x ∈ s.launches, x.lq = l.lq → x.order < l.order → x.phase ≠ .waiting) →
        after .launchWaitsSatisfied fun l' => l'.phase = .counting) ∧
      (l.phase = .waiting → (∃ o ∈ [0x1E0, 0x1E8, 0x1F0, 0x1F8], s.waitHolds (l.word o) = false) →
        exec .launchWaitsSatisfied s = .next s) ∧
      (l.phase = .counting → l.resume = false → l.icnt = 0 → after .indirectCountRead fun l' => l'.phase = .holding ∧ l'.ext = l.ext) ∧
      (l.phase = .counting → l.resume = false → l.icnt ≠ 0 →
        let ia := l.iaOf l.icnt
        (∀ x ∈ spanLines ia 20, s.xlatFault x.1 = none ∧ s.lineFree x.1 = true ∧ s.cutOff (some l.dom) x.1 x.2.2 = false) →
        (s.carryAll (some l.dom) 0 ((spanLines ia 20).map fun x => (x.1, x.2.2))).isSome → s.badSpan ia 20 = false →
        s.spanError (some l.dom) ia 20 = none →
        let count (k : Nat) : Nat := min (leNat (((s.readSpan ia 20).drop (4 * k)).take 4)) (2 ^ l.width (k + 1))
        after .indirectCountRead fun l' => l'.ext = l.extent 0 :: [count 0, count 1, count 2, count 3, count 4] ∧
          (l'.phase = .holding ↔ (∀ k, k < 5 → count k ≠ 0) ∧ l'.total ≤ 2 ^ 32)) ∧
      (l.phase = .holding → l.start ≤ s.now s.arg.die → (∀ d ∈ s.launchDies l, d = s.arg.die ∨ d ∈ l.dies) →
        (∀ x ∈ s.launches, x.lq = l.lq → x.order < l.order → x.leftPlacing = true) →
        after .launchStartTime fun l' => l'.phase = .placing) ∧
      (l.phase = .holding → s.now s.arg.die < l.start → exec .launchStartTime s = .next s))

/-- O50. Placing (R20-R24, R29-R31, R36): the next workgroup in order goes to the lowest core of its domain that has
room, running at the entry point with one fragment for each group: threads 64·GRP on in its lanes, all of them in EXEC,
WID by the launch's extents, the argument pointer in s0 and s1, and every other register, mask and flag zero. Where it
fits nowhere nothing is placed. -/
def Obligations.WorkgroupPlaced : Prop :=
  ∀ (s : State) (l : Launch), s.launch? s.arg.lid = some l → (l.phase = .placing ∨ l.phase = .running) → s.yieldsTo l = false →
    l.redo = [] → l.next < l.limit → l.limit = l.total → l.extent 1 ≤ 1 → l.avoid = [] →
    (∀ w ∈ s.wgs, w.run < s.fresh ∧ (w.lid = l.lid → w.rolled = false)) → l.redn = false →
    let u : PlaceUnit := { wgxs := [l.next], copy := 0, fresh := true }
    (s.unitPlace l u = none → ∃ t l', exec .workgroupPlace s = .next t ∧ t.wgs = s.wgs ∧ t.mem = s.mem ∧
      t.launch? s.arg.lid = some l' ∧ l'.next = l.next ∧
      l'.readyAt = (if l.readyAt = 0 then s.dtime else l.readyAt)) ∧
    (∀ core fit, s.unitPlace l u = some [(l.next, core, fit)] →
      core / 12 ∈ (s.row l.dom).clusters ∧ l.fitsWith (s.resident core) = some fit ∧
      (∀ k, k < core → k / 12 ∈ (s.row l.dom).clusters → l.fitsWith (s.resident k) = none) ∧
      ∃ t w, exec .workgroupPlace s = .next t ∧ t.mem = s.mem ∧ t.wg? s.fresh = some w ∧ w.wgx = l.next ∧ w.core = core ∧
        w.lid = l.lid ∧ w.life = .running ∧ w.spad = [] ∧ w.cell = [] ∧ w.accum = [] ∧ w.lvl = 0 ∧
        (∀ r, r ≠ s.fresh → t.wg? r = s.wg? r) ∧ (∃ l', t.launch? s.arg.lid = some l' ∧ l'.next = l.next + 1) ∧
        w.groups.length = fit.parts.length ∧
        ∀ n (hn : n < w.groups.length), let g := w.groups[n]
          g.grp = n ∧ (∃ f, g.frags = [(0, f)] ∧ f.pc = l.entry &&& ~~~ 7 ∧ f.f = g.live ∧ f.exec = g.live ∧ f.st = .ready) ∧
          (∀ i, i < 64 → g.live.getLsbD i = decide (64 * n + i < l.extent 0)) ∧
          (∀ i, i < 64 → g.live.getLsbD i = true → g.wid.at i = l.widOf l.next (64 * n + i)) ∧
          g.s 0 0 = DWord.lo l.argp ∧ g.s 1 0 = DWord.hi l.argp ∧ (∀ m j, 2 ≤ m → m < 64 → g.s m j = 0) ∧
          (∀ m j, g.v m j = Lanes.const 0) ∧ (∀ m, 1 ≤ m → m < 8 → g.mask m = 0) ∧ g.flags = 0 ∧ g.trap = none)

/-- O51. The end of workgroups and launches (R32, R301, R305-R308, R353): a retired workgroup whose accesses, press
operations, copies and bottled stores are done is freed and counted; so is a killed one, uncounted; the last one
completes its launch. The completion record goes out as one store with the lowest status code, and when that is
acknowledged and DTIME has reached its W the launch is gone and its counter has risen by one, unless PREEMPTED, SAVE_FAIL
or RESTORE_POISON is among its reasons (R301, R391, R392). A save in HBM stands in memory in the step of the launch's end
(log 37, an inference): at SAVE, else, where that cannot be written or an uncorrectable error ends it, in the queue's
alternate area with SAVE's MAGIC no longer that of a save; where that fails too the status is SAVE_FAIL (R390, R391). A
save to another place goes by stores, the line of MAGIC last (R302). -/
def Obligations.LaunchesEnd : Prop :=
  ∀ s : State,
    (∀ w l, s.wg? s.arg.wg = some w → s.launch? w.lid = some l → s.busyWith w = false →
      (w.life = .retiring → (l.cont = true ∨ l.det = true → w.held = []) → l.redn = false → s.bottling l.lid (some w.wgx) = false →
        l.bottleW ≤ s.now (coreDie w.core) → (∀ g ∈ w.groups, g.maxw ≤ s.now (coreDie w.core)) →
        ∃ t l', exec .workgroupRetire s = .next t ∧ t.mem = s.mem ∧ t.wg? w.run = none ∧ (∀ r, r ≠ w.run → t.wg? r = s.wg? r) ∧
          t.launch? l.lid = some l' ∧ l'.ndone = l.ndone + 1 ∧ l'.status = l.status ∧
          (l.phase = .running → l.limit ≤ l.next → l.redo = [] → l.runs = [] → (∀ x ∈ s.wgs, x.lid = l.lid → x.run = w.run) →
            l'.phase = .completing)) ∧
      (w.life = .killed → w.rolled = false → ∃ t l', exec .workgroupKillRelease s = .next t ∧ t.mem = s.mem ∧ t.wg? w.run = none ∧
        (∀ r, r ≠ w.run → t.wg? r = s.wg? r) ∧ t.launch? l.lid = some l' ∧ l'.ndone = l.ndone ∧ l'.redo = l.redo) ∧
      (w.life = .killed → w.rolled = true → l.phase ≠ .draining → w.wgx ∉ l.killed → w.wgx ∉ l.late →
        ∃ t l', exec .workgroupKillRelease s = .next t ∧ t.wg? w.run = none ∧ t.launch? l.lid = some l' ∧
          l'.redo = l.redo ++ [(w.wgx, w.copy)] ∧ l'.avoid.getLast? = some (w.wgx, w.copy, w.core / 12))) ∧
    (∀ l, s.launch? s.arg.lid = some l →
      (l.phase = .completing → s.bottling l.lid none = false → l.bottleW ≤ s.now 0 → 1 ∉ l.status → l.crec ≠ 0 →
          (∀ x ∈ l.status, x < 256) →
        ∃ t l' m, exec .launchComplete s = .next t ∧ t.mem = s.mem ∧ t.msgs = s.msgs ++ [m] ∧ m.use_ = .complete l.lid ∧
          m.part.ia = l.crec / 64 * 64 ∧ m.part.size = 64 ∧ m.part.dat % 256 = l.finalStatus ∧
          m.part.dat / 2 ^ 32 % 2 ^ 32 = l.seq % 2 ^ 32 ∧ t.launch? l.lid = some l' ∧ l'.phase = .recording) ∧
      (l.phase = .completing → s.bottling l.lid none = false → l.bottleW ≤ s.now 0 → l.status.contains 1 = true → l.cancel = false →
        l.crec = 0 →
        (l.savesNear = true → s.saveOk l = true → s.arg.flag = false → ∃ t l', exec .launchComplete s = .next t ∧ t.launch? l.lid = some l' ∧ l'.status = l.status ∧
          t.mem = (s.writeSpan (l.iaOf l.save) l.saveBytes).mem) ∧
        ((l.savesNear = true ∧ (s.saveOk l = false ∨ s.arg.flag = true)) ∨
          (l.savesNear = false ∧ s.saveSent l = false ∧ ((l.saving = 0 ∧ s.magicOpen l = false) ∨
            (l.saving ≠ 0 ∧ (l.saveBad = true ∨ s.arg.flag = true ∨ (l.saving < 3 ∧ s.saveOk l = false))))) →
          let v := if l.savesNear then s.spoilMagic l else s
          let lost := s.dev.absent.getLsbD (8 + altPa l.lq / 2 ^ 36 % 8) = true ∨ s.arg.flag2 = true
          ∃ t l', exec .launchComplete s = .next t ∧ t.launch? l.lid = some l' ∧
            (lost → t.mem = v.mem ∧ 5 ∈ l'.status ∧ 1 ∉ l'.status) ∧
            (¬ lost → t.mem = (v.writePa (altPa l.lq) l.saveBytes).mem ∧ l'.status = l.status)) ∧
        (l.savesNear = false → s.saveSent l = false → s.arg.flag = false → l.saveBad = false →
          let ia := l.iaOf l.save
          let piece (x : Nat × Nat × Nat) : Nat × Nat := (x.1, leNat ((l.saveBytes.drop x.2.1).take x.2.2))
          let sends (xs : List (Nat × Nat)) : Prop := ∃ t l', exec .launchComplete s = .next t ∧ t.mem = s.mem ∧
            t.launch? l.lid = some l' ∧ l'.phase = .completing ∧ l'.saving = l.saving + 1 ∧
            (t.msgs.drop s.msgs.length).map (fun m => (m.use_, m.part.ia, m.part.dat)) = xs.map fun x => (MsgUse.save l.lid, x)
          (l.saving = 0 → s.magicOpen l = true → sends [(ia + 4, 0)]) ∧
          (l.saving = 1 → s.saveOk l = true → sends (((spanLines ia 40960).drop 1).map piece)) ∧
          (l.saving = 2 → s.saveOk l = true → sends (((spanLines ia 40960).take 1).map piece)) ∧
          (l.saving = 3 → ∃ t l', exec .launchComplete s = .next t ∧ t.mem = s.mem ∧ t.launch? l.lid = some l' ∧
            l'.phase = .recording ∧ l'.status = l.status))) ∧
      (∀ w, l.phase = .recording → l.recW = some w → w ≤ s.now 0 →
        let n := l.bits 0x1D8 32 12
        let v := Map.look 0 s.dev.counters n
        let bumps := l.bits 0x1D8 44 1 = 1 ∧ ∀ c ∈ l.status, c ∉ [1, 5, 6]
        ∃ t, exec .completionCounterBump s = .next t ∧ t.mem = s.mem ∧ t.launch? l.lid = none ∧
          (bumps → Map.look 0 t.dev.counters n = BitVec.ofNat 64 ((v.toNat + 1) % 2 ^ 48)) ∧
          (¬ bumps → t.dev.counters = s.dev.counters) ∧ (∀ k, k ≠ n → Map.look 0 t.dev.counters k = Map.look 0 s.dev.counters k) ∧
          (l.crec ≠ 0 → t.dev.msix = s.dev.msix ++ [l.lq])) ∧
      (∀ w, l.recW = some w → s.now 0 < w → exec .completionCounterBump s = .next s))

/-- O52. Pre-emption and cancel (R33, R301, R306): a request drains a placing or running launch and ends one that has
placed nothing, with status PREEMPTED or CANCELLED; its workgroups on a core drain, and a fragment asleep in SLEEP there
wakes, where no poison stands in memory that a monitor there could consume; at the end of the grace those left are
killed and their WGX recorded; a class-0 launch whose next workgroup has waited 2,000 ns, with no earlier victim left,
pre-empts the lowest and youngest launch that makes room. -/
def Obligations.Preemption : Prop :=
  ∀ s : State,
    (∀ l, s.fw.recovery = false → s.named s.arg.lq s.arg.word32 = some l → (∀ x ∈ s.launches, x.lid = l.lid → x = l) →
      ∀ p ∈ [(Instr.launchctlPreempt, 1), (.launchctlCancel, 2)],
        (l.phase ∈ [.waiting, .counting, .holding] → ∃ t l', exec p.1 s = .next t ∧ t.mem = s.mem ∧ t.wgs = s.wgs ∧
          t.launch? l.lid = some l' ∧ l'.phase = .completing ∧ p.2 ∈ l'.status) ∧
        (l.phase ∈ [.placing, .running] → (∃ w ∈ s.wgs, w.lid = l.lid) → ∃ t l', exec p.1 s = .next t ∧ t.mem = s.mem ∧ t.wgs = s.wgs ∧
          t.launch? l.lid = some l' ∧ l'.phase = .draining ∧ p.2 ∈ l'.status ∧ l'.drainAt = some (s.now 0) ∧ l'.redo = [] ∧
          l'.cancel = (p.2 == 2))) ∧
    (∀ l, s.launch? s.arg.lid = some l → l.phase = .draining →
      (∀ w, s.wg? w.run = some w → w.lid = l.lid → w.core = s.arg.core → w.life = .running →
        (∀ q ∈ s.queues, q.pushW = [] ∧ q.popW = []) → s.Clean →
        ∃ t x, exec .preemptRequestAtCore s = .next t ∧ t.mem = s.mem ∧ t.wg? w.run = some x ∧ x.life = .draining ∧ x.spad = w.spad ∧
          ∀ grp g, w.group? grp = some g → g.frags.Pairwise (fun a b => a.1 ≠ b.1) → ∃ h, x.group? grp = some h ∧
            ∀ e f, g.frag? e = some f → (∀ till, f.st = .sleep till → h.frag? e = some { f with st := .ready }) ∧
              (f.st = .ready → h.frag? e = some f)) ∧
      (∀ t0, l.drainAt = some t0 →
        (s.now 0 < t0 + l.grace → exec .graceExpiry s = .next s) ∧
        (t0 + l.grace ≤ s.now 0 → ∃ t l', exec .graceExpiry s = .next t ∧ t.launch? l.lid = some l' ∧
          ∀ w, s.wg? w.run = some w → w.lid = l.lid → w.life = .running ∨ w.life = .draining →
            (∃ x, t.wg? w.run = some x ∧ x.life = .killed) ∧ w.wgx ∈ l'.killed))) ∧
    (∀ l u v, s.launch? s.arg.lid = some l → l.cls = 0 → l.phase ∈ [.placing, .running] → l.readyAt ≠ 0 →
      (∀ v ∈ l.victims, s.launch? v = none) → s.nextUnit l = some u → (s.victims l).head? = some v →
      (s.dtime < l.readyAt + 2000 → exec .class0PreemptTimeout s = .next s) ∧
      (l.readyAt + 2000 ≤ s.dtime →
        (({ s with wgs := s.wgs.filter fun w => w.lid != v.lid } : State).unitPlace l u).isSome = true → (∃ w ∈ s.wgs, w.lid = v.lid) →
        (∀ x ∈ s.launches, x.lid = v.lid → x = v) → ∃ t l', exec .class0PreemptTimeout s = .next t ∧ t.mem = s.mem ∧
          t.launch? v.lid = some l' ∧ l'.phase = .draining ∧ 1 ∈ l'.status))

/-- O53. Contained, redundant and deterministic mode (R295-R300): where every running workgroup of a launch waits for
the hold reserve and none is ending, the one of highest WGX is rolled back; two equal runs of a redundant workgroup
settle it and their one stream is sent, when its cohort's runs have retired, and it counts as retired once that is
acknowledged and DTIME has reached its W; unequal ones ask for a third run; a synchronising operation has its turn when
no running group has a smaller LCLK, or an equal one and a smaller rank, no atomic waits for its replay and no BARV is
still to arrive; a quantum end without held data moves every running group to the next quantum. -/
def Obligations.LaunchModes : Prop :=
  ∀ s : State,
    (∀ w, s.wg? w.run = some w → w.lid = s.arg.lid → (∀ x ∈ s.wgs, x.lid = s.arg.lid →
        (x.life = .running ∨ x.life = .draining) ∧ x.overHold = true ∧ (x = w ∨ 4 * x.wgx + x.copy < 4 * w.wgx + w.copy)) → (s.launch? s.arg.lid).isSome →
      ∃ t x, exec .holdReserveRollback s = .next t ∧ t.wg? w.run = some x ∧ x.life = .killed ∧ x.rolled = true ∧ x.held = [] ∧
        ∀ r y, r ≠ w.run → s.wg? r = some y → ∃ z, t.wg? r = some z ∧ z.life = y.life ∧ z.held = y.held) ∧
    (∀ l a b hs, s.launch? s.arg.lid = some l →
      l.runs.find? (fun r => r.1 == s.arg.wgx && r.2.1 == 0) = some (s.arg.wgx, 0, a) →
      l.runs.find? (fun r => r.1 == s.arg.wgx && r.2.1 == 1) = some (s.arg.wgx, 1, b) →
      l.runs.find? (fun r => r.1 == s.arg.wgx && r.2.1 == 2) = none →
      l.streams.find? (fun r => r.1 == s.arg.wgx && r.2.1 == 0) = some (s.arg.wgx, 0, hs) →
      (∀ r ∈ l.runs, r.1 = s.arg.wgx → r.2.1 ≠ 3) → s.cohortRuns l s.arg.wgx = false → s.arg.wgx ∉ l.killed →
      (a = b → (∀ x ∈ l.cohortOf s.arg.wgx, l.mismatched x = false) → ∃ t l', exec .redundantCompare s = .next t ∧ t.mem = s.mem ∧ t.launch? l.lid = some l' ∧ l'.ndone = l.ndone ∧
        l'.nroll = l.nroll ∧ l'.status = l.status ∧ (∀ r ∈ l'.runs, r.1 = s.arg.wgx → r.2.1 = 3) ∧ (s.arg.wgx, 3, []) ∈ l'.runs ∧
        (t.msgs.drop s.msgs.length).map (fun m => (m.use_, m.part.ia, m.part.size, m.red))
          = (joinHeld hs).map fun h => (MsgUse.bottle l.lid s.arg.wgx, h.ia, h.size, h.red)) ∧
      (a ≠ b → l.phase ≠ .draining →
        ∃ t l', exec .redundantCompare s = .next t ∧ t.mem = s.mem ∧ t.msgs = s.msgs ∧ t.launch? l.lid = some l' ∧
          l'.redo = ((l.cohortOf s.arg.wgx).filter fun x => (l.hash? x 0).isSome && (l.hash? x 1).isSome).map (fun x => (x, 2)) ++ l.redo)) ∧
    (∀ l, s.launch? s.arg.lid = some l → (∃ r ∈ l.runs, r.1 = s.arg.wgx ∧ r.2.1 = 3) →
      (s.bottling l.lid (some s.arg.wgx) = true ∨ s.now 0 < l.bottleW → exec .redundantCompare s = .next s) ∧
      (s.bottling l.lid (some s.arg.wgx) = false → l.bottleW ≤ s.now 0 → ∃ t l', exec .redundantCompare s = .next t ∧ t.mem = s.mem ∧
        t.launch? l.lid = some l' ∧ l'.ndone = l.ndone + 1 ∧ ∀ r ∈ l'.runs, r.1 ≠ s.arg.wgx)) ∧
    (∀ w g l, s.wg? s.arg.wg = some w → w.group? s.arg.grp = some g → s.launch? w.lid = some l → l.det = true → l.ending = false →
      g.atEnd = false →
      let before (x : Workgroup) (h : Group) : Prop := h.frags ≠ [] ∧ (h.clock l.quantum < g.lclk ∨
        (h.clock l.quantum = g.lclk ∧ (x.wgx < w.wgx ∨ (x.wgx = w.wgx ∧ h.grp < g.grp))))
      ((∃ x ∈ s.running l.lid, ∃ h ∈ x.groups, before x h) → exec .syncOperationTurn s = .next s) ∧
      ((∀ x ∈ s.running l.lid, ∀ h ∈ x.groups, ¬ before x h ∧ h.atomWaits = false ∧ h.barvs = []) → ∃ t, exec .syncOperationTurn s = .next t ∧ t.mem = s.mem ∧
        t.group? s.arg.wg s.arg.grp = some { g with turn := true })) ∧
    (∀ l, s.launch? s.arg.lid = some l → l.det = true →
      (l.ending = false → s.allCounted l.lid = false → exec .quantumEnd s = .next s) ∧
      (l.ending = true → (∃ w ∈ s.wgs, w.lid = l.lid ∧ w.life ≠ .killed) → (∀ w ∈ s.wgs, w.lid = l.lid → w.held = []) →
        s.bottling l.lid none = false → s.copying l.lid = false → (∀ w ∈ s.running l.lid, l.bottleW ≤ s.now (coreDie w.core)) →
        (∀ w ∈ s.running l.lid, w.vatFaults = [] ∧ ∀ g ∈ w.groups, ∃ x ∈ g.frags, ∀ n, x.2.st ≠ .regroup n) →
        (∀ w ∈ s.running l.lid, w.groups ≠ []) →
        ∃ t l', exec .quantumEnd s = .next t ∧ t.mem = s.mem ∧ t.launch? l.lid = some l' ∧ l'.ending = false ∧
          ∀ run grp w g, s.wg? run = some w → w.lid = l.lid → w.group? grp = some g →
            t.group? run grp = some { g with lclk := g.clock l.quantum, atEnd := false, turn := false }))

/-! ### The host, the network, firmware, reliability and debug -/

/-- O54. Host writes and register writes (R3, R308-R314, R318, R321, R390). A BAR2 write leaves as posted writes, one
for each line of its span, and changes no memory yet; one that runs past the window is refused and counted; a BAR0 write
to a launch queue's area does the same to its IA, and is dropped before the boot has ended; counters keep 48 bits;
register writes change only their own register; the service firmware's save fetch goes through a mediated window, as
posted host writes, and clears the alternate area; in recovery mode the device ignores all these, and every write of a
register but those of the recovery mailbox and the peers' returns of allowance. The model's choices: a save fetch outside
every window changes nothing (log 61); that it leaves as posted host writes, and that a domain's row must fit (log 46);
the place of the alternate areas (log 37). -/
def Obligations.HostWrites : Prop :=
  ∀ s : State,
    let a := s.arg
    let ia := s.dev.winbase.toNat + a.off
    let sent (t : State) (at_ : Nat) (bs : List Byte) : Prop := (t.msgs.drop s.msgs.length).map (fun m => (m.use_, m.part.ia, m.part.dat))
      = (spanLines at_ bs.length).map fun x => (MsgUse.host, x.1, leNat ((bs.drop x.2.1).take x.2.2))
    (s.fw.recovery = true → a.flag2 = false ∨ a.space ≠ .recovery → ∀ i ∈ [Instr.hostBar2Write, .hostBar2Read, .completionCounterWrite, .classifierEntryWrite,
      .transmitQueueRegisterWrite, .saveFetch, .domainTableWrite], exec i s = .next s) ∧
    (s.fw.recovery = true → a.space ∈ [.bar0, .debug, .firmware] → exec .registerWrite s = .next s) ∧
    (s.fw.recovery = true → s.dev.ready = 0 → exec .hostBar0QueueWrite s = .next s) ∧
    (s.fw.recovery = false →
      (a.off + a.bytes.length ≤ 2 ^ 36 → (∀ x ∈ spanLines ia a.bytes.length, s.regionAt x.1 = .hbm ∧ s.ownerDom x.1 ≠ none) →
        ∃ t, exec .hostBar2Write s = .next t ∧ t.mem = s.mem ∧ t.dev = s.dev ∧ sent t ia a.bytes) ∧
      (2 ^ 36 < a.off + a.bytes.length → exec .hostBar2Write s
        = .next { s with logs := { s.logs with unsupported := s.logs.unsupported + 1 } }) ∧
      (a.num < 4096 → ∃ t, exec .completionCounterWrite s = .next t ∧ t.mem = s.mem ∧
        ∀ n, Map.look 0 t.dev.counters n = if n = a.num then a.v &&& 0xFFFFFFFFFFFF else Map.look 0 s.dev.counters n) ∧
      (a.num < 1024 → a.word < 4 → ∃ t, exec .classifierEntryWrite s = .next t ∧ t.dev.counters = s.dev.counters ∧
        ∀ e w, w < 4 → t.entryWord e w = if e = a.num ∧ w = a.word then a.v &&& classifierBits w else s.entryWord e w) ∧
      (a.num < 64 → a.word < 2 → ∃ t, exec .transmitQueueRegisterWrite s = .next t ∧ t.dev.classifier = s.dev.classifier ∧
        ∀ n, Map.look 0 t.dev.txregs n = if n = 2 * a.num + a.word then a.v &&& 0xFFFFFFFFFFFFF else Map.look 0 s.dev.txregs n) ∧
      (a.space = .debug → a.off ≠ 0 → ∃ t, exec .registerWrite s = .next t ∧ t.mem = s.mem ∧ t.dev = s.dev ∧ t.fw = s.fw ∧ t.wgs = s.wgs ∧
        (a.off = 0xC8 → t.dbg = { s.dbg with trbase := a.v }) ∧ (a.off = 0xC0 → t.dbg = { s.dbg with trctl := a.v &&& 0xF1 }) ∧
        (a.off = 0xD0 → t.dbg = { s.dbg with trsize := a.v }) ∧ (a.off = 0xD8 → t.dbg = { s.dbg with trptr := a.v }) ∧
        (a.off = 0x40 → ∀ n, Map.look 0 t.dbg.bps n = if n = 0 then a.v &&& 0x81FFFFFFFFFFFFF8 else Map.look 0 s.dbg.bps n)) ∧
      (let pa := altPa a.lq
       let takes := ∀ x ∈ spanLines a.ia 40960, s.fetchTakes x.1 = true
       (s.serviceRuns = false ∨ s.windowed 1 a.ia 40960 = false ∨ ¬ takes ∨ 64 ≤ a.lq → exec .saveFetch s = .next s) ∧
       (s.serviceRuns = true → s.windowed 1 a.ia 40960 = true → takes → a.lq < 64 → ∃ t, exec .saveFetch s = .next t ∧
         (∀ x, t.mem.byte x = if pa ≤ x ∧ x < pa + 40960 then 0 else s.mem.byte x) ∧
         (isPoisoned s.bad pa 40960 = false → sent t a.ia (s.mem.read pa 40960)))) ∧
      (a.flag = false → ∃ t, exec .domainTableWrite s = .next t ∧ t.dev.domains = s.dev.domains) ∧
      (a.flag = true → 3 ≤ s.dev.ready → s.rowFits a.dom a.row = true → ∃ t, exec .domainTableWrite s = .next t ∧ t.row a.dom = a.row ∧
        ∀ d, d ≠ a.dom → t.row d = s.row d)) ∧
    (∀ at_, s.queueIa a.off = some at_ →
      (s.dev.ready ≠ 5 → exec .hostBar0QueueWrite s = .next s) ∧
      (s.dev.ready = 5 → a.off + a.bytes.length ≤ (if a.off < 0x12000 then 0x12000 else 0x400000) →
        ∃ t, exec .hostBar0QueueWrite s = .next t ∧ t.mem = s.mem ∧ sent t at_ a.bytes))

/-- O55. Reads and AtomicOps of the host (R221, R308, R309, R314, R370, R374). Behind every posted write, a BAR2 read of
mapped lines of a domain is answered with the bytes of memory, but not while a freeze holds the homes (R328); an AtomicOp
outside a queue's block is answered with the old value and replaces it by the update, changing no other byte, or where its
line is taken or leased joins the home's queue (log 111); one that an error response answers is logged and unsupported;
one that reaches a frozen queue's block is answered
with an abort and changes nothing; of 128 bits, outside HBM or not aligned it is an Unsupported Request; launch queue
reinitialisation writes a fresh control block and lifts the freeze. -/
def Obligations.HostReads : Prop :=
  ∀ s : State, s.hostDrained = true →
    let a := s.arg
    (s.fw.recovery = false → a.flag2 = false → a.num = 0 → a.size ≠ 0 → a.off + a.size ≤ 2 ^ 36 →
      let xs := spanLines (s.dev.winbase.toNat + a.off) a.size
      (∀ x ∈ xs, s.regionAt x.1 = .hbm) →
      (s.homesHold = true → exec .hostBar2Read s = .next s) ∧
      (s.homesHold = false → (∀ x ∈ xs, s.xlatFault x.1 = none ∧ s.errorAt none x.1 = none ∧ s.ownerDom x.1 ≠ none ∧ s.lineFree x.1 = true) →
        ∃ t, exec .hostBar2Read s = .next t ∧ t.mem = s.mem ∧ t.wgs = s.wgs ∧ t.msgs = s.msgs ∧ t.logs.errors = s.logs.errors ∧
          t.logs.faults = s.logs.faults ∧ ∃ bad, t.dev = { s.dev with
            answers := s.dev.answers ++ [.data (xs.flatMap fun x => s.readIA x.1 x.2.2) bad] })) ∧
    (s.dev.ready = 5 →
      let n := if a.flag then 8 else 4
      let ia := s.dev.winbase.toNat + a.off
      let inside := a.size ≠ 16 ∧ a.flag2 = false ∧ a.off < 2 ^ 36
      (a.size = 16 ∨ (inside ∧ (s.regionAt ia ≠ .hbm ∨ ia % n ≠ 0)) → exec .hostAtomicop s = .next { s with
        logs := { s.logs with unsupported := s.logs.unsupported + 1 }, dev := { s.dev with answers := s.dev.answers ++ [.unsupported] } }) ∧
      (inside → s.regionAt ia = .hbm → ia % n = 0 → s.xlatFault ia ≠ none → ∃ t, exec .hostAtomicop s = .next t ∧ t.mem = s.mem ∧
        t.dev.answers = s.dev.answers ++ [.abort] ∧ t.logs.faults.length = s.logs.faults.length + 1) ∧
      (inside → s.regionAt ia = .hbm → ia % n = 0 → s.xlatFault ia = none → s.errorAt none ia ≠ none → ∃ t, exec .hostAtomicop s = .next t ∧
        t.mem = s.mem ∧ t.dev.answers = s.dev.answers ++ [.unsupported] ∧ t.logs.faults.length = s.logs.faults.length + 1) ∧
      (inside → s.regionAt ia = .hbm → ia % n = 0 → s.xlatFault ia = none → s.queueDom ia ≠ none → s.errorAt none ia = none →
        s.isBlock (ia / 128 * 128) = false → s.lineFree ia = false ∨ s.homeNow none ia < (s.home (ia / 128)).h →
        ∃ t m, exec .hostAtomicop s = .next t ∧ t.mem = s.mem ∧ t.dev = s.dev ∧ t.msgs.length = s.msgs.length + 1 ∧ m ∈ t.msgs ∧
          m.id = s.fresh ∧ m.use_ = .hostAtomic ∧ m.part.ia = ia ∧ m.part.size = n ∧ m.red = some (pcieOp a.op, if n = 8 then 2 else 0)) ∧
      (inside → s.regionAt ia = .hbm → ia % n = 0 → s.xlatFault ia = none → s.queueDom ia ≠ none → s.errorAt none ia = none →
        s.isBlock (ia / 128 * 128) = true → (s.qctl (.mem (ia / 128 * 128))).requeue = false →
        (s.qctl (.mem (ia / 128 * 128))).frozen ≠ 0 → exec .hostAtomicop s = .next { s with
          dev := { s.dev with answers := s.dev.answers ++ [.abort] } }) ∧
      (inside → s.regionAt ia = .hbm → ia % n = 0 → s.xlatFault ia = none → s.queueDom ia ≠ none → s.errorAt none ia = none →
        s.isBlock (ia / 128 * 128) = false → s.lineFree ia = true → (s.home (ia / 128)).h ≤ s.homeNow none ia → s.Clean →
        let old := s.leIA ia n
        ∃ t, exec .hostAtomicop s = .next t ∧ t.dev.answers = s.dev.answers ++ [.data (leBytes n old) false] ∧
          t.mem = s.mem.setLe (s.key ia) n (pcieNew a.op (8 * n) old a.v.toNat a.w.toNat) ∧
          ∀ x, x < s.key ia ∨ s.key ia + n ≤ x → t.mem.byte x = s.mem.byte x) ∧
      (a.num < 64 → s.windowed 1 (s.lqBlock a.num) 128 = true → s.dev.lqia % 128 = 0 → (s.l2? (s.lqBlock a.num / 128)).isSome →
        ∃ t b bad, exec .launchQueueReinit s = .next t ∧
        (t.qctl (.mem (s.lqBlock a.num))).frozen = 0 ∧ t.block? (.mem (s.lqBlock a.num)) = some (b, bad) ∧ b.head = 0 ∧ b.tail = 0 ∧
        b.resv = 0 ∧ b.lslot = 6 ∧ b.lesz = 9 ∧ b.free = 64 ∧ b.base = s.lqRing a.num % 2 ^ 64))

/-- O56. Frames and PTP (R318-R323). A frame that arrives at a port that is up is dropped and counted while the package
is frozen, dropped with a bad FCS, and counted as unmatched where no entry takes it; one that an entry takes, with room
in the entry's queue and no push waiting there, reserves an element and is sent there line by line, behind its time and
the landing word, with zeros behind it; a transmit queue's frame goes out on its port behind its FCS once PTP time has
reached its launch time, and HEAD moves on; DTIME is set once, at the first lock, and from then on only its rate
changes, by at most 500 ppm; LOCK holds within 100 ns. The form of the FCS and the parse of a frame are taken from the
family (log 47, PRESUMED); that the element is reserved at the frame's arrival and lands line by line is an inference
(log 48). -/
def Obligations.NetworkEvents : Prop :=
  ∀ s : State,
    let a := s.arg
    (s.dev.ready = 5 → s.ethernet a.port = true →
      (s.dbg.frozen = true → ∃ t, exec .frameArrival s = .next t ∧ t.mem = s.mem ∧ t.dev = s.dev ∧
        Map.look 0 t.logs.telemetry (freezeDropKey a.port) = Map.look 0 s.logs.telemetry (freezeDropKey a.port) + 1) ∧
      (s.dbg.frozen = false → a.flag = false → exec .frameArrival s = .next s) ∧
      (s.dbg.frozen = false → a.flag = true → s.classify a.port (frameKey a.bytes) = none → ∃ t, exec .frameArrival s = .next t ∧
        t.mem = s.mem ∧ ∀ p, Map.look 0 t.dev.unmatched p = Map.look 0 s.dev.unmatched p + if p = a.port then 1 else 0) ∧
      (s.dbg.frozen = false → a.flag = true → ∀ e b, s.classify a.port (frameKey a.bytes) = some e →
        let qia := (s.entryWord e 3).toNat
        let q : QKey := .mem qia
        qia ≠ 0 → qia % 128 = 0 → s.regionAt qia = .hbm → s.xlatFault qia = none → s.errorAt (s.queueDom qia) qia = none →
        (s.qctl q).requeue = false → (s.qctl q).frozen = 0 →
        s.queueCode q (s.queueDom qia) = 0 → s.block? q = some (b, false) → (s.l2? (qia / 128)).isSome → 0 < b.free →
        b.resv + 1 < 2 ^ 64 → (s.qctl q).pushW = [] → 16 + a.bytes.length ≤ b.esz →
        let full := leBytes 8 (ptpOf s.dtime).toNat ++ leBytes 8 (landWord a.bytes.length e a.port).toNat ++ a.bytes
          ++ List.replicate (b.esz - 16 - a.bytes.length) 0
        let lines := cutLines (b.slot b.resv) b.esz 9
        ∃ t b' bad, exec .frameArrival s = .next t ∧ t.dev.drops = s.dev.drops ∧ t.block? q = some (b', bad) ∧ b'.resv = b.resv + 1 ∧
          b'.head = b.head ∧ b'.tail = b.tail ∧ (t.qctl q).pushes = (s.qctl q).pushes ++ [(0, lines.length, s.fresh, b.resv, 1)] ∧
          (t.msgs.drop s.msgs.length).map (fun m => (m.use_, m.part.ia, m.part.dat))
            = lines.map fun x => (MsgUse.element q, x.1, leNat ((full.drop x.2.1).take x.2.2)))) ∧
    (s.dev.ready = 5 → s.dbg.frozen = false → a.port < 2 → s.ethernet a.port = true → (∀ n, n < 64 → s.txCorrupt n = false) →
      ∀ n b ia, (∀ k, k < 64 → k ≠ n → s.txReady a.port k = false) → n < 64 → s.txReady a.port n = true → s.txHead n = some (b, ia) →
        let h := s.leIA (ia + 8) 8
        let len := h / 2 ^ 48
        let frame := s.readSpan (ia + 16) len
        60 ≤ len → len ≤ 9216 → h / 4 % 2 ^ 46 = 0 → h.testBit 1 = false → 16 + len ≤ b.esz →
        s.txLost (s.queueDom (s.txQueue n)) ia b.esz = false →
        (∃ u, s.txRead (s.queueDom (s.txQueue n)) ia b.esz = some u ∧ (u.l2? (s.txQueue n / 128)).isSome) → b.head + 1 < 2 ^ 64 →
        ∃ t b' bad, exec .frameTransmit s = .next t ∧ t.dev.sent = s.dev.sent ++ [(a.port, frame ++ fcs frame)] ∧
          t.block? (.mem (s.txQueue n)) = some (b', bad) ∧ b'.head = b.head + 1 ∧ b'.tail = b.tail ∧ b'.resv = b.resv) ∧
    (s.ethernet a.port = true → ∃ t, exec .ptpEventTimestamp s = .next t ∧ t.mem = s.mem ∧ t.dtime = s.dtime ∧
      t.ptp.stamps = s.ptp.stamps ++ [(a.port, (ptpOf s.dtime).toNat)]) ∧
    (s.ptp.ever = true ∨ s.ptp.servo = false → exec .ptpFirstLock s = .next s) ∧
    (s.ptp.ever = false → s.ptp.servo = true → ∃ t, exec .ptpFirstLock s = .next t ∧ t.dtime = a.v.toNat ∧ t.ptp.ever = true ∧ t.ptp.offs = a.word32 ∧
      (t.ptp.lock = true ↔ -100 ≤ a.word32.toInt ∧ a.word32.toInt ≤ 100) ∧ t.wgs = s.wgs ∧ t.mem = s.mem) ∧
    (s.ptp.servo = true → ∃ t, exec .ptpServoUpdate s = .next t ∧ t.dtime = s.dtime ∧ t.ptp.offs = a.word32 ∧ t.ptp.ppm ≤ 500 ∧ t.ptp.ever = s.ptp.ever ∧
      (t.ptp.lock = true ↔ s.ptp.ever = true ∧ -100 ≤ a.word32.toInt ∧ a.word32.toInt ≤ 100) ∧ t.wgs = s.wgs ∧ t.mem = s.mem) ∧
    (∃ t, exec .ptpMasterLoss s = .next t ∧ t.dtime = s.dtime ∧ t.ptp.lock = false ∧ t.ptp.ppm = 0 ∧ t.wgs = s.wgs)

/-- O57. Boot, recovery and firmware (R14, R16, R374, R393, R394). Power-on and the mailbox's RESET run the boot: it
stops in recovery mode at the step and with the reason of the first image that flash does not give or that does not
verify (the record binds to the package and names the service image), and else ends ready with the values of the record;
memory keeps its content. A measurement failure at run time kills every workgroup. STAGE keeps RDATA as one block,
COMMIT writes flash only with RESULT 0, and an attestation answers with the measurements and the nonce, signed. A write
to 0x04 of the recovery mailbox runs the command that it names. Memory's content across power-on and RESET (log 5) and
the layout of the attestation's answer (log 46) are the model's choices. -/
def Obligations.FirmwareEvents : Prop :=
  ∀ s : State,
    let f := s.fw
    let r := Config.record f.config
    (∀ i ∈ [Instr.powerOnReset, .reset], ∃ t, exec i s = .next t ∧ t.mem = s.mem ∧ t.wgs = [] ∧ t.launches = [] ∧ t.msgs = [] ∧
      t.fw.rootExt = f.rootExt ∧ t.fw.config = f.config ∧ t.fw.services = f.services ∧
      let stops (step reason : Nat) : Prop := t.fw.recovery = true ∧ t.fw.booted = false ∧ t.fw.step = step ∧ t.fw.reason = reason ∧
        t.dev.ready = step - 1
      if f.rootExt = [] then stops 1 4
      else if imageOk 1 f.rootExt = false then stops 1 1
      else if f.config = [] then stops 2 4
      else if imageOk 2 f.config = false ∨ r.identity ≠ Config.identity then stops 2 2
      else if f.serviceImage r.image = [] then stops 3 4
      else if imageOk 3 (f.serviceImage r.image) = false then stops 3 3
      else t.fw.booted = true ∧ t.fw.recovery = false ∧ t.dev.ready = 5 ∧ t.ptp.servo = true ∧ t.dev.rsvsz = r.rsvsz ∧
        t.dev.pkg = r.pkg ∧ t.dev.sku = r.sku ∧ t.dev.licence = r.licence ∧ t.dbg.en = r.debugOn) ∧
    (s.dev.ready = 5 → ∃ t, exec .runtimeMeasurementFailure s = .next t ∧ t.fw.recovery = true ∧ t.fw.reason = 5 ∧ t.dev.ready = 0 ∧
      ∀ w, s.wg? w.run = some w → ∃ x, t.wg? w.run = some x ∧ x.life = .killed) ∧
    (∃ t, exec .stage s = .next t ∧ t.mem = s.mem ∧ Map.get? t.fw.staging (s.arg.num % 2 ^ 24) = some f.rdata ∧ t.fw.result = 0 ∧
      (∀ k, k ≠ s.arg.num % 2 ^ 24 → Map.get? t.fw.staging k = Map.get? f.staging k)) ∧
    (let kind := s.arg.num % 2 ^ 24
     ∃ t, exec .commit s = .next t ∧ t.mem = s.mem ∧
      (t.fw.result = 4 ↔ kind = 0 ∨ 3 < kind) ∧
      (1 ≤ kind → kind ≤ 3 → (t.fw.result = 1 ↔ imageOk kind f.image = false)) ∧
      (t.fw.result = 0 → (kind = 1 → t.fw.rootExt = f.image) ∧ (kind = 2 → t.fw.config = f.image) ∧
        (kind = 3 → ∀ n, Map.get? t.fw.services n = if n = Config.imageNumber f.image then some f.image else Map.get? f.services n)) ∧
      (t.fw.result ≠ 0 ∨ kind ≠ 1 → t.fw.rootExt = f.rootExt) ∧ (t.fw.result ≠ 0 ∨ kind ≠ 2 → t.fw.config = f.config) ∧
      (t.fw.result ≠ 0 ∨ kind ≠ 3 → t.fw.services = f.services)) ∧
    (s.arg.space = .recovery → s.arg.off = 4 →
      let n := (s.arg.v.extractLsb' 8 24).toNat
      let cmd := (s.arg.v.extractLsb' 0 8).toNat
      (cmd = 1 → ∃ t, exec .registerWrite s = .next t ∧ t.mem = s.mem ∧ Map.get? t.fw.staging n = some f.rdata ∧ t.fw.result = 0) ∧
      (cmd = 2 → ∃ t, exec .registerWrite s = .next t ∧ t.mem = s.mem ∧ (t.fw.result = 4 ↔ n = 0 ∨ 3 < n) ∧
        (t.fw.result = 0 → n = 1 → t.fw.rootExt = f.image)) ∧
      (cmd = 3 → exec .registerWrite s = exec .reset s) ∧
      (cmd = 0 ∨ 3 < cmd → ∃ t, exec .registerWrite s = .next t ∧ t.mem = s.mem ∧ t.fw.result = 4 ∧ t.fw.staging = f.staging ∧
        t.fw.rootExt = f.rootExt ∧ t.fw.config = f.config ∧ t.fw.services = f.services)) ∧
    (f.recovery = false → f.booted = true → s.arg.bytes.length = 48 → ∃ t, exec .attestationRequest s = .next t ∧ t.mem = s.mem ∧
      t.fw.responses = f.responses ++ [(f.measured ++ s.arg.bytes) ++ identitySign (f.measured ++ s.arg.bytes)])

/-- O58. Errors and links (R376, R377, R381, R387, R389). An uncorrectable error poisons exactly the lane word of a
vector register, the scalar register, the sector of the scratchpad, or the sectors of an HBM burst that L2 does not hold,
with one record, and changes no data; a correctable one is counted and logged; an isolated port, of the trellis, CXL or
PCIe (log 103), is logged and holds no send allowance, and restoring it or clearing its log changes nothing else. -/
def Obligations.ReliabilityEvents : Prop :=
  ∀ s : State,
    let port := s.arg.port
    let one (t : State) : Prop := t.logs.errors.length = s.logs.errors.length + 1
    (s.siteExists s.arg.site = true → s.arg.flag = true →
      ∃ t, exec .arrayError s = .next t ∧ t.mem = s.mem ∧ t.bad = s.bad ∧ t.wgs = s.wgs ∧ one t ∧
        Map.look 0 t.logs.telemetry (siteArray s.arg.site) = Map.look 0 s.logs.telemetry (siteArray s.arg.site) + 1) ∧
    (s.arg.flag = false →
      (∀ wg grp reg lane g, s.arg.site = .vreg wg grp reg lane → s.group? wg grp = some g → lane < 64 → ∃ t h, exec .arrayError s = .next t ∧
        t.mem = s.mem ∧ one t ∧ t.group? wg grp = some h ∧ h.vregs = g.vregs ∧ h.badS = g.badS ∧
        ∀ r i, i < 64 → h.badV.contains (r * 64 + i) = (g.badV.contains (r * 64 + i) || (r == reg && i == lane))) ∧
      (∀ wg grp reg g, s.arg.site = .sreg wg grp reg → s.group? wg grp = some g → ∃ t h, exec .arrayError s = .next t ∧
        t.mem = s.mem ∧ t.bad = s.bad ∧ one t ∧ t.group? wg grp = some h ∧ h.sregs = g.sregs ∧ h.vregs = g.vregs ∧ h.badV = g.badV ∧
        ∀ r, h.badS.contains r = (g.badS.contains r || r == reg)) ∧
      (∀ wg sector g w, s.arg.site = .spad wg sector → s.group? wg 0 = some g → s.wg? wg = some w → ∃ t x, exec .arrayError s = .next t ∧
        t.mem = s.mem ∧ one t ∧ t.wg? wg = some x ∧ x.spad = w.spad ∧ ∀ k, x.spadBad.contains k = (w.spadBad.contains k || k == sector)) ∧
      (∀ burst, s.arg.site = .hbm burst → 64 * burst < 2 ^ 39 → ∃ t, exec .arrayError s = .next t ∧ t.mem = s.mem ∧
        t.wgs = s.wgs ∧ one t ∧ ∀ k, t.bad.contains k = (s.bad.contains k || (decide (4 * burst ≤ k) && decide (k < 4 * burst + 4) &&
          s.l2.all fun y => y.pa / 128 != k / 8 || !y.valid.contains (k % 8))))) ∧
    (port < 20 ∨ port = 22 → s.dev.isolated.contains port = false → ∃ t, exec .linkIsolate s = .next t ∧ t.mem = s.mem ∧ one t ∧
      t.dev.isolated = s.dev.isolated ++ [port] ∧ (∀ k, k / 4 = port → Map.look 0 t.dev.allow k = 0) ∧ ∃ d ∈ t.logs.drops, d.1 = port ∧ d.2.2.1 = s.dtime) ∧
    (s.serviceRuns = true → ∃ xs, exec .linkRestore s = .next { s with dev := { s.dev with isolated := xs } } ∧
      ∀ p, xs.contains p = (s.dev.isolated.contains p && p != port)) ∧
    (s.serviceRuns = true → ∃ xs, exec .droppedWriteLogClear s = .next { s with logs := { s.logs with drops := xs } } ∧
      xs.map (·.1) = s.logs.drops.map (·.1) ∧ (∀ d ∈ xs, d.1 = port → d.2.1 = 0 ∧ d.2.2.2 = []) ∧ ∀ d ∈ s.logs.drops, d.1 ≠ port → d ∈ xs)

/-- O59. Debug (R325, R328-R333, R367). HALT of an enabled block freezes the package at once, with a stop record of
CAUSE 4 for every group while there is room; RESUME clears the records and gives the commands of the freeze; STEP of a
stopped group lets that group alone issue one word, and its completion writes CAUSE 5; a series latch sends one record
of 64 bytes for each unit and counts from zero; a host's write of DBGCTL clears OVF and sets SREC by its fields and runs
its CMD: 1 halt, 2 resume, 3 step (R3, R324). That RESUME clears the records, that a step's record takes the place of
the group's own, and that HALT freezes at once are the model's choices (log 9). -/
def Obligations.DebugEvents : Prop :=
  ∀ s : State,
    (s.dbg.en = true → s.dbg.frozen = false → s.fw.recovery = false → ∃ t, exec .debugHalt s = .next t ∧ t.mem = s.mem ∧ t.wgs = s.wgs ∧ t.dbg.frozen = true ∧
      t.dbg.frozenAt = s.dtime ∧ s.dbg.stops.length ≤ t.dbg.stops.length ∧ t.dbg.stops.length ≤ max 16 s.dbg.stops.length ∧
      ∀ w g x, s.wgs = [w] → w.groups = [g] → g.nextWord (s.detOf w) = some x → s.dbg.stops = [] → ∃ r, t.dbg.stops = [r] ∧
        r.getD 1 0 = fields [(60, 4), (0, (x.2.pc &&& 0x1FFFFFFFFFFFFFF).toNat)]) ∧
    (s.dbg.en = false → exec .debugHalt s = .next s) ∧
    (s.fw.recovery = false → s.arg.space = .debug → s.arg.off = 0 →
      let v := s.arg.v
      let u : State := { s with dbg := { s.dbg with ovf := s.dbg.ovf && !v.getLsbD 12, srec := (v.extractLsb' 8 4).toNat } }
      exec .registerWrite s = (match (v.extractLsb' 1 2).toNat with
        | 1 => exec .debugHalt u
        | 2 => exec .debugResume u
        | 3 => exec .debugStep u
        | _ => .next u)) ∧
    (s.dbg.frozen = true → s.fw.recovery = false → s.dbg.deferred = [] → ∃ t, exec .debugResume s = .next t ∧ t.mem = s.mem ∧ t.wgs = s.wgs ∧ t.dbg.frozen = false ∧
      t.dbg.stops = [] ∧ t.dbg.stepping = none ∧
      ∀ l x, s.launch? l.lid = some l → l.drainAt = some x → ∃ l', t.launch? l.lid = some l' ∧
        l'.drainAt = some (x + (s.dtime - max s.dbg.frozenAt x))) ∧
    (s.dbg.frozen = true → s.fw.recovery = false → s.dbg.stepping = none → ∀ x, s.dbg.stopped[s.dbg.srec]? = some x →
      ∃ t, exec .debugStep s = .next t ∧ t.mem = s.mem ∧ t.wgs = s.wgs ∧ t.dbg.frozen = true ∧ t.dbg.stepping = some x ∧
        t.dbg.stepDone = false ∧ t.dbg.stops = s.dbg.stops) ∧
    (∀ run grp w g x, s.dbg.stepping = some (run, grp) → s.wg? run = some w → w.group? grp = some g →
      s.dbg.stepDone = true ∨ g.frags.any (g.mayGo (s.detOf w)) = false →
      (∀ a ∈ g.accs, a.id < s.dbg.stepFrom ∨ a.served = true) → s.steppedWord w g = some x →
      ∃ (t : State) (r : List DWord), exec .debugStepComplete s = .next t ∧ t.mem = s.mem ∧ t.wgs = s.wgs ∧ t.dbg.stepping = none ∧
        (∀ i : Nat, t.dbg.stops[i]? = if s.dbg.stopped[i]? = some (run, grp) then (s.dbg.stops[i]?).map (fun _ => r) else s.dbg.stops[i]?) ∧
        r.getD 1 0 = fields [(60, 5), (0, (x.2.pc &&& 0x1FFFFFFFFFFFFFF).toNat)]) ∧
    (let d := s.dbg
     d.serctl.getLsbD 0 = true → 10 ≤ d.latchK → d.latchK ≤ 24 → d.seq < d.latchesBy s.dtime → 64 ≤ d.sersize.toNat →
      (∀ m ∈ s.msgs, m.use_ ≠ .series) →
      ∃ t, exec .seriesLatch s = .next t ∧ t.mem = s.mem ∧ t.wgs = s.wgs ∧ t.dbg.seq = d.seq + 1 ∧ t.dbg.perf = [] ∧
        t.msgs.length = s.msgs.length + seriesUnits.length ∧ ∀ m ∈ t.msgs.drop s.msgs.length, m.use_ = .series ∧ m.part.size = 64)

/-! ### Minimum and maximum -/

/-- O60. FMIN and FMAX (R117): the lesser or the greater of two numbers, -0 below +0; of a number and a NaN the number;
of two NaNs the canonical NaN; NV where an operand is signalling, and no other flag. The value of the operation that the
words deliver in each lane is this one. -/
def Obligations.MinMax : Prop :=
  (∀ (m : Fmt) (isMax : Bool) (a b : Nat), m ∈ [fp32, fp16, bf16] → a < 2 * m.signBit → b < 2 * m.signBit →
    let r := m.minmaxF isMax false a b
    let place (x : Nat) : Int := if m.signBit ≤ x then (m.signBit : Int) - 1 - x else x
    ((m.value a).isNan = false → (m.value b).isNan = false → (r.1 = a ∨ r.1 = b) ∧
      (if isMax then place a ≤ place r.1 ∧ place b ≤ place r.1 else place r.1 ≤ place a ∧ place r.1 ≤ place b)) ∧
    ((m.value a).isNan = true → (m.value b).isNan = false → r.1 = b) ∧
    ((m.value a).isNan = false → (m.value b).isNan = true → r.1 = a) ∧
    ((m.value a).isNan = true → (m.value b).isNan = true → r.1 = m.nan) ∧
    r.2 = if (m.value a).isSNan = true ∨ (m.value b).isSNan = true then fNV else 0) ∧
  (∀ (m : Fmt) (k : Nat) (ftz isMax : Bool) (x y z : Dual), m ∈ [fp32, fp16, bf16] → x.v.toNat < 2 * m.signBit →
    y.v.toNat < 2 * m.signBit → (fMinmax m k ftz isMax x y z).1.v.toNat = (m.minmaxF isMax ftz x.v.toNat y.v.toNat).1)
end

