-- ==== Sys2Proof/Laws/Map.lean ====
section
/-! SUPPORT. Finite maps and memory: reading after writing, and the canonical form that every operation keeps. -/

namespace Sys2Proof.Machine

section
variable {α : Type}

/-! ### Reading -/

@[simp] theorem Map.look_nil (d : α) (k : Nat) : Map.look d [] k = d := rfl

theorem Map.look_cons (d : α) (p : Nat × α) (t : Map α) (k : Nat) :
    Map.look d (p :: t) k = if p.1 = k then p.2 else Map.look d t k := rfl

theorem Map.look_of_absent (d : α) (m : Map α) (k : Nat) (h : ∀ p ∈ m, p.1 ≠ k) : Map.look d m k = d := by
  induction m with
  | nil => rfl
  | cons p t ih =>
    rw [Map.look_cons, if_neg (h p (by simp))]
    exact ih fun q hq => h q (by simp [hq])

theorem Map.look_erase (d : α) (m : Map α) (k j : Nat) :
    Map.look d (Map.erase m k) j = if j = k then d else Map.look d m j := by
  induction m with
  | nil => simp [Map.erase]
  | cons p t ih =>
    by_cases hp : p.1 = k
    · have : Map.erase (p :: t) k = Map.erase t k := by simp [Map.erase, hp]
      rw [this, ih, Map.look_cons]
      by_cases hj : j = k
      · simp [hj]
      · rw [if_neg hj, if_neg hj, if_neg (by omega)]
    · have : Map.erase (p :: t) k = p :: Map.erase t k := by simp [Map.erase, hp]
      rw [this, Map.look_cons, Map.look_cons, ih]
      by_cases hj : j = k
      · simp [hj, hp]
      · simp [hj]

theorem Map.erase_absent (m : Map α) (k : Nat) : ∀ p ∈ Map.erase m k, p.1 ≠ k := by
  intro p hp
  simpa using (List.mem_filter.mp hp).2

theorem Map.look_ins (d : α) (k : Nat) (v : α) (m : Map α) (h : ∀ p ∈ m, p.1 ≠ k) (j : Nat) :
    Map.look d (Map.ins k v m) j = if j = k then v else Map.look d m j := by
  induction m with
  | nil =>
    simp only [Map.ins, Map.look]
    by_cases hj : k = j
    · subst hj; simp
    · simp [hj, Ne.symm hj]
  | cons p t ih =>
    obtain ⟨i, x⟩ := p
    have hi : i ≠ k := h (i, x) (by simp)
    by_cases hk : k < i
    · simp only [Map.ins, if_pos hk, Map.look]
      by_cases hj : k = j
      · subst hj; simp
      · simp [hj, Ne.symm hj]
    · simp only [Map.ins, if_neg hk, Map.look]
      rw [ih fun q hq => h q (by simp [hq])]
      by_cases hj : j = k
      · subst hj; simp [hi]
      · simp [hj]

/-- Reading a map after one entry was put. -/
theorem Map.look_put [DecidableEq α] (d : α) (m : Map α) (k : Nat) (v : α) (j : Nat) :
    Map.look d (Map.put d m k v) j = if j = k then v else Map.look d m j := by
  unfold Map.put
  split
  · rename_i hv
    rw [Map.look_erase]
    by_cases hj : j = k <;> simp [hj, hv]
  · rw [Map.look_ins _ _ _ _ (Map.erase_absent m k), Map.look_erase]
    by_cases hj : j = k <;> simp [hj]

@[simp] theorem Map.look_put_self [DecidableEq α] (d : α) (m : Map α) (k : Nat) (v : α) : Map.look d (Map.put d m k v) k = v := by
  simp [Map.look_put]

theorem Map.look_put_ne [DecidableEq α] (d : α) (m : Map α) {k j : Nat} (v : α) (h : j ≠ k) :
    Map.look d (Map.put d m k v) j = Map.look d m j := by
  simp [Map.look_put, h]

theorem Map.get?_cons (p : Nat × α) (t : Map α) (k : Nat) : Map.get? (p :: t) k = if p.1 = k then some p.2 else Map.get? t k := rfl

theorem Map.get?_erase (m : Map α) (k j : Nat) : Map.get? (Map.erase m k) j = if j = k then none else Map.get? m j := by
  induction m with
  | nil => simp [Map.erase, Map.get?]
  | cons p t ih =>
    by_cases hp : p.1 = k
    · have : Map.erase (p :: t) k = Map.erase t k := by simp [Map.erase, hp]
      rw [this, ih, Map.get?_cons]
      by_cases hj : j = k
      · simp [hj]
      · rw [if_neg hj, if_neg hj, if_neg (by omega)]
    · have : Map.erase (p :: t) k = p :: Map.erase t k := by simp [Map.erase, hp]
      rw [this, Map.get?_cons, Map.get?_cons, ih]
      by_cases hj : j = k
      · simp [hj, hp]
      · simp [hj]

/-- Finding an entry after one was set. -/
theorem Map.get?_set (m : Map α) (k : Nat) (v : α) (j : Nat) :
    Map.get? (Map.set m k v) j = if j = k then some v else Map.get? m j := by
  have ins : ∀ (t : Map α), (∀ p ∈ t, p.1 ≠ k) → Map.get? (Map.ins k v t) j = if j = k then some v else Map.get? t j := by
    intro t
    induction t with
    | nil =>
      intro _
      simp only [Map.ins, Map.get?]
      by_cases hj : k = j
      · subst hj; simp
      · simp [hj, Ne.symm hj]
    | cons p t ih =>
      intro h
      obtain ⟨i, x⟩ := p
      have hi : i ≠ k := h (i, x) (by simp)
      by_cases hk : k < i
      · simp only [Map.ins, if_pos hk, Map.get?]
        by_cases hj : k = j
        · subst hj; simp
        · simp [hj, Ne.symm hj]
      · simp only [Map.ins, if_neg hk, Map.get?]
        rw [ih fun q hq => h q (by simp [hq])]
        by_cases hj : j = k
        · subst hj; simp [hi]
        · simp [hj]
  rw [Map.set, ins _ (Map.erase_absent m k), Map.get?_erase]
  by_cases hj : j = k <;> simp [hj]

/-! ### The canonical form -/

/-- The form in terms of every entry. -/
theorem Map.wf_iff [DecidableEq α] (d : α) (m : Map α) :
    Map.wf d m = true ↔ m.Pairwise (fun p q => p.1 < q.1) ∧ ∀ p ∈ m, p.2 ≠ d := by
  induction m with
  | nil => simp [Map.wf]
  | cons p t ih =>
    cases t with
    | nil => simp [Map.wf]
    | cons q t =>
      obtain ⟨i, v⟩ := p
      obtain ⟨j, w⟩ := q
      simp only [Map.wf, Bool.and_eq_true, decide_eq_true_eq, ih, List.pairwise_cons]
      constructor
      · rintro ⟨⟨hij, hv⟩, ⟨⟨hq, ht⟩, hd⟩⟩
        refine ⟨⟨?_, hq, ht⟩, ?_⟩
        · intro r hr
          rcases List.mem_cons.mp hr with rfl | hr
          · exact hij
          · exact Nat.lt_trans hij (hq r hr)
        · intro r hr
          rcases List.mem_cons.mp hr with rfl | hr
          · exact hv
          · exact hd r hr
      · rintro ⟨⟨hp, hq, ht⟩, hd⟩
        exact ⟨⟨hp (j, w) (by simp), hd (i, v) (by simp)⟩, ⟨hq, ht⟩, fun r hr => hd r (by simp [hr])⟩

theorem Map.mem_ins (k : Nat) (v : α) (m : Map α) (p : Nat × α) : p ∈ Map.ins k v m ↔ p = (k, v) ∨ p ∈ m := by
  induction m with
  | nil => simp [Map.ins]
  | cons q t ih =>
    obtain ⟨i, x⟩ := q
    unfold Map.ins
    split
    · simp
    · simp only [List.mem_cons, ih]
      constructor
      · rintro (h | h | h)
        · exact .inr (.inl h)
        · exact .inl h
        · exact .inr (.inr h)
      · rintro (h | h | h)
        · exact .inr (.inl h)
        · exact .inl h
        · exact .inr (.inr h)

theorem Map.ins_sorted (k : Nat) (v : α) (m : Map α) (hm : m.Pairwise fun p q => p.1 < q.1) (hk : ∀ p ∈ m, p.1 ≠ k) :
    (Map.ins k v m).Pairwise fun p q => p.1 < q.1 := by
  induction m with
  | nil => simp [Map.ins]
  | cons q t ih =>
    obtain ⟨i, x⟩ := q
    obtain ⟨h1, h2⟩ := List.pairwise_cons.mp hm
    have hi : i ≠ k := hk (i, x) (by simp)
    unfold Map.ins
    split
    · rename_i h
      refine List.pairwise_cons.mpr ⟨?_, hm⟩
      intro r hr
      rcases List.mem_cons.mp hr with rfl | hr
      · exact h
      · exact Nat.lt_trans h (h1 r hr)
    · rename_i h
      refine List.pairwise_cons.mpr ⟨?_, ih h2 fun p hp => hk p (by simp [hp])⟩
      intro r hr
      rcases (Map.mem_ins k v t r).mp hr with rfl | hr
      · change i < k
        omega
      · exact h1 r hr

/-- Taking an entry out keeps the form. -/
theorem Map.erase_wf [DecidableEq α] (d : α) (m : Map α) (k : Nat) (h : Map.wf d m = true) : Map.wf d (Map.erase m k) = true := by
  rw [Map.wf_iff] at *
  exact ⟨h.1.sublist List.filter_sublist, fun p hp => h.2 p (List.mem_filter.mp hp).1⟩

/-- Putting an entry keeps the form. -/
theorem Map.put_wf [DecidableEq α] (d : α) (m : Map α) (k : Nat) (v : α) (h : Map.wf d m = true) :
    Map.wf d (Map.put d m k v) = true := by
  have he := Map.erase_wf d m k h
  unfold Map.put
  split
  · exact he
  · rename_i hv
    rw [Map.wf_iff] at *
    refine ⟨Map.ins_sorted k v _ he.1 (Map.erase_absent m k), ?_⟩
    intro p hp
    rcases (Map.mem_ins k v _ p).mp hp with rfl | hp
    · exact hv
    · exact he.2 p hp

end

/-! ### Memory -/

theorem Memory.byte_setByte (m : Memory) (a : Nat) (b : Byte) (x : Nat) :
    Memory.byte (Memory.setByte m a b) x = if x = a then b else Memory.byte m x := Map.look_put _ _ _ _ _

theorem Memory.setByte_wf (m : Memory) (a : Nat) (b : Byte) (h : Memory.wf m = true) : Memory.wf (Memory.setByte m a b) = true :=
  Map.put_wf _ _ _ _ h

/-- A write of bytes keeps the form. -/
theorem Memory.write_wf (bs : List Byte) : ∀ (m : Memory) (a : Nat), Memory.wf m = true → Memory.wf (Memory.write m a bs) = true := by
  induction bs with
  | nil => intro m a h; exact h
  | cons b t ih => intro m a h; exact ih _ _ (Memory.setByte_wf m a b h)

theorem Memory.setLe_wf (m : Memory) (a n v : Nat) (h : Memory.wf m = true) : Memory.wf (Memory.setLe m a n v) = true :=
  Memory.write_wf _ _ _ h

/-- Reading one byte after a write of bytes: the byte written there, or what stood there before. -/
theorem Memory.byte_write (bs : List Byte) : ∀ (m : Memory) (a x : Nat),
    Memory.byte (Memory.write m a bs) x = if a ≤ x ∧ x < a + bs.length then bs.getD (x - a) 0 else Memory.byte m x := by
  induction bs with
  | nil =>
    intro m a x
    rw [Memory.write, if_neg]
    rintro ⟨h1, h2⟩
    simp only [List.length_nil, Nat.add_zero] at h2
    omega
  | cons b t ih =>
    intro m a x
    rw [Memory.write, ih, Memory.byte_setByte]
    by_cases h1 : x = a
    · subst h1
      rw [if_neg (by omega), if_pos rfl, if_pos (by simp)]
      simp
    · by_cases h2 : a + 1 ≤ x ∧ x < a + 1 + t.length
      · rw [if_pos h2, if_pos (by simp; omega)]
        obtain ⟨n, hn⟩ : ∃ n, x - a = n + 1 := ⟨x - a - 1, by omega⟩
        have : x - (a + 1) = n := by omega
        rw [hn, this]
        simp
      · rw [if_neg h2, if_neg h1, if_neg (by simp; omega)]

/-- A write leaves every other byte as it was. -/
theorem Memory.byte_write_outside (m : Memory) (a : Nat) (bs : List Byte) (x : Nat) (h : x < a ∨ a + bs.length ≤ x) :
    Memory.byte (Memory.write m a bs) x = Memory.byte m x := by
  rw [Memory.byte_write, if_neg (by omega)]

@[simp] theorem Memory.read_length (m : Memory) (a n : Nat) : (Memory.read m a n).length = n := by
  induction n generalizing a with
  | zero => rfl
  | succ n ih => simp [Memory.read, ih]

theorem Memory.read_getD (m : Memory) (a n i : Nat) (h : i < n) : (Memory.read m a n).getD i 0 = Memory.byte m (a + i) := by
  induction n generalizing a i with
  | zero => omega
  | succ n ih =>
    cases i with
    | zero => simp [Memory.read]
    | succ i =>
      have := ih (a + 1) i (by omega)
      simp only [Memory.read, List.getD_cons_succ, this]
      congr 1
      omega

/-- Bytes read back where they were written. -/
theorem Memory.read_write_self (m : Memory) (a : Nat) (bs : List Byte) : Memory.read (Memory.write m a bs) a bs.length = bs := by
  apply List.ext_getElem (by simp)
  intro i h1 h2
  have h : i < bs.length := h2
  have e := Memory.read_getD (Memory.write m a bs) a bs.length i h
  rw [Memory.byte_write, if_pos (by omega)] at e
  simp only [List.getD_eq_getElem?_getD, List.getElem?_eq_getElem h1, Option.getD_some, Nat.add_sub_cancel_left,
    List.getElem?_eq_getElem h] at e
  exact e

/-- A read of bytes that a write does not touch. -/
theorem Memory.read_write_outside (m : Memory) (a : Nat) (bs : List Byte) (x n : Nat) (h : x + n ≤ a ∨ a + bs.length ≤ x) :
    Memory.read (Memory.write m a bs) x n = Memory.read m x n := by
  apply List.ext_getElem (by simp)
  intro i h1 h2
  have hi : i < n := by simpa using h1
  have e1 := Memory.read_getD (Memory.write m a bs) x n i hi
  have e2 := Memory.read_getD m x n i hi
  simp only [List.getD_eq_getElem?_getD, List.getElem?_eq_getElem h1, Option.getD_some] at e1
  simp only [List.getD_eq_getElem?_getD, List.getElem?_eq_getElem h2, Option.getD_some] at e2
  rw [e1, e2, Memory.byte_write_outside]
  omega

end Sys2Proof.Machine

namespace Sys2Proof

/-! ### Little-endian numbers -/

@[simp] theorem leBytes_length (n x : Nat) : (leBytes n x).length = n := by
  induction n generalizing x with
  | zero => rfl
  | succ n ih => simp [leBytes, ih]

/-- A number that fits in `n` bytes is read back from them. -/
theorem leNat_leBytes (n x : Nat) (h : x < 256 ^ n) : leNat (leBytes n x) = x := by
  induction n generalizing x with
  | zero => simp [leBytes, leNat] at *; omega
  | succ n ih =>
    simp only [leBytes, leNat, BitVec.toNat_ofNat]
    rw [ih (x / 256) (by rw [Nat.pow_succ] at h; omega)]
    omega

end Sys2Proof
end

