-- ==== Sys2Proof/Laws/State.lean ====
section
/-! SUPPORT. What each named operation leaves as it was: one lemma for each field of the state and each operation. -/

namespace Sys2Proof.Machine

/-! ### `State.putWg` -/

@[simp] theorem State.putWg_agenda (s : State) (w : Workgroup) : (s.putWg w).agenda = s.agenda := rfl
@[simp] theorem State.putWg_cursor (s : State) (w : Workgroup) : (s.putWg w).cursor = s.cursor := rfl
@[simp] theorem State.putWg_arg (s : State) (w : Workgroup) : (s.putWg w).arg = s.arg := rfl
@[simp] theorem State.putWg_fresh (s : State) (w : Workgroup) : (s.putWg w).fresh = s.fresh := rfl
@[simp] theorem State.putWg_dtime (s : State) (w : Workgroup) : (s.putWg w).dtime = s.dtime := rfl
@[simp] theorem State.putWg_cyc (s : State) (w : Workgroup) : (s.putWg w).cyc = s.cyc := rfl
@[simp] theorem State.putWg_skews (s : State) (w : Workgroup) : (s.putWg w).skews = s.skews := rfl
@[simp] theorem State.putWg_ptp (s : State) (w : Workgroup) : (s.putWg w).ptp = s.ptp := rfl
@[simp] theorem State.putWg_mem (s : State) (w : Workgroup) : (s.putWg w).mem = s.mem := rfl
@[simp] theorem State.putWg_bad (s : State) (w : Workgroup) : (s.putWg w).bad = s.bad := rfl
@[simp] theorem State.putWg_l2 (s : State) (w : Workgroup) : (s.putWg w).l2 = s.l2 := rfl
@[simp] theorem State.putWg_homes (s : State) (w : Workgroup) : (s.putWg w).homes = s.homes := rfl
@[simp] theorem State.putWg_xlat (s : State) (w : Workgroup) : (s.putWg w).xlat = s.xlat := rfl
@[simp] theorem State.putWg_cores (s : State) (w : Workgroup) : (s.putWg w).cores = s.cores := rfl
@[simp] theorem State.putWg_launches (s : State) (w : Workgroup) : (s.putWg w).launches = s.launches := rfl
@[simp] theorem State.putWg_msgs (s : State) (w : Workgroup) : (s.putWg w).msgs = s.msgs := rfl
@[simp] theorem State.putWg_queues (s : State) (w : Workgroup) : (s.putWg w).queues = s.queues := rfl
@[simp] theorem State.putWg_dev (s : State) (w : Workgroup) : (s.putWg w).dev = s.dev := rfl
@[simp] theorem State.putWg_fw (s : State) (w : Workgroup) : (s.putWg w).fw = s.fw := rfl
@[simp] theorem State.putWg_dbg (s : State) (w : Workgroup) : (s.putWg w).dbg = s.dbg := rfl
@[simp] theorem State.putWg_logs (s : State) (w : Workgroup) : (s.putWg w).logs = s.logs := rfl

/-! ### `State.onWg` -/

@[simp] theorem State.onWg_agenda (s : State) (run : Nat) (f : Workgroup → Workgroup) : (s.onWg run f).agenda = s.agenda := rfl
@[simp] theorem State.onWg_cursor (s : State) (run : Nat) (f : Workgroup → Workgroup) : (s.onWg run f).cursor = s.cursor := rfl
@[simp] theorem State.onWg_arg (s : State) (run : Nat) (f : Workgroup → Workgroup) : (s.onWg run f).arg = s.arg := rfl
@[simp] theorem State.onWg_fresh (s : State) (run : Nat) (f : Workgroup → Workgroup) : (s.onWg run f).fresh = s.fresh := rfl
@[simp] theorem State.onWg_dtime (s : State) (run : Nat) (f : Workgroup → Workgroup) : (s.onWg run f).dtime = s.dtime := rfl
@[simp] theorem State.onWg_cyc (s : State) (run : Nat) (f : Workgroup → Workgroup) : (s.onWg run f).cyc = s.cyc := rfl
@[simp] theorem State.onWg_skews (s : State) (run : Nat) (f : Workgroup → Workgroup) : (s.onWg run f).skews = s.skews := rfl
@[simp] theorem State.onWg_ptp (s : State) (run : Nat) (f : Workgroup → Workgroup) : (s.onWg run f).ptp = s.ptp := rfl
@[simp] theorem State.onWg_mem (s : State) (run : Nat) (f : Workgroup → Workgroup) : (s.onWg run f).mem = s.mem := rfl
@[simp] theorem State.onWg_bad (s : State) (run : Nat) (f : Workgroup → Workgroup) : (s.onWg run f).bad = s.bad := rfl
@[simp] theorem State.onWg_l2 (s : State) (run : Nat) (f : Workgroup → Workgroup) : (s.onWg run f).l2 = s.l2 := rfl
@[simp] theorem State.onWg_homes (s : State) (run : Nat) (f : Workgroup → Workgroup) : (s.onWg run f).homes = s.homes := rfl
@[simp] theorem State.onWg_xlat (s : State) (run : Nat) (f : Workgroup → Workgroup) : (s.onWg run f).xlat = s.xlat := rfl
@[simp] theorem State.onWg_cores (s : State) (run : Nat) (f : Workgroup → Workgroup) : (s.onWg run f).cores = s.cores := rfl
@[simp] theorem State.onWg_launches (s : State) (run : Nat) (f : Workgroup → Workgroup) : (s.onWg run f).launches = s.launches := rfl
@[simp] theorem State.onWg_msgs (s : State) (run : Nat) (f : Workgroup → Workgroup) : (s.onWg run f).msgs = s.msgs := rfl
@[simp] theorem State.onWg_queues (s : State) (run : Nat) (f : Workgroup → Workgroup) : (s.onWg run f).queues = s.queues := rfl
@[simp] theorem State.onWg_dev (s : State) (run : Nat) (f : Workgroup → Workgroup) : (s.onWg run f).dev = s.dev := rfl
@[simp] theorem State.onWg_fw (s : State) (run : Nat) (f : Workgroup → Workgroup) : (s.onWg run f).fw = s.fw := rfl
@[simp] theorem State.onWg_dbg (s : State) (run : Nat) (f : Workgroup → Workgroup) : (s.onWg run f).dbg = s.dbg := rfl
@[simp] theorem State.onWg_logs (s : State) (run : Nat) (f : Workgroup → Workgroup) : (s.onWg run f).logs = s.logs := rfl

/-! ### `State.onGroup` -/

@[simp] theorem State.onGroup_agenda (s : State) (run grp : Nat) (f : Group → Group) : (s.onGroup run grp f).agenda = s.agenda := rfl
@[simp] theorem State.onGroup_cursor (s : State) (run grp : Nat) (f : Group → Group) : (s.onGroup run grp f).cursor = s.cursor := rfl
@[simp] theorem State.onGroup_arg (s : State) (run grp : Nat) (f : Group → Group) : (s.onGroup run grp f).arg = s.arg := rfl
@[simp] theorem State.onGroup_fresh (s : State) (run grp : Nat) (f : Group → Group) : (s.onGroup run grp f).fresh = s.fresh := rfl
@[simp] theorem State.onGroup_dtime (s : State) (run grp : Nat) (f : Group → Group) : (s.onGroup run grp f).dtime = s.dtime := rfl
@[simp] theorem State.onGroup_cyc (s : State) (run grp : Nat) (f : Group → Group) : (s.onGroup run grp f).cyc = s.cyc := rfl
@[simp] theorem State.onGroup_skews (s : State) (run grp : Nat) (f : Group → Group) : (s.onGroup run grp f).skews = s.skews := rfl
@[simp] theorem State.onGroup_ptp (s : State) (run grp : Nat) (f : Group → Group) : (s.onGroup run grp f).ptp = s.ptp := rfl
@[simp] theorem State.onGroup_mem (s : State) (run grp : Nat) (f : Group → Group) : (s.onGroup run grp f).mem = s.mem := rfl
@[simp] theorem State.onGroup_bad (s : State) (run grp : Nat) (f : Group → Group) : (s.onGroup run grp f).bad = s.bad := rfl
@[simp] theorem State.onGroup_l2 (s : State) (run grp : Nat) (f : Group → Group) : (s.onGroup run grp f).l2 = s.l2 := rfl
@[simp] theorem State.onGroup_homes (s : State) (run grp : Nat) (f : Group → Group) : (s.onGroup run grp f).homes = s.homes := rfl
@[simp] theorem State.onGroup_xlat (s : State) (run grp : Nat) (f : Group → Group) : (s.onGroup run grp f).xlat = s.xlat := rfl
@[simp] theorem State.onGroup_cores (s : State) (run grp : Nat) (f : Group → Group) : (s.onGroup run grp f).cores = s.cores := rfl
@[simp] theorem State.onGroup_launches (s : State) (run grp : Nat) (f : Group → Group) : (s.onGroup run grp f).launches = s.launches := rfl
@[simp] theorem State.onGroup_msgs (s : State) (run grp : Nat) (f : Group → Group) : (s.onGroup run grp f).msgs = s.msgs := rfl
@[simp] theorem State.onGroup_queues (s : State) (run grp : Nat) (f : Group → Group) : (s.onGroup run grp f).queues = s.queues := rfl
@[simp] theorem State.onGroup_dev (s : State) (run grp : Nat) (f : Group → Group) : (s.onGroup run grp f).dev = s.dev := rfl
@[simp] theorem State.onGroup_fw (s : State) (run grp : Nat) (f : Group → Group) : (s.onGroup run grp f).fw = s.fw := rfl
@[simp] theorem State.onGroup_dbg (s : State) (run grp : Nat) (f : Group → Group) : (s.onGroup run grp f).dbg = s.dbg := rfl
@[simp] theorem State.onGroup_logs (s : State) (run grp : Nat) (f : Group → Group) : (s.onGroup run grp f).logs = s.logs := rfl

/-! ### `State.putGroup` -/

@[simp] theorem State.putGroup_agenda (s : State) (run : Nat) (g : Group) : (s.putGroup run g).agenda = s.agenda := by unfold State.putGroup; split <;> rfl
@[simp] theorem State.putGroup_cursor (s : State) (run : Nat) (g : Group) : (s.putGroup run g).cursor = s.cursor := by unfold State.putGroup; split <;> rfl
@[simp] theorem State.putGroup_arg (s : State) (run : Nat) (g : Group) : (s.putGroup run g).arg = s.arg := by unfold State.putGroup; split <;> rfl
@[simp] theorem State.putGroup_fresh (s : State) (run : Nat) (g : Group) : (s.putGroup run g).fresh = s.fresh := by unfold State.putGroup; split <;> rfl
@[simp] theorem State.putGroup_dtime (s : State) (run : Nat) (g : Group) : (s.putGroup run g).dtime = s.dtime := by unfold State.putGroup; split <;> rfl
@[simp] theorem State.putGroup_cyc (s : State) (run : Nat) (g : Group) : (s.putGroup run g).cyc = s.cyc := by unfold State.putGroup; split <;> rfl
@[simp] theorem State.putGroup_skews (s : State) (run : Nat) (g : Group) : (s.putGroup run g).skews = s.skews := by unfold State.putGroup; split <;> rfl
@[simp] theorem State.putGroup_ptp (s : State) (run : Nat) (g : Group) : (s.putGroup run g).ptp = s.ptp := by unfold State.putGroup; split <;> rfl
@[simp] theorem State.putGroup_mem (s : State) (run : Nat) (g : Group) : (s.putGroup run g).mem = s.mem := by unfold State.putGroup; split <;> rfl
@[simp] theorem State.putGroup_bad (s : State) (run : Nat) (g : Group) : (s.putGroup run g).bad = s.bad := by unfold State.putGroup; split <;> rfl
@[simp] theorem State.putGroup_l2 (s : State) (run : Nat) (g : Group) : (s.putGroup run g).l2 = s.l2 := by unfold State.putGroup; split <;> rfl
@[simp] theorem State.putGroup_homes (s : State) (run : Nat) (g : Group) : (s.putGroup run g).homes = s.homes := by unfold State.putGroup; split <;> rfl
@[simp] theorem State.putGroup_xlat (s : State) (run : Nat) (g : Group) : (s.putGroup run g).xlat = s.xlat := by unfold State.putGroup; split <;> rfl
@[simp] theorem State.putGroup_cores (s : State) (run : Nat) (g : Group) : (s.putGroup run g).cores = s.cores := by unfold State.putGroup; split <;> rfl
@[simp] theorem State.putGroup_launches (s : State) (run : Nat) (g : Group) : (s.putGroup run g).launches = s.launches := by unfold State.putGroup; split <;> rfl
@[simp] theorem State.putGroup_msgs (s : State) (run : Nat) (g : Group) : (s.putGroup run g).msgs = s.msgs := by unfold State.putGroup; split <;> rfl
@[simp] theorem State.putGroup_queues (s : State) (run : Nat) (g : Group) : (s.putGroup run g).queues = s.queues := by unfold State.putGroup; split <;> rfl
@[simp] theorem State.putGroup_dev (s : State) (run : Nat) (g : Group) : (s.putGroup run g).dev = s.dev := by unfold State.putGroup; split <;> rfl
@[simp] theorem State.putGroup_fw (s : State) (run : Nat) (g : Group) : (s.putGroup run g).fw = s.fw := by unfold State.putGroup; split <;> rfl
@[simp] theorem State.putGroup_dbg (s : State) (run : Nat) (g : Group) : (s.putGroup run g).dbg = s.dbg := by unfold State.putGroup; split <;> rfl
@[simp] theorem State.putGroup_logs (s : State) (run : Nat) (g : Group) : (s.putGroup run g).logs = s.logs := by unfold State.putGroup; split <;> rfl

/-! ### `State.putLaunch` -/

@[simp] theorem State.putLaunch_agenda (s : State) (l : Launch) : (s.putLaunch l).agenda = s.agenda := rfl
@[simp] theorem State.putLaunch_cursor (s : State) (l : Launch) : (s.putLaunch l).cursor = s.cursor := rfl
@[simp] theorem State.putLaunch_arg (s : State) (l : Launch) : (s.putLaunch l).arg = s.arg := rfl
@[simp] theorem State.putLaunch_fresh (s : State) (l : Launch) : (s.putLaunch l).fresh = s.fresh := rfl
@[simp] theorem State.putLaunch_dtime (s : State) (l : Launch) : (s.putLaunch l).dtime = s.dtime := rfl
@[simp] theorem State.putLaunch_cyc (s : State) (l : Launch) : (s.putLaunch l).cyc = s.cyc := rfl
@[simp] theorem State.putLaunch_skews (s : State) (l : Launch) : (s.putLaunch l).skews = s.skews := rfl
@[simp] theorem State.putLaunch_ptp (s : State) (l : Launch) : (s.putLaunch l).ptp = s.ptp := rfl
@[simp] theorem State.putLaunch_mem (s : State) (l : Launch) : (s.putLaunch l).mem = s.mem := rfl
@[simp] theorem State.putLaunch_bad (s : State) (l : Launch) : (s.putLaunch l).bad = s.bad := rfl
@[simp] theorem State.putLaunch_l2 (s : State) (l : Launch) : (s.putLaunch l).l2 = s.l2 := rfl
@[simp] theorem State.putLaunch_homes (s : State) (l : Launch) : (s.putLaunch l).homes = s.homes := rfl
@[simp] theorem State.putLaunch_xlat (s : State) (l : Launch) : (s.putLaunch l).xlat = s.xlat := rfl
@[simp] theorem State.putLaunch_cores (s : State) (l : Launch) : (s.putLaunch l).cores = s.cores := rfl
@[simp] theorem State.putLaunch_wgs (s : State) (l : Launch) : (s.putLaunch l).wgs = s.wgs := rfl
@[simp] theorem State.putLaunch_msgs (s : State) (l : Launch) : (s.putLaunch l).msgs = s.msgs := rfl
@[simp] theorem State.putLaunch_queues (s : State) (l : Launch) : (s.putLaunch l).queues = s.queues := rfl
@[simp] theorem State.putLaunch_dev (s : State) (l : Launch) : (s.putLaunch l).dev = s.dev := rfl
@[simp] theorem State.putLaunch_fw (s : State) (l : Launch) : (s.putLaunch l).fw = s.fw := rfl
@[simp] theorem State.putLaunch_dbg (s : State) (l : Launch) : (s.putLaunch l).dbg = s.dbg := rfl
@[simp] theorem State.putLaunch_logs (s : State) (l : Launch) : (s.putLaunch l).logs = s.logs := rfl

/-! ### `State.onLaunch` -/

@[simp] theorem State.onLaunch_agenda (s : State) (lid : Nat) (f : Launch → Launch) : (s.onLaunch lid f).agenda = s.agenda := rfl
@[simp] theorem State.onLaunch_cursor (s : State) (lid : Nat) (f : Launch → Launch) : (s.onLaunch lid f).cursor = s.cursor := rfl
@[simp] theorem State.onLaunch_arg (s : State) (lid : Nat) (f : Launch → Launch) : (s.onLaunch lid f).arg = s.arg := rfl
@[simp] theorem State.onLaunch_fresh (s : State) (lid : Nat) (f : Launch → Launch) : (s.onLaunch lid f).fresh = s.fresh := rfl
@[simp] theorem State.onLaunch_dtime (s : State) (lid : Nat) (f : Launch → Launch) : (s.onLaunch lid f).dtime = s.dtime := rfl
@[simp] theorem State.onLaunch_cyc (s : State) (lid : Nat) (f : Launch → Launch) : (s.onLaunch lid f).cyc = s.cyc := rfl
@[simp] theorem State.onLaunch_skews (s : State) (lid : Nat) (f : Launch → Launch) : (s.onLaunch lid f).skews = s.skews := rfl
@[simp] theorem State.onLaunch_ptp (s : State) (lid : Nat) (f : Launch → Launch) : (s.onLaunch lid f).ptp = s.ptp := rfl
@[simp] theorem State.onLaunch_mem (s : State) (lid : Nat) (f : Launch → Launch) : (s.onLaunch lid f).mem = s.mem := rfl
@[simp] theorem State.onLaunch_bad (s : State) (lid : Nat) (f : Launch → Launch) : (s.onLaunch lid f).bad = s.bad := rfl
@[simp] theorem State.onLaunch_l2 (s : State) (lid : Nat) (f : Launch → Launch) : (s.onLaunch lid f).l2 = s.l2 := rfl
@[simp] theorem State.onLaunch_homes (s : State) (lid : Nat) (f : Launch → Launch) : (s.onLaunch lid f).homes = s.homes := rfl
@[simp] theorem State.onLaunch_xlat (s : State) (lid : Nat) (f : Launch → Launch) : (s.onLaunch lid f).xlat = s.xlat := rfl
@[simp] theorem State.onLaunch_cores (s : State) (lid : Nat) (f : Launch → Launch) : (s.onLaunch lid f).cores = s.cores := rfl
@[simp] theorem State.onLaunch_wgs (s : State) (lid : Nat) (f : Launch → Launch) : (s.onLaunch lid f).wgs = s.wgs := rfl
@[simp] theorem State.onLaunch_msgs (s : State) (lid : Nat) (f : Launch → Launch) : (s.onLaunch lid f).msgs = s.msgs := rfl
@[simp] theorem State.onLaunch_queues (s : State) (lid : Nat) (f : Launch → Launch) : (s.onLaunch lid f).queues = s.queues := rfl
@[simp] theorem State.onLaunch_dev (s : State) (lid : Nat) (f : Launch → Launch) : (s.onLaunch lid f).dev = s.dev := rfl
@[simp] theorem State.onLaunch_fw (s : State) (lid : Nat) (f : Launch → Launch) : (s.onLaunch lid f).fw = s.fw := rfl
@[simp] theorem State.onLaunch_dbg (s : State) (lid : Nat) (f : Launch → Launch) : (s.onLaunch lid f).dbg = s.dbg := rfl
@[simp] theorem State.onLaunch_logs (s : State) (lid : Nat) (f : Launch → Launch) : (s.onLaunch lid f).logs = s.logs := rfl

/-! ### `State.setCore` -/

@[simp] theorem State.setCore_agenda (s : State) (c : Nat) (x : CoreSt) : (s.setCore c x).agenda = s.agenda := rfl
@[simp] theorem State.setCore_cursor (s : State) (c : Nat) (x : CoreSt) : (s.setCore c x).cursor = s.cursor := rfl
@[simp] theorem State.setCore_arg (s : State) (c : Nat) (x : CoreSt) : (s.setCore c x).arg = s.arg := rfl
@[simp] theorem State.setCore_fresh (s : State) (c : Nat) (x : CoreSt) : (s.setCore c x).fresh = s.fresh := rfl
@[simp] theorem State.setCore_dtime (s : State) (c : Nat) (x : CoreSt) : (s.setCore c x).dtime = s.dtime := rfl
@[simp] theorem State.setCore_cyc (s : State) (c : Nat) (x : CoreSt) : (s.setCore c x).cyc = s.cyc := rfl
@[simp] theorem State.setCore_skews (s : State) (c : Nat) (x : CoreSt) : (s.setCore c x).skews = s.skews := rfl
@[simp] theorem State.setCore_ptp (s : State) (c : Nat) (x : CoreSt) : (s.setCore c x).ptp = s.ptp := rfl
@[simp] theorem State.setCore_mem (s : State) (c : Nat) (x : CoreSt) : (s.setCore c x).mem = s.mem := rfl
@[simp] theorem State.setCore_bad (s : State) (c : Nat) (x : CoreSt) : (s.setCore c x).bad = s.bad := rfl
@[simp] theorem State.setCore_l2 (s : State) (c : Nat) (x : CoreSt) : (s.setCore c x).l2 = s.l2 := rfl
@[simp] theorem State.setCore_homes (s : State) (c : Nat) (x : CoreSt) : (s.setCore c x).homes = s.homes := rfl
@[simp] theorem State.setCore_xlat (s : State) (c : Nat) (x : CoreSt) : (s.setCore c x).xlat = s.xlat := rfl
@[simp] theorem State.setCore_wgs (s : State) (c : Nat) (x : CoreSt) : (s.setCore c x).wgs = s.wgs := rfl
@[simp] theorem State.setCore_launches (s : State) (c : Nat) (x : CoreSt) : (s.setCore c x).launches = s.launches := rfl
@[simp] theorem State.setCore_msgs (s : State) (c : Nat) (x : CoreSt) : (s.setCore c x).msgs = s.msgs := rfl
@[simp] theorem State.setCore_queues (s : State) (c : Nat) (x : CoreSt) : (s.setCore c x).queues = s.queues := rfl
@[simp] theorem State.setCore_dev (s : State) (c : Nat) (x : CoreSt) : (s.setCore c x).dev = s.dev := rfl
@[simp] theorem State.setCore_fw (s : State) (c : Nat) (x : CoreSt) : (s.setCore c x).fw = s.fw := rfl
@[simp] theorem State.setCore_dbg (s : State) (c : Nat) (x : CoreSt) : (s.setCore c x).dbg = s.dbg := rfl
@[simp] theorem State.setCore_logs (s : State) (c : Nat) (x : CoreSt) : (s.setCore c x).logs = s.logs := rfl

/-! ### `State.onCore` -/

@[simp] theorem State.onCore_agenda (s : State) (c : Nat) (f : CoreSt → CoreSt) : (s.onCore c f).agenda = s.agenda := rfl
@[simp] theorem State.onCore_cursor (s : State) (c : Nat) (f : CoreSt → CoreSt) : (s.onCore c f).cursor = s.cursor := rfl
@[simp] theorem State.onCore_arg (s : State) (c : Nat) (f : CoreSt → CoreSt) : (s.onCore c f).arg = s.arg := rfl
@[simp] theorem State.onCore_fresh (s : State) (c : Nat) (f : CoreSt → CoreSt) : (s.onCore c f).fresh = s.fresh := rfl
@[simp] theorem State.onCore_dtime (s : State) (c : Nat) (f : CoreSt → CoreSt) : (s.onCore c f).dtime = s.dtime := rfl
@[simp] theorem State.onCore_cyc (s : State) (c : Nat) (f : CoreSt → CoreSt) : (s.onCore c f).cyc = s.cyc := rfl
@[simp] theorem State.onCore_skews (s : State) (c : Nat) (f : CoreSt → CoreSt) : (s.onCore c f).skews = s.skews := rfl
@[simp] theorem State.onCore_ptp (s : State) (c : Nat) (f : CoreSt → CoreSt) : (s.onCore c f).ptp = s.ptp := rfl
@[simp] theorem State.onCore_mem (s : State) (c : Nat) (f : CoreSt → CoreSt) : (s.onCore c f).mem = s.mem := rfl
@[simp] theorem State.onCore_bad (s : State) (c : Nat) (f : CoreSt → CoreSt) : (s.onCore c f).bad = s.bad := rfl
@[simp] theorem State.onCore_l2 (s : State) (c : Nat) (f : CoreSt → CoreSt) : (s.onCore c f).l2 = s.l2 := rfl
@[simp] theorem State.onCore_homes (s : State) (c : Nat) (f : CoreSt → CoreSt) : (s.onCore c f).homes = s.homes := rfl
@[simp] theorem State.onCore_xlat (s : State) (c : Nat) (f : CoreSt → CoreSt) : (s.onCore c f).xlat = s.xlat := rfl
@[simp] theorem State.onCore_wgs (s : State) (c : Nat) (f : CoreSt → CoreSt) : (s.onCore c f).wgs = s.wgs := rfl
@[simp] theorem State.onCore_launches (s : State) (c : Nat) (f : CoreSt → CoreSt) : (s.onCore c f).launches = s.launches := rfl
@[simp] theorem State.onCore_msgs (s : State) (c : Nat) (f : CoreSt → CoreSt) : (s.onCore c f).msgs = s.msgs := rfl
@[simp] theorem State.onCore_queues (s : State) (c : Nat) (f : CoreSt → CoreSt) : (s.onCore c f).queues = s.queues := rfl
@[simp] theorem State.onCore_dev (s : State) (c : Nat) (f : CoreSt → CoreSt) : (s.onCore c f).dev = s.dev := rfl
@[simp] theorem State.onCore_fw (s : State) (c : Nat) (f : CoreSt → CoreSt) : (s.onCore c f).fw = s.fw := rfl
@[simp] theorem State.onCore_dbg (s : State) (c : Nat) (f : CoreSt → CoreSt) : (s.onCore c f).dbg = s.dbg := rfl
@[simp] theorem State.onCore_logs (s : State) (c : Nat) (f : CoreSt → CoreSt) : (s.onCore c f).logs = s.logs := rfl

/-! ### `State.setHome` -/

@[simp] theorem State.setHome_agenda (s : State) (line : Nat) (h : Home) : (s.setHome line h).agenda = s.agenda := rfl
@[simp] theorem State.setHome_cursor (s : State) (line : Nat) (h : Home) : (s.setHome line h).cursor = s.cursor := rfl
@[simp] theorem State.setHome_arg (s : State) (line : Nat) (h : Home) : (s.setHome line h).arg = s.arg := rfl
@[simp] theorem State.setHome_fresh (s : State) (line : Nat) (h : Home) : (s.setHome line h).fresh = s.fresh := rfl
@[simp] theorem State.setHome_dtime (s : State) (line : Nat) (h : Home) : (s.setHome line h).dtime = s.dtime := rfl
@[simp] theorem State.setHome_cyc (s : State) (line : Nat) (h : Home) : (s.setHome line h).cyc = s.cyc := rfl
@[simp] theorem State.setHome_skews (s : State) (line : Nat) (h : Home) : (s.setHome line h).skews = s.skews := rfl
@[simp] theorem State.setHome_ptp (s : State) (line : Nat) (h : Home) : (s.setHome line h).ptp = s.ptp := rfl
@[simp] theorem State.setHome_mem (s : State) (line : Nat) (h : Home) : (s.setHome line h).mem = s.mem := rfl
@[simp] theorem State.setHome_bad (s : State) (line : Nat) (h : Home) : (s.setHome line h).bad = s.bad := rfl
@[simp] theorem State.setHome_l2 (s : State) (line : Nat) (h : Home) : (s.setHome line h).l2 = s.l2 := rfl
@[simp] theorem State.setHome_xlat (s : State) (line : Nat) (h : Home) : (s.setHome line h).xlat = s.xlat := rfl
@[simp] theorem State.setHome_cores (s : State) (line : Nat) (h : Home) : (s.setHome line h).cores = s.cores := rfl
@[simp] theorem State.setHome_wgs (s : State) (line : Nat) (h : Home) : (s.setHome line h).wgs = s.wgs := rfl
@[simp] theorem State.setHome_launches (s : State) (line : Nat) (h : Home) : (s.setHome line h).launches = s.launches := rfl
@[simp] theorem State.setHome_msgs (s : State) (line : Nat) (h : Home) : (s.setHome line h).msgs = s.msgs := rfl
@[simp] theorem State.setHome_queues (s : State) (line : Nat) (h : Home) : (s.setHome line h).queues = s.queues := rfl
@[simp] theorem State.setHome_dev (s : State) (line : Nat) (h : Home) : (s.setHome line h).dev = s.dev := rfl
@[simp] theorem State.setHome_fw (s : State) (line : Nat) (h : Home) : (s.setHome line h).fw = s.fw := rfl
@[simp] theorem State.setHome_dbg (s : State) (line : Nat) (h : Home) : (s.setHome line h).dbg = s.dbg := rfl
@[simp] theorem State.setHome_logs (s : State) (line : Nat) (h : Home) : (s.setHome line h).logs = s.logs := rfl

/-! ### `State.onHome` -/

@[simp] theorem State.onHome_agenda (s : State) (line : Nat) (f : Home → Home) : (s.onHome line f).agenda = s.agenda := rfl
@[simp] theorem State.onHome_cursor (s : State) (line : Nat) (f : Home → Home) : (s.onHome line f).cursor = s.cursor := rfl
@[simp] theorem State.onHome_arg (s : State) (line : Nat) (f : Home → Home) : (s.onHome line f).arg = s.arg := rfl
@[simp] theorem State.onHome_fresh (s : State) (line : Nat) (f : Home → Home) : (s.onHome line f).fresh = s.fresh := rfl
@[simp] theorem State.onHome_dtime (s : State) (line : Nat) (f : Home → Home) : (s.onHome line f).dtime = s.dtime := rfl
@[simp] theorem State.onHome_cyc (s : State) (line : Nat) (f : Home → Home) : (s.onHome line f).cyc = s.cyc := rfl
@[simp] theorem State.onHome_skews (s : State) (line : Nat) (f : Home → Home) : (s.onHome line f).skews = s.skews := rfl
@[simp] theorem State.onHome_ptp (s : State) (line : Nat) (f : Home → Home) : (s.onHome line f).ptp = s.ptp := rfl
@[simp] theorem State.onHome_mem (s : State) (line : Nat) (f : Home → Home) : (s.onHome line f).mem = s.mem := rfl
@[simp] theorem State.onHome_bad (s : State) (line : Nat) (f : Home → Home) : (s.onHome line f).bad = s.bad := rfl
@[simp] theorem State.onHome_l2 (s : State) (line : Nat) (f : Home → Home) : (s.onHome line f).l2 = s.l2 := rfl
@[simp] theorem State.onHome_xlat (s : State) (line : Nat) (f : Home → Home) : (s.onHome line f).xlat = s.xlat := rfl
@[simp] theorem State.onHome_cores (s : State) (line : Nat) (f : Home → Home) : (s.onHome line f).cores = s.cores := rfl
@[simp] theorem State.onHome_wgs (s : State) (line : Nat) (f : Home → Home) : (s.onHome line f).wgs = s.wgs := rfl
@[simp] theorem State.onHome_launches (s : State) (line : Nat) (f : Home → Home) : (s.onHome line f).launches = s.launches := rfl
@[simp] theorem State.onHome_msgs (s : State) (line : Nat) (f : Home → Home) : (s.onHome line f).msgs = s.msgs := rfl
@[simp] theorem State.onHome_queues (s : State) (line : Nat) (f : Home → Home) : (s.onHome line f).queues = s.queues := rfl
@[simp] theorem State.onHome_dev (s : State) (line : Nat) (f : Home → Home) : (s.onHome line f).dev = s.dev := rfl
@[simp] theorem State.onHome_fw (s : State) (line : Nat) (f : Home → Home) : (s.onHome line f).fw = s.fw := rfl
@[simp] theorem State.onHome_dbg (s : State) (line : Nat) (f : Home → Home) : (s.onHome line f).dbg = s.dbg := rfl
@[simp] theorem State.onHome_logs (s : State) (line : Nat) (f : Home → Home) : (s.onHome line f).logs = s.logs := rfl

/-! ### `State.raise` -/

@[simp] theorem State.raise_agenda (s : State) (lid : Nat) (f : BitVec 5) : (s.raise lid f).agenda = s.agenda := rfl
@[simp] theorem State.raise_cursor (s : State) (lid : Nat) (f : BitVec 5) : (s.raise lid f).cursor = s.cursor := rfl
@[simp] theorem State.raise_arg (s : State) (lid : Nat) (f : BitVec 5) : (s.raise lid f).arg = s.arg := rfl
@[simp] theorem State.raise_fresh (s : State) (lid : Nat) (f : BitVec 5) : (s.raise lid f).fresh = s.fresh := rfl
@[simp] theorem State.raise_dtime (s : State) (lid : Nat) (f : BitVec 5) : (s.raise lid f).dtime = s.dtime := rfl
@[simp] theorem State.raise_cyc (s : State) (lid : Nat) (f : BitVec 5) : (s.raise lid f).cyc = s.cyc := rfl
@[simp] theorem State.raise_skews (s : State) (lid : Nat) (f : BitVec 5) : (s.raise lid f).skews = s.skews := rfl
@[simp] theorem State.raise_ptp (s : State) (lid : Nat) (f : BitVec 5) : (s.raise lid f).ptp = s.ptp := rfl
@[simp] theorem State.raise_mem (s : State) (lid : Nat) (f : BitVec 5) : (s.raise lid f).mem = s.mem := rfl
@[simp] theorem State.raise_bad (s : State) (lid : Nat) (f : BitVec 5) : (s.raise lid f).bad = s.bad := rfl
@[simp] theorem State.raise_l2 (s : State) (lid : Nat) (f : BitVec 5) : (s.raise lid f).l2 = s.l2 := rfl
@[simp] theorem State.raise_homes (s : State) (lid : Nat) (f : BitVec 5) : (s.raise lid f).homes = s.homes := rfl
@[simp] theorem State.raise_xlat (s : State) (lid : Nat) (f : BitVec 5) : (s.raise lid f).xlat = s.xlat := rfl
@[simp] theorem State.raise_cores (s : State) (lid : Nat) (f : BitVec 5) : (s.raise lid f).cores = s.cores := rfl
@[simp] theorem State.raise_wgs (s : State) (lid : Nat) (f : BitVec 5) : (s.raise lid f).wgs = s.wgs := rfl
@[simp] theorem State.raise_msgs (s : State) (lid : Nat) (f : BitVec 5) : (s.raise lid f).msgs = s.msgs := rfl
@[simp] theorem State.raise_queues (s : State) (lid : Nat) (f : BitVec 5) : (s.raise lid f).queues = s.queues := rfl
@[simp] theorem State.raise_dev (s : State) (lid : Nat) (f : BitVec 5) : (s.raise lid f).dev = s.dev := rfl
@[simp] theorem State.raise_fw (s : State) (lid : Nat) (f : BitVec 5) : (s.raise lid f).fw = s.fw := rfl
@[simp] theorem State.raise_dbg (s : State) (lid : Nat) (f : BitVec 5) : (s.raise lid f).dbg = s.dbg := rfl
@[simp] theorem State.raise_logs (s : State) (lid : Nat) (f : BitVec 5) : (s.raise lid f).logs = s.logs := rfl

/-! ### `State.faultRecord` -/

@[simp] theorem State.faultRecord_agenda (s : State) (dom kind disp reason ia : Nat) (va wid mask pc : DWord) (wgx core grp ent chan : Nat) (engine : Bool) : (s.faultRecord dom kind disp reason ia va wid mask pc wgx core grp ent chan engine).agenda = s.agenda := rfl
@[simp] theorem State.faultRecord_cursor (s : State) (dom kind disp reason ia : Nat) (va wid mask pc : DWord) (wgx core grp ent chan : Nat) (engine : Bool) : (s.faultRecord dom kind disp reason ia va wid mask pc wgx core grp ent chan engine).cursor = s.cursor := rfl
@[simp] theorem State.faultRecord_arg (s : State) (dom kind disp reason ia : Nat) (va wid mask pc : DWord) (wgx core grp ent chan : Nat) (engine : Bool) : (s.faultRecord dom kind disp reason ia va wid mask pc wgx core grp ent chan engine).arg = s.arg := rfl
@[simp] theorem State.faultRecord_fresh (s : State) (dom kind disp reason ia : Nat) (va wid mask pc : DWord) (wgx core grp ent chan : Nat) (engine : Bool) : (s.faultRecord dom kind disp reason ia va wid mask pc wgx core grp ent chan engine).fresh = s.fresh := rfl
@[simp] theorem State.faultRecord_dtime (s : State) (dom kind disp reason ia : Nat) (va wid mask pc : DWord) (wgx core grp ent chan : Nat) (engine : Bool) : (s.faultRecord dom kind disp reason ia va wid mask pc wgx core grp ent chan engine).dtime = s.dtime := rfl
@[simp] theorem State.faultRecord_cyc (s : State) (dom kind disp reason ia : Nat) (va wid mask pc : DWord) (wgx core grp ent chan : Nat) (engine : Bool) : (s.faultRecord dom kind disp reason ia va wid mask pc wgx core grp ent chan engine).cyc = s.cyc := rfl
@[simp] theorem State.faultRecord_skews (s : State) (dom kind disp reason ia : Nat) (va wid mask pc : DWord) (wgx core grp ent chan : Nat) (engine : Bool) : (s.faultRecord dom kind disp reason ia va wid mask pc wgx core grp ent chan engine).skews = s.skews := rfl
@[simp] theorem State.faultRecord_ptp (s : State) (dom kind disp reason ia : Nat) (va wid mask pc : DWord) (wgx core grp ent chan : Nat) (engine : Bool) : (s.faultRecord dom kind disp reason ia va wid mask pc wgx core grp ent chan engine).ptp = s.ptp := rfl
@[simp] theorem State.faultRecord_mem (s : State) (dom kind disp reason ia : Nat) (va wid mask pc : DWord) (wgx core grp ent chan : Nat) (engine : Bool) : (s.faultRecord dom kind disp reason ia va wid mask pc wgx core grp ent chan engine).mem = s.mem := rfl
@[simp] theorem State.faultRecord_bad (s : State) (dom kind disp reason ia : Nat) (va wid mask pc : DWord) (wgx core grp ent chan : Nat) (engine : Bool) : (s.faultRecord dom kind disp reason ia va wid mask pc wgx core grp ent chan engine).bad = s.bad := rfl
@[simp] theorem State.faultRecord_l2 (s : State) (dom kind disp reason ia : Nat) (va wid mask pc : DWord) (wgx core grp ent chan : Nat) (engine : Bool) : (s.faultRecord dom kind disp reason ia va wid mask pc wgx core grp ent chan engine).l2 = s.l2 := rfl
@[simp] theorem State.faultRecord_homes (s : State) (dom kind disp reason ia : Nat) (va wid mask pc : DWord) (wgx core grp ent chan : Nat) (engine : Bool) : (s.faultRecord dom kind disp reason ia va wid mask pc wgx core grp ent chan engine).homes = s.homes := rfl
@[simp] theorem State.faultRecord_xlat (s : State) (dom kind disp reason ia : Nat) (va wid mask pc : DWord) (wgx core grp ent chan : Nat) (engine : Bool) : (s.faultRecord dom kind disp reason ia va wid mask pc wgx core grp ent chan engine).xlat = s.xlat := rfl
@[simp] theorem State.faultRecord_cores (s : State) (dom kind disp reason ia : Nat) (va wid mask pc : DWord) (wgx core grp ent chan : Nat) (engine : Bool) : (s.faultRecord dom kind disp reason ia va wid mask pc wgx core grp ent chan engine).cores = s.cores := rfl
@[simp] theorem State.faultRecord_wgs (s : State) (dom kind disp reason ia : Nat) (va wid mask pc : DWord) (wgx core grp ent chan : Nat) (engine : Bool) : (s.faultRecord dom kind disp reason ia va wid mask pc wgx core grp ent chan engine).wgs = s.wgs := rfl
@[simp] theorem State.faultRecord_launches (s : State) (dom kind disp reason ia : Nat) (va wid mask pc : DWord) (wgx core grp ent chan : Nat) (engine : Bool) : (s.faultRecord dom kind disp reason ia va wid mask pc wgx core grp ent chan engine).launches = s.launches := rfl
@[simp] theorem State.faultRecord_msgs (s : State) (dom kind disp reason ia : Nat) (va wid mask pc : DWord) (wgx core grp ent chan : Nat) (engine : Bool) : (s.faultRecord dom kind disp reason ia va wid mask pc wgx core grp ent chan engine).msgs = s.msgs := rfl
@[simp] theorem State.faultRecord_queues (s : State) (dom kind disp reason ia : Nat) (va wid mask pc : DWord) (wgx core grp ent chan : Nat) (engine : Bool) : (s.faultRecord dom kind disp reason ia va wid mask pc wgx core grp ent chan engine).queues = s.queues := rfl
@[simp] theorem State.faultRecord_dev (s : State) (dom kind disp reason ia : Nat) (va wid mask pc : DWord) (wgx core grp ent chan : Nat) (engine : Bool) : (s.faultRecord dom kind disp reason ia va wid mask pc wgx core grp ent chan engine).dev = s.dev := rfl
@[simp] theorem State.faultRecord_fw (s : State) (dom kind disp reason ia : Nat) (va wid mask pc : DWord) (wgx core grp ent chan : Nat) (engine : Bool) : (s.faultRecord dom kind disp reason ia va wid mask pc wgx core grp ent chan engine).fw = s.fw := rfl
@[simp] theorem State.faultRecord_dbg (s : State) (dom kind disp reason ia : Nat) (va wid mask pc : DWord) (wgx core grp ent chan : Nat) (engine : Bool) : (s.faultRecord dom kind disp reason ia va wid mask pc wgx core grp ent chan engine).dbg = s.dbg := rfl

/-! ### `State.errorRecord` -/

@[simp] theorem State.errorRecord_agenda (s : State) (array action ia : Nat) (wid : DWord) (wgx core grp index : Nat) (pc : DWord) : (s.errorRecord array action ia wid wgx core grp index pc).agenda = s.agenda := rfl
@[simp] theorem State.errorRecord_cursor (s : State) (array action ia : Nat) (wid : DWord) (wgx core grp index : Nat) (pc : DWord) : (s.errorRecord array action ia wid wgx core grp index pc).cursor = s.cursor := rfl
@[simp] theorem State.errorRecord_arg (s : State) (array action ia : Nat) (wid : DWord) (wgx core grp index : Nat) (pc : DWord) : (s.errorRecord array action ia wid wgx core grp index pc).arg = s.arg := rfl
@[simp] theorem State.errorRecord_fresh (s : State) (array action ia : Nat) (wid : DWord) (wgx core grp index : Nat) (pc : DWord) : (s.errorRecord array action ia wid wgx core grp index pc).fresh = s.fresh := rfl
@[simp] theorem State.errorRecord_dtime (s : State) (array action ia : Nat) (wid : DWord) (wgx core grp index : Nat) (pc : DWord) : (s.errorRecord array action ia wid wgx core grp index pc).dtime = s.dtime := rfl
@[simp] theorem State.errorRecord_cyc (s : State) (array action ia : Nat) (wid : DWord) (wgx core grp index : Nat) (pc : DWord) : (s.errorRecord array action ia wid wgx core grp index pc).cyc = s.cyc := rfl
@[simp] theorem State.errorRecord_skews (s : State) (array action ia : Nat) (wid : DWord) (wgx core grp index : Nat) (pc : DWord) : (s.errorRecord array action ia wid wgx core grp index pc).skews = s.skews := rfl
@[simp] theorem State.errorRecord_ptp (s : State) (array action ia : Nat) (wid : DWord) (wgx core grp index : Nat) (pc : DWord) : (s.errorRecord array action ia wid wgx core grp index pc).ptp = s.ptp := rfl
@[simp] theorem State.errorRecord_mem (s : State) (array action ia : Nat) (wid : DWord) (wgx core grp index : Nat) (pc : DWord) : (s.errorRecord array action ia wid wgx core grp index pc).mem = s.mem := rfl
@[simp] theorem State.errorRecord_bad (s : State) (array action ia : Nat) (wid : DWord) (wgx core grp index : Nat) (pc : DWord) : (s.errorRecord array action ia wid wgx core grp index pc).bad = s.bad := rfl
@[simp] theorem State.errorRecord_l2 (s : State) (array action ia : Nat) (wid : DWord) (wgx core grp index : Nat) (pc : DWord) : (s.errorRecord array action ia wid wgx core grp index pc).l2 = s.l2 := rfl
@[simp] theorem State.errorRecord_homes (s : State) (array action ia : Nat) (wid : DWord) (wgx core grp index : Nat) (pc : DWord) : (s.errorRecord array action ia wid wgx core grp index pc).homes = s.homes := rfl
@[simp] theorem State.errorRecord_xlat (s : State) (array action ia : Nat) (wid : DWord) (wgx core grp index : Nat) (pc : DWord) : (s.errorRecord array action ia wid wgx core grp index pc).xlat = s.xlat := rfl
@[simp] theorem State.errorRecord_cores (s : State) (array action ia : Nat) (wid : DWord) (wgx core grp index : Nat) (pc : DWord) : (s.errorRecord array action ia wid wgx core grp index pc).cores = s.cores := rfl
@[simp] theorem State.errorRecord_wgs (s : State) (array action ia : Nat) (wid : DWord) (wgx core grp index : Nat) (pc : DWord) : (s.errorRecord array action ia wid wgx core grp index pc).wgs = s.wgs := rfl
@[simp] theorem State.errorRecord_launches (s : State) (array action ia : Nat) (wid : DWord) (wgx core grp index : Nat) (pc : DWord) : (s.errorRecord array action ia wid wgx core grp index pc).launches = s.launches := rfl
@[simp] theorem State.errorRecord_msgs (s : State) (array action ia : Nat) (wid : DWord) (wgx core grp index : Nat) (pc : DWord) : (s.errorRecord array action ia wid wgx core grp index pc).msgs = s.msgs := rfl
@[simp] theorem State.errorRecord_queues (s : State) (array action ia : Nat) (wid : DWord) (wgx core grp index : Nat) (pc : DWord) : (s.errorRecord array action ia wid wgx core grp index pc).queues = s.queues := rfl
@[simp] theorem State.errorRecord_dev (s : State) (array action ia : Nat) (wid : DWord) (wgx core grp index : Nat) (pc : DWord) : (s.errorRecord array action ia wid wgx core grp index pc).dev = s.dev := rfl
@[simp] theorem State.errorRecord_fw (s : State) (array action ia : Nat) (wid : DWord) (wgx core grp index : Nat) (pc : DWord) : (s.errorRecord array action ia wid wgx core grp index pc).fw = s.fw := rfl
@[simp] theorem State.errorRecord_dbg (s : State) (array action ia : Nat) (wid : DWord) (wgx core grp index : Nat) (pc : DWord) : (s.errorRecord array action ia wid wgx core grp index pc).dbg = s.dbg := rfl

/-! ### `State.killRecord` -/

@[simp] theorem State.killRecord_agenda (s : State) (w : Workgroup) (g : Group) (wid kpc : DWord) (code : Nat) (info : DWord) : (s.killRecord w g wid kpc code info).agenda = s.agenda := rfl
@[simp] theorem State.killRecord_cursor (s : State) (w : Workgroup) (g : Group) (wid kpc : DWord) (code : Nat) (info : DWord) : (s.killRecord w g wid kpc code info).cursor = s.cursor := rfl
@[simp] theorem State.killRecord_arg (s : State) (w : Workgroup) (g : Group) (wid kpc : DWord) (code : Nat) (info : DWord) : (s.killRecord w g wid kpc code info).arg = s.arg := rfl
@[simp] theorem State.killRecord_fresh (s : State) (w : Workgroup) (g : Group) (wid kpc : DWord) (code : Nat) (info : DWord) : (s.killRecord w g wid kpc code info).fresh = s.fresh := rfl
@[simp] theorem State.killRecord_dtime (s : State) (w : Workgroup) (g : Group) (wid kpc : DWord) (code : Nat) (info : DWord) : (s.killRecord w g wid kpc code info).dtime = s.dtime := rfl
@[simp] theorem State.killRecord_cyc (s : State) (w : Workgroup) (g : Group) (wid kpc : DWord) (code : Nat) (info : DWord) : (s.killRecord w g wid kpc code info).cyc = s.cyc := rfl
@[simp] theorem State.killRecord_skews (s : State) (w : Workgroup) (g : Group) (wid kpc : DWord) (code : Nat) (info : DWord) : (s.killRecord w g wid kpc code info).skews = s.skews := rfl
@[simp] theorem State.killRecord_ptp (s : State) (w : Workgroup) (g : Group) (wid kpc : DWord) (code : Nat) (info : DWord) : (s.killRecord w g wid kpc code info).ptp = s.ptp := rfl
@[simp] theorem State.killRecord_mem (s : State) (w : Workgroup) (g : Group) (wid kpc : DWord) (code : Nat) (info : DWord) : (s.killRecord w g wid kpc code info).mem = s.mem := rfl
@[simp] theorem State.killRecord_bad (s : State) (w : Workgroup) (g : Group) (wid kpc : DWord) (code : Nat) (info : DWord) : (s.killRecord w g wid kpc code info).bad = s.bad := rfl
@[simp] theorem State.killRecord_l2 (s : State) (w : Workgroup) (g : Group) (wid kpc : DWord) (code : Nat) (info : DWord) : (s.killRecord w g wid kpc code info).l2 = s.l2 := rfl
@[simp] theorem State.killRecord_homes (s : State) (w : Workgroup) (g : Group) (wid kpc : DWord) (code : Nat) (info : DWord) : (s.killRecord w g wid kpc code info).homes = s.homes := rfl
@[simp] theorem State.killRecord_xlat (s : State) (w : Workgroup) (g : Group) (wid kpc : DWord) (code : Nat) (info : DWord) : (s.killRecord w g wid kpc code info).xlat = s.xlat := rfl
@[simp] theorem State.killRecord_cores (s : State) (w : Workgroup) (g : Group) (wid kpc : DWord) (code : Nat) (info : DWord) : (s.killRecord w g wid kpc code info).cores = s.cores := rfl
@[simp] theorem State.killRecord_wgs (s : State) (w : Workgroup) (g : Group) (wid kpc : DWord) (code : Nat) (info : DWord) : (s.killRecord w g wid kpc code info).wgs = s.wgs := rfl
@[simp] theorem State.killRecord_launches (s : State) (w : Workgroup) (g : Group) (wid kpc : DWord) (code : Nat) (info : DWord) : (s.killRecord w g wid kpc code info).launches = s.launches := rfl
@[simp] theorem State.killRecord_msgs (s : State) (w : Workgroup) (g : Group) (wid kpc : DWord) (code : Nat) (info : DWord) : (s.killRecord w g wid kpc code info).msgs = s.msgs := rfl
@[simp] theorem State.killRecord_queues (s : State) (w : Workgroup) (g : Group) (wid kpc : DWord) (code : Nat) (info : DWord) : (s.killRecord w g wid kpc code info).queues = s.queues := rfl
@[simp] theorem State.killRecord_dev (s : State) (w : Workgroup) (g : Group) (wid kpc : DWord) (code : Nat) (info : DWord) : (s.killRecord w g wid kpc code info).dev = s.dev := rfl
@[simp] theorem State.killRecord_fw (s : State) (w : Workgroup) (g : Group) (wid kpc : DWord) (code : Nat) (info : DWord) : (s.killRecord w g wid kpc code info).fw = s.fw := rfl
@[simp] theorem State.killRecord_dbg (s : State) (w : Workgroup) (g : Group) (wid kpc : DWord) (code : Nat) (info : DWord) : (s.killRecord w g wid kpc code info).dbg = s.dbg := rfl

/-! ### `State.post` -/

@[simp] theorem State.post_agenda (s : State) (use_ : MsgUse) (ia : Nat) (bs : List Byte) (red : Option (Nat × Nat)) (comm bad : Bool) (hint fill : Nat) : (s.post use_ ia bs red comm bad hint fill).agenda = s.agenda := rfl
@[simp] theorem State.post_cursor (s : State) (use_ : MsgUse) (ia : Nat) (bs : List Byte) (red : Option (Nat × Nat)) (comm bad : Bool) (hint fill : Nat) : (s.post use_ ia bs red comm bad hint fill).cursor = s.cursor := rfl
@[simp] theorem State.post_arg (s : State) (use_ : MsgUse) (ia : Nat) (bs : List Byte) (red : Option (Nat × Nat)) (comm bad : Bool) (hint fill : Nat) : (s.post use_ ia bs red comm bad hint fill).arg = s.arg := rfl
@[simp] theorem State.post_dtime (s : State) (use_ : MsgUse) (ia : Nat) (bs : List Byte) (red : Option (Nat × Nat)) (comm bad : Bool) (hint fill : Nat) : (s.post use_ ia bs red comm bad hint fill).dtime = s.dtime := rfl
@[simp] theorem State.post_cyc (s : State) (use_ : MsgUse) (ia : Nat) (bs : List Byte) (red : Option (Nat × Nat)) (comm bad : Bool) (hint fill : Nat) : (s.post use_ ia bs red comm bad hint fill).cyc = s.cyc := rfl
@[simp] theorem State.post_skews (s : State) (use_ : MsgUse) (ia : Nat) (bs : List Byte) (red : Option (Nat × Nat)) (comm bad : Bool) (hint fill : Nat) : (s.post use_ ia bs red comm bad hint fill).skews = s.skews := rfl
@[simp] theorem State.post_ptp (s : State) (use_ : MsgUse) (ia : Nat) (bs : List Byte) (red : Option (Nat × Nat)) (comm bad : Bool) (hint fill : Nat) : (s.post use_ ia bs red comm bad hint fill).ptp = s.ptp := rfl
@[simp] theorem State.post_mem (s : State) (use_ : MsgUse) (ia : Nat) (bs : List Byte) (red : Option (Nat × Nat)) (comm bad : Bool) (hint fill : Nat) : (s.post use_ ia bs red comm bad hint fill).mem = s.mem := rfl
@[simp] theorem State.post_bad (s : State) (use_ : MsgUse) (ia : Nat) (bs : List Byte) (red : Option (Nat × Nat)) (comm bad : Bool) (hint fill : Nat) : (s.post use_ ia bs red comm bad hint fill).bad = s.bad := rfl
@[simp] theorem State.post_l2 (s : State) (use_ : MsgUse) (ia : Nat) (bs : List Byte) (red : Option (Nat × Nat)) (comm bad : Bool) (hint fill : Nat) : (s.post use_ ia bs red comm bad hint fill).l2 = s.l2 := rfl
@[simp] theorem State.post_homes (s : State) (use_ : MsgUse) (ia : Nat) (bs : List Byte) (red : Option (Nat × Nat)) (comm bad : Bool) (hint fill : Nat) : (s.post use_ ia bs red comm bad hint fill).homes = s.homes := rfl
@[simp] theorem State.post_xlat (s : State) (use_ : MsgUse) (ia : Nat) (bs : List Byte) (red : Option (Nat × Nat)) (comm bad : Bool) (hint fill : Nat) : (s.post use_ ia bs red comm bad hint fill).xlat = s.xlat := rfl
@[simp] theorem State.post_cores (s : State) (use_ : MsgUse) (ia : Nat) (bs : List Byte) (red : Option (Nat × Nat)) (comm bad : Bool) (hint fill : Nat) : (s.post use_ ia bs red comm bad hint fill).cores = s.cores := rfl
@[simp] theorem State.post_wgs (s : State) (use_ : MsgUse) (ia : Nat) (bs : List Byte) (red : Option (Nat × Nat)) (comm bad : Bool) (hint fill : Nat) : (s.post use_ ia bs red comm bad hint fill).wgs = s.wgs := rfl
@[simp] theorem State.post_launches (s : State) (use_ : MsgUse) (ia : Nat) (bs : List Byte) (red : Option (Nat × Nat)) (comm bad : Bool) (hint fill : Nat) : (s.post use_ ia bs red comm bad hint fill).launches = s.launches := rfl
@[simp] theorem State.post_queues (s : State) (use_ : MsgUse) (ia : Nat) (bs : List Byte) (red : Option (Nat × Nat)) (comm bad : Bool) (hint fill : Nat) : (s.post use_ ia bs red comm bad hint fill).queues = s.queues := rfl
@[simp] theorem State.post_dev (s : State) (use_ : MsgUse) (ia : Nat) (bs : List Byte) (red : Option (Nat × Nat)) (comm bad : Bool) (hint fill : Nat) : (s.post use_ ia bs red comm bad hint fill).dev = s.dev := rfl
@[simp] theorem State.post_fw (s : State) (use_ : MsgUse) (ia : Nat) (bs : List Byte) (red : Option (Nat × Nat)) (comm bad : Bool) (hint fill : Nat) : (s.post use_ ia bs red comm bad hint fill).fw = s.fw := rfl
@[simp] theorem State.post_dbg (s : State) (use_ : MsgUse) (ia : Nat) (bs : List Byte) (red : Option (Nat × Nat)) (comm bad : Bool) (hint fill : Nat) : (s.post use_ ia bs red comm bad hint fill).dbg = s.dbg := rfl
@[simp] theorem State.post_logs (s : State) (use_ : MsgUse) (ia : Nat) (bs : List Byte) (red : Option (Nat × Nat)) (comm bad : Bool) (hint fill : Nat) : (s.post use_ ia bs red comm bad hint fill).logs = s.logs := rfl

/-! ### `State.trace` -/

@[simp] theorem State.trace_agenda (s : State) (kind : Nat) (pc : DWord) (run grp ent : Nat) : (s.trace kind pc run grp ent).agenda = s.agenda := by unfold State.trace; (repeat' split) <;> rfl
@[simp] theorem State.trace_cursor (s : State) (kind : Nat) (pc : DWord) (run grp ent : Nat) : (s.trace kind pc run grp ent).cursor = s.cursor := by unfold State.trace; (repeat' split) <;> rfl
@[simp] theorem State.trace_arg (s : State) (kind : Nat) (pc : DWord) (run grp ent : Nat) : (s.trace kind pc run grp ent).arg = s.arg := by unfold State.trace; (repeat' split) <;> rfl
@[simp] theorem State.trace_dtime (s : State) (kind : Nat) (pc : DWord) (run grp ent : Nat) : (s.trace kind pc run grp ent).dtime = s.dtime := by unfold State.trace; (repeat' split) <;> rfl
@[simp] theorem State.trace_cyc (s : State) (kind : Nat) (pc : DWord) (run grp ent : Nat) : (s.trace kind pc run grp ent).cyc = s.cyc := by unfold State.trace; (repeat' split) <;> rfl
@[simp] theorem State.trace_skews (s : State) (kind : Nat) (pc : DWord) (run grp ent : Nat) : (s.trace kind pc run grp ent).skews = s.skews := by unfold State.trace; (repeat' split) <;> rfl
@[simp] theorem State.trace_ptp (s : State) (kind : Nat) (pc : DWord) (run grp ent : Nat) : (s.trace kind pc run grp ent).ptp = s.ptp := by unfold State.trace; (repeat' split) <;> rfl
@[simp] theorem State.trace_mem (s : State) (kind : Nat) (pc : DWord) (run grp ent : Nat) : (s.trace kind pc run grp ent).mem = s.mem := by unfold State.trace; (repeat' split) <;> rfl
@[simp] theorem State.trace_bad (s : State) (kind : Nat) (pc : DWord) (run grp ent : Nat) : (s.trace kind pc run grp ent).bad = s.bad := by unfold State.trace; (repeat' split) <;> rfl
@[simp] theorem State.trace_l2 (s : State) (kind : Nat) (pc : DWord) (run grp ent : Nat) : (s.trace kind pc run grp ent).l2 = s.l2 := by unfold State.trace; (repeat' split) <;> rfl
@[simp] theorem State.trace_homes (s : State) (kind : Nat) (pc : DWord) (run grp ent : Nat) : (s.trace kind pc run grp ent).homes = s.homes := by unfold State.trace; (repeat' split) <;> rfl
@[simp] theorem State.trace_xlat (s : State) (kind : Nat) (pc : DWord) (run grp ent : Nat) : (s.trace kind pc run grp ent).xlat = s.xlat := by unfold State.trace; (repeat' split) <;> rfl
@[simp] theorem State.trace_cores (s : State) (kind : Nat) (pc : DWord) (run grp ent : Nat) : (s.trace kind pc run grp ent).cores = s.cores := by unfold State.trace; (repeat' split) <;> rfl
@[simp] theorem State.trace_wgs (s : State) (kind : Nat) (pc : DWord) (run grp ent : Nat) : (s.trace kind pc run grp ent).wgs = s.wgs := by unfold State.trace; (repeat' split) <;> rfl
@[simp] theorem State.trace_launches (s : State) (kind : Nat) (pc : DWord) (run grp ent : Nat) : (s.trace kind pc run grp ent).launches = s.launches := by unfold State.trace; (repeat' split) <;> rfl
@[simp] theorem State.trace_queues (s : State) (kind : Nat) (pc : DWord) (run grp ent : Nat) : (s.trace kind pc run grp ent).queues = s.queues := by unfold State.trace; (repeat' split) <;> rfl
@[simp] theorem State.trace_dev (s : State) (kind : Nat) (pc : DWord) (run grp ent : Nat) : (s.trace kind pc run grp ent).dev = s.dev := by unfold State.trace; (repeat' split) <;> rfl
@[simp] theorem State.trace_fw (s : State) (kind : Nat) (pc : DWord) (run grp ent : Nat) : (s.trace kind pc run grp ent).fw = s.fw := by unfold State.trace; (repeat' split) <;> rfl
@[simp] theorem State.trace_logs (s : State) (kind : Nat) (pc : DWord) (run grp ent : Nat) : (s.trace kind pc run grp ent).logs = s.logs := by unfold State.trace; (repeat' split) <;> rfl

/-! ### `State.perf` -/

@[simp] theorem State.perf_agenda (s : State) (core i n : Nat) : (s.perf core i n).agenda = s.agenda := rfl
@[simp] theorem State.perf_cursor (s : State) (core i n : Nat) : (s.perf core i n).cursor = s.cursor := rfl
@[simp] theorem State.perf_arg (s : State) (core i n : Nat) : (s.perf core i n).arg = s.arg := rfl
@[simp] theorem State.perf_fresh (s : State) (core i n : Nat) : (s.perf core i n).fresh = s.fresh := rfl
@[simp] theorem State.perf_dtime (s : State) (core i n : Nat) : (s.perf core i n).dtime = s.dtime := rfl
@[simp] theorem State.perf_cyc (s : State) (core i n : Nat) : (s.perf core i n).cyc = s.cyc := rfl
@[simp] theorem State.perf_skews (s : State) (core i n : Nat) : (s.perf core i n).skews = s.skews := rfl
@[simp] theorem State.perf_ptp (s : State) (core i n : Nat) : (s.perf core i n).ptp = s.ptp := rfl
@[simp] theorem State.perf_mem (s : State) (core i n : Nat) : (s.perf core i n).mem = s.mem := rfl
@[simp] theorem State.perf_bad (s : State) (core i n : Nat) : (s.perf core i n).bad = s.bad := rfl
@[simp] theorem State.perf_l2 (s : State) (core i n : Nat) : (s.perf core i n).l2 = s.l2 := rfl
@[simp] theorem State.perf_homes (s : State) (core i n : Nat) : (s.perf core i n).homes = s.homes := rfl
@[simp] theorem State.perf_xlat (s : State) (core i n : Nat) : (s.perf core i n).xlat = s.xlat := rfl
@[simp] theorem State.perf_cores (s : State) (core i n : Nat) : (s.perf core i n).cores = s.cores := rfl
@[simp] theorem State.perf_wgs (s : State) (core i n : Nat) : (s.perf core i n).wgs = s.wgs := rfl
@[simp] theorem State.perf_launches (s : State) (core i n : Nat) : (s.perf core i n).launches = s.launches := rfl
@[simp] theorem State.perf_msgs (s : State) (core i n : Nat) : (s.perf core i n).msgs = s.msgs := rfl
@[simp] theorem State.perf_queues (s : State) (core i n : Nat) : (s.perf core i n).queues = s.queues := rfl
@[simp] theorem State.perf_dev (s : State) (core i n : Nat) : (s.perf core i n).dev = s.dev := rfl
@[simp] theorem State.perf_fw (s : State) (core i n : Nat) : (s.perf core i n).fw = s.fw := rfl
@[simp] theorem State.perf_logs (s : State) (core i n : Nat) : (s.perf core i n).logs = s.logs := rfl

/-! ### `State.perfUnit` -/

@[simp] theorem State.perfUnit_agenda (s : State) (unit i n : Nat) : (s.perfUnit unit i n).agenda = s.agenda := rfl
@[simp] theorem State.perfUnit_cursor (s : State) (unit i n : Nat) : (s.perfUnit unit i n).cursor = s.cursor := rfl
@[simp] theorem State.perfUnit_arg (s : State) (unit i n : Nat) : (s.perfUnit unit i n).arg = s.arg := rfl
@[simp] theorem State.perfUnit_fresh (s : State) (unit i n : Nat) : (s.perfUnit unit i n).fresh = s.fresh := rfl
@[simp] theorem State.perfUnit_dtime (s : State) (unit i n : Nat) : (s.perfUnit unit i n).dtime = s.dtime := rfl
@[simp] theorem State.perfUnit_cyc (s : State) (unit i n : Nat) : (s.perfUnit unit i n).cyc = s.cyc := rfl
@[simp] theorem State.perfUnit_skews (s : State) (unit i n : Nat) : (s.perfUnit unit i n).skews = s.skews := rfl
@[simp] theorem State.perfUnit_ptp (s : State) (unit i n : Nat) : (s.perfUnit unit i n).ptp = s.ptp := rfl
@[simp] theorem State.perfUnit_mem (s : State) (unit i n : Nat) : (s.perfUnit unit i n).mem = s.mem := rfl
@[simp] theorem State.perfUnit_bad (s : State) (unit i n : Nat) : (s.perfUnit unit i n).bad = s.bad := rfl
@[simp] theorem State.perfUnit_l2 (s : State) (unit i n : Nat) : (s.perfUnit unit i n).l2 = s.l2 := rfl
@[simp] theorem State.perfUnit_homes (s : State) (unit i n : Nat) : (s.perfUnit unit i n).homes = s.homes := rfl
@[simp] theorem State.perfUnit_xlat (s : State) (unit i n : Nat) : (s.perfUnit unit i n).xlat = s.xlat := rfl
@[simp] theorem State.perfUnit_cores (s : State) (unit i n : Nat) : (s.perfUnit unit i n).cores = s.cores := rfl
@[simp] theorem State.perfUnit_wgs (s : State) (unit i n : Nat) : (s.perfUnit unit i n).wgs = s.wgs := rfl
@[simp] theorem State.perfUnit_launches (s : State) (unit i n : Nat) : (s.perfUnit unit i n).launches = s.launches := rfl
@[simp] theorem State.perfUnit_msgs (s : State) (unit i n : Nat) : (s.perfUnit unit i n).msgs = s.msgs := rfl
@[simp] theorem State.perfUnit_queues (s : State) (unit i n : Nat) : (s.perfUnit unit i n).queues = s.queues := rfl
@[simp] theorem State.perfUnit_dev (s : State) (unit i n : Nat) : (s.perfUnit unit i n).dev = s.dev := rfl
@[simp] theorem State.perfUnit_fw (s : State) (unit i n : Nat) : (s.perfUnit unit i n).fw = s.fw := rfl
@[simp] theorem State.perfUnit_logs (s : State) (unit i n : Nat) : (s.perfUnit unit i n).logs = s.logs := rfl

/-! ### `State.perfSlice` -/

@[simp] theorem State.perfSlice_agenda (s : State) (slice i n : Nat) : (s.perfSlice slice i n).agenda = s.agenda := rfl
@[simp] theorem State.perfSlice_cursor (s : State) (slice i n : Nat) : (s.perfSlice slice i n).cursor = s.cursor := rfl
@[simp] theorem State.perfSlice_arg (s : State) (slice i n : Nat) : (s.perfSlice slice i n).arg = s.arg := rfl
@[simp] theorem State.perfSlice_fresh (s : State) (slice i n : Nat) : (s.perfSlice slice i n).fresh = s.fresh := rfl
@[simp] theorem State.perfSlice_dtime (s : State) (slice i n : Nat) : (s.perfSlice slice i n).dtime = s.dtime := rfl
@[simp] theorem State.perfSlice_cyc (s : State) (slice i n : Nat) : (s.perfSlice slice i n).cyc = s.cyc := rfl
@[simp] theorem State.perfSlice_skews (s : State) (slice i n : Nat) : (s.perfSlice slice i n).skews = s.skews := rfl
@[simp] theorem State.perfSlice_ptp (s : State) (slice i n : Nat) : (s.perfSlice slice i n).ptp = s.ptp := rfl
@[simp] theorem State.perfSlice_mem (s : State) (slice i n : Nat) : (s.perfSlice slice i n).mem = s.mem := rfl
@[simp] theorem State.perfSlice_bad (s : State) (slice i n : Nat) : (s.perfSlice slice i n).bad = s.bad := rfl
@[simp] theorem State.perfSlice_l2 (s : State) (slice i n : Nat) : (s.perfSlice slice i n).l2 = s.l2 := rfl
@[simp] theorem State.perfSlice_homes (s : State) (slice i n : Nat) : (s.perfSlice slice i n).homes = s.homes := rfl
@[simp] theorem State.perfSlice_xlat (s : State) (slice i n : Nat) : (s.perfSlice slice i n).xlat = s.xlat := rfl
@[simp] theorem State.perfSlice_cores (s : State) (slice i n : Nat) : (s.perfSlice slice i n).cores = s.cores := rfl
@[simp] theorem State.perfSlice_wgs (s : State) (slice i n : Nat) : (s.perfSlice slice i n).wgs = s.wgs := rfl
@[simp] theorem State.perfSlice_launches (s : State) (slice i n : Nat) : (s.perfSlice slice i n).launches = s.launches := rfl
@[simp] theorem State.perfSlice_msgs (s : State) (slice i n : Nat) : (s.perfSlice slice i n).msgs = s.msgs := rfl
@[simp] theorem State.perfSlice_queues (s : State) (slice i n : Nat) : (s.perfSlice slice i n).queues = s.queues := rfl
@[simp] theorem State.perfSlice_dev (s : State) (slice i n : Nat) : (s.perfSlice slice i n).dev = s.dev := rfl
@[simp] theorem State.perfSlice_fw (s : State) (slice i n : Nat) : (s.perfSlice slice i n).fw = s.fw := rfl
@[simp] theorem State.perfSlice_logs (s : State) (slice i n : Nat) : (s.perfSlice slice i n).logs = s.logs := rfl

/-! ### `State.perfStack` -/

@[simp] theorem State.perfStack_agenda (s : State) (pa i n : Nat) : (s.perfStack pa i n).agenda = s.agenda := rfl
@[simp] theorem State.perfStack_cursor (s : State) (pa i n : Nat) : (s.perfStack pa i n).cursor = s.cursor := rfl
@[simp] theorem State.perfStack_arg (s : State) (pa i n : Nat) : (s.perfStack pa i n).arg = s.arg := rfl
@[simp] theorem State.perfStack_fresh (s : State) (pa i n : Nat) : (s.perfStack pa i n).fresh = s.fresh := rfl
@[simp] theorem State.perfStack_dtime (s : State) (pa i n : Nat) : (s.perfStack pa i n).dtime = s.dtime := rfl
@[simp] theorem State.perfStack_cyc (s : State) (pa i n : Nat) : (s.perfStack pa i n).cyc = s.cyc := rfl
@[simp] theorem State.perfStack_skews (s : State) (pa i n : Nat) : (s.perfStack pa i n).skews = s.skews := rfl
@[simp] theorem State.perfStack_ptp (s : State) (pa i n : Nat) : (s.perfStack pa i n).ptp = s.ptp := rfl
@[simp] theorem State.perfStack_mem (s : State) (pa i n : Nat) : (s.perfStack pa i n).mem = s.mem := rfl
@[simp] theorem State.perfStack_bad (s : State) (pa i n : Nat) : (s.perfStack pa i n).bad = s.bad := rfl
@[simp] theorem State.perfStack_l2 (s : State) (pa i n : Nat) : (s.perfStack pa i n).l2 = s.l2 := rfl
@[simp] theorem State.perfStack_homes (s : State) (pa i n : Nat) : (s.perfStack pa i n).homes = s.homes := rfl
@[simp] theorem State.perfStack_xlat (s : State) (pa i n : Nat) : (s.perfStack pa i n).xlat = s.xlat := rfl
@[simp] theorem State.perfStack_cores (s : State) (pa i n : Nat) : (s.perfStack pa i n).cores = s.cores := rfl
@[simp] theorem State.perfStack_wgs (s : State) (pa i n : Nat) : (s.perfStack pa i n).wgs = s.wgs := rfl
@[simp] theorem State.perfStack_launches (s : State) (pa i n : Nat) : (s.perfStack pa i n).launches = s.launches := rfl
@[simp] theorem State.perfStack_msgs (s : State) (pa i n : Nat) : (s.perfStack pa i n).msgs = s.msgs := rfl
@[simp] theorem State.perfStack_queues (s : State) (pa i n : Nat) : (s.perfStack pa i n).queues = s.queues := rfl
@[simp] theorem State.perfStack_dev (s : State) (pa i n : Nat) : (s.perfStack pa i n).dev = s.dev := rfl
@[simp] theorem State.perfStack_fw (s : State) (pa i n : Nat) : (s.perfStack pa i n).fw = s.fw := rfl
@[simp] theorem State.perfStack_logs (s : State) (pa i n : Nat) : (s.perfStack pa i n).logs = s.logs := rfl

/-! ### `State.perfWalker` -/

@[simp] theorem State.perfWalker_agenda (s : State) (ia i : Nat) : (s.perfWalker ia i).agenda = s.agenda := rfl
@[simp] theorem State.perfWalker_cursor (s : State) (ia i : Nat) : (s.perfWalker ia i).cursor = s.cursor := rfl
@[simp] theorem State.perfWalker_arg (s : State) (ia i : Nat) : (s.perfWalker ia i).arg = s.arg := rfl
@[simp] theorem State.perfWalker_fresh (s : State) (ia i : Nat) : (s.perfWalker ia i).fresh = s.fresh := rfl
@[simp] theorem State.perfWalker_dtime (s : State) (ia i : Nat) : (s.perfWalker ia i).dtime = s.dtime := rfl
@[simp] theorem State.perfWalker_cyc (s : State) (ia i : Nat) : (s.perfWalker ia i).cyc = s.cyc := rfl
@[simp] theorem State.perfWalker_skews (s : State) (ia i : Nat) : (s.perfWalker ia i).skews = s.skews := rfl
@[simp] theorem State.perfWalker_ptp (s : State) (ia i : Nat) : (s.perfWalker ia i).ptp = s.ptp := rfl
@[simp] theorem State.perfWalker_mem (s : State) (ia i : Nat) : (s.perfWalker ia i).mem = s.mem := rfl
@[simp] theorem State.perfWalker_bad (s : State) (ia i : Nat) : (s.perfWalker ia i).bad = s.bad := rfl
@[simp] theorem State.perfWalker_l2 (s : State) (ia i : Nat) : (s.perfWalker ia i).l2 = s.l2 := rfl
@[simp] theorem State.perfWalker_homes (s : State) (ia i : Nat) : (s.perfWalker ia i).homes = s.homes := rfl
@[simp] theorem State.perfWalker_xlat (s : State) (ia i : Nat) : (s.perfWalker ia i).xlat = s.xlat := rfl
@[simp] theorem State.perfWalker_cores (s : State) (ia i : Nat) : (s.perfWalker ia i).cores = s.cores := rfl
@[simp] theorem State.perfWalker_wgs (s : State) (ia i : Nat) : (s.perfWalker ia i).wgs = s.wgs := rfl
@[simp] theorem State.perfWalker_launches (s : State) (ia i : Nat) : (s.perfWalker ia i).launches = s.launches := rfl
@[simp] theorem State.perfWalker_msgs (s : State) (ia i : Nat) : (s.perfWalker ia i).msgs = s.msgs := rfl
@[simp] theorem State.perfWalker_queues (s : State) (ia i : Nat) : (s.perfWalker ia i).queues = s.queues := rfl
@[simp] theorem State.perfWalker_dev (s : State) (ia i : Nat) : (s.perfWalker ia i).dev = s.dev := rfl
@[simp] theorem State.perfWalker_fw (s : State) (ia i : Nat) : (s.perfWalker ia i).fw = s.fw := rfl
@[simp] theorem State.perfWalker_logs (s : State) (ia i : Nat) : (s.perfWalker ia i).logs = s.logs := rfl

/-! ### `State.onAcc` -/

@[simp] theorem State.onAcc_agenda (s : State) (run grp acc : Nat) (f : Access → Access) : (s.onAcc run grp acc f).agenda = s.agenda := rfl
@[simp] theorem State.onAcc_cursor (s : State) (run grp acc : Nat) (f : Access → Access) : (s.onAcc run grp acc f).cursor = s.cursor := rfl
@[simp] theorem State.onAcc_arg (s : State) (run grp acc : Nat) (f : Access → Access) : (s.onAcc run grp acc f).arg = s.arg := rfl
@[simp] theorem State.onAcc_fresh (s : State) (run grp acc : Nat) (f : Access → Access) : (s.onAcc run grp acc f).fresh = s.fresh := rfl
@[simp] theorem State.onAcc_dtime (s : State) (run grp acc : Nat) (f : Access → Access) : (s.onAcc run grp acc f).dtime = s.dtime := rfl
@[simp] theorem State.onAcc_cyc (s : State) (run grp acc : Nat) (f : Access → Access) : (s.onAcc run grp acc f).cyc = s.cyc := rfl
@[simp] theorem State.onAcc_skews (s : State) (run grp acc : Nat) (f : Access → Access) : (s.onAcc run grp acc f).skews = s.skews := rfl
@[simp] theorem State.onAcc_ptp (s : State) (run grp acc : Nat) (f : Access → Access) : (s.onAcc run grp acc f).ptp = s.ptp := rfl
@[simp] theorem State.onAcc_mem (s : State) (run grp acc : Nat) (f : Access → Access) : (s.onAcc run grp acc f).mem = s.mem := rfl
@[simp] theorem State.onAcc_bad (s : State) (run grp acc : Nat) (f : Access → Access) : (s.onAcc run grp acc f).bad = s.bad := rfl
@[simp] theorem State.onAcc_l2 (s : State) (run grp acc : Nat) (f : Access → Access) : (s.onAcc run grp acc f).l2 = s.l2 := rfl
@[simp] theorem State.onAcc_homes (s : State) (run grp acc : Nat) (f : Access → Access) : (s.onAcc run grp acc f).homes = s.homes := rfl
@[simp] theorem State.onAcc_xlat (s : State) (run grp acc : Nat) (f : Access → Access) : (s.onAcc run grp acc f).xlat = s.xlat := rfl
@[simp] theorem State.onAcc_cores (s : State) (run grp acc : Nat) (f : Access → Access) : (s.onAcc run grp acc f).cores = s.cores := rfl
@[simp] theorem State.onAcc_launches (s : State) (run grp acc : Nat) (f : Access → Access) : (s.onAcc run grp acc f).launches = s.launches := rfl
@[simp] theorem State.onAcc_msgs (s : State) (run grp acc : Nat) (f : Access → Access) : (s.onAcc run grp acc f).msgs = s.msgs := rfl
@[simp] theorem State.onAcc_queues (s : State) (run grp acc : Nat) (f : Access → Access) : (s.onAcc run grp acc f).queues = s.queues := rfl
@[simp] theorem State.onAcc_dev (s : State) (run grp acc : Nat) (f : Access → Access) : (s.onAcc run grp acc f).dev = s.dev := rfl
@[simp] theorem State.onAcc_fw (s : State) (run grp acc : Nat) (f : Access → Access) : (s.onAcc run grp acc f).fw = s.fw := rfl
@[simp] theorem State.onAcc_dbg (s : State) (run grp acc : Nat) (f : Access → Access) : (s.onAcc run grp acc f).dbg = s.dbg := rfl
@[simp] theorem State.onAcc_logs (s : State) (run grp acc : Nat) (f : Access → Access) : (s.onAcc run grp acc f).logs = s.logs := rfl

/-- A line that leaves L2 changes L2, poison and the series counters alone. -/
theorem State.dropL2_l2_bad_dbg (s : State) (line : Nat) : ∃ l2 bad dbg, s.dropL2 line = { s with l2, bad, dbg } := by
  simp only [State.dropL2]
  split
  · split <;> exact ⟨_, _, _, rfl⟩
  · exact ⟨_, _, _, rfl⟩

theorem State.l2Room_l2_bad_dbg {s t : State} {slice line ways : Nat} {land : Bool} (h : s.l2Room slice line ways land = some t) :
    ∃ l2 bad dbg, t = { s with l2, bad, dbg } := by
  simp only [State.l2Room] at h
  split at h
  · exact ⟨_, _, _, (Option.some.inj h).symm⟩
  · obtain ⟨x, -, rfl⟩ := Option.map_eq_some_iff.mp h
    obtain ⟨_, _, _, hx⟩ := s.dropL2_l2_bad_dbg x
    rw [hx]
    exact ⟨_, _, _, rfl⟩

theorem State.keepL2_l2_bad_dbg (s : State) (ways : Option Nat) (old : Option L2Line) (land : Bool) (y : L2Line) :
    ∃ l2 bad dbg, s.keepL2 ways old land y = { s with l2, bad, dbg } := by
  simp only [State.keepL2]
  split
  · exact ⟨_, _, _, rfl⟩
  · split
    · rename_i h
      obtain ⟨_, _, _, rfl⟩ := State.l2Room_l2_bad_dbg h
      exact ⟨_, _, _, rfl⟩
    · exact ⟨_, _, _, rfl⟩

/-- A use of a line by L2 changes L2, poison and the series counters alone. -/
theorem State.touchL2_l2_bad_dbg (s : State) (dom : Option Nat) (ia n : Nat) (write : Bool) (hint fill : Nat) :
    ∃ l2 bad dbg, s.touchL2 dom ia n write hint fill = { s with l2, bad, dbg } := by
  simp only [State.touchL2]
  split
  · exact ⟨_, _, _, rfl⟩
  · obtain ⟨_, _, _, h⟩ := State.keepL2_l2_bad_dbg _ _ _ _ _
    rw [h]
    split <;> exact ⟨_, _, _, rfl⟩

/-! ### `State.dropL2` -/

@[simp] theorem State.dropL2_agenda (s : State) (line : Nat) : (s.dropL2 line).agenda = s.agenda := by obtain ⟨_, _, _, h⟩ := s.dropL2_l2_bad_dbg line; rw [h]
@[simp] theorem State.dropL2_cursor (s : State) (line : Nat) : (s.dropL2 line).cursor = s.cursor := by obtain ⟨_, _, _, h⟩ := s.dropL2_l2_bad_dbg line; rw [h]
@[simp] theorem State.dropL2_arg (s : State) (line : Nat) : (s.dropL2 line).arg = s.arg := by obtain ⟨_, _, _, h⟩ := s.dropL2_l2_bad_dbg line; rw [h]
@[simp] theorem State.dropL2_fresh (s : State) (line : Nat) : (s.dropL2 line).fresh = s.fresh := by obtain ⟨_, _, _, h⟩ := s.dropL2_l2_bad_dbg line; rw [h]
@[simp] theorem State.dropL2_dtime (s : State) (line : Nat) : (s.dropL2 line).dtime = s.dtime := by obtain ⟨_, _, _, h⟩ := s.dropL2_l2_bad_dbg line; rw [h]
@[simp] theorem State.dropL2_cyc (s : State) (line : Nat) : (s.dropL2 line).cyc = s.cyc := by obtain ⟨_, _, _, h⟩ := s.dropL2_l2_bad_dbg line; rw [h]
@[simp] theorem State.dropL2_skews (s : State) (line : Nat) : (s.dropL2 line).skews = s.skews := by obtain ⟨_, _, _, h⟩ := s.dropL2_l2_bad_dbg line; rw [h]
@[simp] theorem State.dropL2_ptp (s : State) (line : Nat) : (s.dropL2 line).ptp = s.ptp := by obtain ⟨_, _, _, h⟩ := s.dropL2_l2_bad_dbg line; rw [h]
@[simp] theorem State.dropL2_mem (s : State) (line : Nat) : (s.dropL2 line).mem = s.mem := by obtain ⟨_, _, _, h⟩ := s.dropL2_l2_bad_dbg line; rw [h]
@[simp] theorem State.dropL2_homes (s : State) (line : Nat) : (s.dropL2 line).homes = s.homes := by obtain ⟨_, _, _, h⟩ := s.dropL2_l2_bad_dbg line; rw [h]
@[simp] theorem State.dropL2_xlat (s : State) (line : Nat) : (s.dropL2 line).xlat = s.xlat := by obtain ⟨_, _, _, h⟩ := s.dropL2_l2_bad_dbg line; rw [h]
@[simp] theorem State.dropL2_cores (s : State) (line : Nat) : (s.dropL2 line).cores = s.cores := by obtain ⟨_, _, _, h⟩ := s.dropL2_l2_bad_dbg line; rw [h]
@[simp] theorem State.dropL2_wgs (s : State) (line : Nat) : (s.dropL2 line).wgs = s.wgs := by obtain ⟨_, _, _, h⟩ := s.dropL2_l2_bad_dbg line; rw [h]
@[simp] theorem State.dropL2_launches (s : State) (line : Nat) : (s.dropL2 line).launches = s.launches := by obtain ⟨_, _, _, h⟩ := s.dropL2_l2_bad_dbg line; rw [h]
@[simp] theorem State.dropL2_msgs (s : State) (line : Nat) : (s.dropL2 line).msgs = s.msgs := by obtain ⟨_, _, _, h⟩ := s.dropL2_l2_bad_dbg line; rw [h]
@[simp] theorem State.dropL2_queues (s : State) (line : Nat) : (s.dropL2 line).queues = s.queues := by obtain ⟨_, _, _, h⟩ := s.dropL2_l2_bad_dbg line; rw [h]
@[simp] theorem State.dropL2_dev (s : State) (line : Nat) : (s.dropL2 line).dev = s.dev := by obtain ⟨_, _, _, h⟩ := s.dropL2_l2_bad_dbg line; rw [h]
@[simp] theorem State.dropL2_fw (s : State) (line : Nat) : (s.dropL2 line).fw = s.fw := by obtain ⟨_, _, _, h⟩ := s.dropL2_l2_bad_dbg line; rw [h]
@[simp] theorem State.dropL2_logs (s : State) (line : Nat) : (s.dropL2 line).logs = s.logs := by obtain ⟨_, _, _, h⟩ := s.dropL2_l2_bad_dbg line; rw [h]

/-! ### `State.touchL2` -/

@[simp] theorem State.touchL2_agenda (s : State) (dom : Option Nat) (ia n : Nat) (write : Bool) (hint fill : Nat) : (s.touchL2 dom ia n write hint fill).agenda = s.agenda := by obtain ⟨_, _, _, h⟩ := s.touchL2_l2_bad_dbg dom ia n write hint fill; rw [h]
@[simp] theorem State.touchL2_cursor (s : State) (dom : Option Nat) (ia n : Nat) (write : Bool) (hint fill : Nat) : (s.touchL2 dom ia n write hint fill).cursor = s.cursor := by obtain ⟨_, _, _, h⟩ := s.touchL2_l2_bad_dbg dom ia n write hint fill; rw [h]
@[simp] theorem State.touchL2_arg (s : State) (dom : Option Nat) (ia n : Nat) (write : Bool) (hint fill : Nat) : (s.touchL2 dom ia n write hint fill).arg = s.arg := by obtain ⟨_, _, _, h⟩ := s.touchL2_l2_bad_dbg dom ia n write hint fill; rw [h]
@[simp] theorem State.touchL2_fresh (s : State) (dom : Option Nat) (ia n : Nat) (write : Bool) (hint fill : Nat) : (s.touchL2 dom ia n write hint fill).fresh = s.fresh := by obtain ⟨_, _, _, h⟩ := s.touchL2_l2_bad_dbg dom ia n write hint fill; rw [h]
@[simp] theorem State.touchL2_dtime (s : State) (dom : Option Nat) (ia n : Nat) (write : Bool) (hint fill : Nat) : (s.touchL2 dom ia n write hint fill).dtime = s.dtime := by obtain ⟨_, _, _, h⟩ := s.touchL2_l2_bad_dbg dom ia n write hint fill; rw [h]
@[simp] theorem State.touchL2_cyc (s : State) (dom : Option Nat) (ia n : Nat) (write : Bool) (hint fill : Nat) : (s.touchL2 dom ia n write hint fill).cyc = s.cyc := by obtain ⟨_, _, _, h⟩ := s.touchL2_l2_bad_dbg dom ia n write hint fill; rw [h]
@[simp] theorem State.touchL2_skews (s : State) (dom : Option Nat) (ia n : Nat) (write : Bool) (hint fill : Nat) : (s.touchL2 dom ia n write hint fill).skews = s.skews := by obtain ⟨_, _, _, h⟩ := s.touchL2_l2_bad_dbg dom ia n write hint fill; rw [h]
@[simp] theorem State.touchL2_ptp (s : State) (dom : Option Nat) (ia n : Nat) (write : Bool) (hint fill : Nat) : (s.touchL2 dom ia n write hint fill).ptp = s.ptp := by obtain ⟨_, _, _, h⟩ := s.touchL2_l2_bad_dbg dom ia n write hint fill; rw [h]
@[simp] theorem State.touchL2_mem (s : State) (dom : Option Nat) (ia n : Nat) (write : Bool) (hint fill : Nat) : (s.touchL2 dom ia n write hint fill).mem = s.mem := by obtain ⟨_, _, _, h⟩ := s.touchL2_l2_bad_dbg dom ia n write hint fill; rw [h]
@[simp] theorem State.touchL2_homes (s : State) (dom : Option Nat) (ia n : Nat) (write : Bool) (hint fill : Nat) : (s.touchL2 dom ia n write hint fill).homes = s.homes := by obtain ⟨_, _, _, h⟩ := s.touchL2_l2_bad_dbg dom ia n write hint fill; rw [h]
@[simp] theorem State.touchL2_xlat (s : State) (dom : Option Nat) (ia n : Nat) (write : Bool) (hint fill : Nat) : (s.touchL2 dom ia n write hint fill).xlat = s.xlat := by obtain ⟨_, _, _, h⟩ := s.touchL2_l2_bad_dbg dom ia n write hint fill; rw [h]
@[simp] theorem State.touchL2_cores (s : State) (dom : Option Nat) (ia n : Nat) (write : Bool) (hint fill : Nat) : (s.touchL2 dom ia n write hint fill).cores = s.cores := by obtain ⟨_, _, _, h⟩ := s.touchL2_l2_bad_dbg dom ia n write hint fill; rw [h]
@[simp] theorem State.touchL2_wgs (s : State) (dom : Option Nat) (ia n : Nat) (write : Bool) (hint fill : Nat) : (s.touchL2 dom ia n write hint fill).wgs = s.wgs := by obtain ⟨_, _, _, h⟩ := s.touchL2_l2_bad_dbg dom ia n write hint fill; rw [h]
@[simp] theorem State.touchL2_launches (s : State) (dom : Option Nat) (ia n : Nat) (write : Bool) (hint fill : Nat) : (s.touchL2 dom ia n write hint fill).launches = s.launches := by obtain ⟨_, _, _, h⟩ := s.touchL2_l2_bad_dbg dom ia n write hint fill; rw [h]
@[simp] theorem State.touchL2_msgs (s : State) (dom : Option Nat) (ia n : Nat) (write : Bool) (hint fill : Nat) : (s.touchL2 dom ia n write hint fill).msgs = s.msgs := by obtain ⟨_, _, _, h⟩ := s.touchL2_l2_bad_dbg dom ia n write hint fill; rw [h]
@[simp] theorem State.touchL2_queues (s : State) (dom : Option Nat) (ia n : Nat) (write : Bool) (hint fill : Nat) : (s.touchL2 dom ia n write hint fill).queues = s.queues := by obtain ⟨_, _, _, h⟩ := s.touchL2_l2_bad_dbg dom ia n write hint fill; rw [h]
@[simp] theorem State.touchL2_dev (s : State) (dom : Option Nat) (ia n : Nat) (write : Bool) (hint fill : Nat) : (s.touchL2 dom ia n write hint fill).dev = s.dev := by obtain ⟨_, _, _, h⟩ := s.touchL2_l2_bad_dbg dom ia n write hint fill; rw [h]
@[simp] theorem State.touchL2_fw (s : State) (dom : Option Nat) (ia n : Nat) (write : Bool) (hint fill : Nat) : (s.touchL2 dom ia n write hint fill).fw = s.fw := by obtain ⟨_, _, _, h⟩ := s.touchL2_l2_bad_dbg dom ia n write hint fill; rw [h]
@[simp] theorem State.touchL2_logs (s : State) (dom : Option Nat) (ia n : Nat) (write : Bool) (hint fill : Nat) : (s.touchL2 dom ia n write hint fill).logs = s.logs := by obtain ⟨_, _, _, h⟩ := s.touchL2_l2_bad_dbg dom ia n write hint fill; rw [h]

/-- A walk changes the walkers' caches, L2, poison and the series counters alone. -/
theorem State.cacheWalk_l2_bad_dbg_xlat (s : State) (ia : Nat) (cached : Bool) (dom : Option Nat) :
    ∃ l2 bad dbg xlat, s.cacheWalk ia cached dom = { s with l2, bad, dbg, xlat } := by
  simp only [State.cacheWalk]
  split
  · obtain ⟨_, _, _, h⟩ := State.touchL2_l2_bad_dbg _ _ _ _ _ _ _
    rw [h]
    exact ⟨_, _, _, _, rfl⟩
  · exact ⟨_, _, _, _, rfl⟩

/-! ### `State.cacheWalk` -/

@[simp] theorem State.cacheWalk_agenda (s : State) (ia : Nat) (cached : Bool) (dom : Option Nat) : (s.cacheWalk ia cached dom).agenda = s.agenda := by obtain ⟨_, _, _, _, h⟩ := s.cacheWalk_l2_bad_dbg_xlat ia cached dom; rw [h]
@[simp] theorem State.cacheWalk_cursor (s : State) (ia : Nat) (cached : Bool) (dom : Option Nat) : (s.cacheWalk ia cached dom).cursor = s.cursor := by obtain ⟨_, _, _, _, h⟩ := s.cacheWalk_l2_bad_dbg_xlat ia cached dom; rw [h]
@[simp] theorem State.cacheWalk_arg (s : State) (ia : Nat) (cached : Bool) (dom : Option Nat) : (s.cacheWalk ia cached dom).arg = s.arg := by obtain ⟨_, _, _, _, h⟩ := s.cacheWalk_l2_bad_dbg_xlat ia cached dom; rw [h]
@[simp] theorem State.cacheWalk_fresh (s : State) (ia : Nat) (cached : Bool) (dom : Option Nat) : (s.cacheWalk ia cached dom).fresh = s.fresh := by obtain ⟨_, _, _, _, h⟩ := s.cacheWalk_l2_bad_dbg_xlat ia cached dom; rw [h]
@[simp] theorem State.cacheWalk_dtime (s : State) (ia : Nat) (cached : Bool) (dom : Option Nat) : (s.cacheWalk ia cached dom).dtime = s.dtime := by obtain ⟨_, _, _, _, h⟩ := s.cacheWalk_l2_bad_dbg_xlat ia cached dom; rw [h]
@[simp] theorem State.cacheWalk_cyc (s : State) (ia : Nat) (cached : Bool) (dom : Option Nat) : (s.cacheWalk ia cached dom).cyc = s.cyc := by obtain ⟨_, _, _, _, h⟩ := s.cacheWalk_l2_bad_dbg_xlat ia cached dom; rw [h]
@[simp] theorem State.cacheWalk_skews (s : State) (ia : Nat) (cached : Bool) (dom : Option Nat) : (s.cacheWalk ia cached dom).skews = s.skews := by obtain ⟨_, _, _, _, h⟩ := s.cacheWalk_l2_bad_dbg_xlat ia cached dom; rw [h]
@[simp] theorem State.cacheWalk_ptp (s : State) (ia : Nat) (cached : Bool) (dom : Option Nat) : (s.cacheWalk ia cached dom).ptp = s.ptp := by obtain ⟨_, _, _, _, h⟩ := s.cacheWalk_l2_bad_dbg_xlat ia cached dom; rw [h]
@[simp] theorem State.cacheWalk_mem (s : State) (ia : Nat) (cached : Bool) (dom : Option Nat) : (s.cacheWalk ia cached dom).mem = s.mem := by obtain ⟨_, _, _, _, h⟩ := s.cacheWalk_l2_bad_dbg_xlat ia cached dom; rw [h]
@[simp] theorem State.cacheWalk_homes (s : State) (ia : Nat) (cached : Bool) (dom : Option Nat) : (s.cacheWalk ia cached dom).homes = s.homes := by obtain ⟨_, _, _, _, h⟩ := s.cacheWalk_l2_bad_dbg_xlat ia cached dom; rw [h]
@[simp] theorem State.cacheWalk_cores (s : State) (ia : Nat) (cached : Bool) (dom : Option Nat) : (s.cacheWalk ia cached dom).cores = s.cores := by obtain ⟨_, _, _, _, h⟩ := s.cacheWalk_l2_bad_dbg_xlat ia cached dom; rw [h]
@[simp] theorem State.cacheWalk_wgs (s : State) (ia : Nat) (cached : Bool) (dom : Option Nat) : (s.cacheWalk ia cached dom).wgs = s.wgs := by obtain ⟨_, _, _, _, h⟩ := s.cacheWalk_l2_bad_dbg_xlat ia cached dom; rw [h]
@[simp] theorem State.cacheWalk_launches (s : State) (ia : Nat) (cached : Bool) (dom : Option Nat) : (s.cacheWalk ia cached dom).launches = s.launches := by obtain ⟨_, _, _, _, h⟩ := s.cacheWalk_l2_bad_dbg_xlat ia cached dom; rw [h]
@[simp] theorem State.cacheWalk_msgs (s : State) (ia : Nat) (cached : Bool) (dom : Option Nat) : (s.cacheWalk ia cached dom).msgs = s.msgs := by obtain ⟨_, _, _, _, h⟩ := s.cacheWalk_l2_bad_dbg_xlat ia cached dom; rw [h]
@[simp] theorem State.cacheWalk_queues (s : State) (ia : Nat) (cached : Bool) (dom : Option Nat) : (s.cacheWalk ia cached dom).queues = s.queues := by obtain ⟨_, _, _, _, h⟩ := s.cacheWalk_l2_bad_dbg_xlat ia cached dom; rw [h]
@[simp] theorem State.cacheWalk_dev (s : State) (ia : Nat) (cached : Bool) (dom : Option Nat) : (s.cacheWalk ia cached dom).dev = s.dev := by obtain ⟨_, _, _, _, h⟩ := s.cacheWalk_l2_bad_dbg_xlat ia cached dom; rw [h]
@[simp] theorem State.cacheWalk_fw (s : State) (ia : Nat) (cached : Bool) (dom : Option Nat) : (s.cacheWalk ia cached dom).fw = s.fw := by obtain ⟨_, _, _, _, h⟩ := s.cacheWalk_l2_bad_dbg_xlat ia cached dom; rw [h]
@[simp] theorem State.cacheWalk_logs (s : State) (ia : Nat) (cached : Bool) (dom : Option Nat) : (s.cacheWalk ia cached dom).logs = s.logs := by obtain ⟨_, _, _, _, h⟩ := s.cacheWalk_l2_bad_dbg_xlat ia cached dom; rw [h]

/-! ### `State.dropUt` -/

@[simp] theorem State.dropUt_agenda (s : State) (core : Nat) : (s.dropUt core).agenda = s.agenda := rfl
@[simp] theorem State.dropUt_cursor (s : State) (core : Nat) : (s.dropUt core).cursor = s.cursor := rfl
@[simp] theorem State.dropUt_arg (s : State) (core : Nat) : (s.dropUt core).arg = s.arg := rfl
@[simp] theorem State.dropUt_fresh (s : State) (core : Nat) : (s.dropUt core).fresh = s.fresh := rfl
@[simp] theorem State.dropUt_dtime (s : State) (core : Nat) : (s.dropUt core).dtime = s.dtime := rfl
@[simp] theorem State.dropUt_cyc (s : State) (core : Nat) : (s.dropUt core).cyc = s.cyc := rfl
@[simp] theorem State.dropUt_skews (s : State) (core : Nat) : (s.dropUt core).skews = s.skews := rfl
@[simp] theorem State.dropUt_ptp (s : State) (core : Nat) : (s.dropUt core).ptp = s.ptp := rfl
@[simp] theorem State.dropUt_mem (s : State) (core : Nat) : (s.dropUt core).mem = s.mem := rfl
@[simp] theorem State.dropUt_bad (s : State) (core : Nat) : (s.dropUt core).bad = s.bad := rfl
@[simp] theorem State.dropUt_l2 (s : State) (core : Nat) : (s.dropUt core).l2 = s.l2 := rfl
@[simp] theorem State.dropUt_homes (s : State) (core : Nat) : (s.dropUt core).homes = s.homes := rfl
@[simp] theorem State.dropUt_xlat (s : State) (core : Nat) : (s.dropUt core).xlat = s.xlat := rfl
@[simp] theorem State.dropUt_wgs (s : State) (core : Nat) : (s.dropUt core).wgs = s.wgs := rfl
@[simp] theorem State.dropUt_launches (s : State) (core : Nat) : (s.dropUt core).launches = s.launches := rfl
@[simp] theorem State.dropUt_msgs (s : State) (core : Nat) : (s.dropUt core).msgs = s.msgs := rfl
@[simp] theorem State.dropUt_queues (s : State) (core : Nat) : (s.dropUt core).queues = s.queues := rfl
@[simp] theorem State.dropUt_dev (s : State) (core : Nat) : (s.dropUt core).dev = s.dev := rfl
@[simp] theorem State.dropUt_fw (s : State) (core : Nat) : (s.dropUt core).fw = s.fw := rfl
@[simp] theorem State.dropUt_dbg (s : State) (core : Nat) : (s.dropUt core).dbg = s.dbg := rfl
@[simp] theorem State.dropUt_logs (s : State) (core : Nat) : (s.dropUt core).logs = s.logs := rfl

/-! ### `State.touchL1` -/

@[simp] theorem State.touchL1_agenda (s : State) (core ia hint : Nat) : (s.touchL1 core ia hint).agenda = s.agenda := rfl
@[simp] theorem State.touchL1_cursor (s : State) (core ia hint : Nat) : (s.touchL1 core ia hint).cursor = s.cursor := rfl
@[simp] theorem State.touchL1_arg (s : State) (core ia hint : Nat) : (s.touchL1 core ia hint).arg = s.arg := rfl
@[simp] theorem State.touchL1_fresh (s : State) (core ia hint : Nat) : (s.touchL1 core ia hint).fresh = s.fresh := rfl
@[simp] theorem State.touchL1_dtime (s : State) (core ia hint : Nat) : (s.touchL1 core ia hint).dtime = s.dtime := rfl
@[simp] theorem State.touchL1_cyc (s : State) (core ia hint : Nat) : (s.touchL1 core ia hint).cyc = s.cyc := rfl
@[simp] theorem State.touchL1_skews (s : State) (core ia hint : Nat) : (s.touchL1 core ia hint).skews = s.skews := rfl
@[simp] theorem State.touchL1_ptp (s : State) (core ia hint : Nat) : (s.touchL1 core ia hint).ptp = s.ptp := rfl
@[simp] theorem State.touchL1_mem (s : State) (core ia hint : Nat) : (s.touchL1 core ia hint).mem = s.mem := rfl
@[simp] theorem State.touchL1_bad (s : State) (core ia hint : Nat) : (s.touchL1 core ia hint).bad = s.bad := rfl
@[simp] theorem State.touchL1_l2 (s : State) (core ia hint : Nat) : (s.touchL1 core ia hint).l2 = s.l2 := rfl
@[simp] theorem State.touchL1_homes (s : State) (core ia hint : Nat) : (s.touchL1 core ia hint).homes = s.homes := rfl
@[simp] theorem State.touchL1_xlat (s : State) (core ia hint : Nat) : (s.touchL1 core ia hint).xlat = s.xlat := rfl
@[simp] theorem State.touchL1_wgs (s : State) (core ia hint : Nat) : (s.touchL1 core ia hint).wgs = s.wgs := rfl
@[simp] theorem State.touchL1_launches (s : State) (core ia hint : Nat) : (s.touchL1 core ia hint).launches = s.launches := rfl
@[simp] theorem State.touchL1_msgs (s : State) (core ia hint : Nat) : (s.touchL1 core ia hint).msgs = s.msgs := rfl
@[simp] theorem State.touchL1_queues (s : State) (core ia hint : Nat) : (s.touchL1 core ia hint).queues = s.queues := rfl
@[simp] theorem State.touchL1_dev (s : State) (core ia hint : Nat) : (s.touchL1 core ia hint).dev = s.dev := rfl
@[simp] theorem State.touchL1_fw (s : State) (core ia hint : Nat) : (s.touchL1 core ia hint).fw = s.fw := rfl
@[simp] theorem State.touchL1_dbg (s : State) (core ia hint : Nat) : (s.touchL1 core ia hint).dbg = s.dbg := rfl
@[simp] theorem State.touchL1_logs (s : State) (core ia hint : Nat) : (s.touchL1 core ia hint).logs = s.logs := rfl

/-! ### `State.storeL1` -/

@[simp] theorem State.storeL1_agenda (s : State) (core ia size dat : Nat) : (s.storeL1 core ia size dat).agenda = s.agenda := rfl
@[simp] theorem State.storeL1_cursor (s : State) (core ia size dat : Nat) : (s.storeL1 core ia size dat).cursor = s.cursor := rfl
@[simp] theorem State.storeL1_arg (s : State) (core ia size dat : Nat) : (s.storeL1 core ia size dat).arg = s.arg := rfl
@[simp] theorem State.storeL1_fresh (s : State) (core ia size dat : Nat) : (s.storeL1 core ia size dat).fresh = s.fresh := rfl
@[simp] theorem State.storeL1_dtime (s : State) (core ia size dat : Nat) : (s.storeL1 core ia size dat).dtime = s.dtime := rfl
@[simp] theorem State.storeL1_cyc (s : State) (core ia size dat : Nat) : (s.storeL1 core ia size dat).cyc = s.cyc := rfl
@[simp] theorem State.storeL1_skews (s : State) (core ia size dat : Nat) : (s.storeL1 core ia size dat).skews = s.skews := rfl
@[simp] theorem State.storeL1_ptp (s : State) (core ia size dat : Nat) : (s.storeL1 core ia size dat).ptp = s.ptp := rfl
@[simp] theorem State.storeL1_mem (s : State) (core ia size dat : Nat) : (s.storeL1 core ia size dat).mem = s.mem := rfl
@[simp] theorem State.storeL1_bad (s : State) (core ia size dat : Nat) : (s.storeL1 core ia size dat).bad = s.bad := rfl
@[simp] theorem State.storeL1_l2 (s : State) (core ia size dat : Nat) : (s.storeL1 core ia size dat).l2 = s.l2 := rfl
@[simp] theorem State.storeL1_homes (s : State) (core ia size dat : Nat) : (s.storeL1 core ia size dat).homes = s.homes := rfl
@[simp] theorem State.storeL1_xlat (s : State) (core ia size dat : Nat) : (s.storeL1 core ia size dat).xlat = s.xlat := rfl
@[simp] theorem State.storeL1_wgs (s : State) (core ia size dat : Nat) : (s.storeL1 core ia size dat).wgs = s.wgs := rfl
@[simp] theorem State.storeL1_launches (s : State) (core ia size dat : Nat) : (s.storeL1 core ia size dat).launches = s.launches := rfl
@[simp] theorem State.storeL1_msgs (s : State) (core ia size dat : Nat) : (s.storeL1 core ia size dat).msgs = s.msgs := rfl
@[simp] theorem State.storeL1_queues (s : State) (core ia size dat : Nat) : (s.storeL1 core ia size dat).queues = s.queues := rfl
@[simp] theorem State.storeL1_dev (s : State) (core ia size dat : Nat) : (s.storeL1 core ia size dat).dev = s.dev := rfl
@[simp] theorem State.storeL1_fw (s : State) (core ia size dat : Nat) : (s.storeL1 core ia size dat).fw = s.fw := rfl
@[simp] theorem State.storeL1_dbg (s : State) (core ia size dat : Nat) : (s.storeL1 core ia size dat).dbg = s.dbg := rfl
@[simp] theorem State.storeL1_logs (s : State) (core ia size dat : Nat) : (s.storeL1 core ia size dat).logs = s.logs := rfl

/-! ### `State.writeIA` -/

@[simp] theorem State.writeIA_agenda (s : State) (ia : Nat) (bs : List Byte) (poison : Bool) : (s.writeIA ia bs poison).agenda = s.agenda := rfl
@[simp] theorem State.writeIA_cursor (s : State) (ia : Nat) (bs : List Byte) (poison : Bool) : (s.writeIA ia bs poison).cursor = s.cursor := rfl
@[simp] theorem State.writeIA_arg (s : State) (ia : Nat) (bs : List Byte) (poison : Bool) : (s.writeIA ia bs poison).arg = s.arg := rfl
@[simp] theorem State.writeIA_fresh (s : State) (ia : Nat) (bs : List Byte) (poison : Bool) : (s.writeIA ia bs poison).fresh = s.fresh := rfl
@[simp] theorem State.writeIA_dtime (s : State) (ia : Nat) (bs : List Byte) (poison : Bool) : (s.writeIA ia bs poison).dtime = s.dtime := rfl
@[simp] theorem State.writeIA_cyc (s : State) (ia : Nat) (bs : List Byte) (poison : Bool) : (s.writeIA ia bs poison).cyc = s.cyc := rfl
@[simp] theorem State.writeIA_skews (s : State) (ia : Nat) (bs : List Byte) (poison : Bool) : (s.writeIA ia bs poison).skews = s.skews := rfl
@[simp] theorem State.writeIA_ptp (s : State) (ia : Nat) (bs : List Byte) (poison : Bool) : (s.writeIA ia bs poison).ptp = s.ptp := rfl
@[simp] theorem State.writeIA_l2 (s : State) (ia : Nat) (bs : List Byte) (poison : Bool) : (s.writeIA ia bs poison).l2 = s.l2 := rfl
@[simp] theorem State.writeIA_homes (s : State) (ia : Nat) (bs : List Byte) (poison : Bool) : (s.writeIA ia bs poison).homes = s.homes := rfl
@[simp] theorem State.writeIA_xlat (s : State) (ia : Nat) (bs : List Byte) (poison : Bool) : (s.writeIA ia bs poison).xlat = s.xlat := rfl
@[simp] theorem State.writeIA_cores (s : State) (ia : Nat) (bs : List Byte) (poison : Bool) : (s.writeIA ia bs poison).cores = s.cores := rfl
@[simp] theorem State.writeIA_wgs (s : State) (ia : Nat) (bs : List Byte) (poison : Bool) : (s.writeIA ia bs poison).wgs = s.wgs := rfl
@[simp] theorem State.writeIA_launches (s : State) (ia : Nat) (bs : List Byte) (poison : Bool) : (s.writeIA ia bs poison).launches = s.launches := rfl
@[simp] theorem State.writeIA_msgs (s : State) (ia : Nat) (bs : List Byte) (poison : Bool) : (s.writeIA ia bs poison).msgs = s.msgs := rfl
@[simp] theorem State.writeIA_queues (s : State) (ia : Nat) (bs : List Byte) (poison : Bool) : (s.writeIA ia bs poison).queues = s.queues := rfl
@[simp] theorem State.writeIA_dev (s : State) (ia : Nat) (bs : List Byte) (poison : Bool) : (s.writeIA ia bs poison).dev = s.dev := rfl
@[simp] theorem State.writeIA_fw (s : State) (ia : Nat) (bs : List Byte) (poison : Bool) : (s.writeIA ia bs poison).fw = s.fw := rfl
@[simp] theorem State.writeIA_dbg (s : State) (ia : Nat) (bs : List Byte) (poison : Bool) : (s.writeIA ia bs poison).dbg = s.dbg := rfl
@[simp] theorem State.writeIA_logs (s : State) (ia : Nat) (bs : List Byte) (poison : Bool) : (s.writeIA ia bs poison).logs = s.logs := rfl

/-! ### `State.setQctl` -/

@[simp] theorem State.setQctl_agenda (s : State) (x : QCtl) : (s.setQctl x).agenda = s.agenda := rfl
@[simp] theorem State.setQctl_cursor (s : State) (x : QCtl) : (s.setQctl x).cursor = s.cursor := rfl
@[simp] theorem State.setQctl_arg (s : State) (x : QCtl) : (s.setQctl x).arg = s.arg := rfl
@[simp] theorem State.setQctl_fresh (s : State) (x : QCtl) : (s.setQctl x).fresh = s.fresh := rfl
@[simp] theorem State.setQctl_dtime (s : State) (x : QCtl) : (s.setQctl x).dtime = s.dtime := rfl
@[simp] theorem State.setQctl_cyc (s : State) (x : QCtl) : (s.setQctl x).cyc = s.cyc := rfl
@[simp] theorem State.setQctl_skews (s : State) (x : QCtl) : (s.setQctl x).skews = s.skews := rfl
@[simp] theorem State.setQctl_ptp (s : State) (x : QCtl) : (s.setQctl x).ptp = s.ptp := rfl
@[simp] theorem State.setQctl_mem (s : State) (x : QCtl) : (s.setQctl x).mem = s.mem := rfl
@[simp] theorem State.setQctl_bad (s : State) (x : QCtl) : (s.setQctl x).bad = s.bad := rfl
@[simp] theorem State.setQctl_l2 (s : State) (x : QCtl) : (s.setQctl x).l2 = s.l2 := rfl
@[simp] theorem State.setQctl_homes (s : State) (x : QCtl) : (s.setQctl x).homes = s.homes := rfl
@[simp] theorem State.setQctl_xlat (s : State) (x : QCtl) : (s.setQctl x).xlat = s.xlat := rfl
@[simp] theorem State.setQctl_cores (s : State) (x : QCtl) : (s.setQctl x).cores = s.cores := rfl
@[simp] theorem State.setQctl_wgs (s : State) (x : QCtl) : (s.setQctl x).wgs = s.wgs := rfl
@[simp] theorem State.setQctl_launches (s : State) (x : QCtl) : (s.setQctl x).launches = s.launches := rfl
@[simp] theorem State.setQctl_msgs (s : State) (x : QCtl) : (s.setQctl x).msgs = s.msgs := rfl
@[simp] theorem State.setQctl_dev (s : State) (x : QCtl) : (s.setQctl x).dev = s.dev := rfl
@[simp] theorem State.setQctl_fw (s : State) (x : QCtl) : (s.setQctl x).fw = s.fw := rfl
@[simp] theorem State.setQctl_dbg (s : State) (x : QCtl) : (s.setQctl x).dbg = s.dbg := rfl
@[simp] theorem State.setQctl_logs (s : State) (x : QCtl) : (s.setQctl x).logs = s.logs := rfl

/-! ### `State.issued` -/

@[simp] theorem State.issued_agenda (s : State) (c : Ctx) : (s.issued c).agenda = s.agenda := rfl
@[simp] theorem State.issued_arg (s : State) (c : Ctx) : (s.issued c).arg = s.arg := rfl
@[simp] theorem State.issued_fresh (s : State) (c : Ctx) : (s.issued c).fresh = s.fresh := rfl
@[simp] theorem State.issued_dtime (s : State) (c : Ctx) : (s.issued c).dtime = s.dtime := rfl
@[simp] theorem State.issued_cyc (s : State) (c : Ctx) : (s.issued c).cyc = s.cyc := rfl
@[simp] theorem State.issued_skews (s : State) (c : Ctx) : (s.issued c).skews = s.skews := rfl
@[simp] theorem State.issued_ptp (s : State) (c : Ctx) : (s.issued c).ptp = s.ptp := rfl
@[simp] theorem State.issued_mem (s : State) (c : Ctx) : (s.issued c).mem = s.mem := rfl
@[simp] theorem State.issued_bad (s : State) (c : Ctx) : (s.issued c).bad = s.bad := rfl
@[simp] theorem State.issued_l2 (s : State) (c : Ctx) : (s.issued c).l2 = s.l2 := rfl
@[simp] theorem State.issued_homes (s : State) (c : Ctx) : (s.issued c).homes = s.homes := rfl
@[simp] theorem State.issued_xlat (s : State) (c : Ctx) : (s.issued c).xlat = s.xlat := rfl
@[simp] theorem State.issued_cores (s : State) (c : Ctx) : (s.issued c).cores = s.cores := rfl
@[simp] theorem State.issued_wgs (s : State) (c : Ctx) : (s.issued c).wgs = s.wgs := rfl
@[simp] theorem State.issued_msgs (s : State) (c : Ctx) : (s.issued c).msgs = s.msgs := rfl
@[simp] theorem State.issued_queues (s : State) (c : Ctx) : (s.issued c).queues = s.queues := rfl
@[simp] theorem State.issued_dev (s : State) (c : Ctx) : (s.issued c).dev = s.dev := rfl
@[simp] theorem State.issued_fw (s : State) (c : Ctx) : (s.issued c).fw = s.fw := rfl
@[simp] theorem State.issued_dbg (s : State) (c : Ctx) : (s.issued c).dbg = s.dbg := rfl
@[simp] theorem State.issued_logs (s : State) (c : Ctx) : (s.issued c).logs = s.logs := rfl

/-! ### `State.retired` -/

@[simp] theorem State.retired_agenda (s : State) (c : Ctx) : (s.retired c).agenda = s.agenda := rfl
@[simp] theorem State.retired_arg (s : State) (c : Ctx) : (s.retired c).arg = s.arg := rfl
@[simp] theorem State.retired_fresh (s : State) (c : Ctx) : (s.retired c).fresh = s.fresh := rfl
@[simp] theorem State.retired_dtime (s : State) (c : Ctx) : (s.retired c).dtime = s.dtime := rfl
@[simp] theorem State.retired_cyc (s : State) (c : Ctx) : (s.retired c).cyc = s.cyc := rfl
@[simp] theorem State.retired_skews (s : State) (c : Ctx) : (s.retired c).skews = s.skews := rfl
@[simp] theorem State.retired_ptp (s : State) (c : Ctx) : (s.retired c).ptp = s.ptp := rfl
@[simp] theorem State.retired_mem (s : State) (c : Ctx) : (s.retired c).mem = s.mem := rfl
@[simp] theorem State.retired_bad (s : State) (c : Ctx) : (s.retired c).bad = s.bad := rfl
@[simp] theorem State.retired_l2 (s : State) (c : Ctx) : (s.retired c).l2 = s.l2 := rfl
@[simp] theorem State.retired_homes (s : State) (c : Ctx) : (s.retired c).homes = s.homes := rfl
@[simp] theorem State.retired_xlat (s : State) (c : Ctx) : (s.retired c).xlat = s.xlat := rfl
@[simp] theorem State.retired_cores (s : State) (c : Ctx) : (s.retired c).cores = s.cores := rfl
@[simp] theorem State.retired_wgs (s : State) (c : Ctx) : (s.retired c).wgs = s.wgs := rfl
@[simp] theorem State.retired_msgs (s : State) (c : Ctx) : (s.retired c).msgs = s.msgs := rfl
@[simp] theorem State.retired_queues (s : State) (c : Ctx) : (s.retired c).queues = s.queues := rfl
@[simp] theorem State.retired_dev (s : State) (c : Ctx) : (s.retired c).dev = s.dev := rfl
@[simp] theorem State.retired_fw (s : State) (c : Ctx) : (s.retired c).fw = s.fw := rfl
@[simp] theorem State.retired_logs (s : State) (c : Ctx) : (s.retired c).logs = s.logs := rfl

/-! ### `State.waitIn` -/

@[simp] theorem State.waitIn_agenda (s : State) (c : Ctx) (st : FragSt) : (s.waitIn c st).agenda = s.agenda := rfl
@[simp] theorem State.waitIn_arg (s : State) (c : Ctx) (st : FragSt) : (s.waitIn c st).arg = s.arg := rfl
@[simp] theorem State.waitIn_fresh (s : State) (c : Ctx) (st : FragSt) : (s.waitIn c st).fresh = s.fresh := rfl
@[simp] theorem State.waitIn_dtime (s : State) (c : Ctx) (st : FragSt) : (s.waitIn c st).dtime = s.dtime := rfl
@[simp] theorem State.waitIn_cyc (s : State) (c : Ctx) (st : FragSt) : (s.waitIn c st).cyc = s.cyc := rfl
@[simp] theorem State.waitIn_skews (s : State) (c : Ctx) (st : FragSt) : (s.waitIn c st).skews = s.skews := rfl
@[simp] theorem State.waitIn_ptp (s : State) (c : Ctx) (st : FragSt) : (s.waitIn c st).ptp = s.ptp := rfl
@[simp] theorem State.waitIn_mem (s : State) (c : Ctx) (st : FragSt) : (s.waitIn c st).mem = s.mem := rfl
@[simp] theorem State.waitIn_bad (s : State) (c : Ctx) (st : FragSt) : (s.waitIn c st).bad = s.bad := rfl
@[simp] theorem State.waitIn_l2 (s : State) (c : Ctx) (st : FragSt) : (s.waitIn c st).l2 = s.l2 := rfl
@[simp] theorem State.waitIn_homes (s : State) (c : Ctx) (st : FragSt) : (s.waitIn c st).homes = s.homes := rfl
@[simp] theorem State.waitIn_xlat (s : State) (c : Ctx) (st : FragSt) : (s.waitIn c st).xlat = s.xlat := rfl
@[simp] theorem State.waitIn_cores (s : State) (c : Ctx) (st : FragSt) : (s.waitIn c st).cores = s.cores := rfl
@[simp] theorem State.waitIn_launches (s : State) (c : Ctx) (st : FragSt) : (s.waitIn c st).launches = s.launches := rfl
@[simp] theorem State.waitIn_msgs (s : State) (c : Ctx) (st : FragSt) : (s.waitIn c st).msgs = s.msgs := rfl
@[simp] theorem State.waitIn_queues (s : State) (c : Ctx) (st : FragSt) : (s.waitIn c st).queues = s.queues := rfl
@[simp] theorem State.waitIn_dev (s : State) (c : Ctx) (st : FragSt) : (s.waitIn c st).dev = s.dev := rfl
@[simp] theorem State.waitIn_fw (s : State) (c : Ctx) (st : FragSt) : (s.waitIn c st).fw = s.fw := rfl
@[simp] theorem State.waitIn_dbg (s : State) (c : Ctx) (st : FragSt) : (s.waitIn c st).dbg = s.dbg := rfl
@[simp] theorem State.waitIn_logs (s : State) (c : Ctx) (st : FragSt) : (s.waitIn c st).logs = s.logs := rfl

/-! ### `State.stopAt` -/

@[simp] theorem State.stopAt_agenda (s : State) (run grp ent cause : Nat) (pc hit : DWord) (code : Word) (addr : Nat) : (s.stopAt run grp ent cause pc hit code addr).agenda = s.agenda := by unfold State.stopAt; (repeat' split) <;> rfl
@[simp] theorem State.stopAt_arg (s : State) (run grp ent cause : Nat) (pc hit : DWord) (code : Word) (addr : Nat) : (s.stopAt run grp ent cause pc hit code addr).arg = s.arg := by unfold State.stopAt; (repeat' split) <;> rfl
@[simp] theorem State.stopAt_fresh (s : State) (run grp ent cause : Nat) (pc hit : DWord) (code : Word) (addr : Nat) : (s.stopAt run grp ent cause pc hit code addr).fresh = s.fresh := by unfold State.stopAt; (repeat' split) <;> rfl
@[simp] theorem State.stopAt_dtime (s : State) (run grp ent cause : Nat) (pc hit : DWord) (code : Word) (addr : Nat) : (s.stopAt run grp ent cause pc hit code addr).dtime = s.dtime := by unfold State.stopAt; (repeat' split) <;> rfl
@[simp] theorem State.stopAt_cyc (s : State) (run grp ent cause : Nat) (pc hit : DWord) (code : Word) (addr : Nat) : (s.stopAt run grp ent cause pc hit code addr).cyc = s.cyc := by unfold State.stopAt; (repeat' split) <;> rfl
@[simp] theorem State.stopAt_skews (s : State) (run grp ent cause : Nat) (pc hit : DWord) (code : Word) (addr : Nat) : (s.stopAt run grp ent cause pc hit code addr).skews = s.skews := by unfold State.stopAt; (repeat' split) <;> rfl
@[simp] theorem State.stopAt_ptp (s : State) (run grp ent cause : Nat) (pc hit : DWord) (code : Word) (addr : Nat) : (s.stopAt run grp ent cause pc hit code addr).ptp = s.ptp := by unfold State.stopAt; (repeat' split) <;> rfl
@[simp] theorem State.stopAt_mem (s : State) (run grp ent cause : Nat) (pc hit : DWord) (code : Word) (addr : Nat) : (s.stopAt run grp ent cause pc hit code addr).mem = s.mem := by unfold State.stopAt; (repeat' split) <;> rfl
@[simp] theorem State.stopAt_bad (s : State) (run grp ent cause : Nat) (pc hit : DWord) (code : Word) (addr : Nat) : (s.stopAt run grp ent cause pc hit code addr).bad = s.bad := by unfold State.stopAt; (repeat' split) <;> rfl
@[simp] theorem State.stopAt_l2 (s : State) (run grp ent cause : Nat) (pc hit : DWord) (code : Word) (addr : Nat) : (s.stopAt run grp ent cause pc hit code addr).l2 = s.l2 := by unfold State.stopAt; (repeat' split) <;> rfl
@[simp] theorem State.stopAt_homes (s : State) (run grp ent cause : Nat) (pc hit : DWord) (code : Word) (addr : Nat) : (s.stopAt run grp ent cause pc hit code addr).homes = s.homes := by unfold State.stopAt; (repeat' split) <;> rfl
@[simp] theorem State.stopAt_xlat (s : State) (run grp ent cause : Nat) (pc hit : DWord) (code : Word) (addr : Nat) : (s.stopAt run grp ent cause pc hit code addr).xlat = s.xlat := by unfold State.stopAt; (repeat' split) <;> rfl
@[simp] theorem State.stopAt_cores (s : State) (run grp ent cause : Nat) (pc hit : DWord) (code : Word) (addr : Nat) : (s.stopAt run grp ent cause pc hit code addr).cores = s.cores := by unfold State.stopAt; (repeat' split) <;> rfl
@[simp] theorem State.stopAt_wgs (s : State) (run grp ent cause : Nat) (pc hit : DWord) (code : Word) (addr : Nat) : (s.stopAt run grp ent cause pc hit code addr).wgs = s.wgs := by unfold State.stopAt; (repeat' split) <;> rfl
@[simp] theorem State.stopAt_launches (s : State) (run grp ent cause : Nat) (pc hit : DWord) (code : Word) (addr : Nat) : (s.stopAt run grp ent cause pc hit code addr).launches = s.launches := by unfold State.stopAt; (repeat' split) <;> rfl
@[simp] theorem State.stopAt_msgs (s : State) (run grp ent cause : Nat) (pc hit : DWord) (code : Word) (addr : Nat) : (s.stopAt run grp ent cause pc hit code addr).msgs = s.msgs := by unfold State.stopAt; (repeat' split) <;> rfl
@[simp] theorem State.stopAt_queues (s : State) (run grp ent cause : Nat) (pc hit : DWord) (code : Word) (addr : Nat) : (s.stopAt run grp ent cause pc hit code addr).queues = s.queues := by unfold State.stopAt; (repeat' split) <;> rfl
@[simp] theorem State.stopAt_dev (s : State) (run grp ent cause : Nat) (pc hit : DWord) (code : Word) (addr : Nat) : (s.stopAt run grp ent cause pc hit code addr).dev = s.dev := by unfold State.stopAt; (repeat' split) <;> rfl
@[simp] theorem State.stopAt_fw (s : State) (run grp ent cause : Nat) (pc hit : DWord) (code : Word) (addr : Nat) : (s.stopAt run grp ent cause pc hit code addr).fw = s.fw := by unfold State.stopAt; (repeat' split) <;> rfl
@[simp] theorem State.stopAt_logs (s : State) (run grp ent cause : Nat) (pc hit : DWord) (code : Word) (addr : Nat) : (s.stopAt run grp ent cause pc hit code addr).logs = s.logs := by unfold State.stopAt; (repeat' split) <;> rfl

/-! ### `State.passAcquire` -/

@[simp] theorem State.passAcquire_agenda (s : State)  : (s.passAcquire).agenda = s.agenda := by simp only [State.passAcquire]; split; (split <;> simp); rfl
@[simp] theorem State.passAcquire_cursor (s : State)  : (s.passAcquire).cursor = s.cursor := by simp only [State.passAcquire]; split; (split <;> simp); rfl
@[simp] theorem State.passAcquire_arg (s : State)  : (s.passAcquire).arg = s.arg := by simp only [State.passAcquire]; split; (split <;> simp); rfl
@[simp] theorem State.passAcquire_fresh (s : State)  : (s.passAcquire).fresh = s.fresh := by simp only [State.passAcquire]; split; (split <;> simp); rfl
@[simp] theorem State.passAcquire_dtime (s : State)  : (s.passAcquire).dtime = s.dtime := by simp only [State.passAcquire]; split; (split <;> simp); rfl
@[simp] theorem State.passAcquire_cyc (s : State)  : (s.passAcquire).cyc = s.cyc := by simp only [State.passAcquire]; split; (split <;> simp); rfl
@[simp] theorem State.passAcquire_skews (s : State)  : (s.passAcquire).skews = s.skews := by simp only [State.passAcquire]; split; (split <;> simp); rfl
@[simp] theorem State.passAcquire_ptp (s : State)  : (s.passAcquire).ptp = s.ptp := by simp only [State.passAcquire]; split; (split <;> simp); rfl
@[simp] theorem State.passAcquire_mem (s : State)  : (s.passAcquire).mem = s.mem := by simp only [State.passAcquire]; split; (split <;> simp); rfl
@[simp] theorem State.passAcquire_bad (s : State)  : (s.passAcquire).bad = s.bad := by simp only [State.passAcquire]; split; (split <;> simp); rfl
@[simp] theorem State.passAcquire_l2 (s : State)  : (s.passAcquire).l2 = s.l2 := by simp only [State.passAcquire]; split; (split <;> simp); rfl
@[simp] theorem State.passAcquire_homes (s : State)  : (s.passAcquire).homes = s.homes := by simp only [State.passAcquire]; split; (split <;> simp); rfl
@[simp] theorem State.passAcquire_xlat (s : State)  : (s.passAcquire).xlat = s.xlat := by simp only [State.passAcquire]; split; (split <;> simp); rfl
@[simp] theorem State.passAcquire_launches (s : State)  : (s.passAcquire).launches = s.launches := by simp only [State.passAcquire]; split; (split <;> simp); rfl
@[simp] theorem State.passAcquire_msgs (s : State)  : (s.passAcquire).msgs = s.msgs := by simp only [State.passAcquire]; split; (split <;> simp); rfl
@[simp] theorem State.passAcquire_queues (s : State)  : (s.passAcquire).queues = s.queues := by simp only [State.passAcquire]; split; (split <;> simp); rfl
@[simp] theorem State.passAcquire_dev (s : State)  : (s.passAcquire).dev = s.dev := by simp only [State.passAcquire]; split; (split <;> simp); rfl
@[simp] theorem State.passAcquire_fw (s : State)  : (s.passAcquire).fw = s.fw := by simp only [State.passAcquire]; split; (split <;> simp); rfl
@[simp] theorem State.passAcquire_dbg (s : State)  : (s.passAcquire).dbg = s.dbg := by simp only [State.passAcquire]; split; (split <;> simp); rfl
@[simp] theorem State.passAcquire_logs (s : State)  : (s.passAcquire).logs = s.logs := by simp only [State.passAcquire]; split; (split <;> simp); rfl

@[simp] theorem State.new_agenda (s : State) : s.new.2.agenda = s.agenda := rfl
@[simp] theorem State.new_cursor (s : State) : s.new.2.cursor = s.cursor := rfl
@[simp] theorem State.new_arg (s : State) : s.new.2.arg = s.arg := rfl
@[simp] theorem State.new_dtime (s : State) : s.new.2.dtime = s.dtime := rfl
@[simp] theorem State.new_cyc (s : State) : s.new.2.cyc = s.cyc := rfl
@[simp] theorem State.new_skews (s : State) : s.new.2.skews = s.skews := rfl
@[simp] theorem State.new_ptp (s : State) : s.new.2.ptp = s.ptp := rfl
@[simp] theorem State.new_mem (s : State) : s.new.2.mem = s.mem := rfl
@[simp] theorem State.new_bad (s : State) : s.new.2.bad = s.bad := rfl
@[simp] theorem State.new_l2 (s : State) : s.new.2.l2 = s.l2 := rfl
@[simp] theorem State.new_homes (s : State) : s.new.2.homes = s.homes := rfl
@[simp] theorem State.new_xlat (s : State) : s.new.2.xlat = s.xlat := rfl
@[simp] theorem State.new_cores (s : State) : s.new.2.cores = s.cores := rfl
@[simp] theorem State.new_wgs (s : State) : s.new.2.wgs = s.wgs := rfl
@[simp] theorem State.new_launches (s : State) : s.new.2.launches = s.launches := rfl
@[simp] theorem State.new_msgs (s : State) : s.new.2.msgs = s.msgs := rfl
@[simp] theorem State.new_queues (s : State) : s.new.2.queues = s.queues := rfl
@[simp] theorem State.new_dev (s : State) : s.new.2.dev = s.dev := rfl
@[simp] theorem State.new_fw (s : State) : s.new.2.fw = s.fw := rfl
@[simp] theorem State.new_dbg (s : State) : s.new.2.dbg = s.dbg := rfl
@[simp] theorem State.new_logs (s : State) : s.new.2.logs = s.logs := rfl
@[simp] theorem State.new_id (s : State) : s.new.1 = s.fresh := rfl
@[simp] theorem State.new_fresh (s : State) : s.new.2.fresh = s.fresh + 1 := rfl

end Sys2Proof.Machine
end

