-- ==== Sys2Proof/Laws/Find.lean ====
section
/-! SUPPORT. Lanes and masks, and what is found after something was put back: workgroups, groups, fragments, launches,
registers. -/

namespace Sys2Proof

/-! ### Lanes and masks -/

@[simp] theorem Lanes.at_gen {α : Type} (f : Nat → α) (i : Nat) (h : i < 64) : (Lanes.gen f).at i = f i := by
  simp [Lanes.gen, Lanes.at, Vector.get, Fin.ofNat, Nat.mod_eq_of_lt h]
  rfl

@[simp] theorem Lanes.at_const {α : Type} (a : α) (i : Nat) : (Lanes.const a).at i = a := by
  simp [Lanes.const, Lanes.at, Vector.get]

theorem bitsOf_getLsbD (p : Nat → Bool) : ∀ n i : Nat, (bitsOf p n).getLsbD i = (decide (i < n) && p i) := by
  intro n
  induction n with
  | zero => intro i; simp [bitsOf]
  | succ n ih =>
    intro i
    rw [bitsOf, BitVec.getLsbD_cons, ih]
    by_cases h : i = n
    · subst h; simp
    · simp only [h, if_false]
      by_cases h2 : i < n
      · simp [h2, Nat.lt_succ_of_lt h2]
      · have h3 : ¬ i < n + 1 := by omega
        simp [h2, h3]

@[simp] theorem Mask.getLsbD_of (p : Nat → Bool) (i : Nat) (h : i < 64) : (Mask.of p).getLsbD i = p i := by
  rw [Mask.of, bitsOf_getLsbD]
  simp [h]

theorem Mask.mem_lanes (m : Mask) (i : Nat) : i ∈ Mask.lanes m ↔ i < 64 ∧ m.getLsbD i = true := by
  simp [Mask.lanes]

@[simp] theorem Lanes.at_merge {α : Type} (m : Mask) (x y : Lanes α) (i : Nat) (h : i < 64) :
    (Lanes.merge m x y).at i = if m.getLsbD i then x.at i else y.at i := by
  simp [Lanes.merge, h]

end Sys2Proof

namespace Sys2Proof.Machine

/-! ### Lists of things with a key -/

theorem find?_map_key {α : Type} (key : α → Nat) (f : α → α) (hf : ∀ x, key (f x) = key x) (k : Nat) (l : List α) (j : Nat) :
    (l.map fun x => if key x == k then f x else x).find? (fun x => key x == j)
      = if j = k then (l.find? fun x => key x == k).map f else l.find? fun x => key x == j := by
  by_cases hj : j = k
  · subst hj
    simp only [if_true]
    induction l with
    | nil => rfl
    | cons x t ih =>
      by_cases hx : key x = j
      · simp [hx, hf]
      · simp only [List.map_cons]
        rw [if_neg (by simp [hx]), List.find?_cons_of_neg (by simp [hx]), List.find?_cons_of_neg (by simp [hx]), ih]
  · simp only [hj, if_false]
    induction l with
    | nil => rfl
    | cons x t ih =>
      simp only [List.map_cons]
      by_cases hx : key x = k
      · have h1 : key x ≠ j := fun h => hj (by omega)
        rw [if_pos (by simp [hx]), List.find?_cons_of_neg (by simp [hf, h1]), List.find?_cons_of_neg (by simp [h1]), ih]
      · rw [if_neg (by simp [hx])]
        by_cases h1 : key x = j
        · rw [List.find?_cons_of_pos (by simp [h1]), List.find?_cons_of_pos (by simp [h1])]
        · rw [List.find?_cons_of_neg (by simp [h1]), List.find?_cons_of_neg (by simp [h1]), ih]

/-- The same for one element put in place of those with its key. -/
theorem find?_put_key {α : Type} (key : α → Nat) (y : α) (l : List α) (j : Nat) :
    (l.map fun x => if key x == key y then y else x).find? (fun x => key x == j)
      = if j = key y then (l.find? fun x => key x == key y).map (fun _ => y) else l.find? fun x => key x == j := by
  by_cases hj : j = key y
  · subst hj
    simp only [if_true]
    induction l with
    | nil => rfl
    | cons x t ih =>
      by_cases hx : key x = key y
      · simp [hx]
      · simp only [List.map_cons]
        rw [if_neg (by simp [hx]), List.find?_cons_of_neg (by simp [hx]), List.find?_cons_of_neg (by simp [hx]), ih]
  · simp only [hj, if_false]
    induction l with
    | nil => rfl
    | cons x t ih =>
      simp only [List.map_cons]
      by_cases hx : key x = key y
      · have h1 : key x ≠ j := fun h => hj (by omega)
        rw [if_pos (by simp [hx]), List.find?_cons_of_neg (by simp [Ne.symm hj]), List.find?_cons_of_neg (by simp [h1]), ih]
      · rw [if_neg (by simp [hx])]
        by_cases h1 : key x = j
        · rw [List.find?_cons_of_pos (by simp [h1]), List.find?_cons_of_pos (by simp [h1])]
        · rw [List.find?_cons_of_neg (by simp [h1]), List.find?_cons_of_neg (by simp [h1]), ih]

/-! ### Workgroups, groups, launches -/

theorem State.wg?_run {s : State} {run : Nat} {w : Workgroup} (h : s.wg? run = some w) : w.run = run := by
  simpa using List.find?_some h

theorem Workgroup.group?_grp {w : Workgroup} {n : Nat} {g : Group} (h : w.group? n = some g) : g.grp = n := by
  simpa using List.find?_some h

theorem State.launch?_lid {s : State} {lid : Nat} {l : Launch} (h : s.launch? lid = some l) : l.lid = lid := by
  simpa using List.find?_some h

/-- Finding a workgroup after one was changed by a function that keeps its key. -/
theorem State.wg?_onWg (s : State) (run : Nat) (f : Workgroup → Workgroup) (hf : ∀ w, (f w).run = w.run) (r : Nat) :
    (s.onWg run f).wg? r = if r = run then (s.wg? run).map f else s.wg? r :=
  find?_map_key Workgroup.run f hf run s.wgs r

theorem State.wg?_putWg (s : State) (w : Workgroup) (r : Nat) :
    (s.putWg w).wg? r = if r = w.run then (s.wg? w.run).map (fun _ => w) else s.wg? r :=
  find?_put_key Workgroup.run w s.wgs r

theorem Workgroup.group?_putGroup (w : Workgroup) (g : Group) (n : Nat) :
    (w.putGroup g).group? n = if n = g.grp then (w.group? g.grp).map (fun _ => g) else w.group? n :=
  find?_put_key Group.grp g w.groups n

@[simp] theorem Workgroup.putGroup_run (w : Workgroup) (g : Group) : (w.putGroup g).run = w.run := rfl

/-- Finding a workgroup after one of its groups was put back. -/
theorem State.wg?_putGroup (s : State) (run : Nat) (g : Group) (r : Nat) :
    (s.putGroup run g).wg? r = if r = run then (s.wg? run).map (fun w => w.putGroup g) else s.wg? r := by
  unfold State.putGroup
  split
  · rename_i w hw
    have hr := State.wg?_run hw
    rw [State.wg?_putWg]
    simp only [Workgroup.putGroup_run, hr]
    by_cases h : r = run <;> simp [h, hw]
  · rename_i hw
    by_cases h : r = run
    · subst h; simp [hw]
    · simp [h]

/-- Finding a group after one was put back. -/
theorem State.group?_putGroup (s : State) (run : Nat) (g : Group) (r n : Nat) :
    (s.putGroup run g).group? r n
      = if r = run ∧ n = g.grp then (s.group? run g.grp).map (fun _ => g) else s.group? r n := by
  unfold State.group?
  rw [State.wg?_putGroup]
  by_cases hr : r = run
  · subst hr
    cases hw : s.wg? r with
    | none => simp
    | some w =>
      simp only [if_true, Option.map_some, Option.bind_some, Workgroup.group?_putGroup, true_and]
  · simp [hr]

/-- Finding a group after one was changed by a function that keeps its number. -/
theorem State.group?_onGroup (s : State) (run grp : Nat) (f : Group → Group) (hf : ∀ g, (f g).grp = g.grp) (r n : Nat) :
    (s.onGroup run grp f).group? r n = if r = run ∧ n = grp then (s.group? run grp).map f else s.group? r n := by
  unfold State.group? State.onGroup
  rw [State.wg?_onWg s run (fun w => { w with groups := w.groups.map fun g => if g.grp == grp then f g else g }) (fun _ => rfl)]
  by_cases hr : r = run
  · subst hr
    cases hw : s.wg? r with
    | none => simp
    | some w =>
      simp only [if_true, Option.map_some, Option.bind_some, true_and]
      exact find?_map_key Group.grp f hf grp w.groups n
  · simp [hr]

theorem State.launch?_onLaunch (s : State) (lid : Nat) (f : Launch → Launch) (hf : ∀ l, (f l).lid = l.lid) (j : Nat) :
    (s.onLaunch lid f).launch? j = if j = lid then (s.launch? lid).map f else s.launch? j :=
  find?_map_key Launch.lid f hf lid s.launches j

/-- What is found does not depend on the fields that hold nothing of it. -/
theorem State.wg?_congr {s t : State} (h : t.wgs = s.wgs) (r : Nat) : t.wg? r = s.wg? r := by
  unfold State.wg?; rw [h]

theorem State.group?_congr {s t : State} (h : t.wgs = s.wgs) (r n : Nat) : t.group? r n = s.group? r n := by
  unfold State.group?; rw [State.wg?_congr h]

/-! ### Fragments and registers of a group -/

@[simp] theorem Group.putFrag_grp (g : Group) (e : Nat) (f : Frag) : (g.putFrag e f).grp = g.grp := rfl
@[simp] theorem Group.setV_grp (g : Group) (n c : Nat) (x : Lanes Word) : (g.setV n c x).grp = g.grp := rfl
@[simp] theorem Group.setS_grp (g : Group) (n c : Nat) (x : Word) : (g.setS n c x).grp = g.grp := rfl
@[simp] theorem Group.setMask_grp (g : Group) (n : Nat) (x : Mask) : (g.setMask n x).grp = g.grp := by
  unfold Group.setMask; split <;> rfl
@[simp] theorem Group.setJoin_grp (g : Group) (n : Nat) (x : Join) : (g.setJoin n x).grp = g.grp := rfl
@[simp] theorem Group.raise_grp (g : Group) (x : BitVec 5) : (g.raise x).grp = g.grp := rfl
@[simp] theorem Group.setCtr_grp (g : Group) (p : Nat) (x : List (Nat × Bool)) : (g.setCtr p x).grp = g.grp := rfl
@[simp] theorem Group.raiseCtr_grp (g : Group) (p id : Nat) : (g.raiseCtr p id).grp = g.grp := rfl
@[simp] theorem Group.setEmpty_grp (g : Group) (b : Bool) (n k : Nat) : (g.setEmpty b n k).grp = g.grp := by
  unfold Group.setEmpty; repeat' split
  all_goals rfl
@[simp] theorem Group.setFull_grp (g : Group) (b : Bool) (n k : Nat) : (g.setFull b n k).grp = g.grp := by
  unfold Group.setFull; dsimp only; split <;> rfl
@[simp] theorem Group.addAccess_grp (g : Group) (a : Access) : (g.addAccess a).grp = g.grp := by
  unfold Group.addAccess; dsimp only; split <;> simp

theorem Group.frag?_putFrag (g : Group) (e : Nat) (f : Frag) (n : Nat) :
    (g.putFrag e f).frag? n = if n = e then some f else g.frag? n := Map.get?_set _ _ _ _

/-- A vector register after one component of one was set; registers are numbered below 128. -/
theorem Group.v_setV (g : Group) (n c : Nat) (x : Lanes Word) (m j : Nat) (hn : n < 128) (hm : m < 128) :
    (g.setV n c x).v m j = if m = n ∧ j = c then x else g.v m j := by
  unfold Group.v Group.setV
  dsimp only
  rw [Map.look_put]
  by_cases h : m = n ∧ j = c
  · obtain ⟨rfl, rfl⟩ := h; simp
  · rw [if_neg h, if_neg (by omega)]

theorem Group.s_setS (g : Group) (n c : Nat) (x : Word) (m j : Nat) (hn : n < 64) (hm : m < 64) :
    (g.setS n c x).s m j = if m = n ∧ j = c then x else g.s m j := by
  unfold Group.s Group.setS
  dsimp only
  rw [Map.look_put]
  by_cases h : m = n ∧ j = c
  · obtain ⟨rfl, rfl⟩ := h; simp
  · rw [if_neg h, if_neg (by omega)]

@[simp] theorem Group.s_setV (g : Group) (n c : Nat) (x : Lanes Word) (m j : Nat) : (g.setV n c x).s m j = g.s m j := rfl
@[simp] theorem Group.v_setS (g : Group) (n c : Nat) (x : Word) (m j : Nat) : (g.setS n c x).v m j = g.v m j := rfl

/-- A mask after one was set: m0 stays all ones. -/
theorem Group.mask_setMask (g : Group) (n : Nat) (x : Mask) (m : Nat) (hn : n < 8) (hm : m < 8) :
    (g.setMask n x).mask m = if m = n ∧ n ≠ 0 then x else g.mask m := by
  unfold Group.mask Group.setMask
  by_cases h0 : n = 0
  · subst h0; simp
  · have e : n % 8 = n := Nat.mod_eq_of_lt hn
    have e' : m % 8 = m := Nat.mod_eq_of_lt hm
    simp only [e, e', beq_iff_eq, h0, if_false]
    by_cases hm0 : m = 0
    · subst hm0
      rw [if_pos rfl, if_neg (by omega), if_pos rfl]
    · simp only [hm0, if_false]
      by_cases h : m = n
      · subst h
        have : (Fin.ofNat 8 m) = ⟨m, hm⟩ := by ext; exact e'
        simp only [this, h0, ne_eq, not_false_eq_true, and_self, if_true]
        exact Vector.getElem_set_self hn
      · have : (Fin.ofNat 8 m) = ⟨m, hm⟩ := by ext; exact e'
        simp only [this, h, false_and, if_false]
        exact Vector.getElem_set_ne hn hm (fun h' => h h'.symm)

end Sys2Proof.Machine
end

