-- ==== Sys2Proof/Laws/Issue.lean ====
section
/-! SUPPORT. How a word issues: what its context is, when it runs its own effect, and what retirement does. -/

namespace Sys2Proof.Machine

/-! ### The context -/

/-- What the context of a word at the cursor is. -/
theorem State.ctx?_spec {s : State} {fm : Form} {c : Ctx} (h : s.ctx? fm = some c) :
    c.s = s ∧ s.wg? s.cursor.wg = some c.w ∧ s.group? s.cursor.wg s.cursor.grp = some c.g ∧ c.g.frag? s.cursor.ent = some c.f ∧
    s.launch? c.w.lid = some c.l ∧ c.ent = s.cursor.ent ∧ c.pc = s.cursor.pc ∧ c.fm = fm ∧ c.sh = fm.shape ∧
    c.tpc = (match s.cursor.dx with | some x => x.2 | none => s.cursor.pc) ∧
    c.k = countK fm c.l.ktan (s.cursor.dx.map (·.1)) ∧ c.sel = c.f.exec &&& predMask c.g fm.shape.pm fm.shape.pn := by
  unfold State.ctx? at h
  split at h
  · rename_i w g hw hg
    split at h
    · rename_i f l hf hl
      obtain rfl := (Option.some.inj h).symm
      exact ⟨rfl, hw, hg, hf, hl, rfl, rfl, rfl, rfl, rfl, rfl, rfl⟩
    · cases h
  · cases h

theorem State.ctx?_run {s : State} {fm : Form} {c : Ctx} (h : s.ctx? fm = some c) : c.w.run = s.cursor.wg :=
  State.wg?_run (State.ctx?_spec h).2.1

theorem State.ctx?_grp {s : State} {fm : Form} {c : Ctx} (h : s.ctx? fm = some c) : c.g.grp = s.cursor.grp := by
  have hs := State.ctx?_spec h
  have hg := hs.2.2.1
  unfold State.group? at hg
  rw [hs.2.1] at hg
  exact Workgroup.group?_grp hg

/-- The context's group is found at the context's own place. -/
theorem State.ctx?_group {s : State} {fm : Form} {c : Ctx} (h : s.ctx? fm = some c) : s.group? c.w.run c.g.grp = some c.g := by
  rw [State.ctx?_run h, State.ctx?_grp h]
  exact (State.ctx?_spec h).2.2.1

theorem State.ready_ctx {s : State} {fm : Form} {c : Ctx} (h : s.ready fm = some c) : s.ctx? fm = some c ∧ c.clear = true := by
  unfold State.ready at h
  exact Option.filter_eq_some_iff.mp h

/-! ### Nothing stands before the word -/

/-- No acquire ends at a word that none stands before: not its fragment's own, nor that of another fragment, which holds the
group. -/
theorem State.passAcquire_eq {s : State} {fm : Form} {c : Ctx} (h : s.ctx? fm = some c) (hf : c.f.st ≠ .acquire)
    (hh : c.g.fenceHold c.ent = false) : s.passAcquire = s := by
  have hs := State.ctx?_spec h
  have none_waits : (c.g.frags.any fun x => c.g.frag? x.1 == some x.2 && x.2.st == .acquire && !c.g.suspends x.2) = false := by
    rw [Bool.eq_false_iff]
    intro hc
    obtain ⟨x, hx, hw⟩ := List.any_eq_true.mp hc
    simp only [Bool.and_eq_true, beq_iff_eq] at hw
    obtain ⟨⟨h1, h2⟩, h3⟩ := hw
    by_cases he : x.1 = c.ent
    · rw [he, hs.2.2.2.2.2.1, hs.2.2.2.1] at h1
      exact hf (Option.some.inj h1 ▸ h2)
    · have : c.g.fenceHold c.ent = true :=
        List.any_eq_true.mpr ⟨x, hx, by simp only [h2, h3, bne_iff_ne.mpr he, beq_self_eq_true, Bool.or_true, Bool.and_self]⟩
      rw [this] at hh
      cases hh
  unfold State.passAcquire
  rw [hs.2.1, hs.2.2.1]
  simp only
  rw [if_neg (by simp only [none_waits, Bool.false_and, Bool.false_eq_true, not_false_eq_true])]

/-- A clear context is not blocked. -/
theorem Ctx.clear_not_blocked {c : Ctx} (h : c.clear = true) : c.blocked false = none := by
  simp only [Ctx.clear, Bool.and_eq_true, bne_iff_ne, ne_eq, List.all_eq_true, Bool.or_eq_true, beq_iff_eq,
    Bool.not_eq_true'] at h
  obtain ⟨⟨⟨⟨⟨⟨⟨h1, h2⟩, h3⟩, h4⟩, h5⟩, h6⟩, h7⟩, h8⟩ := h
  have e2 : c.g.acqHold = false := by
    unfold Group.acqHold
    rw [Bool.eq_false_iff]
    intro hc
    obtain ⟨a, ha, hb⟩ := List.any_eq_true.mp hc
    simp [h2 a ha] at hb
  have e3 : c.g.fenceHold c.ent = false := h3
  have e5 : (if heldWord (formCode c.fm) = true then c.g.unaccepted c.f else none) = none := by
    split
    · rename_i hh
      simpa [hh] using h5
    · rfl
  have e6 : ∀ o ∈ c.sh.ops, c.g.emptyOpnd o = false := h6
  have e6a : (c.sh.ops.any fun o => isDest o && c.g.emptyOpnd o) = false := by
    rw [Bool.eq_false_iff]
    intro hc
    obtain ⟨o, ho, hb⟩ := List.any_eq_true.mp hc
    simp [e6 o ho] at hb
  have e6b : ((c.sh.ops.filter fun o => !isDest o).find? fun o => o.ea && c.g.emptyOpnd o) = none := by
    rw [List.find?_eq_none]
    intro o ho
    simp [e6 o (List.mem_filter.mp ho).1]
  have e6c : ((c.sh.ops.filter fun o => !isDest o).any c.g.emptyOpnd) = false := by
    rw [Bool.eq_false_iff]
    intro hc
    obtain ⟨o, ho, hb⟩ := List.any_eq_true.mp hc
    simp [e6 o (List.mem_filter.mp ho).1] at hb
  have e7 : (c.sh.ops.filter fun o => o.role != .dst).foldl (fun (m : Mask) o => m ||| c.g.badLanes o) 0 = 0 := by
    have : ∀ l : List Opnd, (∀ o ∈ l, c.g.badLanes o = 0) → l.foldl (fun (m : Mask) o => m ||| c.g.badLanes o) 0 = 0 := by
      intro l
      induction l with
      | nil => intro _; rfl
      | cons o t ih =>
        intro hl
        simp only [List.foldl_cons, hl o (by simp)]
        exact ih fun q hq => hl q (by simp [hq])
    apply this
    intro o ho
    obtain ⟨ho1, ho2⟩ := List.mem_filter.mp ho
    rcases h7 o ho1 with h | h
    · simp [h] at ho2
    · exact h
  unfold Ctx.blocked
  rw [if_neg (by simp [h1]), if_neg (by simp [e2, e3]), if_neg (by simp [h4]), e5]
  simp only [e6a, e6b, e6c, e7, if_false, Bool.false_eq_true, bne_self_eq_false]
  rw [if_neg]
  simpa using h8

/-- The one fact about issue that claims use: a word that is ready has its own effect. -/
theorem runWord_ready {s : State} {fm : Form} {c : Ctx} (body : Ctx → Out) (h : s.ready fm = some c) :
    runWord fm body s = c.finish (body c) := by
  obtain ⟨h1, h2⟩ := State.ready_ctx h
  have hc := h2
  simp only [Ctx.clear, Bool.and_eq_true, bne_iff_ne, Bool.not_eq_true'] at hc
  unfold runWord
  rw [State.passAcquire_eq h1 hc.1.1.1.1.1.1.1 hc.1.1.1.1.1.2]
  simp only [h1, Ctx.clear_not_blocked h2]

/-- A word whose context is blocked has the outcome that blocks it. -/
theorem runWord_blocked {s : State} {fm : Form} {c : Ctx} {out : Out} (body : Ctx → Out) (h : s.passAcquire.ctx? fm = some c)
    (hb : c.blocked false = some out) : runWord fm body s = c.finish out := by
  unfold runWord
  simp only [h, hb]

end Sys2Proof.Machine
end

