-- ==== Sys2Proof/Laws/Write.lean ====
section
/-! SUPPORT. What writing a destination does to the registers, and what retirement does to the group and the state. -/

namespace Sys2Proof.Machine

/-! ### Destinations -/

theorem mem_destCells (n ktan r j : Nat) : (r, j) ∈ destCells n ktan ↔ r < n ∧ j ≤ ktan := by
  simp only [destCells, List.mem_flatMap, List.mem_map, List.mem_range, Prod.mk.injEq]
  constructor
  · rintro ⟨a, ha, b, hb, rfl, rfl⟩
    exact ⟨ha, by omega⟩
  · rintro ⟨h1, h2⟩
    exact ⟨r, h1, j, by omega, rfl, rfl⟩

/-- Writing components of consecutive vector registers in selected lanes, one after the other. -/
theorem Group.v_foldl_setV (num : Nat) (sel : Mask) (x : Nat → Nat → Nat → Word) (cells : List (Nat × Nat)) :
    ∀ (g : Group), (∀ c ∈ cells, num + c.1 < 128) → ∀ m j i : Nat, m < 128 → i < 64 →
    ((cells.foldl (fun (h : Group) c =>
        h.setV (num + c.1) c.2 (Lanes.merge sel (Lanes.gen fun i => x c.1 c.2 i) (h.v (num + c.1) c.2))) g).v m j).at i
      = if num ≤ m ∧ (m - num, j) ∈ cells ∧ sel.getLsbD i = true then x (m - num) j i else (g.v m j).at i := by
  induction cells with
  | nil => intro g _ m j i _ _; simp
  | cons c t ih =>
    intro g hc m j i hm hi
    have hcn : num + c.1 < 128 := hc c (by simp)
    rw [List.foldl_cons, ih _ (fun d hd => hc d (by simp [hd])) m j i hm hi]
    rw [Group.v_setV g (num + c.1) c.2 _ m j hcn hm]
    by_cases ht : num ≤ m ∧ (m - num, j) ∈ t ∧ sel.getLsbD i = true
    · rw [if_pos ht, if_pos ⟨ht.1, by simp [ht.2.1], ht.2.2⟩]
    · rw [if_neg ht]
      by_cases hmc : m = num + c.1 ∧ j = c.2
      · obtain ⟨rfl, rfl⟩ := hmc
        simp only [and_self, if_true, Lanes.at_merge _ _ _ _ hi, Lanes.at_gen _ _ hi]
        by_cases hs : sel.getLsbD i = true
        · rw [if_pos hs, if_pos ⟨by omega, by simp, hs⟩]
          simp
        · rw [if_neg hs, if_neg (fun h => hs h.2.2)]
      · rw [if_neg hmc, if_neg]
        rintro ⟨h1, h2, h3⟩
        rcases List.mem_cons.mp h2 with h2 | h2
        · apply hmc
          have := congrArg Prod.fst h2
          have h' := congrArg Prod.snd h2
          simp only at this h'
          exact ⟨by omega, h'⟩
        · exact ht ⟨h1, h2, h3⟩

theorem Group.s_foldl_setV (num : Nat) (sel : Mask) (x : Nat → Nat → Nat → Word) (cells : List (Nat × Nat)) :
    ∀ (g : Group) (m j : Nat),
    (cells.foldl (fun (h : Group) c =>
        h.setV (num + c.1) c.2 (Lanes.merge sel (Lanes.gen fun i => x c.1 c.2 i) (h.v (num + c.1) c.2))) g).s m j = g.s m j := by
  induction cells with
  | nil => intro g m j; rfl
  | cons c t ih => intro g m j; rw [List.foldl_cons, ih, Group.s_setV]

/-- A vector destination after it was written: the new word in the selected lanes, every other lane and register as before
(R51, R274). -/
theorem Group.v_writeV (g : Group) (num n ktan k : Nat) (sel : Mask) (x : Nat → Dual) (hn : num + n ≤ 128) (m j i : Nat)
    (hm : m < 128) (hi : i < 64) :
    ((g.writeV num n ktan k sel x).v m j).at i
      = if (num ≤ m ∧ m < num + n ∧ j ≤ ktan) ∧ sel.getLsbD i = true then wordPart (m - num) ((x i).out k j) else (g.v m j).at i := by
  have h := Group.v_foldl_setV num sel (fun r j i => wordPart r ((x i).out k j)) (destCells n ktan) g
    (fun c hc => by have := (mem_destCells n ktan c.1 c.2).mp hc; omega) m j i hm hi
  have e : (g.writeV num n ktan k sel x).v m j
      = ((destCells n ktan).foldl (fun (h : Group) c =>
          h.setV (num + c.1) c.2 (Lanes.merge sel (Lanes.gen fun i => wordPart c.1 ((x i).out k c.2)) (h.v (num + c.1) c.2))) g).v m j := by
    have same : ∀ (g : Group) (b : List Nat), Group.v { g with badV := b } m j = g.v m j := fun _ _ => rfl
    unfold Group.writeV
    exact same _ _
  rw [e, h]
  simp only [mem_destCells]
  by_cases hh : (num ≤ m ∧ m < num + n ∧ j ≤ ktan) ∧ sel.getLsbD i = true
  · rw [if_pos hh, if_pos ⟨hh.1.1, ⟨by omega, hh.1.2.2⟩, hh.2⟩]
  · rw [if_neg hh, if_neg]
    rintro ⟨h1, h2, h3⟩
    exact hh ⟨⟨h1, by omega, h2.2⟩, h3⟩

theorem Group.s_writeV (g : Group) (num n ktan k : Nat) (sel : Mask) (x : Nat → Dual) (m j : Nat) :
    (g.writeV num n ktan k sel x).s m j = g.s m j := by
  have same : ∀ (g : Group) (b : List Nat), Group.s { g with badV := b } m j = g.s m j := fun _ _ => rfl
  unfold Group.writeV
  refine (same _ _).trans ?_
  exact Group.s_foldl_setV num sel (fun r j i => wordPart r ((x i).out k j)) (destCells n ktan) g m j

theorem Group.s_foldl_setS (num : Nat) (x : Nat → Nat → Word) (cells : List (Nat × Nat)) :
    ∀ (g : Group), (∀ c ∈ cells, num + c.1 < 64) → ∀ m j : Nat, m < 64 →
    (cells.foldl (fun (h : Group) c => h.setS (num + c.1) c.2 (x c.1 c.2)) g).s m j
      = if num ≤ m ∧ (m - num, j) ∈ cells then x (m - num) j else g.s m j := by
  induction cells with
  | nil => intro g _ m j _; simp
  | cons c t ih =>
    intro g hc m j hm
    have hcn : num + c.1 < 64 := hc c (by simp)
    rw [List.foldl_cons, ih _ (fun d hd => hc d (by simp [hd])) m j hm, Group.s_setS g (num + c.1) c.2 _ m j hcn hm]
    by_cases ht : num ≤ m ∧ (m - num, j) ∈ t
    · rw [if_pos ht, if_pos ⟨ht.1, by simp [ht.2]⟩]
    · rw [if_neg ht]
      by_cases hmc : m = num + c.1 ∧ j = c.2
      · obtain ⟨rfl, rfl⟩ := hmc
        rw [if_pos ⟨rfl, rfl⟩, if_pos ⟨by omega, by simp⟩]
        simp
      · rw [if_neg hmc, if_neg]
        rintro ⟨h1, h2⟩
        rcases List.mem_cons.mp h2 with h2 | h2
        · apply hmc
          have := congrArg Prod.fst h2
          have h' := congrArg Prod.snd h2
          simp only at this h'
          exact ⟨by omega, h'⟩
        · exact ht ⟨h1, h2⟩

theorem Group.v_foldl_setS (num : Nat) (x : Nat → Nat → Word) (cells : List (Nat × Nat)) : ∀ (g : Group) (m j : Nat),
    (cells.foldl (fun (h : Group) c => h.setS (num + c.1) c.2 (x c.1 c.2)) g).v m j = g.v m j := by
  induction cells with
  | nil => intro g m j; rfl
  | cons c t ih => intro g m j; rw [List.foldl_cons, ih, Group.v_setS]

/-- A scalar destination after it was written; `zero` takes nothing (R50). -/
theorem Group.s_writeS (g : Group) (num n ktan k : Nat) (x : Dual) (hn : 64 ≤ num ∨ num + n ≤ 64) (m j : Nat) (hm : m < 64) :
    (g.writeS num n ktan k x).s m j
      = if num ≤ m ∧ m < num + n ∧ j ≤ ktan then wordPart (m - num) (x.out k j) else g.s m j := by
  unfold Group.writeS
  by_cases h64 : 64 ≤ num
  · rw [if_pos h64, if_neg (by omega)]
  · rw [if_neg h64]
    have hn' : num + n ≤ 64 := by omega
    have h := Group.s_foldl_setS num (fun r j => wordPart r (x.out k j)) (destCells n ktan) g
      (fun c hc => by have := (mem_destCells n ktan c.1 c.2).mp hc; omega) m j hm
    have same : ∀ (g : Group) (b : List Nat), Group.s { g with badS := b } m j = g.s m j := fun _ _ => rfl
    refine (same _ _).trans (Eq.trans h ?_)
    simp only [mem_destCells]
    by_cases hh : num ≤ m ∧ m < num + n ∧ j ≤ ktan
    · rw [if_pos hh, if_pos ⟨hh.1, by omega, hh.2.2⟩]
    · rw [if_neg hh, if_neg]
      rintro ⟨h1, h2⟩
      exact hh ⟨h1, by omega, h2.2⟩

theorem Group.v_writeS (g : Group) (num n ktan k : Nat) (x : Dual) (m j : Nat) : (g.writeS num n ktan k x).v m j = g.v m j := by
  unfold Group.writeS
  split
  · rfl
  · have same : ∀ (g : Group) (b : List Nat), Group.v { g with badS := b } m j = g.v m j := fun _ _ => rfl
    refine (same _ _).trans ?_
    exact Group.v_foldl_setS num (fun r j => wordPart r (x.out k j)) (destCells n ktan) g m j

/-- What writing a destination leaves: everything of the group but the registers and their poison. -/
structure Group.SameButRegs (g h : Group) : Prop where
  grp : h.grp = g.grp
  part : h.part = g.part
  frags : h.frags = g.frags
  live : h.live = g.live
  emptyV : h.emptyV = g.emptyV
  emptyS : h.emptyS = g.emptyS
  masks : h.masks = g.masks
  joins : h.joins = g.joins
  wid : h.wid = g.wid
  spos : h.spos = g.spos
  ord : h.ord = g.ord
  flags : h.flags = g.flags
  sig : h.sig = g.sig
  accb : h.accb = g.accb
  accl : h.accl = g.accl
  tpc : h.tpc = g.tpc
  tcode : h.tcode = g.tcode
  tinfo : h.tinfo = g.tinfo
  tmask : h.tmask = g.tmask
  lostj : h.lostj = g.lostj
  trap : h.trap = g.trap
  lclk : h.lclk = g.lclk
  ctrs : h.ctrs = g.ctrs
  accs : h.accs = g.accs
  maxw : h.maxw = g.maxw
  longs : h.longs = g.longs
  pins : h.pins = g.pins
  nextBatch : h.nextBatch = g.nextBatch
  barvs : h.barvs = g.barvs
  urgent : h.urgent = g.urgent

theorem Group.SameButRegs.refl (g : Group) : g.SameButRegs g := by constructor <;> rfl

theorem Group.SameButRegs.trans {a b c : Group} (h : a.SameButRegs b) (k : b.SameButRegs c) : a.SameButRegs c := by
  constructor
  · exact k.grp.trans h.grp
  · exact k.part.trans h.part
  · exact k.frags.trans h.frags
  · exact k.live.trans h.live
  · exact k.emptyV.trans h.emptyV
  · exact k.emptyS.trans h.emptyS
  · exact k.masks.trans h.masks
  · exact k.joins.trans h.joins
  · exact k.wid.trans h.wid
  · exact k.spos.trans h.spos
  · exact k.ord.trans h.ord
  · exact k.flags.trans h.flags
  · exact k.sig.trans h.sig
  · exact k.accb.trans h.accb
  · exact k.accl.trans h.accl
  · exact k.tpc.trans h.tpc
  · exact k.tcode.trans h.tcode
  · exact k.tinfo.trans h.tinfo
  · exact k.tmask.trans h.tmask
  · exact k.lostj.trans h.lostj
  · exact k.trap.trans h.trap
  · exact k.lclk.trans h.lclk
  · exact k.ctrs.trans h.ctrs
  · exact k.accs.trans h.accs
  · exact k.maxw.trans h.maxw
  · exact k.longs.trans h.longs
  · exact k.pins.trans h.pins
  · exact k.nextBatch.trans h.nextBatch
  · exact k.barvs.trans h.barvs
  · exact k.urgent.trans h.urgent

theorem Group.sameButRegs_badV (g : Group) (b : List Nat) : g.SameButRegs { g with badV := b } := by constructor <;> rfl
theorem Group.sameButRegs_badS (g : Group) (b : List Nat) : g.SameButRegs { g with badS := b } := by constructor <;> rfl
theorem Group.sameButRegs_setV (g : Group) (n c : Nat) (x : Lanes Word) : g.SameButRegs (g.setV n c x) := by constructor <;> rfl
theorem Group.sameButRegs_setS (g : Group) (n c : Nat) (x : Word) : g.SameButRegs (g.setS n c x) := by constructor <;> rfl

theorem Group.sameButRegs_foldl {α : Type} (step : Group → α → Group) (h : ∀ (g : Group) (a : α), g.SameButRegs (step g a)) (l : List α) :
    ∀ g : Group, g.SameButRegs (l.foldl step g) := by
  induction l with
  | nil => exact Group.SameButRegs.refl
  | cons a t ih => intro g; exact (h g a).trans (ih _)

theorem Group.sameButRegs_writeV (g : Group) (num n ktan k : Nat) (sel : Mask) (x : Nat → Dual) :
    g.SameButRegs (g.writeV num n ktan k sel x) := by
  unfold Group.writeV
  exact (Group.sameButRegs_foldl _ (fun g a => Group.sameButRegs_setV _ _ _ _) (destCells n ktan) g).trans
    (Group.sameButRegs_badV _ _)

theorem Group.sameButRegs_writeS (g : Group) (num n ktan k : Nat) (x : Dual) : g.SameButRegs (g.writeS num n ktan k x) := by
  unfold Group.writeS
  split
  · exact .refl g
  · exact (Group.sameButRegs_foldl _ (fun g a => Group.sameButRegs_setS _ _ _ _) (destCells n ktan) g).trans
      (Group.sameButRegs_badS _ _)

theorem Ctx.sameButRegs_writeTo (c : Ctx) (g : Group) (o : Opnd) (x : Nat → Dual) : g.SameButRegs (c.writeTo g o x) := by
  unfold Ctx.writeTo
  split
  · exact .refl g
  · split
    · exact g.sameButRegs_writeS _ _ _ _ _
    · exact g.sameButRegs_writeV _ _ _ _ _ _

/-! ### Retirement -/

@[simp] theorem Group.countIssue_grp (g : Group) (ent cyc : Nat) : (g.countIssue ent cyc).grp = g.grp := by
  unfold Group.countIssue; split <;> rfl

@[simp] theorem Group.advance_grp (g : Group) (l : Launch) (ent : Nat) (pc : Option DWord) (sig : Word) :
    (g.advance l ent pc sig).grp = g.grp := by
  unfold Group.advance; dsimp only; split <;> rfl

@[simp] theorem Group.retire_grp (g : Group) (l : Launch) (ent cyc : Nat) (pc : Option DWord) (sig : Word) :
    (g.retire l ent cyc pc sig).grp = g.grp := by
  unfold Group.retire; simp

@[simp] theorem Ctx.retire_grp (c : Ctx) (next : Bool) (sig : Option Word) (g : Group) : (c.retire next sig g).grp = g.grp := by
  unfold Ctx.retire; simp

/-- The fragment that issued takes the stamp, the others are as they were. -/
theorem Group.frag?_countIssue (g : Group) (ent cyc n : Nat) :
    (g.countIssue ent cyc).frag? n = if n = ent then (g.frag? ent).map (fun f => { f with stamp := cyc }) else g.frag? n := by
  unfold Group.countIssue
  cases hf : g.frag? ent with
  | none =>
    by_cases h : n = ent
    · subst h; rw [if_pos rfl]; exact hf
    · rw [if_neg h]; rfl
  | some f => exact g.frag?_putFrag ent { f with stamp := cyc } n

/-- The fragment that completed a word stands behind it where `pc` says so, the others are as they were. -/
theorem Group.frag?_advance (g : Group) (l : Launch) (ent : Nat) (pc : Option DWord) (sig : Word) (n : Nat) :
    (g.advance l ent pc sig).frag? n
      = if n = ent then (g.frag? ent).map (fun f => match pc with | some p => f.pass p | none => f) else g.frag? n := by
  unfold Group.advance
  dsimp only
  cases hf : g.frag? ent with
  | none =>
    by_cases h : n = ent
    · subst h; rw [if_pos rfl]; exact hf
    · rw [if_neg h]; rfl
  | some f =>
    cases pc with
    | none =>
      by_cases h : n = ent
      · subst h; rw [if_pos rfl]; exact hf
      · rw [if_neg h]; rfl
    | some p => exact g.frag?_putFrag ent (f.pass p) n

/-- The fragments after a retirement: the one that issued has moved on, the others are as they were. -/
theorem Group.frag?_retire (g : Group) (l : Launch) (ent cyc : Nat) (pc : Option DWord) (sig : Word) (n : Nat) :
    (g.retire l ent cyc pc sig).frag? n
      = if n = ent then (g.frag? ent).map (fun f => match pc with | some p => ({ f with stamp := cyc } : Frag).pass p | none => { f with stamp := cyc })
        else g.frag? n := by
  unfold Group.retire
  rw [Group.frag?_advance, Group.frag?_countIssue, Group.frag?_countIssue]
  by_cases h : n = ent
  · subst h
    cases g.frag? n with
    | none => simp
    | some f => cases pc <;> simp
  · simp [h]

/-- Registers, masks and special registers do not change at retirement. -/
structure Group.RetireSame (g h : Group) : Prop where
  vregs : h.vregs = g.vregs
  sregs : h.sregs = g.sregs
  masks : h.masks = g.masks
  joins : h.joins = g.joins
  flags : h.flags = g.flags
  emptyV : h.emptyV = g.emptyV
  emptyS : h.emptyS = g.emptyS
  badV : h.badV = g.badV
  badS : h.badS = g.badS
  wid : h.wid = g.wid
  live : h.live = g.live
  tpc : h.tpc = g.tpc
  tcode : h.tcode = g.tcode
  tinfo : h.tinfo = g.tinfo
  tmask : h.tmask = g.tmask
  trap : h.trap = g.trap
  lostj : h.lostj = g.lostj
  accs : h.accs = g.accs
  ctrs : h.ctrs = g.ctrs
  longs : h.longs = g.longs
  pins : h.pins = g.pins
  barvs : h.barvs = g.barvs
  accb : h.accb = g.accb
  accl : h.accl = g.accl
  maxw : h.maxw = g.maxw

theorem Group.retireSame (g : Group) (l : Launch) (ent cyc : Nat) (pc : Option DWord) (sig : Word) :
    g.RetireSame (g.retire l ent cyc pc sig) := by
  unfold Group.retire Group.advance Group.countIssue
  dsimp only
  (repeat' split) <;> (constructor <;> rfl)

theorem Ctx.retireSame (c : Ctx) (next : Bool) (sig : Option Word) (g : Group) : g.RetireSame (c.retire next sig g) := by
  unfold Ctx.retire
  exact g.retireSame _ _ _ _ _

/-- The fragment of a retired word stands behind it, with its lanes as they were. -/
theorem Ctx.frag?_retire (c : Ctx) (sig : Option Word) (g : Group) (f : Frag) (h : g.frag? c.ent = some f) :
    (c.retire true sig g).frag? c.ent = some (({ f with stamp := c.s.cyc } : Frag).pass c.pc) := by
  unfold Ctx.retire
  rw [Group.frag?_retire]
  simp [h]

/-! ### A word that changed its group only -/

section
variable {s : State} {fm : Form} {c : Ctx}

/-- Everything outside the group, its launch and the series counters is as before. -/
theorem Ctx.finish_regs_mem (hc : s.ctx? fm = some c) (g : Group) (fl : BitVec 5) :
    (c.finish (.regs g fl)).mem = s.mem ∧ (c.finish (.regs g fl)).bad = s.bad ∧ (c.finish (.regs g fl)).l2 = s.l2 ∧
    (c.finish (.regs g fl)).homes = s.homes ∧ (c.finish (.regs g fl)).cores = s.cores ∧ (c.finish (.regs g fl)).msgs = s.msgs ∧
    (c.finish (.regs g fl)).queues = s.queues ∧ (c.finish (.regs g fl)).xlat = s.xlat ∧ (c.finish (.regs g fl)).dev = s.dev ∧
    (c.finish (.regs g fl)).logs = s.logs ∧ (c.finish (.regs g fl)).dtime = s.dtime := by
  have := (State.ctx?_spec hc).1
  subst this
  simp [Ctx.finish]

/-- The group of the word holds what the word made of it and has retired it; every other group is as before. -/
theorem Ctx.finish_regs_group (hc : s.ctx? fm = some c) (g : Group) (fl : BitVec 5) (hg : g.grp = c.g.grp) (r n : Nat) :
    (c.finish (.regs g fl)).group? r n
      = if r = c.w.run ∧ n = c.g.grp then some (c.retire true none (g.raise fl)) else s.group? r n := by
  have hs := (State.ctx?_spec hc).1
  have e : (c.finish (.regs g fl)).wgs = (c.s.putGroup c.w.run (c.retire true none (g.raise fl))).wgs := by
    simp [Ctx.finish]
  rw [State.group?_congr e, State.group?_putGroup]
  simp only [Ctx.retire_grp, Group.raise_grp, hg, hs]
  by_cases h : r = c.w.run ∧ n = c.g.grp
  · rw [if_pos h, if_pos h, State.ctx?_group hc]; rfl
  · rw [if_neg h, if_neg h]

end

end Sys2Proof.Machine
end

