-- ==== Sys2Proof/Laws/Gives.lean ====
section
/-! SUPPORT. What a word that changed its group only gives: registers, masks and flags as it left them, everything else
as before; and that the destinations of a legal word exist. -/

namespace Sys2Proof.Machine

section
variable {s : State} {fm : Form} {c : Ctx}

/-- What a word may have made of its group for `Ctx.gives`: registers, poison and masks differ, nothing else. -/
structure Group.Regs (g h : Group) : Prop where
  grp : h.grp = g.grp
  part : h.part = g.part
  frags : h.frags = g.frags
  live : h.live = g.live
  emptyV : h.emptyV = g.emptyV
  emptyS : h.emptyS = g.emptyS
  joins : h.joins = g.joins
  wid : h.wid = g.wid
  spos : h.spos = g.spos
  ord : h.ord = g.ord
  flags : h.flags = g.flags
  accb : h.accb = g.accb
  accl : h.accl = g.accl
  tpc : h.tpc = g.tpc
  tcode : h.tcode = g.tcode
  tinfo : h.tinfo = g.tinfo
  tmask : h.tmask = g.tmask
  lostj : h.lostj = g.lostj
  trap : h.trap = g.trap
  lclk : h.lclk = g.lclk
  ctrs : h.ctrs = g.ctrs
  accs : h.accs = g.accs
  maxw : h.maxw = g.maxw
  longs : h.longs = g.longs
  pins : h.pins = g.pins
  barvs : h.barvs = g.barvs

theorem Group.Regs.refl (g : Group) : g.Regs g := by constructor <;> rfl

theorem Group.SameButRegs.regs {g h : Group} (k : g.SameButRegs h) : g.Regs h :=
  ⟨k.grp, k.part, k.frags, k.live, k.emptyV,
    k.emptyS, k.joins, k.wid, k.spos, k.ord,
    k.flags, k.accb, k.accl, k.tpc, k.tcode,
    k.tinfo, k.tmask, k.lostj, k.trap, k.lclk,
    k.ctrs, k.accs, k.maxw, k.longs, k.pins,
    k.barvs⟩

theorem Group.Regs.trans {a b d : Group} (h : a.Regs b) (k : b.Regs d) : a.Regs d := by
  constructor
  · exact k.grp.trans h.grp
  · exact k.part.trans h.part
  · exact k.frags.trans h.frags
  · exact k.live.trans h.live
  · exact k.emptyV.trans h.emptyV
  · exact k.emptyS.trans h.emptyS
  · exact k.joins.trans h.joins
  · exact k.wid.trans h.wid
  · exact k.spos.trans h.spos
  · exact k.ord.trans h.ord
  · exact k.flags.trans h.flags
  · exact k.accb.trans h.accb
  · exact k.accl.trans h.accl
  · exact k.tpc.trans h.tpc
  · exact k.tcode.trans h.tcode
  · exact k.tinfo.trans h.tinfo
  · exact k.tmask.trans h.tmask
  · exact k.lostj.trans h.lostj
  · exact k.trap.trans h.trap
  · exact k.lclk.trans h.lclk
  · exact k.ctrs.trans h.ctrs
  · exact k.accs.trans h.accs
  · exact k.maxw.trans h.maxw
  · exact k.longs.trans h.longs
  · exact k.pins.trans h.pins
  · exact k.barvs.trans h.barvs

theorem Group.regs_setMask (g : Group) (n : Nat) (m : Mask) : g.Regs (g.setMask n m) := by
  unfold Group.setMask
  split <;> (constructor <;> rfl)

theorem Group.regs_putComp (g : Group) (scal : Bool) (n j : Nat) (m : Mask) (v : Lanes Word) (x : Word) :
    g.Regs (g.putComp scal n j m v x) := by
  unfold Group.putComp
  split
  · exact (g.sameButRegs_setS _ _ _).regs
  · exact (g.sameButRegs_setV _ _ _).regs

theorem Group.regs_foldl {α : Type} (step : Group → α → Group) (h : ∀ (g : Group) (a : α), g.Regs (step g a)) (l : List α) :
    ∀ g : Group, g.Regs (l.foldl step g) := by
  induction l with
  | nil => exact Group.Regs.refl
  | cons a t ih => intro g; exact (h g a).trans (ih _)

theorem Ctx.regs_writeMask (c : Ctx) (g : Group) (n : Nat) (once : Bool) (p : Nat → Bool) : g.Regs (c.writeMask g n once p) := by
  unfold Ctx.writeMask
  split
  · exact .refl g
  · exact g.regs_setMask _ _

theorem Ctx.retire_lclk (c : Ctx) (next : Bool) (sig : Option Word) (g : Group) : (c.retire next sig g).lclk = g.lclk + 1 := by
  unfold Ctx.retire Group.retire Group.advance Group.countIssue
  dsimp only
  (repeat' split) <;> rfl

theorem Ctx.retire_part (c : Ctx) (next : Bool) (sig : Option Word) (g : Group) : (c.retire next sig g).part = g.part := by
  unfold Ctx.retire Group.retire Group.advance Group.countIssue
  dsimp only
  (repeat' split) <;> rfl

theorem Ctx.retire_spos (c : Ctx) (next : Bool) (sig : Option Word) (g : Group) : (c.retire next sig g).spos = g.spos := by
  unfold Ctx.retire Group.retire Group.advance Group.countIssue
  dsimp only
  (repeat' split) <;> rfl

theorem Ctx.retire_ord (c : Ctx) (next : Bool) (sig : Option Word) (g : Group) : (c.retire next sig g).ord = g.ord := by
  unfold Ctx.retire Group.retire Group.advance Group.countIssue
  dsimp only
  (repeat' split) <;> rfl

theorem Ctx.retire_frag_other (c : Ctx) (next : Bool) (sig : Option Word) (g : Group) (e : Nat) (h : e ≠ c.ent) :
    (c.retire next sig g).frag? e = g.frag? e := by
  unfold Ctx.retire
  rw [Group.frag?_retire]
  simp [h]

/-- The group that a retired word leaves. -/
theorem Ctx.kept (c : Ctx) (g : Group) (fl : BitVec 5) (hk : c.g.Regs g) : c.g.Kept (c.retire true none (g.raise fl)) := by
  have r := c.retireSame true none (g.raise fl)
  constructor
  · simpa using hk.grp
  · exact (c.retire_part _ _ _).trans hk.part
  · exact r.live.trans hk.live
  · exact r.emptyV.trans hk.emptyV
  · exact r.emptyS.trans hk.emptyS
  · exact r.joins.trans hk.joins
  · exact r.wid.trans hk.wid
  · exact (c.retire_spos _ _ _).trans hk.spos
  · exact (c.retire_ord _ _ _).trans hk.ord
  · exact r.accb.trans hk.accb
  · exact r.accl.trans hk.accl
  · exact r.tpc.trans hk.tpc
  · exact r.tcode.trans hk.tcode
  · exact r.tinfo.trans hk.tinfo
  · exact r.tmask.trans hk.tmask
  · exact r.lostj.trans hk.lostj
  · exact r.trap.trans hk.trap
  · exact r.ctrs.trans hk.ctrs
  · exact r.accs.trans hk.accs
  · exact r.maxw.trans hk.maxw
  · exact r.longs.trans hk.longs
  · exact r.pins.trans hk.pins
  · exact r.barvs.trans hk.barvs
  · exact (c.retire_lclk _ _ _).trans (congrArg (· + 1) hk.lclk)

theorem Ctx.passed (hc : s.ctx? fm = some c) (g : Group) (fl : BitVec 5) (hk : c.g.Regs g) :
    c.Passed (c.retire true none (g.raise fl)) := by
  have hs := State.ctx?_spec hc
  have hf : (g.raise fl).frag? c.ent = some c.f := by
    have e : (g.raise fl).frags = c.g.frags := hk.frags
    unfold Group.frag?
    rw [e, hs.2.2.2.2.2.1]
    exact hs.2.2.2.1
  constructor
  · exact ⟨_, c.frag?_retire none _ _ hf, rfl, rfl, rfl, rfl, rfl⟩
  · intro e he
    rw [c.retire_frag_other _ _ _ e he]
    have e' : (g.raise fl).frags = c.g.frags := hk.frags
    unfold Group.frag?
    rw [e']

/-- A launch that raised flags, and one whose first word has issued. -/
def Launch.raised (l : Launch) (fl : BitVec 5) : Launch := { l with flags := l.flags ||| fl }
def Launch.fired (l : Launch) (t : Nat) : Launch := { l with tfirst := some (l.tfirst.getD t) }

theorem State.launch?_congr {s t : State} (h : t.launches = s.launches) (n : Nat) : t.launch? n = s.launch? n := by
  unfold State.launch?; rw [h]

theorem State.launch?_raise (s : State) (lid : Nat) (fl : BitVec 5) (n : Nat) :
    (s.raise lid fl).launch? n = if n = lid then (s.launch? lid).map (fun l => l.raised fl) else s.launch? n :=
  s.launch?_onLaunch lid (fun l => l.raised fl) (fun _ => rfl) n

theorem State.launch?_issued (s : State) (c : Ctx) (n : Nat) :
    (s.issued c).launch? n = if n = c.w.lid then (s.launch? c.w.lid).map (fun l => l.fired (s.now (coreDie c.w.core))) else s.launch? n :=
  s.launch?_onLaunch c.w.lid (fun l => l.fired (s.now (coreDie c.w.core))) (fun _ => rfl) n

/-- A word that changed registers, poison and masks of its group only. -/
theorem Ctx.gives (hc : s.ctx? fm = some c) (g : Group) (fl : BitVec 5) (hk : c.g.Regs g)
    (v : Nat → Nat → Nat → Word) (x : Nat → Nat → Word) (k : Nat → Mask)
    (hv : ∀ m j i, m < 128 → i < 64 → (g.v m j).at i = v m j i) (hx : ∀ m j, m < 64 → g.s m j = x m j)
    (hm : ∀ n, n < 8 → g.mask n = k n) : c.Gives (c.finish (.regs g fl)) v x k fl := by
  have hs := State.ctx?_spec hc
  have hcs := hs.1
  have r := c.retireSame true none (g.raise fl)
  have ewgs : (c.finish (.regs g fl)).wgs = (c.s.putGroup c.w.run (c.retire true none (g.raise fl))).wgs := by
    simp [Ctx.finish]
  have hw : c.s.wg? c.w.run = some c.w := by rw [hcs, State.ctx?_run hc]; exact hs.2.1
  have hl : c.s.launch? c.w.lid = some c.l := by rw [hcs]; exact hs.2.2.2.2.1
  have e3 : ∀ m, (c.s.putGroup c.w.run (c.retire true none (g.raise fl))).launch? m = c.s.launch? m := by
    intro m; unfold State.launch?; simp
  have elaunch : ∀ n, (c.finish (.regs g fl)).launch? n = if n = c.w.lid then
      some ((c.l.raised fl).fired ((((c.s.putGroup c.w.run (c.retire true none (g.raise fl))).raise c.w.lid fl)).now (coreDie c.w.core)))
      else c.s.launch? n := by
    intro n
    have e1 : (c.finish (.regs g fl)).launches
        = (((c.s.putGroup c.w.run (c.retire true none (g.raise fl))).raise c.w.lid fl).issued c).launches := rfl
    rw [State.launch?_congr e1, State.launch?_issued, State.launch?_raise, State.launch?_raise, e3, e3, hl]
    by_cases h : n = c.w.lid <;> simp [h]
  refine ⟨⟨c.retire true none (g.raise fl), ?_, c.kept g fl hk, Ctx.passed hc g fl hk, ?_, ?_, ?_, ?_⟩, ?_⟩
  · constructor
    · refine ⟨c.w.putGroup (c.retire true none (g.raise fl)), ?_, rfl, ?_, ?_⟩
      · rw [State.wg?_congr ewgs, State.wg?_putGroup, if_pos rfl, hw]; rfl
      · have hg : c.w.group? c.g.grp = some c.g := by
          have := State.ctx?_group hc
          rw [hcs] at hw
          unfold State.group? at this
          rwa [hw] at this
        have e : (c.retire true none (g.raise fl)).grp = c.g.grp := by simpa using hk.grp
        rw [Workgroup.group?_putGroup, e, if_pos rfl, hg]; rfl
      · intro n hn
        have e : (c.retire true none (g.raise fl)).grp = c.g.grp := by simpa using hk.grp
        rw [Workgroup.group?_putGroup, e, if_neg hn]
    · intro r' hr'
      rw [State.wg?_congr ewgs, State.wg?_putGroup, if_neg hr']
    case otherLaunch => intro n hn; rw [elaunch, if_neg hn]
    all_goals simp [Ctx.finish]
  · rw [r.flags]; exact congrArg (· ||| fl) hk.flags
  · intro m j i h1 h2
    have e : (c.retire true none (g.raise fl)).v m j = g.v m j := by
      unfold Group.v; rw [r.vregs]; rfl
    rw [e]; exact hv m j i h1 h2
  · intro m j h1
    have e : (c.retire true none (g.raise fl)).s m j = g.s m j := by
      unfold Group.s; rw [r.sregs]; rfl
    rw [e]; exact hx m j h1
  · intro n hn
    have e : (c.retire true none (g.raise fl)).mask n = g.mask n := by
      unfold Group.mask; rw [r.masks]; rfl
    rw [e]; exact hm n hn
  · have e := elaunch c.w.lid
    rw [if_pos rfl] at e
    exact ⟨_, e, rfl, rfl, rfl⟩

/-! ### Destinations of a legal word -/

theorem illegalForm_ops {vregs sregs ktan : Nat} {bit0 : Bool} {fm : Form} (h : illegalForm vregs sregs ktan bit0 fm = none) :
    ∀ o ∈ fm.shape.ops, Opnd.ok vregs sregs o = true := by
  unfold illegalForm at h
  dsimp only at h
  split at h
  · cases h
  · split at h
    · cases h
    · split at h
      · cases h
      · split at h
        · cases h
        · rename_i hh
          simpa using hh

theorem badForm_ne (fm : Form) : fm.badForm ≠ some 0 := by
  unfold Form.badForm
  repeat' split
  all_goals simp

theorem illegalForm_ne (vregs sregs ktan : Nat) (bit0 : Bool) (fm : Form) : illegalForm vregs sregs ktan bit0 fm ≠ some 0 := by
  have h := badForm_ne fm
  unfold illegalForm
  dsimp only
  cases hb : fm.badForm with
  | some n => simpa [hb] using h
  | none =>
    dsimp only
    repeat' split
    all_goals simp

/-- A clear word is legal. -/
theorem Ctx.clear_legal (h : c.clear = true) :
    illegalForm (min c.l.vregs maxVregs) (min c.l.sregs maxSregs) c.l.ktan false c.fm = none := by
  have h4 : c.illegal false = 0 := by
    simp only [Ctx.clear, Bool.and_eq_true, beq_iff_eq] at h
    exact h.1.1.1.1.2
  cases ho : illegalForm (min c.l.vregs maxVregs) (min c.l.sregs maxSregs) c.l.ktan false c.fm with
  | none => rfl
  | some n =>
    have hn : n ≠ 0 := fun h0 => illegalForm_ne _ _ _ _ _ (h0 ▸ ho)
    unfold Ctx.illegal at h4
    simp only [ho, Option.getD_some] at h4
    by_cases hd : (c.s.cursor.dx.isSome && !c.fm.dual) = true
    · simp [hd, hn] at h4
    · simp [hd, hn] at h4

theorem Ctx.clear_ops (h : c.clear = true) : ∀ o ∈ c.fm.shape.ops, Opnd.ok (min c.l.vregs maxVregs) (min c.l.sregs maxSregs) o = true :=
  illegalForm_ops (Ctx.clear_legal h)

/-- The operand of a field, where the word is legal: vector registers stay below 128, scalar ones below 64 or are the
read-only sources. -/
theorem Ctx.clear_opnd (hc : s.ctx? fm = some c) (h : c.clear = true) (fld : Nat) :
    ((c.opnd fld).scal = false → (c.opnd fld).num + (c.opnd fld).n ≤ 128) ∧
    ((c.opnd fld).scal = true → 64 ≤ (c.opnd fld).num ∨ (c.opnd fld).num + (c.opnd fld).n ≤ 64) := by
  have hs := State.ctx?_spec hc
  unfold Ctx.opnd
  cases hf : c.sh.ops.find? (fun o => o.fld == fld) with
  | none => simp
  | some o =>
    have hm := List.mem_of_find?_eq_some hf
    rw [hs.2.2.2.2.2.2.2.2.1, ← hs.2.2.2.2.2.2.2.1] at hm
    have hok := Ctx.clear_ops h o hm
    unfold Opnd.ok maxVregs maxSregs at hok
    simp only [Option.getD_some]
    constructor
    · intro hsc
      simp only [hsc, Bool.false_and, Bool.false_eq_true, if_false, Bool.and_eq_true, decide_eq_true_eq] at hok
      omega
    · intro hsc
      by_cases h64 : 64 ≤ o.num
      · exact .inl h64
      · simp only [hsc, h64, decide_false, Bool.and_false, Bool.false_eq_true, if_false, if_true, Bool.and_eq_true, decide_eq_true_eq] at hok
        exact .inr (by omega)

/-! ### Results of field d -/

theorem Ctx.v_writeTo (c : Ctx) (o : Opnd) (r : Nat → Dual) (ho : o.scal = false → o.num + o.n ≤ 128) (m j i : Nat) (hm : m < 128) (hi : i < 64) :
    ((c.writeTo c.g o r).v m j).at i = c.newV o r m j i := by
  unfold Ctx.writeTo Ctx.newV Ctx.oldV
  split
  · rename_i h0
    have : c.sel.getLsbD i = false := by simp [eq_of_beq h0]
    simp [this]
  · split
    · rename_i hsc
      rw [Group.v_writeS]; simp [hsc]
    · rename_i hsc
      have hsc' : o.scal = false := by simpa using hsc
      rw [Group.v_writeV _ _ _ _ _ _ _ (ho hsc') m j i hm hi]
      by_cases h : (o.num ≤ m ∧ m < o.num + o.n ∧ j ≤ c.l.ktan) ∧ c.sel.getLsbD i = true
      · rw [if_pos h, if_pos ⟨hsc', h.1.1, h.1.2.1, h.1.2.2, h.2⟩]
      · rw [if_neg h, if_neg (fun k => h ⟨⟨k.2.1, k.2.2.1, k.2.2.2.1⟩, k.2.2.2.2⟩)]

theorem Ctx.s_writeTo (c : Ctx) (o : Opnd) (r : Nat → Dual) (ho : o.scal = true → 64 ≤ o.num ∨ o.num + o.n ≤ 64) (m j : Nat) (hm : m < 64) :
    (c.writeTo c.g o r).s m j = c.newS o r m j := by
  unfold Ctx.writeTo Ctx.newS Ctx.oldS
  split
  · rename_i h0
    simp [eq_of_beq h0]
  · rename_i h0
    have h0' : c.sel ≠ 0 := by simpa using h0
    split
    · rename_i hsc
      rw [Group.s_writeS _ _ _ _ _ _ (ho hsc) m j hm]
      rcases ho hsc with h | h
      · rw [if_neg (by omega), if_neg (by omega)]
      · by_cases hh : o.num ≤ m ∧ m < o.num + o.n ∧ j ≤ c.l.ktan
        · rw [if_pos hh, if_pos ⟨hsc, hh.1, hh.2.1, by omega, hh.2.2, h0'⟩]
        · rw [if_neg hh, if_neg (fun k => hh ⟨k.2.1, k.2.2.1, k.2.2.2.2.1⟩)]
    · rename_i hsc
      rw [Group.s_writeV, if_neg (fun k => hsc k.1)]

theorem Group.setMask_mod (g : Group) (n : Nat) (x : Mask) : g.setMask (n % 8) x = g.setMask n x := by
  unfold Group.setMask
  simp only [Nat.mod_mod]

theorem Group.mask_mod (g : Group) (n : Nat) : g.mask (n % 8) = g.mask n := by
  unfold Group.mask
  simp only [Nat.mod_mod]
  congr 2
  ext
  simp [Fin.ofNat]

theorem Ctx.mask_setMask (c : Ctx) (g : Group) (n : Nat) (x : Mask) (m : Nat) (hm : m < 8) (hs : c.sel ≠ 0) :
    (g.setMask n x).mask m = c.setM n x g.mask m := by
  rw [← g.setMask_mod n x, Group.mask_setMask g (n % 8) x m (by omega) hm]
  unfold Ctx.setM
  by_cases h : m = n % 8 ∧ n % 8 ≠ 0
  · rw [if_pos h, if_pos ⟨h.1, h.1 ▸ h.2, hs⟩]
  · rw [if_neg h, if_neg]
    rintro ⟨h1, h2, -⟩
    exact h ⟨h1, h1 ▸ h2⟩

theorem Ctx.mask_writeMask (c : Ctx) (g : Group) (n : Nat) (once : Bool) (p : Nat → Bool) (m : Nat) (hm : m < 8) :
    (c.writeMask g n once p).mask m = c.newM n once p g.mask m := by
  unfold Ctx.writeMask Ctx.newM
  split
  · rename_i h0
    simp [Ctx.setM, eq_of_beq h0]
  · rename_i h0
    have h0' : c.sel ≠ 0 := by simpa using h0
    rw [c.mask_setMask g n _ m hm h0', g.mask_mod]

/-- A word whose result is field d. -/
theorem Ctx.wrote (hc : s.ready fm = some c) (r : Nat → Dual) (fl : BitVec 5) :
    c.Wrote (c.finish (.regs (c.writeTo c.g (c.opnd 3) r) fl)) r fl := by
  obtain ⟨h1, h2⟩ := State.ready_ctx hc
  have ho := Ctx.clear_opnd h1 h2 3
  refine Ctx.gives h1 _ fl (c.sameButRegs_writeTo c.g _ r).regs _ _ _ ?_ ?_ ?_
  · exact fun m j i hm hi => c.v_writeTo _ r ho.1 m j i hm hi
  · exact fun m j hm => c.s_writeTo _ r ho.2 m j hm
  · intro n _
    unfold Group.mask
    rw [(c.sameButRegs_writeTo c.g _ r).masks]

theorem Ctx.newV_congr (c : Ctx) (o : Opnd) (r q : Nat → Dual) (h : ∀ i, i < 64 → r i = q i) (m j i : Nat) (hi : i < 64) :
    c.newV o r m j i = c.newV o q m j i := by
  unfold Ctx.newV; rw [h i hi]

theorem Mask.low_lt (m : Mask) : Mask.low m < 64 := by
  unfold Mask.low
  cases h : Mask.lanes m with
  | nil => simp
  | cons a t =>
    have : a ∈ Mask.lanes m := by rw [h]; simp
    exact ((Mask.mem_lanes m a).mp this).1

theorem Ctx.newS_congr (c : Ctx) (o : Opnd) (r q : Nat → Dual) (h : ∀ i, i < 64 → r i = q i) (m j : Nat) :
    c.newS o r m j = c.newS o q m j := by
  unfold Ctx.newS; rw [h c.low (Mask.low_lt _)]

theorem Ctx.work_lt (c : Ctx) {i : Nat} (h : i ∈ c.work) : i < 64 := by
  unfold Ctx.work at h
  split at h
  · simp at h
  · split at h
    · simp only [List.mem_singleton] at h
      subst h; exact Mask.low_lt _
    · exact ((Mask.mem_lanes _ _).mp h).1

theorem Ctx.flags_fold (c : Ctx) (fn q : Nat → Dual × BitVec 5) (h : ∀ i ∈ c.work, q i = fn i) :
    c.work.foldl (fun f i => f ||| (q i).2) 0 = c.flagsOf fn := by
  unfold Ctx.flagsOf
  have : ∀ (l : List Nat) (f : BitVec 5), (∀ i ∈ l, q i = fn i) →
      l.foldl (fun f i => f ||| (q i).2) f = l.foldl (fun f i => f ||| (fn i).2) f := by
    intro l
    induction l with
    | nil => intro f _; rfl
    | cons a t ih =>
      intro f hl
      rw [List.foldl_cons, List.foldl_cons, hl a (by simp)]
      exact ih _ fun i hi => hl i (by simp [hi])
  exact this _ _ h

/-- A result that agrees in every lane. -/
theorem Ctx.Wrote.congr {t : State} {r q : Nat → Dual} {fl : BitVec 5} (h : c.Wrote t r fl) (e : ∀ i, i < 64 → r i = q i) :
    c.Wrote t q fl := by
  obtain ⟨⟨hh, a1, a2, a3, a4, a5, a6, a7⟩, b⟩ := h
  exact ⟨⟨hh, a1, a2, a3, a4, fun m j i hm hi => (a5 m j i hm hi).trans (c.newV_congr _ _ _ e m j i hi),
    fun m j hm => (a6 m j hm).trans (c.newS_congr _ _ _ e m j), a7⟩, b⟩

theorem Ctx.wrote_lanes (hc : s.ready fm = some c) (fn q : Nat → Dual × BitVec 5)
    (hq : ∀ i, i < 64 → q i = if c.work.contains i then fn i else ({}, 0)) :
    c.Wrote (c.finish (.regs (c.writeTo c.g (c.opnd 3) fun i => (q i).1) (c.work.foldl (fun f i => f ||| (q i).2) 0)))
      (c.laneResult fn) (c.flagsOf fn) := by
  have e2 := c.flags_fold fn q fun i hi => by rw [hq i (c.work_lt hi), if_pos (by simpa using hi)]
  rw [e2]
  refine (Ctx.wrote hc (fun i => (q i).1) _).congr ?_
  intro i hi
  rw [hq i hi]
  unfold Ctx.laneResult
  split <;> rfl

/-- A lane-wise word. -/
theorem Ctx.wrote_lanewise (hc : s.ready fm = some c) (fn : Nat → Dual × BitVec 5) :
    c.Wrote (c.finish (c.lanewise fn)) (c.laneResult fn) (c.flagsOf fn) :=
  Ctx.wrote_lanes hc fn _ fun i hi => Lanes.at_gen _ i hi

/-- A word that wrote one value with zero tangents. -/
theorem Ctx.wrote_values (hc : s.ready fm = some c) (fn : Nat → DWord) : c.WroteValue (c.finish (c.values fn)) fn :=
  Ctx.wrote hc _ 0

end

end Sys2Proof.Machine
end

