-- ==== Sys2Proof/Laws/PerInstr.lean ====
section
/-! SUPPORT. The family ParsesBack of LAWS.json: reading the word of an instruction gives the instruction, whatever its
fields hold; one lemma for each constructor of Instr. First the fields of the formats, read from their words. -/

namespace Sys2Proof.Laws

open Sys2Proof

theorem peel {v w st n k : Nat} (hi : BitVec v) (lo : BitVec w) (h : st = w + k) :
    (hi ++ lo).extractLsb' st n = hi.extractLsb' k n := by
  rw [BitVec.extractLsb'_append_eq_of_le (by omega)]; congr 1; omega

theorem last {v n : Nat} (hi : BitVec v) (lo : BitVec n) : (hi ++ lo).extractLsb' 0 n = lo := by
  rw [BitVec.extractLsb'_append_eq_of_add_le (by omega), BitVec.extractLsb'_eq_self]

theorem extract_self {n : Nat} (x : BitVec n) : x.extractLsb' 0 n = x := BitVec.extractLsb'_eq_self

theorem peelBit {v w k st : Nat} (hi : BitVec v) (lo : BitVec w) (h : st = w + k) :
    (hi ++ lo).getLsbD st = hi.getLsbD k := by
  subst h; simp [BitVec.getLsbD_append]

theorem lastBit {v : Nat} (hi : BitVec v) (x : Bool) : (hi ++ BitVec.ofBool x).getLsbD 0 = x := by
  rw [BitVec.getLsbD_append]; simp

theorem FR_ofWord_word (code : Nat) (f : FR) : FR.ofWord (f.word code) = f := by
  obtain ⟨sub, s, d, a, b, c, pm, pn, ea, md⟩ := f
  refine (FR.mk.injEq ..).mpr ⟨?_, ?_, ?_, ?_, ?_, ?_, ?_, ?_, ?_, ?_⟩
  ·  exact (peel _ md rfl).trans ((peel _ ea rfl).trans ((peel _ (.ofBool pn) rfl).trans ((peel _ pm rfl).trans ((peel _ c rfl).trans
    ((peel _ b rfl).trans ((peel _ a rfl).trans ((peel _ d rfl).trans ((peel _ (.ofBool s) rfl).trans (last _ sub)))))))))
  ·  exact (peelBit _ md rfl).trans ((peelBit _ ea rfl).trans ((peelBit _ (.ofBool pn) rfl).trans ((peelBit _ pm rfl).trans ((peelBit _ c
    rfl).trans ((peelBit _ b rfl).trans ((peelBit _ a rfl).trans ((peelBit _ d rfl).trans (lastBit _ s))))))))
  ·  exact (peel _ md rfl).trans ((peel _ ea rfl).trans ((peel _ (.ofBool pn) rfl).trans ((peel _ pm rfl).trans ((peel _ c rfl).trans
    ((peel _ b rfl).trans ((peel _ a rfl).trans (last _ d)))))))
  ·  exact (peel _ md rfl).trans ((peel _ ea rfl).trans ((peel _ (.ofBool pn) rfl).trans ((peel _ pm rfl).trans ((peel _ c rfl).trans
    ((peel _ b rfl).trans (last _ a))))))
  ·  exact (peel _ md rfl).trans ((peel _ ea rfl).trans ((peel _ (.ofBool pn) rfl).trans ((peel _ pm rfl).trans ((peel _ c rfl).trans
    (last _ b)))))
  ·  exact (peel _ md rfl).trans ((peel _ ea rfl).trans ((peel _ (.ofBool pn) rfl).trans ((peel _ pm rfl).trans (last _ c))))
  ·  exact (peel _ md rfl).trans ((peel _ ea rfl).trans ((peel _ (.ofBool pn) rfl).trans (last _ pm)))
  ·  exact (peelBit _ md rfl).trans ((peelBit _ ea rfl).trans (lastBit _ pn))
  ·  exact (peel _ md rfl).trans (last _ ea)
  ·  exact last _ md

theorem FI_ofWord_word (code : Nat) (f : FI) : FI.ofWord (f.word code) = f := by
  obtain ⟨pm, s, d, a, ea, pn, imm⟩ := f
  refine (FI.mk.injEq ..).mpr ⟨?_, ?_, ?_, ?_, ?_, ?_, ?_⟩
  ·  exact (peel _ imm rfl).trans ((peel _ (.ofBool pn) rfl).trans ((peel _ (.ofBool ea) rfl).trans ((peel _ a rfl).trans ((peel _ d
    rfl).trans ((peel _ (.ofBool s) rfl).trans (last _ pm))))))
  ·  exact (peelBit _ imm rfl).trans ((peelBit _ (.ofBool pn) rfl).trans ((peelBit _ (.ofBool ea) rfl).trans ((peelBit _ a rfl).trans
    ((peelBit _ d rfl).trans (lastBit _ s)))))
  ·  exact (peel _ imm rfl).trans ((peel _ (.ofBool pn) rfl).trans ((peel _ (.ofBool ea) rfl).trans ((peel _ a rfl).trans (last _ d))))
  ·  exact (peel _ imm rfl).trans ((peel _ (.ofBool pn) rfl).trans ((peel _ (.ofBool ea) rfl).trans (last _ a)))
  ·  exact (peelBit _ imm rfl).trans ((peelBit _ (.ofBool pn) rfl).trans (lastBit _ ea))
  ·  exact (peelBit _ imm rfl).trans (lastBit _ pn)
  ·  exact last _ imm

theorem FR_code (code : Nat) (h : code < 1024) (f : FR) : ((f.word code).extractLsb' 52 10).toNat = code := by
  have e : (f.word code).extractLsb' 52 10 = BitVec.ofNat 10 code := (peel _ f.md rfl).trans ((peel _ f.ea rfl).trans ((peel _ (.ofBool
    f.pn) rfl).trans ((peel _ f.pm rfl).trans ((peel _ f.c rfl).trans ((peel _ f.b rfl).trans ((peel _ f.a rfl).trans ((peel _ f.d
    rfl).trans ((peel _ (.ofBool f.s) rfl).trans ((peel _ f.sub rfl).trans (last _ (BitVec.ofNat 10 code)))))))))))
  rw [e, BitVec.toNat_ofNat, Nat.mod_eq_of_lt h]

theorem FR_bit63 (code : Nat) (f : FR) : (f.word code).getLsbD 63 = false := by
  exact (peelBit _ f.md rfl).trans ((peelBit _ f.ea rfl).trans ((peelBit _ (.ofBool f.pn) rfl).trans ((peelBit _ f.pm rfl).trans ((peelBit
    _ f.c rfl).trans ((peelBit _ f.b rfl).trans ((peelBit _ f.a rfl).trans ((peelBit _ f.d rfl).trans ((peelBit _ (.ofBool f.s) rfl).trans
    ((peelBit _ f.sub rfl).trans ((peelBit (0#2) (BitVec.ofNat 10 code) (k := 1) rfl).trans (rfl : (0#2).getLsbD 1 = false)))))))))))

theorem FR_bit62 (code : Nat) (f : FR) : (f.word code).getLsbD 62 = false := by
  exact (peelBit _ f.md rfl).trans ((peelBit _ f.ea rfl).trans ((peelBit _ (.ofBool f.pn) rfl).trans ((peelBit _ f.pm rfl).trans ((peelBit
    _ f.c rfl).trans ((peelBit _ f.b rfl).trans ((peelBit _ f.a rfl).trans ((peelBit _ f.d rfl).trans ((peelBit _ (.ofBool f.s) rfl).trans
    ((peelBit _ f.sub rfl).trans ((peelBit (0#2) (BitVec.ofNat 10 code) (k := 0) rfl).trans (rfl : (0#2).getLsbD 0 = false)))))))))))

theorem FI_code (code : Nat) (h : code < 1024) (f : FI) : ((f.word code).extractLsb' 52 10).toNat = code := by
  have e : (f.word code).extractLsb' 52 10 = BitVec.ofNat 10 code := (peel _ f.imm rfl).trans ((peel _ (.ofBool f.pn) rfl).trans ((peel _
    (.ofBool f.ea) rfl).trans ((peel _ f.a rfl).trans ((peel _ f.d rfl).trans ((peel _ (.ofBool f.s) rfl).trans ((peel _ f.pm rfl).trans
    (last _ (BitVec.ofNat 10 code))))))))
  rw [e, BitVec.toNat_ofNat, Nat.mod_eq_of_lt h]

theorem FI_bit63 (code : Nat) (f : FI) : (f.word code).getLsbD 63 = false := by
  exact (peelBit _ f.imm rfl).trans ((peelBit _ (.ofBool f.pn) rfl).trans ((peelBit _ (.ofBool f.ea) rfl).trans ((peelBit _ f.a rfl).trans
    ((peelBit _ f.d rfl).trans ((peelBit _ (.ofBool f.s) rfl).trans ((peelBit _ f.pm rfl).trans ((peelBit (1#2) (BitVec.ofNat 10 code) (k
    := 1) rfl).trans (rfl : (1#2).getLsbD 1 = false))))))))

theorem FI_bit62 (code : Nat) (f : FI) : (f.word code).getLsbD 62 = true := by
  exact (peelBit _ f.imm rfl).trans ((peelBit _ (.ofBool f.pn) rfl).trans ((peelBit _ (.ofBool f.ea) rfl).trans ((peelBit _ f.a rfl).trans
    ((peelBit _ f.d rfl).trans ((peelBit _ (.ofBool f.s) rfl).trans ((peelBit _ f.pm rfl).trans ((peelBit (1#2) (BitVec.ofNat 10 code) (k
    := 0) rfl).trans (rfl : (1#2).getLsbD 0 = true))))))))

/-- The word of a pair. -/
abbrev pairWord (op : HalfOp) (x : HalfArgs) (y : HalfWord) : DWord := 1#1 ++ halfBits op x ++ halfBits y.op y.args ++ 0#1

theorem ofCode_code (op : HalfOp) : HalfOp.ofCode op.code.toNat = some op := by cases op <;> rfl

/-- The first of two neighbouring halves, read from a word. -/
theorem extract_extract {w st n k m : Nat} (x : BitVec w) (h : k + m ≤ n) :
    (x.extractLsb' st n).extractLsb' k m = x.extractLsb' (st + k) m := by
  apply BitVec.eq_of_getLsbD_eq
  intro i hi
  simp only [BitVec.getLsbD_extractLsb', Nat.add_assoc]
  have : k + i < n := by omega
  simp [hi, this]

theorem pair_a (op : HalfOp) (x : HalfArgs) (y : HalfWord) : (pairWord op x y).extractLsb' 32 31 = halfBits op x :=
  (peel _ (0#1) rfl).trans ((peel _ (halfBits y.op y.args) rfl).trans (last _ _))

theorem pair_b (op : HalfOp) (x : HalfArgs) (y : HalfWord) : (pairWord op x y).extractLsb' 1 31 = halfBits y.op y.args :=
  (peel _ (0#1) rfl).trans (last _ _)

theorem pair_bit63 (op : HalfOp) (x : HalfArgs) (y : HalfWord) : (pairWord op x y).getLsbD 63 = true :=
  (peelBit _ (0#1) rfl).trans ((peelBit _ (halfBits y.op y.args) rfl).trans ((peelBit (1#1) (halfBits op x) (k := 0) rfl).trans (rfl : (1#1).getLsbD 0 = true)))

theorem pair_bit0 (op : HalfOp) (x : HalfArgs) (y : HalfWord) : (pairWord op x y).getLsbD 0 = false :=
  lastBit _ false

theorem half_op (op : HalfOp) (x : HalfArgs) : (halfBits op x).extractLsb' 25 6 = op.code :=
  (peel _ x.mod5 rfl).trans ((peel _ x.imm8 rfl).trans ((peel _ x.a rfl).trans ((peel _ x.d rfl).trans (extract_self _))))

/-- The fields of a half, read from its 31 bits. -/
theorem half_args (op : HalfOp) (x : HalfArgs) (w : DWord) (lo : Nat) (h : w.extractLsb' lo 31 = halfBits op x) :
    HalfArgs.ofWord w lo = x := by
  have e (k m : Nat) (hk : k + m ≤ 31) : w.extractLsb' (lo + k) m = (halfBits op x).extractLsb' k m := by
    rw [← h, extract_extract _ hk]
  obtain ⟨d, a, imm8, mod5⟩ := x
  refine (HalfArgs.mk.injEq ..).mpr ⟨?_, ?_, ?_, ?_⟩
  · exact (e 19 6 (by decide)).trans ((peel _ mod5 rfl).trans ((peel _ imm8 rfl).trans ((peel _ a rfl).trans (last _ d))))
  · exact (e 13 6 (by decide)).trans ((peel _ mod5 rfl).trans ((peel _ imm8 rfl).trans (last _ a)))
  · exact (e 5 8 (by decide)).trans ((peel _ mod5 rfl).trans (last _ imm8))
  · exact (e 0 5 (by decide)).trans (last _ mod5)

/-- Reading an FR word. -/
theorem parse_fr (code : Nat) (f : FR) (h : code < 1024) (hf : (forms code).isSome = true) (i : Instr)
    (hi : frInstr code f = some i) : parse (f.word code) = .word i false := by
  obtain ⟨g, hg⟩ := Option.isSome_iff_exists.mp hf
  rw [parse, FR_bit63, FR_bit62, FR_code code h, FR_ofWord_word]
  simp [hg, hi]

/-- Reading an FI word. -/
theorem parse_fi (code : Nat) (f : FI) (h : code < 1024) (hf : (forms code).isSome = true) (i : Instr)
    (hi : fiInstr code f = some i) : parse (f.word code) = .word i false := by
  obtain ⟨g, hg⟩ := Option.isSome_iff_exists.mp hf
  rw [parse, FI_bit63, FI_bit62, FI_code code h, FI_ofWord_word]
  simp [hg, hi]

/-- Reading a paired word. -/
theorem parse_pair (op : HalfOp) (x : HalfArgs) (y : HalfWord) (i : Instr) (hi : pairInstr op x y = i) :
    parse (pairWord op x y) = .word i false := by
  have ha : (pairWord op x y).extractLsb' 57 6 = op.code :=
    (extract_extract _ (by decide) (st := 32) (n := 31) (k := 25) (m := 6)).symm.trans
      ((congrArg (fun z : BitVec 31 => z.extractLsb' 25 6) (pair_a op x y)).trans (half_op op x))
  have hb : (pairWord op x y).extractLsb' 26 6 = y.op.code :=
    (extract_extract _ (by decide) (st := 1) (n := 31) (k := 25) (m := 6)).symm.trans
      ((congrArg (fun z : BitVec 31 => z.extractLsb' 25 6) (pair_b op x y)).trans (half_op y.op y.args))
  rw [parse, pair_bit63, pair_bit0, ha, hb, ofCode_code, ofCode_code, half_args op x _ 32 (pair_a op x y),
    half_args y.op y.args _ 1 (pair_b op x y), ← hi]
  rfl

namespace ParsesBack

/-- What a word reads as is what it was written from: the word of an instruction of its own row reads as that
instruction, with every field whatever it holds; a step of another agent has no word. -/
def Statement (i : Instr) : Prop :=
  (i.isWord = false → encode i = none) ∧ (i.rowFits = true → ∀ w, encode i = some w → parse w = .word i false)

theorem ofFr (i : Instr) (code : Nat) (f : FR) (hf : i.form = .fr code f) (h : code < 1024) (hs : (forms code).isSome = true)
    (hi : i.rowFits = true → frInstr code f = some i) : Statement i := by
  refine ⟨fun hw => by simp [Instr.isWord, hf] at hw, fun hr w hw => ?_⟩
  simp only [encode, hf, Form.word, Option.some.injEq] at hw
  exact hw ▸ parse_fr code f h hs i (hi hr)

theorem ofFi (i : Instr) (code : Nat) (f : FI) (hf : i.form = .fi code f) (h : code < 1024) (hs : (forms code).isSome = true)
    (hi : fiInstr code f = some i) : Statement i := by
  refine ⟨fun hw => by simp [Instr.isWord, hf] at hw, fun _ w hw => ?_⟩
  simp only [encode, hf, Form.word, Option.some.injEq] at hw
  exact hw ▸ parse_fi code f h hs i hi

theorem ofPair (i : Instr) (op : HalfOp) (x : HalfArgs) (y : HalfWord) (hf : i.form = .pair op x y) (hi : pairInstr op x y = i) :
    Statement i := by
  refine ⟨fun hw => by simp [Instr.isWord, hf] at hw, fun _ w hw => ?_⟩
  simp only [encode, hf, Form.word, Option.some.injEq] at hw
  exact hw ▸ parse_pair op x y i hi

theorem ofEvent (i : Instr) (hf : i.form = .event) : Statement i := by
  refine ⟨fun _ => by simp [encode, hf, Form.word], fun _ w hw => by simp [encode, hf, Form.word] at hw⟩

theorem iadd (f : FR) : Statement (.iadd f) := ofFr _ _ f rfl (by decide) rfl fun _ => rfl
theorem iaddImm (f : FI) : Statement (.iaddImm f) := ofFi _ _ f rfl (by decide) rfl rfl
theorem isub (f : FR) : Statement (.isub f) := ofFr _ _ f rfl (by decide) rfl fun _ => rfl
theorem isubImm (f : FI) : Statement (.isubImm f) := ofFi _ _ f rfl (by decide) rfl rfl
theorem iaddc (f : FR) : Statement (.iaddc f) := ofFr _ _ f rfl (by decide) rfl fun _ => rfl
theorem isubb (f : FR) : Statement (.isubb f) := ofFr _ _ f rfl (by decide) rfl fun _ => rfl
theorem imul (f : FR) : Statement (.imul f) := ofFr _ _ f rfl (by decide) rfl fun _ => rfl
theorem imulImm (f : FI) : Statement (.imulImm f) := ofFi _ _ f rfl (by decide) rfl rfl
theorem imulh (f : FR) : Statement (.imulh f) := ofFr _ _ f rfl (by decide) rfl fun _ => rfl
theorem imulw (f : FR) : Statement (.imulw f) := ofFr _ _ f rfl (by decide) rfl fun _ => rfl
theorem imad (f : FR) : Statement (.imad f) := ofFr _ _ f rfl (by decide) rfl fun _ => rfl
theorem imin (f : FR) : Statement (.imin f) := ofFr _ _ f rfl (by decide) rfl fun _ => rfl
theorem iminImm (f : FI) : Statement (.iminImm f) := ofFi _ _ f rfl (by decide) rfl rfl
theorem imax (f : FR) : Statement (.imax f) := ofFr _ _ f rfl (by decide) rfl fun _ => rfl
theorem imaxImm (f : FI) : Statement (.imaxImm f) := ofFi _ _ f rfl (by decide) rfl rfl
theorem iclamp (f : FR) : Statement (.iclamp f) := ofFr _ _ f rfl (by decide) rfl fun _ => rfl
theorem iabs (f : FR) : Statement (.iabs f) := ofFr _ _ f rfl (by decide) rfl fun _ => rfl
theorem ineg (f : FR) : Statement (.ineg f) := ofFr _ _ f rfl (by decide) rfl fun _ => rfl
theorem isad (f : FR) : Statement (.isad f) := ofFr _ _ f rfl (by decide) rfl fun _ => rfl
theorem idot4 (f : FR) : Statement (.idot4 f) := ofFr _ _ f rfl (by decide) rfl fun _ => rfl
theorem iadd3 (f : FR) : Statement (.iadd3 f) := ofFr _ _ f rfl (by decide) rfl fun _ => rfl
theorem ishadd (f : FR) : Statement (.ishadd f) := ofFr _ _ f rfl (by decide) rfl fun _ => rfl
theorem icmp (f : FR) : Statement (.icmp f) := ofFr _ _ f rfl (by decide) rfl fun _ => rfl
theorem icmpImm (f : FI) : Statement (.icmpImm f) := ofFi _ _ f rfl (by decide) rfl rfl
theorem and (f : FR) : Statement (.and f) := ofFr _ _ f rfl (by decide) rfl fun _ => rfl
theorem andImm (f : FI) : Statement (.andImm f) := ofFi _ _ f rfl (by decide) rfl rfl
theorem or (f : FR) : Statement (.or f) := ofFr _ _ f rfl (by decide) rfl fun _ => rfl
theorem orImm (f : FI) : Statement (.orImm f) := ofFi _ _ f rfl (by decide) rfl rfl
theorem xor (f : FR) : Statement (.xor f) := ofFr _ _ f rfl (by decide) rfl fun _ => rfl
theorem xorImm (f : FI) : Statement (.xorImm f) := ofFi _ _ f rfl (by decide) rfl rfl
theorem andn (f : FR) : Statement (.andn f) := ofFr _ _ f rfl (by decide) rfl fun _ => rfl
theorem andnImm (f : FI) : Statement (.andnImm f) := ofFi _ _ f rfl (by decide) rfl rfl
theorem not (f : FR) : Statement (.not f) := ofFr _ _ f rfl (by decide) rfl fun _ => rfl
theorem tern (f : FR) : Statement (.tern f) := ofFr _ _ f rfl (by decide) rfl fun _ => rfl
theorem shl (f : FR) : Statement (.shl f) := ofFr _ _ f rfl (by decide) rfl fun _ => rfl
theorem shlImm (f : FI) : Statement (.shlImm f) := ofFi _ _ f rfl (by decide) rfl rfl
theorem shr (f : FR) : Statement (.shr f) := ofFr _ _ f rfl (by decide) rfl fun _ => rfl
theorem shrImm (f : FI) : Statement (.shrImm f) := ofFi _ _ f rfl (by decide) rfl rfl
theorem sra (f : FR) : Statement (.sra f) := ofFr _ _ f rfl (by decide) rfl fun _ => rfl
theorem sraImm (f : FI) : Statement (.sraImm f) := ofFi _ _ f rfl (by decide) rfl rfl
theorem rot (f : FR) : Statement (.rot f) := ofFr _ _ f rfl (by decide) rfl fun _ => rfl
theorem rotImm (f : FI) : Statement (.rotImm f) := ofFi _ _ f rfl (by decide) rfl rfl
theorem bfe (f : FR) : Statement (.bfe f) := ofFr _ _ f rfl (by decide) rfl fun _ => rfl
theorem bfi (f : FR) : Statement (.bfi f) := ofFr _ _ f rfl (by decide) rfl fun _ => rfl
theorem popc (f : FR) : Statement (.popc f) := ofFr _ _ f rfl (by decide) rfl fun _ => rfl
theorem clz (f : FR) : Statement (.clz f) := ofFr _ _ f rfl (by decide) rfl fun _ => rfl
theorem brev (f : FR) : Statement (.brev f) := ofFr _ _ f rfl (by decide) rfl fun _ => rfl
theorem bfind (f : FR) : Statement (.bfind f) := ofFr _ _ f rfl (by decide) rfl fun _ => rfl
theorem mov (f : FR) : Statement (.mov f) := ofFr _ _ f rfl (by decide) rfl fun _ => rfl
theorem movi (f : FI) : Statement (.movi f) := ofFi _ _ f rfl (by decide) rfl rfl
theorem sel (f : FR) : Statement (.sel f) := ofFr _ _ f rfl (by decide) rfl fun _ => rfl
theorem rdsr (f : FR) : Statement (.rdsr f) := ofFr _ _ f rfl (by decide) rfl fun _ => rfl
theorem wrsr (f : FR) : Statement (.wrsr f) := ofFr _ _ f rfl (by decide) rfl fun _ => rfl
theorem mlog (f : FR) : Statement (.mlog f) := ofFr _ _ f rfl (by decide) rfl fun _ => rfl
theorem mrd (f : FR) : Statement (.mrd f) := ofFr _ _ f rfl (by decide) rfl fun _ => rfl
theorem mwr (f : FR) : Statement (.mwr f) := ofFr _ _ f rfl (by decide) rfl fun _ => rfl
theorem lanerd (f : FR) : Statement (.lanerd f) := ofFr _ _ f rfl (by decide) rfl fun _ => rfl
theorem lanewr (f : FR) : Statement (.lanewr f) := ofFr _ _ f rfl (by decide) rfl fun _ => rfl
theorem fadd (f : FR) : Statement (.fadd f) := ofFr _ _ f rfl (by decide) rfl fun _ => rfl
theorem faddImm (f : FI) : Statement (.faddImm f) := ofFi _ _ f rfl (by decide) rfl rfl
theorem fsub (f : FR) : Statement (.fsub f) := ofFr _ _ f rfl (by decide) rfl fun _ => rfl
theorem fsubImm (f : FI) : Statement (.fsubImm f) := ofFi _ _ f rfl (by decide) rfl rfl
theorem fmul (f : FR) : Statement (.fmul f) := ofFr _ _ f rfl (by decide) rfl fun _ => rfl
theorem fmulImm (f : FI) : Statement (.fmulImm f) := ofFi _ _ f rfl (by decide) rfl rfl
theorem ffma (f : FR) : Statement (.ffma f) := ofFr _ _ f rfl (by decide) rfl fun _ => rfl
theorem fmin (f : FR) : Statement (.fmin f) := ofFr _ _ f rfl (by decide) rfl fun _ => rfl
theorem fminImm (f : FI) : Statement (.fminImm f) := ofFi _ _ f rfl (by decide) rfl rfl
theorem fmax (f : FR) : Statement (.fmax f) := ofFr _ _ f rfl (by decide) rfl fun _ => rfl
theorem fmaxImm (f : FI) : Statement (.fmaxImm f) := ofFi _ _ f rfl (by decide) rfl rfl
theorem fabs (f : FR) : Statement (.fabs f) := ofFr _ _ f rfl (by decide) rfl fun _ => rfl
theorem fneg (f : FR) : Statement (.fneg f) := ofFr _ _ f rfl (by decide) rfl fun _ => rfl
theorem fcmp (f : FR) : Statement (.fcmp f) := ofFr _ _ f rfl (by decide) rfl fun _ => rfl
theorem fcmpImm (f : FI) : Statement (.fcmpImm f) := ofFi _ _ f rfl (by decide) rfl rfl
theorem fdiv (f : FR) : Statement (.fdiv f) := ofFr _ _ f rfl (by decide) rfl fun _ => rfl
theorem frnd (f : FR) : Statement (.frnd f) := ofFr _ _ f rfl (by decide) rfl fun _ => rfl
theorem fclass (f : FR) : Statement (.fclass f) := ofFr _ _ f rfl (by decide) rfl fun _ => rfl
theorem fsgn (f : FR) : Statement (.fsgn f) := ofFr _ _ f rfl (by decide) rfl fun _ => rfl
theorem fsat (f : FR) : Statement (.fsat f) := ofFr _ _ f rfl (by decide) rfl fun _ => rfl
theorem hadd2 (f : FR) : Statement (.hadd2 f) := ofFr _ _ f rfl (by decide) rfl fun _ => rfl
theorem hsub2 (f : FR) : Statement (.hsub2 f) := ofFr _ _ f rfl (by decide) rfl fun _ => rfl
theorem hmul2 (f : FR) : Statement (.hmul2 f) := ofFr _ _ f rfl (by decide) rfl fun _ => rfl
theorem hfma2 (f : FR) : Statement (.hfma2 f) := ofFr _ _ f rfl (by decide) rfl fun _ => rfl
theorem hmin2 (f : FR) : Statement (.hmin2 f) := ofFr _ _ f rfl (by decide) rfl fun _ => rfl
theorem hmax2 (f : FR) : Statement (.hmax2 f) := ofFr _ _ f rfl (by decide) rfl fun _ => rfl
theorem hcmp2 (f : FR) : Statement (.hcmp2 f) := ofFr _ _ f rfl (by decide) rfl fun _ => rfl
theorem hdot2 (f : FR) : Statement (.hdot2 f) := ofFr _ _ f rfl (by decide) rfl fun _ => rfl
theorem cvt (f : FR) : Statement (.cvt f) := ofFr _ _ f rfl (by decide) rfl fun _ => rfl
theorem cvtq (f : FR) : Statement (.cvtq f) := ofFr _ _ f rfl (by decide) rfl fun _ => rfl
theorem cvtd (f : FR) : Statement (.cvtd f) := ofFr _ _ f rfl (by decide) rfl fun _ => rfl
theorem pack (f : FR) : Statement (.pack f) := ofFr _ _ f rfl (by decide) rfl fun _ => rfl
theorem unpk (f : FR) : Statement (.unpk f) := ofFr _ _ f rfl (by decide) rfl fun _ => rfl
theorem exp2 (f : FR) : Statement (.exp2 f) := ofFr _ _ f rfl (by decide) rfl fun _ => rfl
theorem log2 (f : FR) : Statement (.log2 f) := ofFr _ _ f rfl (by decide) rfl fun _ => rfl
theorem rcp (f : FR) : Statement (.rcp f) := ofFr _ _ f rfl (by decide) rfl fun _ => rfl
theorem rsqrt (f : FR) : Statement (.rsqrt f) := ofFr _ _ f rfl (by decide) rfl fun _ => rfl
theorem sqrt (f : FR) : Statement (.sqrt f) := ofFr _ _ f rfl (by decide) rfl fun _ => rfl
theorem sin (f : FR) : Statement (.sin f) := ofFr _ _ f rfl (by decide) rfl fun _ => rfl
theorem cos (f : FR) : Statement (.cos f) := ofFr _ _ f rfl (by decide) rfl fun _ => rfl
theorem tanh (f : FR) : Statement (.tanh f) := ofFr _ _ f rfl (by decide) rfl fun _ => rfl
theorem topk (f : FR) : Statement (.topk f) := ofFr _ _ f rfl (by decide) rfl fun _ => rfl
theorem shfl (f : FR) : Statement (.shfl f) := ofFr _ _ f rfl (by decide) rfl fun _ => rfl
theorem vote (f : FR) : Statement (.vote f) := ofFr _ _ f rfl (by decide) rfl fun _ => rfl
theorem ballot (f : FR) : Statement (.ballot f) := ofFr _ _ f rfl (by decide) rfl fun _ => rfl
theorem redux (f : FR) : Statement (.redux f) := ofFr _ _ f rfl (by decide) rfl fun _ => rfl
theorem scan (f : FR) : Statement (.scan f) := ofFr _ _ f rfl (by decide) rfl fun _ => rfl
theorem segscan (f : FR) : Statement (.segscan f) := ofFr _ _ f rfl (by decide) rfl fun _ => rfl
theorem segred (f : FR) : Statement (.segred f) := ofFr _ _ f rfl (by decide) rfl fun _ => rfl
theorem bcast (f : FR) : Statement (.bcast f) := ofFr _ _ f rfl (by decide) rfl fun _ => rfl
theorem perm (f : FR) : Statement (.perm f) := ofFr _ _ f rfl (by decide) rfl fun _ => rfl
theorem bra (f : FI) : Statement (.bra f) := ofFi _ _ f rfl (by decide) rfl rfl
theorem braReg (f : FR) : Statement (.braReg f) := ofFr _ _ f rfl (by decide) rfl fun _ => rfl
theorem brc (f : FI) : Statement (.brc f) := ofFi _ _ f rfl (by decide) rfl rfl
theorem brcReg (f : FR) : Statement (.brcReg f) := ofFr _ _ f rfl (by decide) rfl fun _ => rfl
theorem jmpi (f : FR) : Statement (.jmpi f) := ofFr _ _ f rfl (by decide) rfl fun _ => rfl
theorem call (f : FI) : Statement (.call f) := ofFi _ _ f rfl (by decide) rfl rfl
theorem callReg (f : FR) : Statement (.callReg f) := ofFr _ _ f rfl (by decide) rfl fun _ => rfl
theorem calli (f : FR) : Statement (.calli f) := ofFr _ _ f rfl (by decide) rfl fun _ => rfl
theorem ret (f : FR) : Statement (.ret f) := ofFr _ _ f rfl (by decide) rfl fun _ => rfl
theorem jset (f : FR) : Statement (.jset f) := ofFr _ _ f rfl (by decide) rfl fun _ => rfl
theorem join (f : FR) : Statement (.join f) := ofFr _ _ f rfl (by decide) rfl fun _ => rfl
theorem jarv (f : FR) : Statement (.jarv f) := ofFr _ _ f rfl (by decide) rfl fun _ => rfl
theorem yield (f : FR) : Statement (.yield f) := ofFr _ _ f rfl (by decide) rfl fun _ => rfl
theorem sleep (f : FR) : Statement (.sleep f) := ofFr _ _ f rfl (by decide) rfl fun _ => rfl
theorem sleepImm (f : FI) : Statement (.sleepImm f) := ofFi _ _ f rfl (by decide) rfl rfl
theorem nop (f : FR) : Statement (.nop f) := ofFr _ _ f rfl (by decide) rfl fun _ => rfl
theorem ld (f : FR) : Statement (.ld f) := ofFr _ _ f rfl (by decide) rfl fun _ => rfl
theorem ldImm (f : FI) : Statement (.ldImm f) := ofFi _ _ f rfl (by decide) rfl rfl
theorem st (f : FR) : Statement (.st f) := ofFr _ _ f rfl (by decide) rfl fun _ => rfl
theorem stImm (f : FI) : Statement (.stImm f) := ofFi _ _ f rfl (by decide) rfl rfl
theorem lds (f : FR) : Statement (.lds f) := ofFr _ _ f rfl (by decide) rfl fun _ => rfl
theorem ldsImm (f : FI) : Statement (.ldsImm f) := ofFi _ _ f rfl (by decide) rfl rfl
theorem sts (f : FR) : Statement (.sts f) := ofFr _ _ f rfl (by decide) rfl fun _ => rfl
theorem stsImm (f : FI) : Statement (.stsImm f) := ofFi _ _ f rfl (by decide) rfl rfl
theorem ldu (f : FR) : Statement (.ldu f) := ofFr _ _ f rfl (by decide) rfl fun _ => rfl
theorem lduImm (f : FI) : Statement (.lduImm f) := ofFi _ _ f rfl (by decide) rfl rfl
theorem pref (f : FR) : Statement (.pref f) := ofFr _ _ f rfl (by decide) rfl fun _ => rfl
theorem prefImm (f : FI) : Statement (.prefImm f) := ofFi _ _ f rfl (by decide) rfl rfl
theorem waitc (f : FR) : Statement (.waitc f) := ofFr _ _ f rfl (by decide) rfl fun _ => rfl
theorem waitm (f : FR) : Statement (.waitm f) := ofFr _ _ f rfl (by decide) rfl fun _ => rfl
theorem atom (f : FR) : Statement (.atom f) := ofFr _ _ f rfl (by decide) rfl fun _ => rfl
theorem atoms (f : FR) : Statement (.atoms f) := ofFr _ _ f rfl (by decide) rfl fun _ => rfl
theorem red (f : FR) : Statement (.red f) := ofFr _ _ f rfl (by decide) rfl fun _ => rfl
theorem fence (f : FR) : Statement (.fence f) := ofFr _ _ f rfl (by decide) rfl fun _ => rfl
theorem qbind (f : FR) : Statement (.qbind f) := ofFr _ _ f rfl (by decide) rfl fun _ => rfl
theorem qpush (f : FR) : Statement (.qpush f) := ofFr _ _ f rfl (by decide) rfl fun _ => rfl
theorem qpop (f : FR) : Statement (.qpop f) := ofFr _ _ f rfl (by decide) rfl fun _ => rfl
theorem qstat (f : FR) : Statement (.qstat f) := ofFr _ _ f rfl (by decide) rfl fun _ => rfl
theorem qinit (f : FR) : Statement (.qinit f) :=
  ofFr _ _ f rfl (by decide) rfl fun h => by simp_all [frInstr, Instr.rowFits]
theorem qinitMem (f : FR) : Statement (.qinitMem f) :=
  ofFr _ _ f rfl (by decide) rfl fun h => by simp_all [frInstr, Instr.rowFits]
theorem binit (f : FR) : Statement (.binit f) := ofFr _ _ f rfl (by decide) rfl fun _ => rfl
theorem barv (f : FR) : Statement (.barv f) := ofFr _ _ f rfl (by decide) rfl fun _ => rfl
theorem bwait (f : FR) : Statement (.bwait f) := ofFr _ _ f rfl (by decide) rfl fun _ => rfl
theorem mma (f : FR) : Statement (.mma f) := ofFr _ _ f rfl (by decide) rfl fun _ => rfl
theorem mzero (f : FR) : Statement (.mzero f) := ofFr _ _ f rfl (by decide) rfl fun _ => rfl
theorem mfence (f : FR) : Statement (.mfence f) := ofFr _ _ f rfl (by decide) rfl fun _ => rfl
theorem mwait (f : FR) : Statement (.mwait f) := ofFr _ _ f rfl (by decide) rfl fun _ => rfl
theorem mread (f : FR) : Statement (.mread f) := ofFr _ _ f rfl (by decide) rfl fun _ => rfl
theorem msts (f : FR) : Statement (.msts f) := ofFr _ _ f rfl (by decide) rfl fun _ => rfl
theorem wraccw (f : FR) : Statement (.wraccw f) := ofFr _ _ f rfl (by decide) rfl fun _ => rfl
theorem ldx (f : FR) : Statement (.ldx f) := ofFr _ _ f rfl (by decide) rfl fun _ => rfl
theorem stx (f : FR) : Statement (.stx f) := ofFr _ _ f rfl (by decide) rfl fun _ => rfl
theorem ldxs (f : FR) : Statement (.ldxs f) := ofFr _ _ f rfl (by decide) rfl fun _ => rfl
theorem stxs (f : FR) : Statement (.stxs f) := ofFr _ _ f rfl (by decide) rfl fun _ => rfl
theorem probe (f : FR) : Statement (.probe f) := ofFr _ _ f rfl (by decide) rfl fun _ => rfl
theorem unpin (f : FR) : Statement (.unpin f) := ofFr _ _ f rfl (by decide) rfl fun _ => rfl
theorem become (f : FR) : Statement (.become f) := ofFr _ _ f rfl (by decide) rfl fun _ => rfl
theorem tmov (f : FR) : Statement (.tmov f) := ofFr _ _ f rfl (by decide) rfl fun _ => rfl
theorem tzero (f : FR) : Statement (.tzero f) := ofFr _ _ f rfl (by decide) rfl fun _ => rfl
theorem trap (f : FI) : Statement (.trap f) := ofFi _ _ f rfl (by decide) rfl rfl
theorem trapReg (f : FR) : Statement (.trapReg f) := ofFr _ _ f rfl (by decide) rfl fun _ => rfl
theorem rett (f : FR) : Statement (.rett f) := ofFr _ _ f rfl (by decide) rfl fun _ => rfl
theorem bkpt (f : FR) : Statement (.bkpt f) := ofFr _ _ f rfl (by decide) rfl fun _ => rfl
theorem bkptImm (f : FI) : Statement (.bkptImm f) := ofFi _ _ f rfl (by decide) rfl rfl
theorem sigchk (f : FI) : Statement (.sigchk f) := ofFi _ _ f rfl (by decide) rfl rfl
theorem dx (f : FR) : Statement (.dx f) := ofFr _ _ f rfl (by decide) rfl fun _ => rfl
theorem hnop (x : HalfArgs) (y : HalfWord) : Statement (.hnop x y) := ofPair _ _ x y rfl rfl
theorem halfFadd (x : HalfArgs) (y : HalfWord) : Statement (.halfFadd x y) := ofPair _ _ x y rfl rfl
theorem halfFsub (x : HalfArgs) (y : HalfWord) : Statement (.halfFsub x y) := ofPair _ _ x y rfl rfl
theorem halfFmul (x : HalfArgs) (y : HalfWord) : Statement (.halfFmul x y) := ofPair _ _ x y rfl rfl
theorem halfFmin (x : HalfArgs) (y : HalfWord) : Statement (.halfFmin x y) := ofPair _ _ x y rfl rfl
theorem halfFmax (x : HalfArgs) (y : HalfWord) : Statement (.halfFmax x y) := ofPair _ _ x y rfl rfl
theorem halfFrsub (x : HalfArgs) (y : HalfWord) : Statement (.halfFrsub x y) := ofPair _ _ x y rfl rfl
theorem halfIadd (x : HalfArgs) (y : HalfWord) : Statement (.halfIadd x y) := ofPair _ _ x y rfl rfl
theorem halfIsub (x : HalfArgs) (y : HalfWord) : Statement (.halfIsub x y) := ofPair _ _ x y rfl rfl
theorem halfImul (x : HalfArgs) (y : HalfWord) : Statement (.halfImul x y) := ofPair _ _ x y rfl rfl
theorem halfImin (x : HalfArgs) (y : HalfWord) : Statement (.halfImin x y) := ofPair _ _ x y rfl rfl
theorem halfImax (x : HalfArgs) (y : HalfWord) : Statement (.halfImax x y) := ofPair _ _ x y rfl rfl
theorem halfIrsub (x : HalfArgs) (y : HalfWord) : Statement (.halfIrsub x y) := ofPair _ _ x y rfl rfl
theorem halfAnd (x : HalfArgs) (y : HalfWord) : Statement (.halfAnd x y) := ofPair _ _ x y rfl rfl
theorem halfOr (x : HalfArgs) (y : HalfWord) : Statement (.halfOr x y) := ofPair _ _ x y rfl rfl
theorem halfXor (x : HalfArgs) (y : HalfWord) : Statement (.halfXor x y) := ofPair _ _ x y rfl rfl
theorem halfAndn (x : HalfArgs) (y : HalfWord) : Statement (.halfAndn x y) := ofPair _ _ x y rfl rfl
theorem halfShl (x : HalfArgs) (y : HalfWord) : Statement (.halfShl x y) := ofPair _ _ x y rfl rfl
theorem halfShr (x : HalfArgs) (y : HalfWord) : Statement (.halfShr x y) := ofPair _ _ x y rfl rfl
theorem halfSra (x : HalfArgs) (y : HalfWord) : Statement (.halfSra x y) := ofPair _ _ x y rfl rfl
theorem halfMov (x : HalfArgs) (y : HalfWord) : Statement (.halfMov x y) := ofPair _ _ x y rfl rfl
theorem halfExp2 (x : HalfArgs) (y : HalfWord) : Statement (.halfExp2 x y) := ofPair _ _ x y rfl rfl
theorem halfLog2 (x : HalfArgs) (y : HalfWord) : Statement (.halfLog2 x y) := ofPair _ _ x y rfl rfl
theorem halfRcp (x : HalfArgs) (y : HalfWord) : Statement (.halfRcp x y) := ofPair _ _ x y rfl rfl
theorem halfRsqrt (x : HalfArgs) (y : HalfWord) : Statement (.halfRsqrt x y) := ofPair _ _ x y rfl rfl
theorem halfSqrt (x : HalfArgs) (y : HalfWord) : Statement (.halfSqrt x y) := ofPair _ _ x y rfl rfl
theorem halfSin (x : HalfArgs) (y : HalfWord) : Statement (.halfSin x y) := ofPair _ _ x y rfl rfl
theorem halfCos (x : HalfArgs) (y : HalfWord) : Statement (.halfCos x y) := ofPair _ _ x y rfl rfl
theorem halfTanh (x : HalfArgs) (y : HalfWord) : Statement (.halfTanh x y) := ofPair _ _ x y rfl rfl
theorem halfLds (x : HalfArgs) (y : HalfWord) : Statement (.halfLds x y) := ofPair _ _ x y rfl rfl
theorem powerOnReset : Statement .powerOnReset := ofEvent _ rfl
theorem runtimeMeasurementFailure : Statement .runtimeMeasurementFailure := ofEvent _ rfl
theorem stage : Statement .stage := ofEvent _ rfl
theorem commit : Statement .commit := ofEvent _ rfl
theorem reset : Statement .reset := ofEvent _ rfl
theorem attestationRequest : Statement .attestationRequest := ofEvent _ rfl
theorem domainTableWrite : Statement .domainTableWrite := ofEvent _ rfl
theorem hostAtomicop : Statement .hostAtomicop := ofEvent _ rfl
theorem hostBar2Read : Statement .hostBar2Read := ofEvent _ rfl
theorem hostBar2Write : Statement .hostBar2Write := ofEvent _ rfl
theorem launchctlPreempt : Statement .launchctlPreempt := ofEvent _ rfl
theorem launchctlCancel : Statement .launchctlCancel := ofEvent _ rfl
theorem completionCounterWrite : Statement .completionCounterWrite := ofEvent _ rfl
theorem classifierEntryWrite : Statement .classifierEntryWrite := ofEvent _ rfl
theorem transmitQueueRegisterWrite : Statement .transmitQueueRegisterWrite := ofEvent _ rfl
theorem registerWrite : Statement .registerWrite := ofEvent _ rfl
theorem debugHalt : Statement .debugHalt := ofEvent _ rfl
theorem debugResume : Statement .debugResume := ofEvent _ rfl
theorem debugStep : Statement .debugStep := ofEvent _ rfl
theorem debugStepComplete : Statement .debugStepComplete := ofEvent _ rfl
theorem faultResolveReplay : Statement .faultResolveReplay := ofEvent _ rfl
theorem faultResolveAbort : Statement .faultResolveAbort := ofEvent _ rfl
theorem faultReplayResend : Statement .faultReplayResend := ofEvent _ rfl
theorem saveFetch : Statement .saveFetch := ofEvent _ rfl
theorem linkRestore : Statement .linkRestore := ofEvent _ rfl
theorem translationInvalidate : Statement .translationInvalidate := ofEvent _ rfl
theorem translationInvalidateComplete : Statement .translationInvalidateComplete := ofEvent _ rfl
theorem launchAccept : Statement .launchAccept := ofEvent _ rfl
theorem launchWaitsSatisfied : Statement .launchWaitsSatisfied := ofEvent _ rfl
theorem indirectCountRead : Statement .indirectCountRead := ofEvent _ rfl
theorem launchStartTime : Statement .launchStartTime := ofEvent _ rfl
theorem workgroupPlace : Statement .workgroupPlace := ofEvent _ rfl
theorem workgroupRetire : Statement .workgroupRetire := ofEvent _ rfl
theorem launchComplete : Statement .launchComplete := ofEvent _ rfl
theorem completionCounterBump : Statement .completionCounterBump := ofEvent _ rfl
theorem class0PreemptTimeout : Statement .class0PreemptTimeout := ofEvent _ rfl
theorem preemptRequestAtCore : Statement .preemptRequestAtCore := ofEvent _ rfl
theorem graceExpiry : Statement .graceExpiry := ofEvent _ rfl
theorem workgroupKillRelease : Statement .workgroupKillRelease := ofEvent _ rfl
theorem holdReserveRollback : Statement .holdReserveRollback := ofEvent _ rfl
theorem quantumEnd : Statement .quantumEnd := ofEvent _ rfl
theorem syncOperationTurn : Statement .syncOperationTurn := ofEvent _ rfl
theorem redundantCompare : Statement .redundantCompare := ofEvent _ rfl
theorem urgencyPrediction : Statement .urgencyPrediction := ofEvent _ rfl
theorem joinStuckRelease : Statement .joinStuckRelease := ofEvent _ rfl
theorem splitTableSwap : Statement .splitTableSwap := ofEvent _ rfl
theorem sleepExpiry : Statement .sleepExpiry := ofEvent _ rfl
theorem yieldExpiry : Statement .yieldExpiry := ofEvent _ rfl
theorem waitmTimeout : Statement .waitmTimeout := ofEvent _ rfl
theorem leaseExpiry : Statement .leaseExpiry := ofEvent _ rfl
theorem homeFill : Statement .homeFill := ofEvent _ rfl
theorem homeWriteArrival : Statement .homeWriteArrival := ofEvent _ rfl
theorem homeWriteApply : Statement .homeWriteApply := ofEvent _ rfl
theorem writeAcknowledgement : Statement .writeAcknowledgement := ofEvent _ rfl
theorem loadReturn : Statement .loadReturn := ofEvent _ rfl
theorem acceptanceArrival : Statement .acceptanceArrival := ofEvent _ rfl
theorem translationWalk : Statement .translationWalk := ofEvent _ rfl
theorem engineLineFinish : Statement .engineLineFinish := ofEvent _ rfl
theorem copyFetch : Statement .copyFetch := ofEvent _ rfl
theorem copyClaimsComplete : Statement .copyClaimsComplete := ofEvent _ rfl
theorem copyChunkLand : Statement .copyChunkLand := ofEvent _ rfl
theorem copyCycleFault : Statement .copyCycleFault := ofEvent _ rfl
theorem gatherWindowClose : Statement .gatherWindowClose := ofEvent _ rfl
theorem pressOperationStart : Statement .pressOperationStart := ofEvent _ rfl
theorem pressOperationComplete : Statement .pressOperationComplete := ofEvent _ rfl
theorem queuePushGrant : Statement .queuePushGrant := ofEvent _ rfl
theorem queuePopGrant : Statement .queuePopGrant := ofEvent _ rfl
theorem queuePopCommit : Statement .queuePopCommit := ofEvent _ rfl
theorem queueTailAdvance : Statement .queueTailAdvance := ofEvent _ rfl
theorem barrierArrival : Statement .barrierArrival := ofEvent _ rfl
theorem regroup : Statement .regroup := ofEvent _ rfl
theorem errorResponse : Statement .errorResponse := ofEvent _ rfl
theorem arrayError : Statement .arrayError := ofEvent _ rfl
theorem linkIsolate : Statement .linkIsolate := ofEvent _ rfl
theorem frameArrival : Statement .frameArrival := ofEvent _ rfl
theorem frameTransmit : Statement .frameTransmit := ofEvent _ rfl
theorem ptpEventTimestamp : Statement .ptpEventTimestamp := ofEvent _ rfl
theorem ptpFirstLock : Statement .ptpFirstLock := ofEvent _ rfl
theorem seriesLatch : Statement .seriesLatch := ofEvent _ rfl
theorem longLatencyComplete : Statement .longLatencyComplete := ofEvent _ rfl
theorem remoteLineCopyDrop : Statement .remoteLineCopyDrop := ofEvent _ rfl
theorem powerGovernorAdjust : Statement .powerGovernorAdjust := ofEvent _ rfl
theorem translationEntryWrite : Statement .translationEntryWrite := ofEvent _ rfl
theorem launchQueueReinit : Statement .launchQueueReinit := ofEvent _ rfl
theorem hostBar0QueueWrite : Statement .hostBar0QueueWrite := ofEvent _ rfl
theorem ptpServoUpdate : Statement .ptpServoUpdate := ofEvent _ rfl
theorem ptpMasterLoss : Statement .ptpMasterLoss := ofEvent _ rfl
theorem droppedWriteLogClear : Statement .droppedWriteLogClear := ofEvent _ rfl

end ParsesBack

end Sys2Proof.Laws
end

