-- ==== Sys2Proof/Tests/Slice0.lean ====
section
/-! SUPPORT. Tests: the checks of well-formedness, words of each family written out from the encodings of spec/, a state
and operands that meet the hypotheses of each statement, and effects worked out by hand from the rules. -/

namespace Sys2Proof.Tests

open Sys2Proof Sys2Proof.Machine

set_option maxRecDepth 100000

/-! ### Well-formedness: for each check a term that it refuses (R61, R343) -/

theorem smoke_formExists : Instr.formExists (.ld { s := true, d := 5, a := 4, b := 4, md := 0x40 }) = false ∧ ¬ WellFormed (.ld { s := true, d := 5, a := 4, b := 4, md := 0x40 }) := by decide
theorem smoke_unusedZero : Instr.unusedZero (.iadd { d := 1, a := 2, b := 3, c := 1 }) = false ∧ ¬ WellFormed (.iadd { d := 1, a := 2, b := 3, c := 1 }) := by decide
theorem smoke_valuesAccepted : Instr.valuesAccepted (.iadd { d := 1, a := 2, b := 3, md := 0x200 }) = false ∧ ¬ WellFormed (.iadd { d := 1, a := 2, b := 3, md := 0x200 }) := by decide
theorem smoke_registersExist : Instr.registersExist (.iadd { d := 5, a := 2, b := 4, md := 0x180 }) = false ∧ ¬ WellFormed (.iadd { d := 5, a := 2, b := 4, md := 0x180 }) := by decide
theorem smoke_predicateNamed : Instr.predicateNamed (.iadd { d := 1, a := 2, b := 3, pn := true }) = false ∧ ¬ WellFormed (.iadd { d := 1, a := 2, b := 3, pn := true }) := by decide
theorem smoke_specialAccepted : Instr.specialAccepted (.wrsr { d := 1, a := 2 }) = false ∧ ¬ WellFormed (.wrsr { d := 1, a := 2 }) := by decide
theorem smoke_pairAllowed : Instr.pairAllowed (.halfExp2 { d := 1, a := 2 } { op := .log2, args := { d := 1, a := 2 } }) = false ∧ ¬ WellFormed (.halfExp2 { d := 1, a := 2 } { op := .log2, args := { d := 1, a := 2 } }) := by decide
theorem smoke_prefixAllowed : Instr.prefixAllowed (.dx {}) = false ∧ ¬ WellFormed (.dx {}) := by decide
theorem smoke_tangentExists : Instr.tangentExists (.tzero { sub := 5, d := 4 }) = false ∧ ¬ WellFormed (.tzero { sub := 5, d := 4 }) := by decide
theorem smoke_rowFits : Instr.rowFits (.qinit { a := 2, b := 4, c := 6, md := 0x10 }) = false ∧ ¬ WellFormed (.qinit { a := 2, b := 4, c := 6, md := 0x10 }) := by decide
theorem smoke_wellFormed : WellFormed (.iadd { d := 5, a := 3, b := 4, md := 0x040 }) ∧ WellFormed (.qinitMem { a := 2, b := 4, c := 6, md := 0x10 }) := by decide

/-! ### Decoding: words laid out bit by bit from R49, R53, R54 and the encoding rule of each instruction -/

theorem test_decode_ISUB : decodeWord 0x00100C0820000181 = .ok (.isub { d := 6, a := 2, b := 4, md := 0x181 }) := rfl
theorem test_decode_IMAD : decodeWord 0x0071070820500040 = .ok (.imad { s := true, d := 3, a := 0x42, b := 4, c := 5, md := 0x40 }) := rfl
theorem test_decode_ICMP_IMM : decodeWord 0x4114A61FFFFFFFF0 = .ok (.icmpImm { d := 0x53, a := 7, ea := true, pm := 2, pn := true, imm := 0xfffffff0 }) := rfl
theorem test_decode_BFE : decodeWord 0x04A002081840A401 = .ok (.bfe { d := 1, a := 2, b := 3, c := 4, ea := 5, md := 0x401 }) := rfl
theorem test_decode_WRSR : decodeWord 0x08402C0800000000 = .ok (.wrsr { d := 0x16, a := 2 }) := rfl
theorem test_decode_LANEWR : decodeWord 0x0890121430001A00 = .ok (.lanewr { d := 9, a := 5, b := 6, md := 0x1a00 }) := rfl
theorem test_decode_FFMA : decodeWord 0x0C30FFFBEFC00238 = .ok (.ffma { d := 0x7f, a := 0x7e, b := 0x7d, c := 0x7c, md := 0x238 }) := rfl
theorem test_decode_HCMP2 : decodeWord 0x10606A0410000240 = .ok (.hcmp2 { d := 0x35, a := 1, b := 2, md := 0x240 }) := rfl
theorem test_decode_CVT : decodeWord 0x1084081800000210 = .ok (.cvt { sub := 2, d := 4, a := 6, md := 0x210 }) := rfl
theorem test_decode_TOPK : decodeWord 0x1480102418200A01 = .ok (.topk { d := 8, a := 9, b := 3, c := 2, md := 0xa01 }) := rfl
theorem test_decode_SEGSCAN : decodeWord 0x1850102418201002 = .ok (.segscan { d := 8, a := 9, b := 3, c := 2, md := 0x1002 }) := rfl
theorem test_decode_BRC : decodeWord 0x5C10000C80000000 = .ok (.brc { a := 3, imm := 0x80000000 }) := rfl
theorem test_decode_JSET : decodeWord 0x1C600E0400000000 = .ok (.jset { d := 7, a := 1 }) := rfl
theorem test_decode_LD_IMM : decodeWord 0x600015006FFFFFF8 = .ok (.ldImm { d := 0xa, a := 0x40, imm := 0x6ffffff8 }) := rfl
theorem test_decode_ST : decodeWord 0x201014084000F09A = .ok (.st { d := 0xa, a := 2, b := 8, ea := 7, md := 0x109a }) := rfl
theorem test_decode_ATOM : decodeWord 0x240E041030800904 = .ok (.atom { sub := 7, d := 2, a := 4, b := 6, c := 8, md := 0x904 }) := rfl
theorem test_decode_FENCE : decodeWord 0x2430000000000C04 = .ok (.fence { md := 0xc04 }) := rfl
theorem test_decode_QPUSH : decodeWord 0x28110010280011A1 = .ok (.qpush { s := true, a := 4, b := 5, md := 0x11a1 }) := rfl
theorem test_decode_QINIT_MEM : decodeWord 0x2840000820600010 = .ok (.qinitMem { a := 2, b := 4, c := 6, md := 0x10 }) := rfl
theorem test_decode_BWAIT : decodeWord 0x2870000410300902 = .ok (.bwait { a := 1, b := 2, c := 3, md := 0x902 }) := rfl
theorem test_decode_MREAD : decodeWord 0x2C40200410000005 = .ok (.mread { d := 0x10, a := 1, b := 2, md := 5 }) := rfl
theorem test_decode_STX : decodeWord 0x3010080830000D80 = .ok (.stx { d := 4, a := 2, b := 6, md := 0xd80 }) := rfl
theorem test_decode_BECOME : decodeWord 0x3400000C00001000 = .ok (.become { a := 3, md := 0x1000 }) := rfl
theorem test_decode_TZERO : decodeWord 0x3424080000000083 = .ok (.tzero { sub := 2, d := 4, md := 0x83 }) := rfl
theorem test_decode_SIGCHK : decodeWord 0x7830000012345678 = .ok (.sigchk { imm := 0x12345678 }) := rfl
theorem test_decode_IADD_half : decodeWord 0xA008400800000000 = .ok (.halfIadd { d := 1, a := 2, mod5 := 8 } { op := .hnop, args := {} }) := rfl
theorem test_decode_EXP2_half : decodeWord 0xE1FFC00208502020 = .ok (.halfExp2 { d := 0x3F, a := 0x3E, mod5 := 2 } { op := .fsub, args := { d := 5, imm8 := 0x80, mod5 := 0x10 } }) := rfl

/-! Words that are not instructions, one for each case of R61. -/

theorem test_refuses_case1 : decodeWord 0x3FF0000000000000 = .error .unlistedOpcode := rfl
theorem test_refuses_case1_half : decodeWord 0xFE00000000000000 = .error .unlistedOpcode := rfl
theorem test_refuses_case2 : decodeWord 0x4030020000000000 = .error .noSuchForm := rfl
theorem test_refuses_case2_scalar : decodeWord 0x20010A1020000040 = .error .noSuchForm := rfl
theorem test_refuses_case3 : decodeWord 0x0000020818100000 = .error .unusedBitSet := rfl
theorem test_refuses_case4 : decodeWord 0x0000020818000200 = .error .valueNotAccepted := rfl
theorem test_refuses_case5 : decodeWord 0x00000A0820000180 = .error .badRegister := rfl
theorem test_refuses_case6 : decodeWord 0x0000020818010000 = .error .negatedNoPredicate := rfl
theorem test_refuses_case7 : decodeWord 0x0840020800000000 = .error .badSpecialRegister := rfl
theorem test_refuses_case8 : decodeWord 0xE0084000C4108000 = .error .badPairedWord := rfl
theorem test_refuses_case8_bit0 : decodeWord 0xA008400040108001 = .error .badPairedWord := rfl
theorem test_refuses_case9 : decodeWord 0x3C00000000000000 = .error .badPrefix := rfl

/-! ### States for the tests

`start` is the state of log 6, after boot, with one group of 64 threads about to issue at VA 0 of IA 0. `few` selects lanes 0 and 5 in
EXEC, puts a number into each lane of v2 to v9 and into s2 to s9, and gives the workgroup 16 KiB of scratchpad, 640
accumulator rows and 8 KiB of cellar. -/

def start : State := { State.reset.withFetchWord 64 0 with agenda := [], cursor := { wg := 2 }, dev := { (State.reset.withFetchWord 64 0).dev with ready := 5 } }

def inWg (f : Workgroup → Workgroup) (s : State) : State := { s with wgs := s.wgs.map f }
def inGroup (f : Group → Group) : State → State := inWg fun w => { w with groups := w.groups.map f }
def inFrag (f : Frag → Frag) : State → State := inGroup fun g => { g with frags := g.frags.map fun p => (p.1, f p.2) }
def inLaunch (f : Launch → Launch) (s : State) : State := { s with launches := s.launches.map f }
/-- A word of the launch record at a byte offset. -/
def withWord (off : Nat) (x : DWord) : State → State := inLaunch fun l => { l with record := l.record.set (off / 8) x }
/-- The group's fragment is the handler's. -/
def inHandler : State → State := inGroup fun g => { g with trap := g.frags.head?.map (·.2.fid), tpc := 0x47 }

def few : State := start |> withWord 0x190 0x0800_4000_0A01_4080 |> withWord 0x1C8 0x0000_0400_0000_0200 |>
  inGroup (fun g => { g with
    accl := 640
    vregs := (List.range 8).map fun n => (n + 2, Lanes.gen fun i => BitVec.ofNat 32 (10 * (n + 2) + i))
    sregs := (List.range 8).map fun n => (n + 2, BitVec.ofNat 32 (n + 2))
    masks := (g.masks.set 1 0xFF).set 2 0x20 }) |>
  inFrag (fun f => { f with exec := 0x21, shadow := 0x21, link := 0x123 })

/-- What a context at the cursor that is ready for the word `i` meets. -/
def readyWith (s : State) (i : Instr) (p : Ctx → Bool) : Bool := match s.ready i.form with | some c => p c | none => false
/-- What the state after a step meets. -/
def after (o : Host.Outcome State Fault Refusal) (p : State → Bool) : Bool := match o with | .next t => p t | _ => false
/-- The group of run 2 after an instruction. -/
def ran (s : State) (i : Instr) (p : Group → Bool) : Bool := after (exec i s) fun t => match t.group? 2 0 with | some g => p g | none => false

/-! ### Words that are ready: a state and operands for every statement that supposes `State.ready` -/

/-- Scalars for queue words: a block at 0x100, elements at 0x200, eight slots of eight bytes. -/
def qs : State := few |> inGroup fun g => { g with sregs := [(2, 0x4000), (4, 0x100), (5, 0x200), (6, 0x303), (8, 0x6000)] }
/-- Local queue 0 with a fresh block and then three elements in it. -/
def ql : State := match exec (.qinit { a := 4, b := 5, c := 6 }) qs with | .next t => t | _ => qs
def qlFull : State := ql |> inWg fun w =>
  let b : QBlock := { QBlock.ofBytes (w.spad.read 0x100 128) with tail := 3, resv := 3, free := 5 }
  { w with spad := w.spad.write 0x100 b.bytes }
/-- A memory queue at IA 0x4000 that L2 holds, bound as object 16. -/
def qm : State :=
  let s := qs |> withWord 0x18 0x27 |> inWg fun w => { w with binds := w.binds.set 0 (some 0x4000) }
  { s with mem := s.mem.write 0x4000 (QBlock.fresh (cfgOf 3 3 false false 0) 0x6000).bytes, l2 := [{ line := 0x80, pa := 0x4000 }] }
/-- The same with three elements in the queue. -/
def qmFull : State :=
  let b : QBlock := { QBlock.fresh (cfgOf 3 3 false false 0) 0x6000 with tail := 3, resv := 3, free := 5 }
  { qm with mem := qm.mem.write 0x4000 b.bytes }

/-- The template of a copy of 16 words from VA 0x800 to scratchpad offset 0x40 (kind 0) or VA 0x900 (kind 1). -/
def template (kind : Nat) : List DWord := [0x800, if kind = 0 then 0x40 else 0x900, BitVec.ofNat 64 (1 + 8 * 2 + 32 * kind), 0x0001_0001_0001_0010, 1] ++ List.replicate 11 0
/-- Channel 1 of core 0 has one trigger for that template, which lies at VA 0xA00. -/
def copyAt (kind : Nat) (f : Channel → Channel) : State :=
  let s := few |> withWord 0x18 0x27 |> withWord 0x158 0xA00 |> withWord 0x160 0x0000_0003_0000_0000
  let x : Channel := { trigs := [{ wg := 2, grp := 0, acc := 77, pc := 0, word := 0 }], done := 4, order := 2 }
  { s with
    arg := { core := 0, ch := 1, line := 18 }
    mem := (s.mem.write 0xA00 ((template kind).flatMap fun w => leBytes 8 w.toNat)).write 0x800 ((List.range 64).map fun i => BitVec.ofNat 8 (i + 1))
    cores := [(0, { chans := (Vector.replicate 16 {}).set 1 (f x) })] }

/-- After boot, with translations for every IA below 512 MiB, launch queue 16 of domain 0 holds one record. -/
def queued (record : List DWord) : State :=
  let s := { State.reset with
    xlat := { lev1 := (List.range 256).map fun i => (i, BitVec.ofNat 64 (3 + i * 2 ^ 21)) }
    dev := { ready := 5, lqia := 0x10000, lqdom := [(16, 0)], winbase := 0x20000
             domains := [(0, { clusters := [0, 1], slices := [0], groups := [0], hold := 0, latency := false })] } }
  let b : QBlock := { QBlock.fresh (cfgOf 6 9 false false 0) (s.lqRing 16) with tail := 1, resv := 1, free := 63 }
  let s := s.writeIA (s.lqBlock 16) b.bytes false
  s.writeIA (s.lqRing 16) (record.flatMap fun w => leBytes 8 w.toNat) false

/-! ### More states -/

def arg (a : Arg) (s : State) : State := { s with arg := a }
/-- `State.Clean` as a computation. -/
def cleanB (s : State) : Bool := s.bad == [] && s.l2.all fun y => y.lost.isEmpty
/-- DTIME and the cycle count. -/
def atTime (n : Nat) (s : State) : State := { s with dtime := n, cyc := n }
/-- No lane selected. -/
def none_ (s : State) : State := s |> inFrag fun f => { f with exec := 0, shadow := 0 }
def draining (s : State) : State := s |> inWg fun w => { w with life := .draining }
def sleeping (x : FragSt) (s : State) : State := s |> inFrag fun f => { f with st := x }
/-- The prefix DX of one component stands before the word. -/
def prefixed (s : State) : State := { s with cursor := { s.cursor with dx := some (1, 0), pc := 8 } }
/-- Scalars by number. -/
def scalars (l : List (Nat × Word)) : State → State := inGroup fun g => { g with sregs := l }
/-- The fragment's lanes are all those of F. -/
def whole : State := few |> inFrag fun f => { f with f := 0x21 }
/-- Further fragments of one lane each. -/
def more (n : Nat) (s : State) : State := s |> inGroup fun g => { g with
  frags := (g.frags.map fun p => (p.1, { p.2 with f := 0xFFFF, exec := 0x21 })) ++ (List.range n).map fun k =>
    (k + 1, { fid := 100 + k, pc := 8, f := Mask.bit (20 + k), exec := 0, shadow := 0 }) }
/-- Offsets of 16 bytes for each lane in v12, 5 elements in v13, the base 0x100 in s2 and s3, and 0x40 in s4. -/
def mm : State := few |> withWord 0x18 0x27 |> inGroup fun g => { g with
  vregs := (12, Lanes.gen fun i => BitVec.ofNat 32 (16 * i)) :: (13, Lanes.gen fun i => BitVec.ofNat 32 (5 * i)) :: g.vregs
  sregs := [(2, 0x100), (3, 0), (4, 0x40), (8, 5), (9, 6), (10, 7), (11, 8)] }
/-- A mode that holds stores (1 contained, 2 deterministic, 4 redundant), with room in the reserve. -/
def holding (mode : DWord) (s : State) : State :=
  { (s |> withWord 0x198 (0x4000 ||| mode) |> withWord 0x1A0 0x0000_0004_0000_0000) with
    dev := { s.dev with domains := s.dev.domains.map fun p => (p.1, { p.2 with hold := 16 }) } }
def acc0 : Access := { id := 1, kind := .load, pc := 0, fid := 3, parts := [{ lane := 0, size := 4, ia := 0x100 }] }
def withAccs (l : List Access) : State → State := inGroup fun g => { g with accs := l }
def lineOf (e line : Nat) (u : Bool) : CacheLine := { line, sectors := [], e, ut := u }
def all64 (s : State) : State := s |> inFrag fun f => { f with exec := BitVec.allOnes 64 }
/-- Format slots 0 and 1. -/
def slots (fa fb blk : Nat) (s : State) : State :=
  s |> withWord 0x100 (BitVec.ofNat 64 (fa + 16 * blk)) |> withWord 0x108 (BitVec.ofNat 64 (fb + 16 * blk))
def pressed (l : List PressOp) (run : Bool) (e : Nat) (s : State) : State := { s with cores := [(0, { press := l, running := run, endCyc := e })] }
def clearing (i b row : Nat) : PressOp := { id := i, wg := 2, grp := 0, pc := 0, mma := false, row := row, count := 4, batch := b }
def joined (exp arr : Mask) (s : State) : State := s |> inGroup fun g => { g with joins := g.joins.set 3 { exp := exp, arr := arr, ord := 2 } }
/-- Two fragments asleep at join 3 beside the running one. -/
def twoAsleep (s : State) : State := s |> inGroup fun g => { g with
  frags := (g.frags.map fun p => (p.1, { p.2 with f := 0xFF, exec := 0x21 })) ++
    [(1, { fid := 100, pc := 0x20, f := 0xF00, exec := 0x300, shadow := 0, st := .join 3 7 }),
     (2, { fid := 101, pc := 0x20, f := 0xF000, exec := 0x3000, shadow := 0, st := .join 3 5 })] }
def emptied : State := few |> inGroup fun g => { g with emptyV := [3, 4], emptyS := [5] }
/-- A second group, without a fragment. -/
def twoGroups (s : State) : State :=
  { s with wgs := s.wgs.map fun w => { w with groups := w.groups ++ w.groups.map fun g => { g with grp := 1, frags := [] } } } |>
    withWord 0x168 0x1_0000_0080 |> inLaunch fun l => { l with ext := [128, 1, 1, 1, 1, 1] }
/-- What a context at the cursor meets, before anything about the word. -/
def hasCtx (s : State) (fm : Form) (p : Ctx → Bool) : Bool := match s.ctx? fm with | some c => p c | none => false
def hasGroup (s : State) (p : Workgroup → Group → Launch → Bool) : Bool :=
  match s.wg? 2, s.group? 2 0, s.launch? 1 with | some w, some g, some l => p w g l | _, _, _ => false
/-- What the lane request that an event names meets. -/
def hasLane (s : State) (p : LaneReq → Bool) : Bool := match s.lane? s.arg.src with | some r => p r | none => false
def stepOf (o : Host.Outcome State Fault Refusal) : State := match o with | .next t => t | _ => State.reset
/-- A load and a store of mm on their way. -/
def loading : State := stepOf (exec (.ld { d := 14, a := 2, b := 12 }) mm)
def storing : State := stepOf (exec (.st { d := 3, a := 2, b := 12 }) mm)
def lastAcc (s : State) : Nat := ((s.group? 2 0).bind fun g => g.accs.getLast?.map (·.id)).getD 0
def lane0 (s : State) : Src := .lane 2 0 (lastAcc s) 0
def partsOf (f : Part → Part) : State → State := inGroup fun g => { g with accs := g.accs.map fun a => { a with parts := a.parts.map f } }
def onePart (s : State) : State := s |> inGroup fun g => { g with accs := g.accs.map fun a => { a with parts := a.parts.take 1 } }
/-! ### Words that are ready: a word of each instruction for the statements that suppose `State.ready` alone -/

theorem ready_TrapAndReturn : ∀ i ∈ ([
    .trap { imm := 7 }, .trapReg { a := 4 }] : List Instr), (few.ready i.form).isSome = true := by decide
theorem ready_IntegerWords_1 : ∀ i ∈ ([
    .iadd { d := 0xa, a := 3, b := 4 }, .isub { d := 0xa, a := 3, b := 4 },
    .imul { d := 0xa, a := 3, b := 4 }, .imulh { d := 0xa, a := 3, b := 4 },
    .imin { d := 0xa, a := 3, b := 4 }, .imax { d := 0xa, a := 3, b := 4 },
    .ishadd { d := 0xa, a := 3, b := 4 }, .iaddc { d := 0xa, a := 3, b := 4, c := 1, md := 3 },
    .isubb { d := 0xa, a := 3, b := 4, c := 1, md := 3 }, .imulw { d := 0xa, a := 3, b := 4 },
    .imad { d := 0xa, a := 3, b := 4, c := 5 }, .iclamp { d := 0xa, a := 3, b := 4, c := 5 },
    .isad { d := 0xa, a := 3, b := 4, c := 5 }, .idot4 { d := 0xa, a := 3, b := 4, c := 5 }] : List Instr), (few.ready i.form).isSome = true := by decide
theorem ready_IntegerWords_2 : ∀ i ∈ ([
    .iadd3 { d := 0xa, a := 3, b := 4, c := 5 }, .iabs { d := 0xa, a := 3 }, .ineg { d := 0xa, a := 3 },
    .iaddImm { d := 0xa, a := 3, imm := 7 }, .isubImm { d := 0xa, a := 3, imm := 7 },
    .imulImm { d := 0xa, a := 3, imm := 7 }, .iminImm { d := 0xa, a := 3, imm := 7 },
    .imaxImm { d := 0xa, a := 3, imm := 7 }] : List Instr), (few.ready i.form).isSome = true := by decide
theorem ready_Compares : ∀ i ∈ ([
    .icmp { d := 0x13, a := 3, b := 4 }, .icmpImm { d := 0x13, a := 3, imm := 7 },
    .fcmp { d := 0x13, a := 3, b := 4, md := 0x200 }, .fcmpImm { d := 0x13, a := 3, imm := 0 },
    .hcmp2 { d := 0x13, a := 3, b := 4, md := 0x240 }] : List Instr), (few.ready i.form).isSome = true := by decide
theorem ready_LogicWords_1 : ∀ i ∈ ([
    .and { d := 0xa, a := 3, b := 4 }, .or { d := 0xa, a := 3, b := 4 }, .xor { d := 0xa, a := 3, b := 4 },
    .andn { d := 0xa, a := 3, b := 4 }, .shl { d := 0xa, a := 3, b := 4 }, .shr { d := 0xa, a := 3, b := 4 },
    .sra { d := 0xa, a := 3, b := 4 }, .rot { d := 0xa, a := 3, b := 4 },
    .bfi { d := 0xa, a := 3, b := 4, c := 5 }, .bfe { d := 0xa, a := 3, b := 4, c := 5, md := 1 },
    .not { d := 0xa, a := 3 }, .popc { d := 0xa, a := 3 }, .clz { d := 0xa, a := 3 },
    .brev { d := 0xa, a := 3 }] : List Instr), (few.ready i.form).isSome = true := by decide
theorem ready_LogicWords_2 : ∀ i ∈ ([
    .bfind { d := 0xa, a := 3 }, .andImm { d := 0xa, a := 3, imm := 7 },
    .orImm { d := 0xa, a := 3, imm := 7 }, .xorImm { d := 0xa, a := 3, imm := 7 },
    .andnImm { d := 0xa, a := 3, imm := 7 }, .shlImm { d := 0xa, a := 3, imm := 7 },
    .shrImm { d := 0xa, a := 3, imm := 7 }, .sraImm { d := 0xa, a := 3, imm := 7 },
    .rotImm { d := 0xa, a := 3, imm := 7 }, .tern { d := 0xa, a := 3, b := 4, c := 5, md := 0x96 },
    .log2 { d := 0xa, a := 3, md := 0x200 }] : List Instr), (few.ready i.form).isSome = true := by decide
theorem ready_MoveWords : ∀ i ∈ ([
    .mov { d := 0xa, a := 3 }, .movi { d := 0xa, imm := 7 }, .sel { d := 0xa, a := 3, b := 4, c := 1 },
    .rdsr { d := 0xa, a := 1 }, .mlog { d := 3, a := 1, b := 2, md := 6 }, .mrd { d := 0xa, a := 1 },
    .mwr { d := 3, a := 4 }, .lanerd { d := 0xa, a := 3, b := 4 },
    .lanewr { d := 0xa, a := 3, b := 4, md := 0x1000 }, .vote { d := 3, a := 1, md := 1 }] : List Instr), (few.ready i.form).isSome = true := by decide
theorem ready_SpecialRegisters : ∀ i ∈ ([
    .wrsr { d := 0x14, a := 4, s := true }] : List Instr), (few.ready i.form).isSome = true := by decide
theorem ready_Tangents : ∀ i ∈ ([
    .tmov { sub := 1, d := 0xa, a := 3 }, .tzero { sub := 1, d := 0xa }] : List Instr), (few.ready i.form).isSome = true := by decide
theorem ready_FloatWords_1 : ∀ i ∈ ([
    .fadd { d := 0xa, a := 3, b := 4, md := 0x200 }, .fsub { d := 0xa, a := 3, b := 4, md := 0x200 },
    .fmul { d := 0xa, a := 3, b := 4, md := 0x200 }, .fmin { d := 0xa, a := 3, b := 4, md := 0x200 },
    .fmax { d := 0xa, a := 3, b := 4, md := 0x200 }, .fdiv { d := 0xa, a := 3, b := 4, md := 0x200 },
    .fsgn { d := 0xa, a := 3, b := 4, md := 0x200 }, .faddImm { d := 0xa, a := 3, imm := 0x3f800000 },
    .fsubImm { d := 0xa, a := 3, imm := 0x3f800000 }, .fmulImm { d := 0xa, a := 3, imm := 0x3f800000 },
    .fminImm { d := 0xa, a := 3, imm := 0x3f800000 }, .fmaxImm { d := 0xa, a := 3, imm := 0x3f800000 },
    .ffma { d := 0xa, a := 3, b := 4, c := 5, md := 0x200 }, .fabs { d := 0xa, a := 3, md := 0x200 }] : List Instr), (few.ready i.form).isSome = true := by decide
theorem ready_FloatWords_2 : ∀ i ∈ ([
    .fneg { d := 0xa, a := 3, md := 0x200 }, .frnd { d := 0xa, a := 3, md := 0x200 },
    .fclass { d := 0xa, a := 3, md := 0x200 }, .fsat { d := 0xa, a := 3, md := 0x200 },
    .hadd2 { d := 0xa, a := 3, b := 4, md := 0x240 }, .hsub2 { d := 0xa, a := 3, b := 4, md := 0x240 },
    .hmul2 { d := 0xa, a := 3, b := 4, md := 0x240 }, .hmin2 { d := 0xa, a := 3, b := 4, md := 0x240 },
    .hmax2 { d := 0xa, a := 3, b := 4, md := 0x240 },
    .hfma2 { d := 0xa, a := 3, b := 4, c := 5, md := 0x280 },
    .hdot2 { d := 0xa, a := 3, b := 4, c := 5, md := 0x280 }] : List Instr), (few.ready i.form).isSome = true := by decide
theorem ready_Conversions : ∀ i ∈ ([
    .cvtq { d := 0xa, a := 3, md := 0x200 },
    .cvtd { d := 0xa, a := 3, md := 0x200 }, .cvt { d := 0xa, a := 3, md := 0x200 },
    .pack { d := 0xa, a := 3, b := 4, md := 0x100 }, .unpk { d := 0xa, a := 3, b := 4, md := 0x100 }] : List Instr), (few.ready i.form).isSome = true := by decide
theorem ready_Transcendentals : ∀ i ∈ ([
    .exp2 { d := 0xa, a := 3, md := 0x200 },
    .log2 { d := 0xa, a := 3, md := 0x200 }, .rcp { d := 0xa, a := 3, md := 0x200 },
    .rsqrt { d := 0xa, a := 3, md := 0x200 }, .sqrt { d := 0xa, a := 3, md := 0x200 },
    .sin { d := 0xa, a := 3, md := 0x200 }, .cos { d := 0xa, a := 3, md := 0x200 },
    .tanh { d := 0xa, a := 3, md := 0x200 }] : List Instr), (few.ready i.form).isSome = true := by decide
theorem ready_LaneExchanges : ∀ i ∈ ([
    .topk { d := 0xa, a := 3, b := 4, c := 3, md := 0xa00 },
    .shfl { d := 0xa, a := 3, b := 4, md := 1 }, .ballot { d := 0xa, a := 3 },
    .bcast { d := 0xa, a := 3, b := 4 }, .perm { d := 0xa, a := 3, b := 4, c := 5 }] : List Instr), (few.ready i.form).isSome = true := by decide
theorem ready_ReductionsAndScans : ∀ i ∈ ([
    .redux { d := 0xa, a := 3, md := 0x200 },
    .scan { d := 0xa, a := 3, md := 0x200 }, .segscan { d := 0xa, a := 3, b := 4, c := 1 },
    .segred { d := 0xa, a := 3, b := 4, c := 1 }] : List Instr), (few.ready i.form).isSome = true := by decide
theorem ready_PairedShort_1 : ∀ i ∈ ([
    .hnop {} { op := .fmul, args := { d := 4, a := 4 } },
    .halfFadd { d := 3, a := 3 } { op := .fmul, args := { d := 4, a := 4 } },
    .halfFsub { d := 3, a := 3 } { op := .fmul, args := { d := 4, a := 4 } },
    .halfFmul { d := 3, a := 3 } { op := .fmul, args := { d := 4, a := 4 } },
    .halfFmin { d := 3, a := 3 } { op := .fmul, args := { d := 4, a := 4 } },
    .halfFmax { d := 3, a := 3 } { op := .fmul, args := { d := 4, a := 4 } },
    .halfFrsub { d := 3, a := 3 } { op := .fmul, args := { d := 4, a := 4 } },
    .halfIadd { d := 3, a := 3 } { op := .fmul, args := { d := 4, a := 4 } },
    .halfIsub { d := 3, a := 3 } { op := .fmul, args := { d := 4, a := 4 } },
    .halfImul { d := 3, a := 3 } { op := .fmul, args := { d := 4, a := 4 } },
    .halfImin { d := 3, a := 3 } { op := .fmul, args := { d := 4, a := 4 } },
    .halfImax { d := 3, a := 3 } { op := .fmul, args := { d := 4, a := 4 } },
    .halfIrsub { d := 3, a := 3 } { op := .fmul, args := { d := 4, a := 4 } },
    .halfAnd { d := 3, a := 3 } { op := .fmul, args := { d := 4, a := 4 } }] : List Instr), (few.ready i.form).isSome = true := by decide
theorem ready_PairedShort_2 : ∀ i ∈ ([
    .halfOr { d := 3, a := 3 } { op := .fmul, args := { d := 4, a := 4 } },
    .halfXor { d := 3, a := 3 } { op := .fmul, args := { d := 4, a := 4 } },
    .halfAndn { d := 3, a := 3 } { op := .fmul, args := { d := 4, a := 4 } },
    .halfShl { d := 3, a := 3 } { op := .fmul, args := { d := 4, a := 4 } },
    .halfShr { d := 3, a := 3 } { op := .fmul, args := { d := 4, a := 4 } },
    .halfSra { d := 3, a := 3 } { op := .fmul, args := { d := 4, a := 4 } },
    .halfMov { d := 3, a := 3 } { op := .fmul, args := { d := 4, a := 4 } }] : List Instr), (few.ready i.form).isSome = true := by decide
theorem ready_PairedLong : ∀ i ∈ ([
    .halfExp2 { d := 3, a := 3 } { op := .fmul, args := { d := 4, a := 4 } },
    .halfLog2 { d := 3, a := 3 } { op := .fmul, args := { d := 4, a := 4 } },
    .halfRcp { d := 3, a := 3 } { op := .fmul, args := { d := 4, a := 4 } },
    .halfRsqrt { d := 3, a := 3 } { op := .fmul, args := { d := 4, a := 4 } },
    .halfSqrt { d := 3, a := 3 } { op := .fmul, args := { d := 4, a := 4 } },
    .halfSin { d := 3, a := 3 } { op := .fmul, args := { d := 4, a := 4 } },
    .halfCos { d := 3, a := 3 } { op := .fmul, args := { d := 4, a := 4 } },
    .halfTanh { d := 3, a := 3 } { op := .fmul, args := { d := 4, a := 4 } },
    .halfLds { d := 3, a := 3 } { op := .fmul, args := { d := 4, a := 4 } }] : List Instr), (few.ready i.form).isSome = true := by decide
theorem ready_ControlTransfer : ∀ i ∈ ([
    .bra { imm := 0x10 }, .braReg { a := 4 }, .brc { a := 2, imm := 0x10 }, .brcReg { a := 4, b := 2 },
    .jmpi { a := 4 }, .call { imm := 0x10 }, .callReg { a := 4 }, .calli { a := 4 }, .ret {}] : List Instr), (few.ready i.form).isSome = true := by decide
theorem ready_Joins : ∀ i ∈ ([
    .jset { d := 3, a := 1 }, .join { d := 3 }, .jarv { d := 3 }] : List Instr), (few.ready i.form).isSome = true := by decide
theorem ready_WaitingWords : ∀ i ∈ ([
    .yield {}, .nop {}, .sleep { a := 4 },
    .sleepImm { imm := 0x64 }, .waitc { a := 0x40 }] : List Instr), (few.ready i.form).isSome = true := by decide
theorem ready_Loads : ∀ i ∈ ([
    .ld { d := 0xa, a := 0x40, b := 0x40, md := 2 },
    .lds { d := 0xa, a := 0x40, b := 0x40, md := 2 }, .ldu { d := 0xa, a := 0x40, b := 0x40, md := 2 },
    .ldImm { d := 0xa, a := 0x40, imm := 0x40 }, .ldsImm { d := 0xa, a := 0x40, imm := 0x40 },
    .lduImm { d := 0xa, a := 0x40, imm := 0x40 }] : List Instr), (few.ready i.form).isSome = true := by decide
theorem ready_Stores : ∀ i ∈ ([
    .st { d := 3, a := 0x40, b := 0x40, md := 2 },
    .sts { d := 3, a := 0x40, b := 0x40, md := 2 }, .stImm { d := 3, a := 0x40, imm := 0x40 },
    .stsImm { d := 3, a := 0x40, imm := 0x40 }] : List Instr), (few.ready i.form).isSome = true := by decide
theorem ready_MemoryWaits : ∀ i ∈ ([
    .pref { a := 0x40, b := 0x40, md := 2 }, .prefImm { a := 0x40, imm := 0x40 },
    .waitm { d := 0xa, a := 0x40, b := 0x40 }, .fence { md := 0 }] : List Instr), (few.ready i.form).isSome = true := by decide
theorem ready_Atomics : ∀ i ∈ ([
    .atom { d := 0xa, a := 0x40, b := 0x40, c := 3, md := 1 },
    .red { a := 0x40, b := 0x40, c := 3, md := 1 }, .atoms { d := 0xa, a := 0x40, b := 0x40, c := 3, md := 1 }] : List Instr), (few.ready i.form).isSome = true := by decide
theorem ready_QueueWords : ∀ i ∈ ([
    .qbind { a := 0x40, md := 0x1000 }, .qinit { a := 0x40, b := 6, c := 4, md := 0 },
    .qinitMem { a := 0x40, b := 4, c := 6, md := 0x10 }, .qpush { a := 4, b := 0xa },
    .qpop { d := 0xc, b := 0xa }, .qstat { d := 0xc }] : List Instr), (few.ready i.form).isSome = true := by decide
theorem ready_Barriers : ∀ i ∈ ([
    .binit { a := 4, b := 0x40 }, .barv { a := 4 }, .bwait { a := 0x40, b := 0xa }] : List Instr), (few.ready i.form).isSome = true := by decide
theorem ready_MatrixWords : ∀ i ∈ ([
    .mma { a := 0x40, b := 0x40, c := 0x40 },
    .mzero { a := 0x40, b := 4 }, .mfence { d := 0xa }, .mwait { a := 0x40 },
    .mread { d := 0xa, a := 0x40, b := 0x40 }, .msts { a := 0x40, b := 0x40 },
    .wraccw { a := 4, b := 0x40, c := 4 }] : List Instr), (few.ready i.form).isSome = true := by decide
theorem ready_GatherWords : ∀ i ∈ ([
    .ldx { d := 0xa, a := 0x40, b := 0xb },
    .ldxs { d := 0xa, a := 0x40, b := 0xb }, .stx { d := 3, a := 0x40, b := 0xb },
    .stxs { d := 3, a := 0x40, b := 0xb }, .probe { d := 3, a := 0x40, b := 0xb }, .unpin {}] : List Instr), (few.ready i.form).isSome = true := by decide
theorem ready_SystemWords : ∀ i ∈ ([
    .become { a := 3 }, .bkpt {}, .bkptImm { imm := 7 }, .sigchk { imm := 0xffffffff }] : List Instr), (few.ready i.form).isSome = true := by decide

/-! ### Decoding, the step, traps -/

theorem witness_DecodeEncode : Instr.isWord (.iadd { d := 5, a := 3, b := 4, md := 0x040 }) = true ∧ WellFormed (.iadd { d := 5, a := 3, b := 4, md := 0x040 }) := by decide
theorem witness_OnlyEncodings_decodes : decodeWord 0x00100C0820000181 = .ok (.isub { d := 6, a := 2, b := 4, md := 0x181 }) := rfl
theorem witness_OnlyEncodings_unlisted : (0x3FF0000000000000 : DWord).getLsbD 63 = false ∧ (forms ((0x3FF0000000000000 : DWord).extractLsb' 52 10).toNat).isNone = true := by decide
theorem witness_OnlyEncodings_form : (0x4800000000000000 : DWord).getLsbD 63 = false ∧
    (match forms ((0x4800000000000000 : DWord).extractLsb' 52 10).toNat with | some g => !g.i | none => false) = true := by decide
theorem witness_OnlyEncodings_scalar : (0x2001000000000000 : DWord).getLsbD 63 = false ∧ (0x2001000000000000 : DWord).getLsbD 48 = true ∧
    (match forms ((0x2001000000000000 : DWord).extractLsb' 52 10).toNat with | some g => !g.s | none => false) = true := by decide

def movStep : State := { (State.reset.withFetchWord 64 0x481002003F800000) with agenda := [.issue 2 0 0] }
theorem witness_StepRunsDecoded : movStep.agenda = [.issue 2 0 0] ∧ movStep.dbg.frozen = false ∧
    hasGroup movStep (fun x g _ => x.issues && !x.heldOver.contains 0 && (match g.frag? 0 with
      | some f => g.mayGo (movStep.detOf x) (0, f) && !movStep.withheldAt x.core && !movStep.traceWaits 2 0 && !movStep.atBreakpoint f.pc &&
        (match ({ movStep with agenda := [], cursor := { wg := 2, grp := 0, ent := 0, pc := f.pc, dx := none } } : State).fetch with
          | .word w _ => w == 0x481002003F800000 | _ => false)
      | none => false)) = true := by decide
theorem witness_StepRunsDecoded_word : decodeWord 0x481002003F800000 = .ok (.movi { d := 1, imm := 0x3F800000 }) := rfl
theorem witness_StepRunsDecoded_alone : ((few.ctx? (Instr.movi { d := 1, imm := 0x3F800000 }).form).isSome && after (exec (.movi { d := 1, imm := 0x3F800000 }) few) fun _ => true) = true := by decide

def buffered : State := { start with cores := [(0, { fetchBuf := [{ line := 0, sectors := [(0, (List.replicate 16 7))], e := 100, ut := false }] })] }
theorem witness_Fetch_buffer : hasCtx buffered .event (fun c => match c.l.rangeOf c.pc.toNat with
    | some x => x.x && c.f.st != .reading && (cacheHit (buffered.core c.w.core).fetchBuf (buffered.now (coreDie c.w.core)) (x.iaOf c.pc.toNat)).isSome
    | none => false) = true := by decide
theorem witness_Fetch_home : hasCtx start .event (fun c => match c.l.rangeOf c.pc.toNat with
    | some x =>
      let ia := x.iaOf c.pc.toNat
      let v := if region ia == .hbm then start.cacheWalk ia false (some c.l.dom) else start
      x.x && c.f.st != .reading && (cacheHit (start.core c.w.core).fetchBuf (start.now (coreDie c.w.core)) ia).isNone && (start.xlatFault ia).isNone &&
        (start.errorAt (some c.l.dom) ia).isNone && v.lineFree ia && v.mayRead (some c.l.dom) (ia / 128 * 128) 128 0 && !v.badIA ia 8 &&
          !v.cutOff (some c.l.dom) (ia / 128 * 128) 128
    | none => false) = true := by decide
def rereading : State := start |> inFrag fun f => { f with st := .reading, kept := [0x481002003F800000] }
theorem witness_Fetch_kept : hasCtx rereading .event (fun c => c.f.st == .reading && c.f.kept[rereading.cursor.words.length]? == some 0x481002003F800000) = true := by decide
def astray : State := { start with cursor := { start.cursor with pc := 0x100000 } }
theorem witness_Fetch_trap : hasCtx astray .event (fun c => c.f.st != .acquire && c.f.st != .reading && !c.g.acqHold && !c.g.fenceHold c.ent && c.g.trap.isNone &&
    (c.l.rangeOf c.pc.toNat).isNone) = true := by decide

theorem witness_StepKeepsInv : State.reset.Inv ∧ ∃ t, step State.reset = .next t := ⟨⟨by decide, by decide⟩, _, rfl⟩

theorem witness_TakingTraps : hasCtx few .event (fun c => c.g.trap.isNone) = true := by decide
theorem witness_TakingTraps_handler : hasCtx (inHandler few) .event (fun c => c.g.trap.isSome && c.w.life != .killed && !c.l.redn) = true := by decide

/-- The reason for which a word is illegal in a state whose other conditions hold. -/
def illegalIn (s : State) (i : Instr) : Nat :=
  match s.ctx? i.form with
  | some c => if i.isWord && c.f.st != .acquire && !c.g.acqHold && !c.g.fenceHold c.ent then c.illegal false else 0
  | none => 0
theorem witness_IllegalWords_own : illegalIn few (.iadd { d := 5, a := 2, b := 4, md := 0x180 }) = 5 ∧ illegalIn few (.dx {}) = 9 := by decide
theorem witness_IllegalWords_prefix : illegalIn (prefixed few) (.nop {}) = 9 ∧ illegalIn (prefixed few) (.iadd { d := 1, a := 2, b := 3, c := 1 }) = 3 := by decide
theorem witness_IllegalWords_handler : [illegalIn (inHandler few) (.jset { d := 3, a := 1 }), illegalIn (inHandler few) (.bra { pm := 1, imm := 8 }),
    illegalIn (inHandler few) (.bra { imm := 8 }), illegalIn (inHandler few) (.become { a := 3 }), illegalIn few (.rett {})] = [10, 10, 0, 13, 11] := by decide

/-- A legal word that is not held. -/
def legal (s : State) (i : Instr) (p : Ctx → Bool) : Bool := hasCtx s i.form fun c =>
  i.isWord && c.f.st != .acquire && !c.g.acqHold && !c.g.fenceHold c.ent && c.illegal false == 0 && (c.g.unaccepted c.f).isNone && p c
theorem witness_EmptyRegisters_source : legal emptied (.iadd { d := 10, a := 3, b := 4, ea := 6 }) (fun c =>
    c.sh.ops.all (fun p => !isDest p || !c.g.emptyOpnd p) && c.sh.ops.any fun o => o.fld == 0 && !isDest o && o.ea && c.g.emptyOpnd o) = true := by decide
theorem witness_EmptyRegisters_destination : legal emptied (.iadd { d := 3, a := 6, b := 7 }) (fun c =>
    c.sh.ops.any fun o => isDest o && c.g.emptyOpnd o) = true := by decide
theorem witness_EmptyRegisters_stall : legal emptied (.iadd { d := 10, a := 3, b := 7 }) (fun c =>
    (c.sh.ops.all fun o => !(isDest o || o.ea) || !c.g.emptyOpnd o) && c.sh.ops.any fun o => !isDest o && c.g.emptyOpnd o) = true := by decide

theorem witness_TrapAndReturn_trap : ∀ i ∈ [Instr.trap { imm := 7 }, .trapReg { a := 4 }],
    readyWith few i (fun c => c.g.trap.isNone && c.sel != 0) = true ∧ readyWith (none_ few) i (fun c => c.g.trap.isNone && c.sel == 0) = true := by decide
theorem witness_TrapAndReturn_rett : readyWith (inHandler few) (.rett {}) (fun c => !c.s.dbg.trctl.getLsbD 0) = true := by decide

/-! ### Words that compute registers -/

theorem witness_NumberRules_fit : (8 : Nat) ∈ [8, 16, 32, 64] ∧ (-128 ≤ (5 : Int) ∧ (5 : Int) ≤ 127) ∧ (-129 : Int) < -128 ∧ (127 : Int) < 128 ∧ 8 < 32 := by decide
theorem witness_MoveWords_flags : readyWith few (.rdsr { d := 10, a := 9 }) (fun c => !c.flagsPending) = true := by decide
theorem witness_SpecialRegisters : hasCtx few .event (fun c => c.w.core < 576) = true := by decide
theorem witness_Tangents_waits : legal emptied (.tzero { sub := 1, d := 2, md := 1 }) (fun c => !c.g.full false 3) = true ∧
    legal emptied (.tzero { sub := 1, d := 5, md := 0x80 }) (fun c => !c.g.full true 5) = true := by decide
theorem witness_NumberRules_results : fp32 ∈ [fp32, fp16, bf16] ∧ (0x7F800001 : Nat) < 2 * fp32.signBit ∧ (fp32.value 0x7F800001).isSNan = true ∧
    (fp32.value (fp32.addF 0 false 0x7F800001 0).1).isNan = true := by decide
theorem witness_NumberRules_ftz : fp16 ∈ [fp32, fp16, bf16] ∧ (1 : Nat) < 2 * fp16.signBit ∧ fp16.isSub 1 = true := by decide
theorem witness_MinMax : fp16 ∈ [fp32, fp16, bf16] ∧ (0x8000 : Nat) < 2 * fp16.signBit ∧ (0x7C01 : Nat) < 2 * fp16.signBit ∧
    (fp16.value 0x8000).isNan = false ∧ (fp16.value 0x7C01).isNan = true ∧ (0x8000 : DWord).toNat < 2 * fp16.signBit := by decide
theorem witness_NumberRules_corners : bf16 ∈ [fp32, fp16, bf16] ∧ 3 < 4 ∧ (0x3F80 : Nat) < 2 * bf16.signBit ∧ (bf16.value 0x3F80).isNan = false ∧
    (bf16.value 0x3F80).isInf = false ∧ (bf16.value 0x3F80).isZero = false := by decide

/-! ### Long-latency words, cross-lane words, paired words -/

theorem witness_Transcendentals : readyWith few (.exp2 { d := 10, a := 3, md := 0x200 }) (fun c => c.sel != 0 && !(c.opnd 3).scal) = true ∧
    readyWith few (.exp2 { s := true, d := 10, a := 3, md := 0x200 }) (fun c => c.sel != 0 && (c.opnd 3).scal && (c.opnd 3).num < 64) = true ∧
    readyWith (none_ few) (.exp2 { d := 10, a := 3, md := 0x200 }) (fun c => c.sel == 0) = true := by decide
def pendingResult : State := arg { wg := 2, grp := 0, acc := (few.fresh) } (stepOf (exec (.exp2 { d := 10, a := 3, md := 0x200 }) few))
theorem witness_Transcendentals_complete : hasGroup pendingResult (fun _ g _ => match g.longs.find? (fun y => y.id == pendingResult.arg.acc) with
    | some x => decide (x.writes.Pairwise (fun a b => a.1 ≠ b.1) ∧ x.swrites.Pairwise (fun a b => a.1 ≠ b.1) ∧ x.writes ≠ [])
    | none => false) = true := by decide
theorem witness_LaneExchanges_topk : readyWith few (.topk { d := 10, a := 3, b := 4, c := 3, md := 0xA00 }) (fun c => c.sel != 0) = true := by decide
theorem witness_PairedShort : readyWith few (.halfIadd { d := 2, a := 1 } { op := .fmul, args := { d := 2, a := 3 } }) (fun _ => !HalfOp.fmul.long) = true := by decide
theorem witness_PairedLong : ∀ i ∈ [Instr.halfExp2 { d := 2, a := 1 } { op := .fmul, args := { d := 2, a := 3 } }, .halfTanh { d := 2, a := 1 } { op := .hnop, args := {} }],
    readyWith few i (fun c => c.sel != 0) = true ∧ readyWith (none_ few) i (fun c => c.sel == 0) = true := by decide
theorem witness_PairedLong_second : ∀ i ∈ [Instr.halfIadd { d := 1, a := 1 } { op := .sqrt, args := { d := 2, a := 3 } }, .hnop {} { op := .lds, args := { d := 2, a := 3 } }],
    readyWith few i (fun c => c.sel != 0 && !HalfOp.iadd.long && !HalfOp.hnop.long) = true := by decide
def spadWords : State := few |> inGroup fun g => { g with vregs := [(4, Lanes.gen fun i => BitVec.ofNat 32 (4 * i)), (5, Lanes.gen fun i => BitVec.ofNat 32 (4 * i))] }
theorem witness_PairedLong_lds : readyWith spadWords (.halfLds { d := 5, a := 2, imm8 := 3 } { op := .iadd, args := { d := 2, a := 3 } }) (fun c =>
    let as := c.spadAddrs c.sel.lanes c.k (c.halfOff 0 { d := 5, a := 2, imm8 := 3 })
    c.sel != 0 && !c.l.det && !c.g.ctrFull 1 && (c.checkSpad as 4 4).isNone && as.all fun a => !isPoisoned c.w.spadBad a.va.toNat 4) = true ∧
    readyWith spadWords (.halfIadd { d := 2, a := 3 } { op := .lds, args := { d := 5, a := 2, imm8 := 3 } }) (fun c =>
    let as := c.spadAddrs c.sel.lanes c.k (c.halfOff 1 { d := 5, a := 2, imm8 := 3 })
    c.sel != 0 && !c.g.ctrFull 1 && (c.checkSpad as 4 4).isNone && as.all fun a => !isPoisoned c.w.spadBad a.va.toNat 4) = true := by decide

/-! ### Control flow -/

theorem witness_ControlTransfer_none : ∀ i ∈ [Instr.bra { pm := 3, imm := 8 }, .braReg { pm := 3, a := 4 }, .brc { a := 3, imm := 8 }, .brcReg { a := 4, b := 3 }],
    readyWith few i (fun c => !c.s.dbg.trctl.getLsbD 0 && c.taken == 0) = true := by decide
theorem witness_ControlTransfer_whole : ∀ i ∈ [Instr.bra { imm := 8 }, .braReg { a := 4 }, .brc { a := 0, imm := 8 }, .brcReg { a := 4, b := 0 }],
    readyWith whole i (fun c => c.taken == c.f.f && c.taken != 0) = true := by decide
theorem witness_ControlTransfer_split : ∀ i ∈ [Instr.bra { pm := 2, imm := 8 }, .braReg { pm := 2, a := 4 }, .brc { a := 2, imm := 8 }, .brcReg { a := 4, b := 2 }],
    readyWith few i (fun c => c.taken != 0 && c.taken != c.f.f && c.g.frags.length < 16 && c.g.freeEntry.isSome) = true := by decide
theorem witness_ControlTransfer_full : ∀ i ∈ [Instr.bra { pm := 2, imm := 8 }, .braReg { pm := 2, a := 4 }, .brc { a := 2, imm := 8 }, .brcReg { a := 4, b := 2 }],
    readyWith (more 15 few) i (fun c => c.taken != 0 && c.taken != c.f.f && 16 ≤ c.g.frags.length) = true := by decide
theorem witness_ControlTransfer_jumps : ∀ i ∈ [Instr.jmpi { a := 4 }, .calli { a := 4 }],
    readyWith (whole |> inGroup fun g => { g with vregs := [(4, Lanes.gen fun i => BitVec.ofNat 32 (8 * i)), (5, Lanes.const 0)] }) i
      (fun c => c.f.f != 0 && decide (c.g.frags.length + c.parts.length ≤ 17) && c.g.trap.isNone) = true := by decide
theorem witness_ControlTransfer_jumps_trap : ∀ i ∈ [Instr.jmpi { a := 4 }, .calli { a := 4 }],
    readyWith (more 15 few) i (fun c => c.g.trap.isNone && (c.parts[16 - c.g.frags.length + 1]?).isSome) = true ∧
    readyWith (inHandler few) i (fun c => c.g.trap.isSome && decide (1 < c.parts.length)) = true := by decide

/-- Whether join 3 is complete once the fragment has arrived. -/
def joinFull (c : Ctx) : Bool := (c.g.join 3).exp &&& ~~~ ((c.g.join 3).arr ||| c.f.f) == 0
theorem witness_Joins_jset : readyWith few (.jset { d := 3, a := 1 }) (fun c => c.g.sleepers 3 == [] && !c.s.dbg.trctl.getLsbD 0) = true := by decide
theorem witness_Joins_waits : readyWith (joined 0xFF00 0 whole) (.join { d := 3 }) (fun c => !joinFull c) = true := by decide
theorem witness_Joins_alone : readyWith (joined 0x21 0 whole) (.join { d := 3 }) (fun c => joinFull c && c.g.sleepers 3 == [] && c.f.pc == c.pc) = true := by decide
theorem witness_Joins_fuses : readyWith (joined 0xFFFF 0xFF00 (twoAsleep few)) (.join { d := 3 }) (fun c => joinFull c && (match c.g.sleepers 3 with
    | e :: rest => (c.g.frag? e).isSome && !rest.contains e && !(e :: rest).contains c.ent && rest != []
    | [] => false)) = true := by decide
/-- Two fragments sleep at join 3, the first of them present and neither the one that issues. -/
def asleepAt (c : Ctx) : Bool := match c.g.sleepers 3 with
  | e :: rest => (c.g.frag? e).isSome && !rest.contains e && !(e :: rest).contains c.ent && rest != []
  | [] => false
theorem witness_Joins_released : readyWith (joined 0xFFFF 0xFF00 (twoAsleep few)) (.jset { d := 3, a := 1 }) asleepAt = true ∧
    readyWith (joined 0xFFFF 0xFF00 (twoAsleep few)) (.jarv { d := 3 }) (fun c => joinFull c && asleepAt c) = true := by decide
theorem witness_Joins_jarv : readyWith (joined 0xFF00 0 whole) (.jarv { d := 3 }) (fun c => !joinFull c) = true ∧
    readyWith (joined 0x21 0 whole) (.jarv { d := 3 }) (fun c => joinFull c && c.g.sleepers 3 == []) = true := by decide

theorem witness_WaitingWords_sleep : readyWith few (.sleep { a := 4 }) (fun c => (c.scalar 0).toNat != 0) = true ∧
    ∀ i ∈ [Instr.sleep { a := 4 }, .sleepImm { imm := 9 }], readyWith few i (fun c => c.w.life != .draining) = true ∧ readyWith (draining few) i (fun c => c.w.life == .draining) = true := by decide
theorem witness_WaitingWords_zero : (readyWith few (.sleep { a := 64 }) (fun c => (c.scalar 0).toNat == 0) &&
    (few.ready (Instr.sleepImm { imm := 0 }).form).isSome) = true := by decide
def counting : State := few |> inGroup fun g => { g with ctrs := g.ctrs.set 1 [(5, false), (6, true), (7, false)] }
theorem witness_WaitingWords_waitc : readyWith counting (.waitc { a := 3, md := 1 }) (fun c => (c.g.ctr 1).length ≤ (c.scalar 0).toNat) = true ∧
    readyWith (none_ counting) (.waitc { a := 64, md := 1 }) (fun c => c.sel == 0) = true ∧
    readyWith counting (.waitc { a := 2, md := 1 }) (fun c => c.sel != 0 && (c.scalar 0).toNat < (c.g.ctr 1).length) = true := by decide

/-! ### Memory words -/

/-- The conditions of a load of kind global, and of one of the scratchpad. -/
def loads (s : State) (i : Instr) (u : Bool) : Bool := readyWith s i fun c =>
  let lanes := if u then [c.low] else c.sel.lanes
  let as := c.globAddrs lanes c.k c.va
  c.sel != 0 && !c.g.ctrFull 0 && lanes.all (fun i => !inAperture (c.va i)) && !planeInAperture as && (c.checkGlobal as c.bytes c.bytes .read).isNone &&
    (c.watchpoint (if u then c.globAddrs c.sel.lanes c.k (fun _ => c.va c.low) else as) c.bytes true false).isNone
theorem witness_Loads : loads mm (.ld { d := 14, a := 2, b := 12 }) false = true ∧ loads mm (.ldImm { d := 14, a := 2, imm := 0x20000040 }) false = true ∧
    loads mm (.ldu { d := 14, a := 2, b := 4, md := 2 }) true = true ∧ loads mm (.lduImm { d := 14, a := 2, imm := 0x20000040 }) true = true := by decide
/-- The trap that a check of a word's addresses finds. -/
def finds (s : State) (i : Instr) (o : Ctx → Option Out) (code : Nat) : Bool := readyWith s i fun c => c.sel != 0 && match o c with | some (.trap n _ _) => n == code | _ => false
def globs (need : Need) (c : Ctx) : Option Out := if c.sel.lanes.any (fun i => inAperture (c.va i)) ∨ planeInAperture (c.globAddrs c.sel.lanes c.k c.va) then none
  else c.checkGlobal (c.globAddrs c.sel.lanes c.k c.va) c.bytes c.bytes need
def spads (c : Ctx) : Option Out := c.checkSpad (c.spadAddrs c.sel.lanes c.k c.spadOff) c.bytes c.bytes
/-- Bases that end in 1, and bases outside every range and past SPAD; a plane that wraps. -/
def askew : State := mm |> scalars [(2, 0x101), (3, 0), (4, 0x41)]
def outside : State := mm |> scalars [(2, 0x100), (3, 0x1000), (4, 0x100000)]
theorem witness_Loads_traps : finds askew (.ld { d := 14, a := 2, b := 12 }) (globs .read) 6 = true ∧ finds outside (.ld { d := 14, a := 2, b := 12 }) (globs .read) 7 = true ∧
    finds askew (.lds { d := 14, a := 4, b := 12 }) spads 6 = true ∧ finds outside (.lds { d := 14, a := 4, b := 12 }) spads 8 = true := by decide
/-- The checks of four bytes in lane 0 at an address. -/
theorem witness_Loads_checks : hasCtx mm .event (fun c =>
    let at_ (va : Int) : List LaneAddr := [{ lane := 0, plane := 1, va }]
    let code (o : Option Out) : Nat := match o with | some (.trap n _ _) => n | _ => 0
    [code (c.checkGlobal (at_ (-4)) 4 4 .read true), code (c.checkGlobal (at_ (2 ^ 64)) 4 4 .read true), code (c.checkGlobal (at_ (2 ^ 64 - 4)) 4 4 .read true),
      code (c.checkGlobal (at_ 0x102) 4 4 .read true), code (c.checkGlobal (at_ 0x100) 4 4 .read true), code (c.checkSpad (at_ 0x42) 4 4),
      code (c.checkSpad (at_ (c.l.spad - 4 : Nat)) 4 4), code (c.checkSpad (at_ c.l.spad) 4 4)] == [0x12, 0x12, 7, 6, 0, 6, 0, 8]) = true := by decide
theorem witness_Stores_traps : finds askew (.st { d := 3, a := 2, b := 12 }) (globs .write) 6 = true ∧ finds outside (.st { d := 3, a := 2, b := 12 }) (globs .write) 7 = true ∧
    finds askew (.sts { d := 3, a := 4, b := 12 }) spads 6 = true ∧ finds outside (.sts { d := 3, a := 4, b := 12 }) spads 8 = true := by decide
theorem witness_Loads_scratchpad : ∀ i ∈ [Instr.lds { d := 14, a := 4, b := 12 }, .ldsImm { d := 14, a := 4, imm := 0x20000040 }], readyWith mm i (fun c =>
    let as := c.spadAddrs c.sel.lanes c.k c.spadOff
    c.sel != 0 && !c.l.det && !c.g.ctrFull 1 && (c.checkSpad as c.bytes c.bytes).isNone && as.all fun a => !isPoisoned c.w.spadBad a.va.toNat c.bytes) = true := by decide

def stores (s : State) (i : Instr) (held : Bool) : Bool := readyWith s i fun c =>
  let as := c.globAddrs c.sel.lanes c.k c.va
  c.sel != 0 && c.ord != 2 && c.sel.lanes.all (fun i => !inAperture (c.va i)) && !planeInAperture as && (c.checkGlobal as c.bytes c.bytes .write).isNone &&
    (c.watchpoint as c.bytes false true).isNone && c.l.holds == held && (!held || !c.holdFull (as.length * c.bytes))
theorem witness_Stores : ∀ i ∈ [Instr.st { d := 3, a := 2, b := 12 }, .stImm { d := 3, a := 2, imm := 0x20000040 }],
    stores mm i false = true ∧ stores (holding 1 mm) i true = true := by decide
theorem witness_Stores_scratchpad : ∀ i ∈ [Instr.sts { d := 3, a := 4, b := 12 }, .stsImm { d := 3, a := 4, imm := 0x20000040 }], readyWith mm i (fun c =>
    c.sel != 0 && !c.l.det && (c.checkSpad (c.spadAddrs c.sel.lanes c.k c.spadOff) c.bytes c.bytes).isNone) = true := by decide

theorem witness_MemoryWaits_pref : ∀ i ∈ [Instr.pref { a := 2, b := 12 }, .prefImm { a := 2, imm := 0x40 }], (readyWith mm i (fun c =>
    c.sel != 0 && c.sel.lanes.all (fun i => !inAperture (c.va i)) && c.sel.lanes.any fun i => (c.l.violation .read 1 true (c.va i)).isNone) &&
    readyWith (mm |> withWord 0x18 0x26) i (fun c => c.sel != 0 && c.sel.lanes.all (fun i => !inAperture (c.va i)) &&
      c.sel.lanes.all fun i => (c.l.violation .read 1 true (c.va i)).isSome)) = true := by decide
def waits (s : State) (p : Ctx → Part → Bool) : Bool := readyWith s (.waitm { d := 10, a := 2, b := 8 }) fun c =>
  let a : LaneAddr := { lane := c.low, plane := 0, va := (c.base c.low) }
  c.sel != 0 && !inAperture (c.base c.low) && !c.l.det && (c.checkGlobal [a] 1 1 .read).isNone &&
    (c.watchpoint (c.globAddrs c.sel.lanes 0 fun _ => c.base c.low / 16 * 16) 16 true false).isNone && p c (c.part { a with va := ((c.base c.low) / 16 * 16 : Nat) } 16 0 0)
def cached : State := { mm with cores := [(0, { l1 := [{ line := 2, sectors := [(0, List.replicate 16 0)], e := 1000, ut := false }] })] }
theorem witness_MemoryWaits_waitm : waits (draining mm) (fun c p => c.w.life == .draining && !c.s.badIA p.ia 16) = true ∧
    waits mm (fun c p => c.w.life != .draining && !c.s.badIA p.ia 16 && (c.l.rangeOf (c.base c.low)).any (fun x => !x.ut) && (cacheHit (mm.core 0).l1 0 p.ia).isNone) = true ∧
    waits cached (fun c p => c.w.life != .draining && (cacheHit (cached.core 0).l1 0 p.ia).isSome) = true := by decide
theorem witness_MemoryWaits_fence : readyWith mm (.fence {}) (fun c => c.sel != 0 && c.released c.scope && c.g.drained) = true ∧
    readyWith (mm |> inGroup fun g => { g with ctrs := g.ctrs.set 0 [(1, false)] }) (.fence {}) (fun c => c.sel != 0 && c.ord != 2 && !c.g.drained) = true := by decide

def atoms (s : State) (i : Instr) (held : Bool) : Bool := readyWith s i fun c =>
  let n := atomBytes c.atomTy
  let as := c.globAddrs c.work 0 c.va
  c.work != [] && c.ord != 2 && c.work.all (fun i => !inAperture (c.va i)) &&
    (c.checkGlobal as n n .write ((c.subn == 0 || c.subn == 6 || c.subn == 7) && decide (c.atomTy ≤ 3))).isNone &&
    (c.watchpoint as n true true).isNone && (c.watchpoint as n false true).isNone && c.l.holds == held && !c.l.redn && !c.g.ctrFull 0 && (!held || !c.holdFull (as.length * n))
theorem witness_Atomics : atoms mm (.atom { d := 14, a := 2, b := 12, c := 3, md := 1 }) false = true ∧
    atoms mm (.red { a := 2, b := 12, c := 3, md := 1 }) false = true ∧ atoms (holding 1 mm) (.red { a := 2, b := 12, c := 3, md := 1 }) true = true := by decide
theorem witness_Atomics_scratchpad : readyWith mm (.atoms { d := 14, a := 4, b := 12, c := 3, md := 1 }) (fun c =>
    let n := atomBytes c.atomTy
    let as := c.spadAddrs c.work 0 c.spadOff
    c.work != [] && c.ord != 2 && !c.l.det && (c.checkSpad as n n).isNone && !c.g.ctrFull 1 && as.all fun a => !isPoisoned c.w.spadBad a.va.toNat n) = true := by decide
/-- Two lanes of one address, and the tree that combines them. -/
def combining : State := arg { comb := .node (.leaf 0) (.leaf 1) } mm |> inGroup fun g => { g with vregs := (12, Lanes.const 16) :: g.vregs }
theorem witness_Atomics_combined : readyWith combining (.atoms { d := 14, a := 4, b := 12, c := 3, md := 3 }) (fun c =>
    let as := c.spadAddrs c.work 0 c.spadOff
    c.work == [0, 5] && c.ord != 2 && !c.l.det && (c.checkSpad as 4 4).isNone && !c.g.ctrFull 1 && (as.all fun a => !isPoisoned c.w.spadBad a.va.toNat 4) &&
      c.spadTrees as == [.node (.leaf 0) (.leaf 1)] && as.all fun x => some x.va == as.head?.map (·.va)) = true := by decide
theorem witness_Atomics_update : 0 ≤ 3 ∧ 0x80000000 < 2 ^ (8 * atomBytes 0) ∧ 3 ≤ 3 ∧ 2 ^ 63 < 2 ^ (8 * atomBytes 3) := by decide

/-! ### Queues and barriers -/

/-- The queue of the word is sound and no one waits for it. -/
def soundAt (s : State) (i : Instr) (q : QKey) (p : Ctx → QBlock → Bool) : Bool := readyWith s i fun c =>
  let v := c.atController q
  c.sel != 0 && c.g.accs.all (fun a => decide (a.id < c.s.fresh)) && decide (c.queueKey = some q) && (c.blockError q).isNone && !c.l.redn && c.blockReady q &&
    c.arriveCode v q == 0 && !(s.qctl q).requeue && (v.qctl q).pushW.isEmpty && (v.qctl q).popW.isEmpty && (v.qctl q).pop.isNone &&
    (match v.block? q with | some (b, false) => p c b | _ => false)
theorem witness_QueueWords_qbind : readyWith qm (.qbind { a := 64, md := 0x1000 }) (fun c => c.sel != 0) = true ∧
    readyWith qm (.qbind { a := 2, md := 0x1300 }) (fun c => c.sel != 0 && (c.scalar 0).toNat % 128 == 0 && (c.l.blockAt (c.scalar 0).toNat).isSome) = true := by decide
theorem witness_QueueWords_qinit : readyWith qs (.qinit { a := 4, b := 5, c := 6 }) (fun c => match qinitCfg (c.scalar 2).toNat with
    | some (lslot, lesz) => c.sel != 0 && decide (c.objn < 16 ∧ (c.scalar 0).toNat % 128 = 0 ∧ (c.scalar 1).toNat % 128 = 0 ∧ (c.scalar 0).toNat + 128 ≤ c.l.spad ∧
        (c.scalar 1).toNat + 2 ^ lslot * 2 ^ lesz ≤ c.l.spad) && (qs.qctl (.loc c.w.run c.objn)).pushW.isEmpty && (qs.qctl (.loc c.w.run c.objn)).popW.isEmpty && (qs.qctl (.loc c.w.run c.objn)).pushes.isEmpty
    | none => false) = true := by decide
def qinitState : State := qm |> scalars [(2, 0x4000), (4, 0x6000), (6, 0x303)]
theorem witness_QueueWords_qinitMem : readyWith qinitState (.qinitMem { a := 2, b := 4, c := 6, md := 0x10 }) (fun c =>
    match qinitCfg (c.scalar 2).toNat, c.l.blockAt (c.scalar 0).toNat, c.l.rangeOf (c.scalar 1).toNat with
    | some (lslot, lesz), some _, some r => c.sel != 0 && decide ((c.scalar 0).toNat % 128 = 0 ∧ (c.scalar 1).toNat % 128 = 0 ∧ r.r = true ∧ r.w = true ∧
        (c.scalar 1).toNat + 2 ^ lslot * 2 ^ lesz ≤ r.base + r.size)
    | _, _, _ => false) = true := by decide
def pushes (q : QKey) (s : State) (i : Instr) : Bool := soundAt s i q fun c b => c.released (queueScope q) && c.mods 3 1 == 0 && b.lesz == 3 &&
  decide (c.work.length ≤ b.slots ∧ c.work.length ≤ b.free) && !c.l.det
theorem witness_QueueWords_qpush : pushes (.loc 2 0) ql (.qpush { a := 4, b := 10 }) = true ∧ pushes (.mem 0x4000) qm (.qpush { a := 4, b := 10, md := 0x1000 }) = true := by decide
def pops (q : QKey) (s : State) (i : Instr) : Bool := soundAt s i q fun c b => !c.g.ctrFull 3 && c.mods 3 1 == 0 && b.lesz == 3 &&
  decide (c.work.length ≤ b.slots ∧ c.work.length ≤ b.tail - b.head) && !b.ppend
theorem witness_QueueWords_qpop : pops (.loc 2 0) qlFull (.qpop { d := 12, b := 10 }) = true ∧ pops (.mem 0x4000) qmFull (.qpop { d := 12, b := 10, md := 0x1000 }) = true := by decide
theorem witness_QueueWords_qstat : soundAt qlFull (.qstat { sub := 1, d := 12 }) (.loc 2 0) (fun _ _ => true) = true ∧
    soundAt qmFull (.qstat { sub := 7, d := 12, md := 0x1000 }) (.mem 0x4000) (fun _ _ => true) = true := by decide

def barred (b : Barrier) (s : State) : State := s |> inWg fun w => { w with bars := w.bars.set 3 b }
theorem witness_Barriers_binit : readyWith mm (.binit { a := 8, b := 8, md := 0x300 }) (fun c => c.sel != 0 && decide ((c.scalar 0).toNat ≠ 0 ∧ (c.scalar 0).toNat ≤ 255)) = true := by decide
theorem witness_Barriers_binit_traps : readyWith mm (.binit { a := 64, b := 8, md := 0x300 }) (fun c => c.sel != 0 && (c.scalar 0).toNat == 0) = true ∧
    readyWith (mm |> scalars [(8, 256)]) (.binit { a := 8, b := 8, md := 0x300 }) (fun c => c.sel != 0 && decide (255 < (c.scalar 0).toNat)) = true := by decide
theorem witness_Barriers_barv : readyWith mm (.barv { a := 8, md := 0x300 }) (fun c => c.sel != 0 && c.g.barvs.isEmpty && (c.g.accs.filter Access.outstanding).isEmpty) = true := by decide
def bwaits (b : Barrier) (s : State) (form : BitVec 13) (p : Ctx → Bool → Bool) : Bool :=
  readyWith (barred b s) (.bwait { a := 8, b := 10, c := if form = 2 then 9 else 0, md := 0x300 ||| form }) fun c =>
    c.sel != 0 && c.objn == 3 && !c.l.det && p c ((c.w.bar 3).holds (c.mods 0 2) ((c.scalar 0).setWidth 32) (if form = 2 then (c.scalar 2).setWidth 32 else 0))
theorem witness_Barriers_bwait : bwaits { phase := 5, expm := 3 } mm 0 (fun _ h => h) = true ∧ bwaits { phase := 4, expm := 3 } mm 0 (fun c h => !h && c.w.life != .draining) = true ∧
    bwaits { phase := 4, expm := 3 } (draining mm) 0 (fun c h => !h && c.w.life == .draining) = true := by decide
theorem witness_Barriers_phases : ({ expm := 3, arvm := 2, expb := 9, arvb := 4 } : Barrier).arvm ≤ 255 ∧ ({ expm := 3, arvm := 2, expb := 9, arvb := 4 } : Barrier).arvb < 2 ^ 32 ∧
    0 < ({ expm := 3, arvm := 2, expb := 9, arvb := 4 } : Barrier).expm ∧ min (2 ^ 32 - 1) (4 + 2) < 9 := by decide

/-! ### Matrix words, gather and scatter, system words -/

def tiled : State := all64 few |> scalars [(2, 4), (3, 0x40), (4, 2)] |> withWord 0x1C8 0x0000_0400_0000_0C00 |> slots 3 3 0
theorem witness_MatrixWords_mma : readyWith tiled (.mma { a := 2, b := 3, c := 4 }) (fun c =>
    c.sel == BitVec.allOnes 64 && slotsOk (c.l.slotAt c.subn) (c.l.slotAt (c.subn + 1)) && (c.g.outside (c.scalar 0).toNat 64 c.k).isNone &&
      (c.checkTile (c.scalar 1).toNat (c.l.slotAt c.subn).aBytes).isNone && (List.range (c.k + 1)).all fun j =>
        decide ((c.scalar 2).toNat * (c.l.slotAt (c.subn + 1)).bElem + j * c.l.cplane
          + (32 + (c.l.slotAt (c.subn + 1)).blocks 32) * (c.l.slotAt (c.subn + 1)).bElem ≤ c.l.cell * 1024)) = true := by decide
theorem witness_MatrixWords_mzero : readyWith few (.mzero { a := 4, b := 5 }) (fun c => c.sel != 0 && (c.scalar 1).toNat != 0 &&
    (c.g.outside (c.scalar 0).toNat (c.scalar 1).toNat c.k).isNone) = true := by decide
def batched : State := few |> pressed [clearing 1 5 0, { clearing 2 0 8 with wg := 7 }, clearing 3 0 16] false 0
theorem witness_MatrixWords_batches : readyWith batched (.mfence { d := 10 }) (fun c => c.sel != 0 && decide (c.batches.length < 16)) = true ∧
    readyWith batched (.mwait { a := 4 }) (fun c => c.sel != 0 && c.batches.all fun n => decide (2 ^ 31 ≤ ((c.scalar 0).toNat + 2 ^ 32 - n) % 2 ^ 32)) = true ∧
    readyWith batched (.mwait { a := 6 }) (fun c => c.sel != 0 && (c.scalar 0).toNat != 0 && c.batches.any fun n => decide (((c.scalar 0).toNat + 2 ^ 32 - n) % 2 ^ 32 < 2 ^ 31)) = true := by decide
/-- Rows outside the group's window. -/
theorem witness_MatrixWords_window : ∀ i ∈ [Instr.mread { d := 10, a := 4, b := 5, md := 7 }, .msts { a := 4, b := 5 }],
    readyWith (few |> scalars [(4, 700), (5, 0)]) i (fun c => c.sel != 0 && (c.g.outside (c.scalar 0).toNat 64 c.k).isSome) = true := by decide
theorem witness_MatrixWords_mread : readyWith few (.mread { d := 10, a := 4, b := 5, md := 7 }) (fun c =>
    c.sel != 0 && (c.g.outside (c.scalar 0).toNat 64 c.k).isNone && decide ((c.scalar 1).toNat + c.mods 0 3 + 1 ≤ 128) && (c.accBusy (c.scalar 0).toNat).isNone &&
      !c.accPoison (c.scalar 0).toNat (c.scalar 1).toNat (c.mods 0 3 + 1) c.sel.lanes) = true := by decide
def wideSpad : State := few |> scalars [(2, 4), (3, 0x40)] |> withWord 0x1C8 0x0000_0400_0000_2200 |> withWord 0x190 0x0801_0000_0A01_4080 |> slots 3 3 0
theorem witness_MatrixWords_msts : readyWith wideSpad (.msts { a := 2, b := 3 }) (fun c =>
    c.sel != 0 && (c.g.outside (c.scalar 0).toNat 64 c.k).isNone && (c.checkTile (c.scalar 1).toNat (64 * (c.l.slotAt c.subn).mstsRow + 64 * (c.l.slotAt c.subn).blocks 128)).isNone &&
      (c.accBusy (c.scalar 0).toNat).isNone && !c.accPoison (c.scalar 0).toNat 0 128 (List.range 64) && !c.l.det) = true := by decide
theorem witness_MatrixWords_wraccw : readyWith (twoGroups few |> scalars [(4, 1), (5, 9)]) (.wraccw { a := 4, b := 64, c := 5 }) (fun c =>
    c.sel != 0 && decide (c.g.grp = 0 ∧ (c.scalar 0).toNat < c.l.ng ∧ c.w.poolBase ≤ (c.scalar 1).toNat ∧
      (c.scalar 1).toNat + (c.scalar 2).toNat ≤ c.w.poolBase + c.l.ng * c.l.arows ∧ (c.scalar 0).toNat ≠ 0) &&
      (c.groupOps (c.scalar 0).toNat).isEmpty && (c.w.group? (c.scalar 0).toNat).isSome) = true ∧
    readyWith (few |> scalars [(5, 9)]) (.wraccw { a := 64, b := 64, c := 5 }) (fun c => c.sel != 0 && c.g.grp == 0 && decide (c.w.poolBase ≤ (c.scalar 1).toNat ∧
      (c.scalar 1).toNat + (c.scalar 2).toNat ≤ c.w.poolBase + c.l.ng * c.l.arows ∧ (c.scalar 0).toNat = 0) && (c.groupOps 0).isEmpty) = true := by decide

theorem witness_GatherWords_traps : finds askew (.ldx { d := 14, a := 2, b := 12 }) (fun c => c.gatherCheck false) 6 = true ∧
    finds outside (.ldx { d := 14, a := 2, b := 12 }) (fun c => c.gatherCheck false) 7 = true ∧
    finds outside (.stx { d := 3, a := 2, b := 12, md := 0x800 }) (fun c => c.gatherCheck true) 7 = true ∧
    finds outside (.ldxs { d := 14, a := 4, b := 13, md := 0x800 }) (fun c => c.checkSpad (c.spadAddrs c.sel.lanes c.k c.gspad) c.bytes c.bytes) 8 = true ∧
    finds outside (.stxs { d := 3, a := 4, b := 13, md := 0x800 }) (fun c => c.checkSpad (c.spadAddrs c.sel.lanes c.k c.gspad) c.bytes c.bytes) 8 = true := by decide
theorem witness_GatherWords_global : readyWith mm (.ldx { d := 14, a := 2, b := 12 }) (fun c => c.sel != 0 && (c.gatherCheck false).isNone && !c.g.ctrFull 2 &&
      c.g.accs.all (fun x => decide (x.id < c.s.fresh)) && (c.s.core c.w.core).window.all fun x => decide (x.2.2.1 < c.s.fresh)) = true ∧
    readyWith mm (.stx { d := 3, a := 2, b := 12, md := 0x800 }) (fun c => c.sel != 0 && (c.gatherCheck true).isNone && !c.l.holds &&
      c.g.accs.all (fun x => decide (x.id < c.s.fresh)) && (c.s.core c.w.core).window.all fun x => decide (x.2.2.1 < c.s.fresh)) = true ∧
    readyWith (holding 1 mm) (.stx { d := 3, a := 2, b := 12, md := 0x800 }) (fun c => c.sel != 0 && (c.gatherCheck true).isNone && c.l.holds &&
      !c.holdFull ((c.globAddrs c.sel.lanes c.k c.gva).length * c.bytes)) = true := by decide
theorem witness_GatherWords_scratchpad : readyWith mm (.ldxs { d := 14, a := 4, b := 13, md := 0x800 }) (fun c =>
    let sp := c.spadAddrs c.sel.lanes c.k c.gspad
    c.sel != 0 && (c.checkSpad sp c.bytes c.bytes).isNone && !c.g.ctrFull 2 && !c.l.det && sp.all fun a => !isPoisoned c.w.spadBad a.va.toNat c.bytes) = true ∧
    readyWith mm (.stxs { d := 3, a := 4, b := 13, md := 0x800 }) (fun c => c.sel != 0 && !c.l.det && (c.checkSpad (c.spadAddrs c.sel.lanes c.k c.gspad) c.bytes c.bytes).isNone) = true := by decide
theorem witness_GatherWords_probe : readyWith mm (.probe { d := 3, a := 2, b := 12 }) (fun c =>
    c.sel != 0 && c.g.accs.all (fun a => a.kind != .probe) && decide (c.g.pins.length ≤ 256) && c.sel.lanes.all fun i =>
      !c.l.readable (c.gva i) 1 || (c.pageStarts (c.gva i) 1).isEmpty) = true := by decide
/-- A PROBE of the fragment whose walks are done, and which found lane 5 out of range. -/
def probed : Access := { acc0 with kind := .probe, sel := 0x21, probeMask := 3, probeOut := 0x20, parts := acc0.parts.map fun p => { p with st := .done, accepted := true } }
theorem witness_WordsComplete_probe : readyWith (withAccs [probed] mm) (.probe { d := 3, a := 2, b := 12 }) (fun c =>
    c.sel != 0 && c.g.accs.find? (fun a => a.kind == .probe && a.fid == c.f.fid) == some probed && probed.parts.all fun p => p.st == .done) = true ∧
    readyWith mm (.probe { d := 3, a := 2, b := 12 }) (fun c => c.sel != 0 && (c.g.accs.find? fun a => a.kind == .probe && a.fid == c.f.fid).isNone &&
      decide (c.pinning.length ≤ 256)) = true := by decide
def settled (a : Access) : Bool := !a.glob || a.kind == .pref || (match a.kind with | .trigger _ _ => true | _ => false)
theorem witness_GatherWords_unpin : readyWith mm (.unpin {}) (fun c => c.sel != 0 && c.g.accs.all fun a => a.kind != .unpin && settled a) = true ∧
    readyWith (withAccs [{ acc0 with parts := acc0.parts.map fun p => { p with accepted := true } }] mm) (.unpin {}) (fun c => c.sel != 0 && c.g.accs.all (fun a => a.kind != .unpin) && c.g.accs.any fun a => !settled a) = true := by decide

def debugging (s : State) : State := { s with dbg := { s.dbg with en := true } }
theorem witness_SystemWords_bkpt : ∀ i ∈ [Instr.bkpt {}, .bkptImm { imm := 7 }], readyWith few i (fun c => !c.s.dbg.en) = true ∧
    readyWith (debugging few) i (fun c => c.s.dbg.en && c.sel != 0 && decide (c.s.dbg.stops.length < 16)) = true := by decide
theorem witness_SystemWords_sigchk : readyWith few (.sigchk { imm := 0xFFFFFFFF }) (fun c => c.g.sig == 0xFFFFFFFF && c.f.exec == c.f.shadow) = true ∧
    readyWith few (.sigchk { imm := 7 }) (fun c => c.g.frags.length < 2 && c.g.trap.isNone && c.g.sig != 7 && c.sel != 0) = true ∧
    readyWith (none_ few) (.sigchk { imm := 7 }) (fun c => c.g.frags.length < 2 && c.g.trap.isNone && c.g.sig != 7 && c.f.exec == 0) = true := by decide
theorem witness_SystemWords_dx : (few.ready (Instr.dx { sub := 2 }).form).isSome = true := by decide
theorem witness_SystemWords_become : readyWith few (.become { a := 3 }) (fun c => (List.range 64).all fun i => decide ((c.src 0 i).w.toNat < 2 ^ 24)) = true ∧
    readyWith (few |> inGroup fun g => { g with vregs := [(3, Lanes.const 0x1000000)] }) (.become { a := 3 }) (fun c =>
      c.g.trap.isNone && c.f.exec.getLsbD 0 && c.f.f.getLsbD 0 && decide (2 ^ 24 ≤ (c.src 0 0).w.toNat)) = true := by decide

/-! ### Events of fragments and of time -/

def target : Arg := { wg := 2, grp := 0, ent := 0, core := 0, lid := 1 }
/-- The fragment of group 0 at the event's entry. -/
def hasFrag (s : State) (p : Workgroup → Group → Frag → Bool) : Bool := hasGroup s fun w g _ => match g.frag? s.arg.ent with | some f => p w g f | none => false
def other (core : Nat) (g : Group) : Workgroup := { run := 9, lid := 1, wgx := 1, core, groups := [g] }
theorem witness_FragmentWakes_sleep : hasFrag (few |> sleeping (.sleep 100) |> atTime 100 |> arg target) (fun _ _ f => f.st == .sleep 100) = true ∧
    hasFrag (few |> sleeping (.sleep 100) |> atTime 99 |> arg target) (fun _ _ f => f.st == .sleep 100) = true := by decide
def yielding : State := let s := few |> sleeping (.yield 35 5) |> atTime 98 |> arg target
  { s with wgs := s.wgs ++ [other 0 { grp := 0, part := 0, lastIssue := 6, frags := [(0, { fid := 77, pc := 0x80, f := 1, exec := 1, shadow := 1 })] }] }
theorem witness_FragmentWakes_yield : hasFrag (few |> sleeping (.yield 35 5) |> atTime 99 |> arg target) (fun _ _ f => f.st == .yield 35 5) = true ∧
    hasFrag yielding (fun w g f => f.st == .yield 35 5 && yielding.wgs.all fun x => x.core != w.core || x.groups.all fun h =>
      h.part != g.part || (x.run == w.run && h.grp == g.grp) || !h.ready || decide (5 < h.lastIssue)) = true := by decide
def monitor : Access := { acc0 with id := 55, kind := .waitm, parts := [{ lane := 0, ia := 0x100, size := 16, st := .walked }], dest := some { scal := true, num := 10 } }
def monitoring (till : Option Nat) : State := few |> sleeping (.waitm 55 till) |> atTime 99 |> withAccs [monitor] |> arg { target with line := 2 }
theorem witness_FragmentWakes_waitm : hasFrag (monitoring (some 99)) (fun _ g f => f.st == .waitm 55 (some 99) && match g.accs.find? (fun a => a.id == 55) with
    | some a => a.parts.head?.any (fun p => p.st == .walked && !(monitoring (some 99)).badIA p.ia 16) && a.dest.any fun d => d.num < 64
    | none => false) = true := by decide
def fragAt (n : Nat) (st : FragSt) : Nat × Frag := (n, { fid := 100 + n, pc := BitVec.ofNat 64 (8 * n), f := Mask.bit (n + 20), exec := 0, shadow := 0, st })
def withFrags (l : List (Nat × Frag)) (s : State) : State := s |> inGroup fun g => { g with frags := g.frags ++ l }
theorem witness_FragmentWakes_swap_free : hasFrag (few |> withFrags [fragAt 1 .ready, fragAt 3 .ready, fragAt 9 .ready] |> arg { target with ent := 9 })
    (fun w g f => f.wakes g && !few.detOf w && (g.frag? 2).isNone && (g.frag? 0).isSome && (g.frag? 1).isSome) = true := by decide
def crowded (st : FragSt) (s : State) : State := s |> withFrags (((List.range 7).map fun k => fragAt (k + 1) st) ++ [fragAt 9 .ready]) |> arg { target with ent := 9 }
/-- The on-chip fragment that changes places with the one at entry 9. -/
def swapsWith (s : State) (w : Workgroup) (g : Group) : Option Nat := (g.frags.find? fun x => decide (x.1 < 8) && x.2.sleeps && !(s.detOf w && x.2.keeps && !g.suspends x.2)).map (·.1)
theorem witness_FragmentWakes_swap_full : hasFrag (crowded (.join 2 0) few) (fun w g f => f.wakes g && !few.detOf w && (List.range 8).all (fun k => (g.frag? k).isSome) &&
      swapsWith few w g == some 1) = true ∧
    hasFrag (crowded (.join 2 0) (few |> sleeping (.join 2 0) |> withWord 0x198 2)) (fun w g f => f.wakes g && (few |> withWord 0x198 2).detOf w && g.swapDue == some 9 &&
      (List.range 8).all (fun k => (g.frag? k).isSome) && swapsWith (few |> withWord 0x198 2) w g == some 0) = true ∧
    hasFrag (few |> withWord 0x198 2 |> withFrags [fragAt 9 .ready] |> arg { target with ent := 9 }) (fun w g f => f.wakes g &&
      (few |> withWord 0x198 2).detOf w && g.swapDue == some 9 && (g.frag? 1).isNone && (g.frag? 0).isSome) = true := by decide
/-- Eight fragments on chip that a trap holds back, the handler's in the reserve, and no one asleep. -/
def handlerOff : State := crowded .ready few |> inGroup fun g => { g with trap := some 109, tpc := 0x47 }
theorem witness_FragmentWakes_swap_held : hasFrag handlerOff (fun w g f => f.wakes g && !few.detOf w && (List.range 8).all (fun k => (g.frag? k).isSome) &&
    (g.frags.find? fun x => decide (x.1 < 8) && x.2.sleeps && !(few.detOf w && x.2.keeps && !g.suspends x.2)).isNone &&
    !(g.frags.find? fun x => x.1 == 9).any g.heldBack && ((g.frags.find? fun x => decide (x.1 < 8) && g.heldBack x).map (·.1)) == some 0) = true := by decide
def stuck : State := arg target few |> inGroup fun g => { g with
  frags := [fragAt 1 (.join 2 5), fragAt 2 (.join 3 0), fragAt 4 (.join 2 1), fragAt 5 (.bwait 1 0 0 0 64)], joins := (g.joins.set 2 { exp := 5, arr := 4, ord := 3 }).set 3 { ord := 9 } }
theorem witness_FragmentWakes_stuck : hasGroup stuck (fun _ g _ => g.frags.all (fun x => match x.2.st with | .join .. | .bwait .. | .regroup _ => true | _ => false) &&
    (match g.sleepers 2 with | e :: rest => (g.frag? e).isSome && !rest.contains e | [] => false) &&
    (List.range 8).all fun m => m == 2 || g.sleepers m == [] || (g.join 2).ord < (g.join m).ord) = true := by decide
def hurried : State := arg target (atTime 512 few)
theorem witness_FragmentWakes_urgency : hurried.cyc / 256 ≠ (hurried.core hurried.arg.core).pred ∧ hasGroup hurried (fun w _ _ => w.core == hurried.arg.core && decide (w.groups.map (·.grp)).Nodup) = true ∧
    hasGroup (arg { target with core := 5 } hurried) (fun w _ _ => w.core != 5) = true := by decide
def leased : State := { monitoring none with cores := [(0, { l1 := [lineOf 99 2 false, lineOf 5 3 false], fetchBuf := [lineOf 9 2 false] })] }
theorem witness_FragmentWakes_lease : cleanB leased = true ∧ ((leased.core 0).l1.any fun x => x.line == leased.arg.line && !x.ut && decide (x.e ≤ leased.now (coreDie 0))) = true ∧
    hasFrag leased (fun w g f => w.core == 0 && f.st == .waitm 55 none && match g.accs.find? (fun a => a.id == 55) with
      | some a => a.parts.head?.any fun p => p.st == .walked && p.ia / 128 == leased.arg.line && region p.ia == .hbm
      | none => false) = true := by decide
def remote : State := { (few |> withWord 0x10 (BitVec.ofNat 64 (2 ^ 50)) |> arg { target with line := 2 ^ 43 }) with l2 := [{ line := 2 ^ 43, pa := 0, fillAt := 0 }] }
theorem witness_FragmentWakes_governor : few.serviceRuns = true ∧ 0 < 8 ∧ (arg { withheld := 1 } few).arg.withheld.getLsbD 0 = true := by decide
theorem witness_FragmentWakes_remote : (match remote.l2? remote.arg.line, remote.launches with
    | some x, [l] => (l.ranges.any fun r => decide (r.ia < 128 * x.line + 128) && decide (128 * x.line < r.ia + r.size)) && region (128 * x.line) == .package
    | _, _ => false) = true ∧ remote.l2.length = 1 := by decide

/-! ### Events of memory -/

def issued (s : State) : State := arg { src := lane0 s } (s |> partsOf fun p => { p with st := .issued, accepted := false })
def unmapped (s : State) : State := { s with xlat := { s.xlat with lev1 := [] } }
def walks (s : State) (r : LaneReq) (ok : Bool) : Bool :=
  match s.walk s.arg.flag r.p.ia with | .ok _ => ok | .error _ => !ok
theorem witness_MemoryPath_walk : hasLane (issued loading) (fun r => r.w.life != .killed && r.p.st == .issued && r.a.kind == .load &&
    ((issued loading).l2? (r.p.ia / 128)).isNone && walks (issued loading) r true) = true := by decide
theorem witness_MemoryPath_fault : hasLane (issued (onePart (unmapped storing))) (fun r => r.p.st == .issued && r.a.kind == .store &&
    ((issued (onePart (unmapped storing))).l2? (r.p.ia / 128)).isNone && walks (issued (onePart (unmapped storing))) r false && decide (r.a.parts = [r.p]) && !r.a.recorded && !r.a.replay && r.p.lane < 64) = true := by decide
def walked (s : State) : State := arg { src := lane0 s } (s |> partsOf fun p => { p with st := .walked })
theorem witness_MemoryPath_accept : hasLane (walked loading) (fun r => r.p.st == .walked && r.w.life != .killed) = true := by decide
theorem witness_MemoryPath_fill : hasLane (walked loading) (fun r => r.p.st == .walked && r.a.kind == .load && (walked loading).lineFree r.p.ia && !r.afterWrites && !r.afterReads && (walked loading).maySend r.p.ia 0 && (walked loading).mayRead (some r.l.dom) r.p.ia r.p.size 0 r.a.acq && r.g.frags.all (fun x => x.2.st == .ready) &&
    ((walked loading).errorAt (some r.l.dom) r.p.ia).isNone && !(walked loading).isolatedAt r.p.ia && !(walked loading).cutOff (some r.l.dom) r.p.ia r.p.size r.a.acq &&
    region r.p.ia == .hbm && !r.a.acq && cleanB (walked loading)) = true := by decide
theorem witness_MemoryPath_write : hasLane (walked storing) (fun r => r.p.st == .walked && r.a.kind == .store && !r.afterOthers && r.g.frags.all (fun x => x.2.st == .ready) &&
    ((walked storing).home (r.p.ia / 128)).owner.isNone && ((walked storing).errorAt (some r.l.dom) r.p.ia).isNone && region r.p.ia == .hbm && cleanB (walked storing)) = true := by decide
def stored : State := arg { src := lane0 storing } (onePart storing |> partsOf fun p => { p with st := .served, accepted := true, w := 77 })
theorem witness_MemoryPath_acknowledge : hasLane stored (fun r => r.p.st == .served && r.a.kind == .store && r.p.accepted && decide (r.a.parts = [r.p])) = true := by decide
def gathering : State := arg { core := 0 } (atTime 200 (stepOf (exec (.ldx { d := 14, a := 2, b := 12 }) mm)))
theorem witness_MemoryPath_window : ((gathering.core 0).window.length == 1 && decide ((gathering.core 0).windowAt + 32 ≤ gathering.cyc)) = true := by decide
def returning (f : Part → Part) : State := arg { wg := 2, grp := 0, acc := lastAcc loading } (loading |> partsOf fun p => f { p with st := .served, accepted := true })
def returns (s : State) (p : Launch → Access → Bool) : Bool := hasGroup s fun w g l => w.life != .killed && match g.accs.find? (fun a => a.id == s.arg.acc) with
  | some a => a.kind == .load && a.parts.all (fun p => p.accepted && p.st == .served) && p l a
  | none => false
theorem witness_MemoryPath_return : returns (returning id) (fun _ a => a.parts.all (fun p => !p.bad) && a.dest.any fun d => !d.scal && decide (d.num + d.n ≤ 128)) = true ∧
    returns (returning fun p => { p with bad := p.lane == 5 }) (fun l a => a.parts.any (·.bad) && !l.cont && !l.redn) = true := by decide

def atomicS : State := stepOf (exec (.atom { sub := 3, d := 14, a := 2, b := 12, c := 4, md := 0 }) mm)
def queuedAt (s : State) (w : Nat) : State :=
  { arg { line := 2, src := lane0 s } (s |> partsOf fun p => { p with st := .queued, w }) with homes := [(2, { h := w, queue := [{ src := lane0 s, w }] })] }
def applies (s : State) (p : Req → LaneReq → Bool → Bool) : Bool := match (s.home s.arg.line).queue with
  | r :: _ => (s.home s.arg.line).owner.isNone && (match s.lane? r.src with | some q => p r q (decide (s.homeNow (s.srcDom r.src) (128 * s.arg.line) < r.w)) | none => false)
  | [] => false
/-- The sector of the atomic's lane 0 is poisoned. -/
def poisonedAtomic : State := let s := queuedAt atomicS 0; { s with bad := [16] }
theorem witness_WritesApply : applies (queuedAt storing 5) (fun _ q early => early && q.a.kind == .store) = true ∧
    applies (queuedAt storing 0) (fun _ q early => !early && q.a.kind == .store && q.p.st == .queued) = true ∧
    applies (queuedAt atomicS 0) (fun _ q early => !early && (match q.a.kind with | .atomic _ ty _ _ => !(queuedAt atomicS 0).badIA q.p.ia (atomBytes ty) && !(queuedAt atomicS 0).spoilt (lane0 atomicS) | _ => false) &&
      (match (queuedAt atomicS 0).arg.comb with | .leaf _ => true | _ => false)) = true ∧
    applies poisonedAtomic (fun r q early => !early && (match q.a.kind with | .atomic _ _ ret _ => ret | _ => false) && poisonedAtomic.spoilt r.src &&
      (match poisonedAtomic.arg.comb with | .leaf _ => true | _ => false)) = true := by decide

/-! ### Faults and translation -/

def frozen (s : State) : State := { s with dbg := { s.dbg with en := true, frozen := true } }
/-- A load parked on a fault of reason 1 in every part, with a replay command given or not. -/
def faulted (replay : Bool) : State := arg { src := lane0 loading, ia := 0, flag := true } (onePart loading |> partsOf (fun p => { p with st := .faulted 1 }) |>
  inGroup fun g => { g with accs := g.accs.map fun a => { a with replay, recorded := replay }, frags := g.frags.map fun x => (x.1, { x.2 with st := .parked (lastAcc loading) }) })
theorem witness_FaultResolution_commands : (frozen few).dbg.frozen = true ∧ few.serviceRuns = true ∧ (faulted false).dbg.frozen = false ∧ hasGroup (faulted false) (fun w g _ =>
    w.life != .killed && g.accs.any fun a => a.parts.any fun p => p.st == .faulted 1 && inSpan 0 true p.ia) = true := by decide
theorem witness_FaultResolution_resend : hasLane (faulted true) (fun r => r.a.replay && r.a.recorded && cleanB (faulted true) && r.p.st == .faulted 1 && r.a.kind == .load && decide (r.a.parts = [r.p]) &&
    r.g.frags.all fun x => x.2.st == .parked r.a.id) = true := by decide
def poisonTier : State := arg { src := lane0 loading, reason := 2 } (loading |> partsOf fun p => { p with ia := 2 ^ 50 })
theorem witness_FaultResolution_error : hasLane poisonTier (fun r => r.p.unanswered && r.w.life != .killed && poisonTier.reasonFits (some r.l.dom) r.p.ia 2) = true := by decide
/-- The service firmware may write everywhere; each stack reserves 2 MiB, that of stack 0 at PA 0x8000; entry 1 of level 1
points to a block there. -/
def mapping (level : Nat) : State := { arg { ia := 0x250000, level, v := 0x300003 } mm with
  xlat := { mm.xlat with lev1 := [(0, 3), (1, 0x8001)], cache := [(2, 0x25, 7), (2, 0x26, 8)], invals := [(0x250000, false)] }
  dev := { mm.dev with windows := [(0, 0), (1, BitVec.ofNat 64 (2 ^ 40)), (2, 2)], rsvsz := 1, reserved := [0x8000] } }
/-- Entry 3 of a block at PA 0x9000 that nothing points to yet. -/
def building : State := let s := mapping 2; { s with arg := { s.arg with flag2 := true, off := 0x9018 } }
theorem witness_TranslationChanges : (mapping 1).regionAt (mapping 1).arg.ia = .hbm ∧ (mapping 1).serviceRuns = true ∧ (mapping 2).serviceRuns = true ∧ building.serviceRuns = true ∧ (mapping 1).arg.level = 1 ∧ (mapping 2).arg.level = 2 ∧
    (Map.look 0 (mapping 2).xlat.lev1 (0x250000 / 2 ^ 21)).getLsbD 0 = true ∧ (Map.look 0 (mapping 2).xlat.lev1 (0x250000 / 2 ^ 21)).getLsbD 1 = false ∧
    (mapping 1).tablesOpen = true ∧ (mapping 1).mapsReserved 1 0x300003 = false ∧ (mapping 2).mapsReserved 2 0x300003 = false ∧
    (0x250000, false) ∈ (mapping 1).xlat.invals ∧ (mapping 1).pinned 0x250000 false = false ∧ (mapping 1).inFlight 0x250000 false = false := by decide
theorem witness_TranslationChanges_blocks : (match (mapping 2).reservedIa (entryAddr (Map.look 0 (mapping 2).xlat.lev1 1) + 8 * 5) with
      | some y => (mapping 2).windowed 1 y 8 | none => false) = true ∧
    (match building.reservedIa 0x9018 with | some y => building.windowed 1 y 8 | none => false) = true ∧ building.arg.off % 8 = 0 ∧ building.arg.level = 2 ∧
    building.regionAt building.arg.ia = .hbm ∧ building.mapsReserved 2 0x300003 = false := by decide
def pinning : State := { (mapping 1 |> inGroup fun g => { g with pins := [0x25] }) with xlat := { (mapping 1).xlat with pinned := [(0x25, 1, 0)] } }
def reserving : State := { mapping 1 with dev := { (mapping 1).dev with rsvsz := 1, reserved := [0x200000] } }
theorem witness_TranslationChanges_waits : (0x250000, false) ∈ pinning.xlat.invals ∧ pinning.pinned 0x250000 false = true ∧
    ({ mapping 1 with homes := [(0x250000 / 128, { queue := [{ src := lane0 mm, w := 5 }] })] } : State).inFlight 0x250000 false = true ∧
    reserving.regionAt 0x250000 = .hbm ∧ reserving.mapsReserved 1 0x300003 = true := by decide

/-! ### Queues, arrivals, the press, copies -/

/-- The block of the queue at IA 0x4000. -/
def blockOf (s : State) : QBlock := match s.block? (.mem 0x4000) with | some (b, _) => b | none => QBlock.fresh 0 0
def setBlock (f : QBlock → QBlock) (s : State) : State := { s with mem := s.mem.write 0x4000 (f (blockOf s)).bytes }
def atQueue (s : State) : State := arg { q := .mem 0x4000 } s
def waitingPush : State := qm |> setBlock (fun b => { b with tail := 7, resv := 7, free := 1 }) |> (fun s => stepOf (exec (.qpush { a := 4, b := 10, md := 0x1000 }) s)) |>
  setBlock (fun b => { b with free := 4, head := 3 }) |> atQueue
def waitingPop : State := qm |> (fun s => stepOf (exec (.qpop { d := 12, b := 10, md := 0x1000 }) s)) |> setBlock (fun b => { b with tail := 3, resv := 3, free := 5 }) |> atQueue
def readPop : State := stepOf (exec .queuePopGrant waitingPop) |> partsOf fun p => { p with st := .served, accepted := true }
def writtenPush : State := qm |> setBlock (fun b => { b with tail := 1, resv := 1, free := 7 }) |> (fun s => stepOf (exec (.qpush { a := 4, b := 10, md := 0x1000 }) s)) |>
  partsOf (fun p => { p with st := .done, accepted := true, w := 50 }) |> atTime 100 |> atQueue
def atWaiter (s : State) (p : QCtl → QBlock → Nat × Nat × Nat → Access → QOp → Bool) : Bool :=
  let x := (2, 0, lastAcc s)
  match s.block? (.mem 0x4000), s.waiter x with
  | some (b, false), some (g, a) => (s.l2? (0x4000 / 128)).isSome && !(s.qctl (.mem 0x4000)).requeue && (s.qctl (.mem 0x4000)).frozen == 0 && (s.qctl (.mem 0x4000)).stale.isEmpty && s.queueCode (.mem 0x4000) (some 0) == 0 &&
    (s.errorAt (some 0) 0x4000).isNone && (s.beatenTries (s.popLeft (.mem 0x4000) b) false (s.qctl (.mem 0x4000)).popW).isEmpty &&
    (s.wg? 2).isSome && s.wgs.all (fun u => !u.pend) && g.grp == 0 && a.q.any fun o => (o.overrun ((s.launch? 1).elim 0 (·.spad)) b).isEmpty && p (s.qctl (.mem 0x4000)) b x a o
  | _, _ => false
theorem witness_QueueEvents_push : atWaiter waitingPush (fun c b x _ o => c.pushW == [x] && !o.misfit b && decide (o.lanes.length ≤ b.free ∧ b.resv + o.lanes.length < 2 ^ 64)) = true := by decide
theorem witness_QueueEvents_pop : atWaiter waitingPop (fun c b x _ o => c.popW == [x] && !o.misfit b && !o.tryForm && !b.ppend && decide (o.lanes.length ≤ b.tail - b.head)) = true := by decide
theorem witness_QueueEvents_commit : atWaiter readPop (fun c b x a o => c.pop == some x && o.data == [2] && !o.spad && decide (b.head + 2 < 2 ^ 64) &&
    a.parts.all fun p => p.st == .served && !p.bad) = true := by decide
theorem witness_QueueEvents_tail : atWaiter writtenPush (fun c b x a _ => c.pushes == [(2, 0, x.2.2, 1, 2)] && x.1 != 0 &&
    a.prefixDone (writtenPush.now (writtenPush.ctlDie (.mem 0x4000) (some 0))) == 2 && decide (1 ≤ b.tail ∧ b.tail < 1 + 2)) = true := by decide

def arriving (waits : List Nat) : State := few |> inGroup (fun g => { g with barvs := [⟨3, 100, waits⟩] }) |>
  withAccs [{ acc0 with id := 7, kind := .store, parts := [{ lane := 0, size := 4, ia := 0x100, st := .walked }] }] |> arg { wg := 2, grp := 0 }
theorem witness_ArrivalsAndRegroups_arrival : hasGroup (arriving [7]) (fun _ g _ => match g.barvs with | b :: _ => b.waits.any g.pendingAcc | [] => false) = true ∧
    hasGroup (arriving []) (fun _ g _ => match g.barvs with | b :: _ => !b.waits.any g.pendingAcc | [] => false) = true := by decide
def regrouping (n : List Nat) : State := few |> inFrag (fun f => { f with st := .regroup n, f := 0x3F }) |> arg { wg := 2 }
def regroups (s : State) (p : Workgroup → Launch → Nat → Bool) : Bool := hasGroup s fun w _ l => w.life == .running && !l.det && w.vatFaults.isEmpty &&
  w.groups.all (fun g => g.frags.all fun x => match x.2.st with | .regroup _ => true | _ => false) && w.groups.any (fun g => !g.frags.isEmpty) &&
  w.groups.all (fun g => g.frags.isEmpty || g.settled) && p w l (w.threads.map (·.n)).sum
theorem witness_ArrivalsAndRegroups_none : regroups (regrouping []) (fun w _ n => n == 0 && w.levels.isEmpty) = true := by decide
theorem witness_ArrivalsAndRegroups_racked : regroups (regrouping [0, 3, 0, 2, 1, 5]) (fun w l n => decide (0 < n ∧ n ≤ 64 * l.ng) &&
    w.threads.all fun y => y.p.pc == 8 && y.p.link == 0x123) = true := by decide

def pass : PressOp := { id := 1, wg := 2, grp := 0, pc := 0, mma := true, slot := 0, row := 4, count := 64, k := 0 }
theorem witness_PressEvents_start : ∀ p ∈ [clearing 1 0 4, pass], hasGroup (few |> slots 3 3 0 |> pressed [p] false 0) (fun _ _ l => p.wg == 2 &&
    !(few |> pressed [p] false 0).portWanted ((few |> pressed [p] false 0).core 0) && !few.dbg.frozen && (!p.mma || (l.slotAt p.slot).fmt != 4)) = true := by decide
theorem witness_PressEvents_complete : (few |> pressed [pass] true 50).cyc < 50 ∧ ∀ p ∈ [clearing 1 0 4, pass], hasGroup (few |> slots 3 3 0 |> pressed [p] true 50 |> atTime 50)
    (fun w _ l => w.life != .killed && (p.poison l w).isNone && (!p.mma || p.count == 64)) = true := by decide
theorem witness_PressEvents_pass : 5 < 64 ∧ 100 < 128 ∧ (if (Slot.ofWord 3).blockSize = 0 then 32 else (Slot.ofWord 3).blockSize) ∈ [16, 32] ∧
    (if (Slot.ofWord (5 + 16 * 2)).blockSize = 0 then 32 else (Slot.ofWord (5 + 16 * 2)).blockSize) ∈ [16, 32] := by decide

/-- What a channel's copy meets, with the premises of every clause. -/
def copies (s : State) (p : Channel → Trigger → Workgroup → Launch → Bool) : Bool := match s.copy? 0 1 with
  | some (t0, w, l) => let x := (s.core 0).chan 1
    x.paused.isNone && p x t0 w l
  | none => false
def alone (s : State) (x : Channel) (w : Workgroup) (l : Launch) : Bool := !l.redn && w.life != .killed && w.core == 0 && (x.trigs.drop 1).all (fun u => u.wg != w.run) &&
  (List.range 16).all fun k => k == 1 || ((s.core 0).chan k).trigs.isEmpty
def past : State := copyAt 0 fun x => { x with trigs := x.trigs.map fun t => { t with word := 0x0300_0000_0000_0000 } }
theorem witness_CopyEvents_number : copies past (fun x t0 w l => x.st == .idle && decide (l.ntpl ≤ (t0.word.extractLsb' 56 8).toNat) && alone past x w l) = true := by decide
theorem witness_CopyEvents_fetch : copies (copyAt 0 id) (fun x t0 w l =>
    let s := copyAt 0 id
    let ia := l.iaOf (l.ttab + 128 * (t0.word.extractLsb' 56 8).toNat)
    let c : Copy := { l, w, word := t0.word, r := (List.range 16).map fun i => BitVec.ofNat 64 (leNat (((s.readIA ia 128).drop (8 * i)).take 8)) }
    x.st == .idle && decide ((t0.word.extractLsb' 56 8).toNat < l.ntpl) && (s.xlatFault ia).isNone && s.freeFor 0 1 ia && (s.errorAt (some l.dom) ia).isNone &&
      s.mayRead (some l.dom) ia 128 0 && !s.cutOff (some l.dom) ia 128 && !s.badIA ia 128 &&
      c.wellFormed && c.kind == 0) = true := by decide
theorem witness_CopyEvents_claims : copies (copyAt 1 fun x => { x with st := .claim, record := template 1, claims := [(18, 55)], claimedW := 55 }) (fun x t0 _ _ =>
    x.st == .claim && x.claims.all (fun y => y.2 != 0) && !x.trigs.isEmpty && !t0.acked) = true := by decide
def landing : State := copyAt 0 fun x => { x with st := .move, record := template 0, got := [(0, (List.range 64).map fun i => (BitVec.ofNat 8 (i + 1), false))] }
theorem witness_CopyEvents_piece : copies (copyAt 0 fun x => { x with st := .move, record := template 0 }) (fun x t0 w l =>
    let s := copyAt 0 fun x => { x with st := .move, record := template 0 }
    x.st == .move && x.pending.isEmpty && (match s.sourceBytes { l, w, word := t0.word, r := x.record } 0 1 (({ l, w, word := t0.word, r := x.record } : Copy).chunk x.next) with
      | .piece i ia bs => i == 0 && s.key ia == 0x800 && bs.length == 64 && (bs.getD 3 (0, false)).1 == 4 | _ => false)) = true := by decide
theorem witness_CopyEvents_land : copies landing (fun x t0 w l =>
    let c : Copy := { l, w, word := t0.word, r := x.record }
    x.st == .move && x.pending.isEmpty && c.kind == 0 && landing.chanTurn 0 1 && (match landing.sourceBytes c 0 1 (c.chunk x.next) with | .data _ => true | _ => false)) = true := by decide
def landed (st : ChanSt) : State := copyAt 0 fun x => { x with st, record := template 0, pending := if st = .move then [(0x40, List.replicate 16 7, false)] else [] }
theorem witness_CopyEvents_sector : copies (landed .move) (fun x t0 w l => x.st == .move && x.pending.length == 1 && w.life != .killed &&
      ({ l, w, word := t0.word, r := x.record } : Copy).kind == 0 && !({ l, w, word := t0.word, r := x.record } : Copy).ben) = true ∧
    copies (landed .signal) (fun x t0 w l => x.st == .signal && !({ l, w, word := t0.word, r := x.record } : Copy).ben) = true := by decide
def finishing : State := { copyAt 1 (fun x => { x with st := .move, record := template 1, pending := [(0x900, List.replicate 64 7, false)] }) with homes := [(18, { owner := some (.copy 0 1) })] }
theorem witness_CopyEvents_line : copies finishing (fun x t0 w l =>
    let c : Copy := { l, w, word := t0.word, r := x.record }
    x.st == .move && c.kind == 1 && x.pending.length == 1 && x.pending.all (fun p => p.1 / 128 == finishing.arg.line && region p.1 == .hbm) &&
      (finishing.home finishing.arg.line).owner == some (.copy 0 1) && (finishing.errorAt (some l.dom) (128 * finishing.arg.line)).isNone && !c.ben && w.life != .killed && cleanB finishing && x.pending.all fun p => !p.2.2) = true := by decide
/-- Two channels that wait for each other. -/
def circle : State :=
  let s := copyAt 1 fun x => { x with st := .move, record := template 1, order := 9 }
  { s with
    cores := s.cores ++ [(1, { chans := (Vector.replicate 16 {}).set 3 { trigs := [{ wg := 3, grp := 0, acc := 78, pc := 0, word := 0 }], st := .move, record := [0x900, 0xB00] ++ (template 1).drop 2, order := 4 } })]
    wgs := s.wgs ++ s.wgs.map fun w => { w with run := 3, core := 1 }
    homes := [(16, { owner := some (.copy 1 3) }), (18, { owner := some (.copy 0 1) })] }
theorem witness_CopyEvents_cycle : copies circle (fun x _ w l => x.st == .move && circle.waitsFor 0 1 == some (1, 3) && circle.waitsFor 1 3 == some (0, 1) &&
    decide (2 ≤ 16 * circle.cores.length ∧ ((circle.core 1).chan 3).order ≤ x.order) && alone circle x w l) = true := by decide

/-! ### Launches -/

/-- A record that acceptance takes: one workgroup of 64 threads. -/
def fitting : List DWord := probeRecord.set 50 0x1_4010
def accepts (s : State) (p : Nat → Bool) : Bool := match s.nextQueue 0 with
  | some n => (match s.block? (.mem (s.lqBlock n)) with
    | some (b, false) =>
      let u := s.touchAll (some 0) ((spanLines (b.slot b.head) 512).map fun x => (x.1, x.2.2))
      let record := (List.range 64).map fun i => BitVec.ofNat 64 (leNat (((u.readSpan (b.slot b.head) 512).drop (8 * i)).take 8))
      s.dev.ready == 5 && s.queueCode (.mem (s.lqBlock n)) (some 0) == 0 && s.launches.all (fun l => l.lid != s.fresh) &&
        (s.errorAt none (s.lqBlock n)).isNone && (s.spanError none (b.slot b.head) 512).isNone && p (u.verdict { lid := s.fresh, lq := n, seq := b.head, record, order := s.fresh, ext := [64, 1, 1, 1, 1, 1] } 0 (u.badSpan (b.slot b.head) 512))
    | _ => false)
  | none => false
theorem witness_LaunchesBegin_taken : accepts (queued fitting) (fun st => st == 0) = true := by decide
theorem witness_LaunchesBegin_rejected : accepts (queued (fitting.set 45 0x1_0000_0000)) (fun st => st == 0x10) = true := by decide
/-- A launch of that record in a phase. -/
def launched (ph : Phase) (s : State) : State := { s with launches := [{ lid := 1, lq := 16, seq := 0, record := fitting, phase := ph, ext := [64, 1, 1, 1, 1, 1] }], arg := { lid := 1 }, fresh := 2 }
def pkg : State := queued []
def hasLaunch (s : State) (p : Launch → Bool) : Bool := match s.launch? s.arg.lid with | some l => p l | none => false
def waitWords (s : State) (l : Launch) : List Bool := [0x1E0, 0x1E8, 0x1F0, 0x1F8].map fun o => s.waitHolds (l.word o)
theorem witness_LaunchesBegin_waits : hasLaunch (launched .waiting pkg) (fun l => l.phase == .waiting && (waitWords (launched .waiting pkg) l).all id) = true ∧
    hasLaunch (launched .waiting pkg |> withWord 0x1E8 0x8000_0000_0000_0005) (fun l => l.phase == .waiting &&
      !(waitWords (launched .waiting pkg |> withWord 0x1E8 0x8000_0000_0000_0005) l).all id) = true := by decide
theorem witness_LaunchesBegin_counts : hasLaunch (launched .counting pkg) (fun l => l.phase == .counting && !l.resume && l.icnt == 0) = true ∧
    hasLaunch (launched .counting pkg |> withWord 0x180 0x3000) (fun l => l.phase == .counting && !l.resume && l.icnt != 0 && (spanLines (l.iaOf l.icnt) 20).all (fun x => (pkg.xlatFault x.1).isNone && pkg.lineFree x.1) &&
      (pkg.spanError (some l.dom) (l.iaOf l.icnt) 20).isNone &&
      (spanLines (l.iaOf l.icnt) 20).all (fun x => !pkg.cutOff (some l.dom) x.1 x.2.2) && !pkg.badSpan (l.iaOf l.icnt) 20 &&
      (pkg.carryAll (some l.dom) 0 ((spanLines (l.iaOf l.icnt) 20).map fun x => (x.1, x.2.2))).isSome) = true := by decide
theorem witness_LaunchesBegin_start : hasLaunch (launched .holding pkg) (fun l => l.phase == .holding && decide (l.start ≤ (launched .holding pkg).now 0) &&
      ((launched .holding pkg).launchDies l).all fun d => d == 0) = true ∧
    hasLaunch (launched .holding pkg |> withWord 0x1D0 500) (fun l => l.phase == .holding && decide ((launched .holding pkg).now 0 < l.start)) = true := by decide
def placing : State := launched .placing pkg
def places (s : State) (p : Option (List (Nat × Nat × Fit)) → Bool) : Bool := hasLaunch s fun l =>
  l.phase == .placing && !s.yieldsTo l && l.redo.isEmpty && decide (l.next < l.limit ∧ l.limit = l.total ∧ l.extent 1 ≤ 1) && l.avoid.isEmpty &&
    s.wgs.all (fun w => decide (w.run < s.fresh) && (w.lid != l.lid || !w.rolled)) && !l.redn && p (s.unitPlace l { wgxs := [l.next], copy := 0, fresh := true })
theorem witness_WorkgroupPlaced : places placing (fun x => match x with | some [(0, _, _)] => true | _ => false) = true ∧
    places { placing with dev := { placing.dev with domains := [] } } (fun x => x.isNone) = true := by decide

def ended (life : Life) (rolled : Bool) : State := few |> inWg (fun w => { w with life, rolled }) |> arg { wg := 2, lid := 1 }
theorem witness_LaunchesEnd_workgroup : hasGroup (ended .retiring false) (fun w g l => !(ended .retiring false).busyWith w && w.life == .retiring && !l.cont && !l.det && !l.redn && !(ended .retiring false).bottling l.lid (some w.wgx) && decide (l.bottleW ≤ (ended .retiring false).now (coreDie w.core)) &&
      decide (g.maxw ≤ (ended .retiring false).now (coreDie w.core)) && l.phase == .running && decide (l.limit ≤ l.next) && l.redo.isEmpty && l.runs.isEmpty) = true ∧
    hasGroup (ended .killed false) (fun w _ _ => !(ended .killed false).busyWith w && w.life == .killed && !w.rolled) = true ∧
    hasGroup (ended .killed true) (fun w _ l => !(ended .killed true).busyWith w && w.rolled && l.phase != .draining && !l.killed.contains w.wgx && !l.late.contains w.wgx) = true := by decide
def completing (f : Launch → Launch) : State := { (few |> withWord 0x18 0x27 |> inLaunch (fun l => f { l with phase := .completing }) |> arg { lid := 1 }) with wgs := [] }
theorem witness_LaunchesEnd_record : hasLaunch (completing id |> withWord 0x1A8 0x840) (fun l => l.phase == .completing && !(completing id).bottling l.lid none &&
    decide (l.bottleW ≤ (completing id).now 0) && !l.status.contains 1 && l.crec != 0 && l.status.all fun x => decide (x < 256)) = true := by decide
/-- A pre-empted launch that ends with its save area at an address and the event's errors. -/
def saving (save : DWord) (flag flag2 : Bool) : State :=
  let s := completing (fun l => { l with status := [1] }) |> withWord 0x1B8 save
  { s with arg := { s.arg with flag, flag2 } }
def saves (s : State) (p : Launch → Bool) : Bool := hasLaunch s fun l => l.phase == .completing && !s.bottling l.lid none && l.status.contains 1 && !l.cancel &&
  l.crec == 0 && decide (l.bottleW ≤ s.now 0) && p l
set_option maxRecDepth 2000000 in
theorem witness_LaunchesEnd_save : saves (saving 0x1000 false false) (fun l => l.savesNear && (saving 0x1000 false false).saveOk l) = true := by decide
theorem witness_LaunchesEnd_alternate : saves (saving 0 false false) (fun l => l.savesNear && !(saving 0 false false).saveOk l) = true ∧
    saves (saving 0 true true) (fun l => l.savesNear) = true := by decide
/-- Lost by the event's error; else no stack is absent, so that none of the alternate area's is. -/
theorem witness_LaunchesEnd_lost : (saving 0 true true).arg.flag2 = true ∧ (saving 0 false false).arg.flag2 = false ∧ (saving 0 false false).dev.absent = 0 := by decide
/-- A save to host memory, in a phase of its stores, and with the PCIe port isolated or not. -/
def savingFar (n : Nat) (bad cut : Bool) : State :=
  let s := saving 0x1000 false false |> withWord 0x10 (BitVec.ofNat 64 (2 ^ 51)) |> inLaunch fun l => { l with saving := n, saveBad := bad }
  { s with dev := { s.dev with isolated := if cut then [22] else [] } }
/-- What a launch whose next stores can go meets. -/
def goesOn (n : Nat) (p : State → Launch → Bool) : Bool := saves (savingFar n false false) fun l =>
  !l.savesNear && !(savingFar n false false).saveSent l && !(savingFar n false false).arg.flag && !l.saveBad && l.saving == n && p (savingFar n false false) l
theorem witness_LaunchesEnd_far : goesOn 0 (fun s l => s.magicOpen l) = true ∧ goesOn 3 (fun _ _ => true) = true := by decide
theorem witness_LaunchesEnd_far_area : goesOn 1 (fun s l => s.saveOk l) = true ∧ goesOn 2 (fun s l => s.saveOk l) = true := by decide
theorem witness_LaunchesEnd_far_lost : saves (savingFar 0 false true) (fun l => !l.savesNear && !(savingFar 0 false true).saveSent l && l.saving == 0 &&
      !(savingFar 0 false true).magicOpen l) = true ∧
    saves (savingFar 2 false true) (fun l => !l.savesNear && l.saving != 0 && decide (l.saving < 3) && !(savingFar 2 false true).saveOk l) = true ∧
    saves (savingFar 3 true false) (fun l => !l.savesNear && l.saving != 0 && l.saveBad) = true := by decide
def recording (w : Nat) : State := completing (fun l => { l with phase := .recording, recW := some w }) |> withWord 0x1D8 0x1003_0000_0000 |> atTime 60
theorem witness_LaunchesEnd_counter : hasLaunch (recording 50) (fun l => l.phase == .recording && l.recW == some 50 && decide (50 ≤ (recording 50).now 0) && l.bits 0x1D8 44 1 == 1) = true ∧
    hasLaunch (recording 70) (fun l => l.recW == some 70 && decide ((recording 70).now 0 < 70)) = true := by decide

def requested (ph : Phase) : State := few |> inLaunch (fun l => { l with phase := ph, seq := 9 }) |> arg { lq := 16, word32 := 9 }
theorem witness_Preemption_request : ∀ ph ∈ [Phase.waiting, .counting, .holding, .placing, .running], (match (requested ph).named 16 9 with
    | some l => l.phase == ph && (requested ph).launches.length == 1 && (requested ph).wgs.any fun w => w.lid == l.lid
    | none => false) = true := by decide
def drained (n : Nat) (st : FragSt) : State := few |> sleeping st |> atTime n |> inLaunch (fun l => { l with phase := .draining, drainAt := some 900 }) |> withWord 0x1D8 200 |> arg { lid := 1, core := 0 }
theorem witness_Preemption_core : ∀ st ∈ [FragSt.ready, .sleep 5000], hasGroup (drained 1000 st) (fun w g l => l.phase == .draining && w.core == 0 && w.life == .running &&
    (drained 1000 st).queues.isEmpty && cleanB (drained 1000 st) && decide (g.frags.Pairwise fun a b => a.1 ≠ b.1)) = true := by decide
theorem witness_Preemption_grace : hasLaunch (drained 1000 .ready) (fun l => l.drainAt == some 900 && decide ((drained 1000 .ready).now 0 < 900 + l.grace)) = true ∧
    hasLaunch (drained 1100 .ready) (fun l => l.drainAt == some 900 && decide (900 + l.grace ≤ (drained 1100 .ready).now 0)) = true := by decide
def pressing (n : Nat) : State :=
  let s := few |> atTime n
  { s with
    launches := s.launches ++ [{ lid := 50, lq := 1, seq := 0, record := fitting, phase := .placing, ext := [64, 1, 1, 1, 1, 1], order := 9, readyAt := 2500 }]
    arg := { lid := 50 } }
def presses (s : State) (late : Bool) : Bool := hasLaunch s fun l => l.cls == 0 && l.phase == .placing && l.readyAt != 0 && l.victims.all (fun v => (s.launch? v).isNone) &&
  match s.nextUnit l, (s.victims l).head? with
  | some u, some v => late == decide (l.readyAt + 2000 ≤ s.dtime) && (({ s with wgs := s.wgs.filter fun w => w.lid != v.lid } : State).unitPlace l u).isSome && s.wgs.any (fun w => w.lid == v.lid)
  | _, _ => false
theorem witness_Preemption_class0 : presses (pressing 4000) false = true ∧ presses (pressing 5000) true = true := by decide

def full : State := holding 1 few |> inWg (fun w => { w with heldOver := [0], held := [{ grp := 0, ia := 0x4000, size := 4, dat := 7 }] }) |> arg { lid := 1 }
theorem witness_LaunchModes_rollback : full.wgs.length = 1 ∧ (full.launch? full.arg.lid).isSome = true ∧ hasGroup full (fun w _ _ => w.lid == 1 && w.life == .running && w.overHold) = true := by decide
def redundant (b : List Byte) : State := completing fun l => { l with
  phase := .running, runs := [(0, 0, [1, 2]), (0, 1, b)], streams := [(0, 0, [{ grp := 0, ia := 0x4000, size := 4, dat := 7 }]), (0, 1, [])] }
theorem witness_LaunchModes_compare : hasLaunch (redundant [1, 2]) (fun l => l.runs.find? (fun r => r.1 == 0 && r.2.1 == 0) == some (0, 0, [1, 2]) &&
      l.runs.find? (fun r => r.1 == 0 && r.2.1 == 1) == some (0, 1, [1, 2]) && (l.runs.find? (fun r => r.1 == 0 && r.2.1 == 2)).isNone &&
      (l.streams.find? (fun r => r.1 == 0 && r.2.1 == 0)).isSome && !(redundant [1, 2]).cohortRuns l 0 && !l.killed.contains 0 &&
      ((l.cohortOf 0).all fun x => !l.mismatched x) && l.runs.all fun r => r.1 != 0 || r.2.1 != 3) = true ∧
    hasLaunch (redundant [1, 3]) (fun l => l.runs.find? (fun r => r.1 == 0 && r.2.1 == 1) == some (0, 1, [1, 3]) && !(redundant [1, 3]).cohortRuns l 0 && !l.killed.contains 0 && l.phase != .draining) = true := by decide
def settling (n : Nat) : State := completing fun l => { l with phase := .running, runs := [(0, 3, [])], bottleW := n }
theorem witness_LaunchModes_settled : hasLaunch (settling 0) (fun l => l.runs.any (fun r => r.1 == 0 && r.2.1 == 3) && !(settling 0).bottling l.lid (some 0) &&
      decide (l.bottleW ≤ (settling 0).now 0)) = true ∧
    hasLaunch (settling 9) (fun l => l.runs.any (fun r => r.1 == 0 && r.2.1 == 3) && decide ((settling 9).now 0 < l.bottleW)) = true := by decide
/-- A deterministic launch with a second running workgroup, whose group has the given LCLK. -/
def clocked (n : Nat) : State :=
  let s := holding 2 few |> withWord 0x1A0 0x0000_0004_0000_0400 |> arg { lid := 1, wg := 2, grp := 0 }
  { s with wgs := s.wgs ++ s.wgs.map fun w => { w with run := 33, wgx := 3, groups := w.groups.map fun g => { g with lclk := n } } }
def before (g : Group) (s : State) (w : Workgroup) (l : Launch) : Bool := (s.running l.lid).any fun x => x.groups.any fun h => !h.frags.isEmpty &&
  (decide (h.clock l.quantum < g.lclk) || (h.clock l.quantum == g.lclk && (decide (x.wgx < w.wgx) || (x.wgx == w.wgx && decide (h.grp < g.grp)))))
theorem witness_LaunchModes_turn : hasGroup (clocked 5) (fun w g l => l.det && !l.ending && !g.atEnd && !before g (clocked 5) w l && ((clocked 5).running l.lid).all fun x => x.groups.all fun h => !h.atomWaits && h.barvs.isEmpty) = true ∧
    hasGroup (clocked 5 |> inWg fun w => { w with groups := w.groups.map fun g => { g with lclk := if w.run = 2 then 9 else 5 } }) (fun w g l =>
      l.det && before g (clocked 5 |> inWg fun w => { w with groups := w.groups.map fun g => { g with lclk := if w.run = 2 then 9 else 5 } }) w l) = true := by decide
def atQuantumEnd : State := clocked 5 |> inLaunch fun l => { l with ending := true }
theorem witness_LaunchModes_quantum : hasLaunch (clocked 5) (fun l => l.det && !l.ending && !(clocked 5).allCounted l.lid) = true ∧
    hasLaunch atQuantumEnd (fun l => l.det && l.ending && atQuantumEnd.wgs.all (fun w => w.life == .running && w.held.isEmpty && w.vatFaults.isEmpty && !w.groups.isEmpty &&
        decide (l.bottleW ≤ atQuantumEnd.now (coreDie w.core)) && w.groups.all fun g => g.frags.any fun x => match x.2.st with | .regroup _ => false | _ => true) &&
      !atQuantumEnd.bottling l.lid none && !atQuantumEnd.copying l.lid) = true := by decide

/-! ### The host, the network, firmware, reliability and debug -/

def bytes300 : List Byte := (List.range 300).map fun i => BitVec.ofNat 8 (i * 7)
def lined (ia n : Nat) (s : State) : Bool := (spanLines ia n).all fun x => s.regionAt x.1 == .hbm && (s.ownerDom x.1).isSome
theorem witness_HostWrites_recovery : ({ pkg with fw := { pkg.fw with recovery := true } } : State).fw.recovery = true ∧ pkg.fw.recovery = false ∧
    (∀ x ∈ [RegSpace.bar0, .debug, .firmware], (arg { space := x } { pkg with fw := { pkg.fw with recovery := true }, dev := { pkg.dev with ready := 0 } }).arg.space = x) ∧
    ({ pkg with fw := { pkg.fw with recovery := true }, dev := { pkg.dev with ready := 0 } } : State).dev.ready = 0 := by decide
theorem witness_HostWrites_bar2 : 0x77 + bytes300.length ≤ 2 ^ 36 ∧ lined (pkg.dev.winbase.toNat + 0x77) bytes300.length pkg = true ∧ 2 ^ 36 < 2 ^ 36 - 5 + bytes300.length := by decide
theorem witness_HostWrites_registers : (7 < 4096 ∧ 7 < 1024 ∧ 3 < 4 ∧ 7 < 64 ∧ 1 < 2) ∧ (arg { space := .debug, off := 0xC8 } pkg).arg.space = .debug ∧ (0xC8 : Nat) ≠ 0 := by decide
/-- The service firmware may write the first 2 MiB. -/
def granted (s : State) : State := { s with dev := { s.dev with windows := [(0, 0), (1, 0x200000), (2, 2)] } }
theorem witness_HostWrites_save : lined 0x40000 40960 (granted pkg) = true ∧ (granted pkg).windowed 1 0x40000 40960 = true ∧ (spanLines 0x40000 40960).all (fun x => (granted pkg).fetchTakes x.1) = true ∧ 3 < 64 ∧
    pkg.windowed 1 0x40000 40960 = false ∧ (granted pkg).serviceRuns = true ∧ ({ pkg with dev := { pkg.dev with ready := 2 } } : State).serviceRuns = false ∧
    (granted pkg).fetchTakes (2 ^ 50) = false ∧ (List.replicate 40960 (0 : Byte)).length = 40960 :=
  ⟨by decide, by decide, by decide, by decide, by decide, by decide, by decide, by decide, List.length_replicate⟩
theorem witness_HostWrites_domain : pkg.rowFits 1 { clusters := [2], slices := [3], groups := [4], hold := 0, latency := false } = true ∧ 3 ≤ pkg.dev.ready ∧ pkg.serviceRuns = true := by decide
theorem witness_HostWrites_bar0 : (pkg.queueIa 0x10090).isSome = true ∧ pkg.dev.ready = 5 ∧ State.reset.dev.ready ≠ 5 ∧ (State.reset.queueIa 0x10090).isSome = true ∧
    0x10090 + bytes300.length ≤ 0x12000 ∧ (pkg.queueIa 0x210090).isSome = true := by decide

/-- A request of the host at an offset of BAR2. -/
def atBar2 (off size : Nat) (f : Bool) : State := arg { off, size, flag := f } pkg
def inBar2 (s : State) : Nat := s.dev.winbase.toNat + s.arg.off
theorem witness_HostReads_bar2 : (atBar2 0x75 200 false).hostDrained = true ∧ (atBar2 0x75 200 false).fw.recovery = false ∧ (atBar2 0x75 200 false).arg.num = 0 ∧
    ((spanLines (inBar2 (atBar2 0x75 200 false)) 200).all fun x => let s := atBar2 0x75 200 false
      s.regionAt x.1 == .hbm && (s.xlatFault x.1).isNone && (s.errorAt none x.1).isNone && (s.ownerDom x.1).isSome && s.lineFree x.1) = true ∧
    (atBar2 0x75 200 false).homesHold = false ∧ (frozen (atBar2 0x75 200 false)).homesHold = true := by decide
/-- An AtomicOp inside the window. -/
def inside (s : State) : Bool := s.hostDrained && s.dev.ready == 5 && s.arg.size != 16 && !s.arg.flag2 && decide (s.arg.off < 2 ^ 36)
theorem witness_HostReads_atomic_refused : pkg.dev.ready = 5 ∧ (atBar2 0 16 false).arg.size = 16 ∧ inside (atBar2 2 0 false) = true ∧ inBar2 (atBar2 2 0 false) % 4 ≠ 0 := by decide
theorem witness_HostReads_atomic_aborted : inside (atBar2 0x2FFE0000 0 false) = true ∧ ((atBar2 0x2FFE0000 0 false).xlatFault (inBar2 (atBar2 0x2FFE0000 0 false))).isSome = true ∧
    (atBar2 0x2FFE0000 0 false).regionAt (inBar2 (atBar2 0x2FFE0000 0 false)) = .hbm ∧ inBar2 (atBar2 0x2FFE0000 0 false) % 4 = 0 := by decide
theorem witness_HostReads_atomic : (let s := atBar2 0x28 0 true
    let ia := inBar2 s
    inside s && s.regionAt ia == .hbm && ia % 8 == 0 && (s.xlatFault ia).isNone && (s.queueDom ia).isSome && (s.errorAt none ia).isNone && !s.isBlock (ia / 128 * 128) && s.lineFree ia &&
      decide ((s.home (ia / 128)).h ≤ s.homeNow none ia) && !s.badIA ia 8 && cleanB s) = true := by decide
/-- An AtomicOp on memory of an absent stack, and one whose line an atomic of another has taken for the time being. -/
def absentStack : State := { atBar2 0x28 0 true with dev := { (atBar2 0x28 0 true).dev with absent := 0x100 } }
def takenLine : State := { atBar2 0x28 0 true with homes := [(inBar2 (atBar2 0x28 0 true) / 128, { h := 900 })] }
theorem witness_HostReads_atomic_error : (let s := absentStack
    inside s && s.regionAt (inBar2 s) == .hbm && inBar2 s % 8 == 0 && (s.xlatFault (inBar2 s)).isNone && (s.errorAt none (inBar2 s)).isSome) = true := by decide
theorem witness_HostReads_atomic_waits : (let s := takenLine
    let ia := inBar2 s
    inside s && s.regionAt ia == .hbm && ia % 8 == 0 && (s.xlatFault ia).isNone && (s.queueDom ia).isSome && (s.errorAt none ia).isNone && !s.isBlock (ia / 128 * 128) &&
      decide (s.homeNow none ia < (s.home (ia / 128)).h)) = true := by decide
/-- An AtomicOp at offset 64 of the block of launch queue 16, which is frozen. -/
def frozenBlock : State :=
  let at_ := pkg.lqBlock 16
  let s := atBar2 (at_ + 64 - pkg.dev.winbase.toNat) 0 true
  { s with dev := { s.dev with winbase := BitVec.ofNat 64 at_ }, arg := { s.arg with off := 64 }, queues := [{ key := .mem at_, frozen := 3 }] }
theorem witness_HostReads_atomic_frozen : (let s := frozenBlock
    let ia := inBar2 s
    inside s && s.regionAt ia == .hbm && ia % 8 == 0 && (s.xlatFault ia).isNone && (s.queueDom ia).isSome && (s.errorAt none ia).isNone && s.isBlock (ia / 128 * 128) &&
      !(s.qctl (.mem (ia / 128 * 128))).requeue && (s.qctl (.mem (ia / 128 * 128))).frozen != 0) = true := by decide
def cachedQueue : State := { granted pkg with l2 := [{ line := pkg.lqBlock 16 / 128, pa := pkg.key (pkg.lqBlock 16) }] }
theorem witness_HostReads_reinit : cachedQueue.hostDrained = true ∧ cachedQueue.dev.ready = 5 ∧ cachedQueue.windowed 1 (cachedQueue.lqBlock 16) 128 = true ∧ 16 < 64 ∧ cachedQueue.dev.lqia % 128 = 0 ∧ (cachedQueue.l2? (cachedQueue.lqBlock 16 / 128)).isSome = true := by decide

theorem witness_NetworkEvents_arrival : pkg.dev.ready = 5 ∧ pkg.ethernet 1 = true ∧ (frozen pkg).dbg.frozen = true ∧ (frozen pkg).ethernet 1 = true ∧ pkg.dbg.frozen = false ∧
    (pkg.classify 1 (frameKey bytes300)).isNone = true := by decide
/-- A frame that entry 3 takes, with an empty receive queue at IA 0x50000 whose block L2 holds. -/
def receiving : State :=
  let s := { (arg { port := 1, flag := true, bytes := bytes300 } pkg) with
    dev := { pkg.dev with classifier := [(12, 0xE000_0000_0000_0000 &&& ~~~ 0x1000_0000_0000_0000), (13, 0), (14, 0), (15, 0x50000)] }
    l2 := [{ line := 0x50000 / 128, pa := pkg.key 0x50000 }] }
  s.writeIA 0x50000 (QBlock.fresh (cfgOf 3 9 false false 0) 0x60000).bytes false
theorem witness_NetworkEvents_landing : (receiving.dev.ready = 5 ∧ receiving.ethernet 1 = true ∧ receiving.dbg.frozen = false ∧ receiving.classify 1 (frameKey bytes300) = some 3 ∧
    (receiving.entryWord 3 3).toNat = 0x50000 ∧ receiving.regionAt 0x50000 = .hbm ∧ receiving.xlatFault 0x50000 = none ∧ receiving.errorAt (receiving.queueDom 0x50000) 0x50000 = none ∧ (receiving.qctl (.mem 0x50000)).requeue = false ∧
    (receiving.qctl (.mem 0x50000)).frozen = 0 ∧ receiving.queueCode (.mem 0x50000) (receiving.queueDom 0x50000) = 0) ∧
    (receiving.l2? (0x50000 / 128)).isSome = true ∧ (receiving.qctl (.mem 0x50000)).pushW = [] ∧
    (match receiving.block? (.mem 0x50000) with | some (b, false) => decide (0 < b.free ∧ b.resv + 1 < 2 ^ 64 ∧ 16 + bytes300.length ≤ b.esz) | _ => false) = true := by decide
def sending : State :=
  let s := { (arg { port := 1 } pkg) with dev := { pkg.dev with txregs := [(10, 0x30000), (11, 0x1)] }, l2 := [{ line := 0x30000 / 128, pa := pkg.key 0x30000 }] }
  let s := s.writeIA 0x30000 ({ QBlock.fresh (cfgOf 3 9 false false 0) 0x40000 with tail := 2, resv := 2, free := 6 } : QBlock).bytes false
  s.writeIA 0x40000 (leBytes 8 0 ++ leBytes 8 (64 * 2 ^ 48 + 1) ++ bytes300.take 64) false
theorem witness_NetworkEvents_transmit : (sending.ethernet 1 && (List.range 64).all (fun n => !sending.txCorrupt n && (n == 5) == sending.txReady 1 n)) = true ∧
    (match sending.txHead 5 with
      | some (b, ia) =>
        let h := sending.leIA (ia + 8) 8
        decide (60 ≤ h / 2 ^ 48 ∧ h / 2 ^ 48 ≤ 9216 ∧ h / 4 % 2 ^ 46 = 0 ∧ h.testBit 1 = false ∧ 16 + h / 2 ^ 48 ≤ b.esz ∧ sending.txLost (sending.queueDom (sending.txQueue 5)) ia b.esz = false ∧ b.head + 1 < 2 ^ 64) &&
          (sending.txRead (sending.queueDom (sending.txQueue 5)) ia b.esz).any fun u => (u.l2? (sending.txQueue 5 / 128)).isSome
      | none => false) = true := by decide
theorem witness_NetworkEvents_lock : pkg.ptp.servo = false ∧ ({ pkg with ptp := { pkg.ptp with servo := true } } : State).ptp.servo = true ∧ pkg.ptp.ever = false ∧
    ({ pkg with ptp := { pkg.ptp with ever := true } } : State).ptp.ever = true := by decide

theorem witness_FirmwareEvents_failure : pkg.dev.ready = 5 ∧ 1 % 2 ^ 24 = 1 := by decide
/-- A write of a command for kind 1 to 0x04 of the recovery mailbox. -/
def mailing (cmd : Nat) : State := arg { space := .recovery, off := 4, v := BitVec.ofNat 64 (256 + cmd) } pkg
theorem witness_FirmwareEvents_command : ∀ cmd ∈ [0, 1, 2, 3, 4], (mailing cmd).arg.space = .recovery ∧ (mailing cmd).arg.off = 4 ∧
    ((mailing cmd).arg.v.extractLsb' 0 8).toNat = cmd ∧ ((mailing cmd).arg.v.extractLsb' 8 24).toNat = 1 := by decide
theorem witness_FirmwareEvents_attestation : ({ pkg with fw := { pkg.fw with booted := true } } : State).fw.recovery = false ∧
    ({ pkg with fw := { pkg.fw with booted := true } } : State).fw.booted = true ∧ (List.replicate 48 (0 : Byte)).length = 48 := by decide

theorem witness_ReliabilityEvents_correctable : few.siteExists (.vreg 2 0 3 4) = true ∧ few.siteExists (.hbm 9) = true := by decide
theorem witness_ReliabilityEvents_uncorrectable : (few.group? 2 0).isSome = true ∧ 4 < 64 ∧ (few.wg? 2).isSome = true ∧ 64 * 7 < 2 ^ 39 ∧ few.siteExists (.sreg 2 0 5) = true := by decide
theorem witness_ReliabilityEvents_links : 3 < 20 ∧ few.dev.isolated.contains 3 = false ∧ few.dev.isolated.contains 22 = false ∧ few.serviceRuns = true ∧ (stepOf (exec .linkIsolate (arg { port := 3 } few))).logs.drops.any (fun d => d.1 == 3) = true := by decide

theorem witness_DebugEvents_halt : (debugging few).dbg.en = true ∧ (debugging few).dbg.frozen = false ∧ hasGroup (debugging few) (fun w g _ => (g.nextWord ((debugging few).detOf w)).isSome) = true ∧ (debugging few).wgs.length = 1 ∧ (debugging few).dbg.stops = [] ∧ few.dbg.en = false := by decide
/-- A write of DBGCTL. -/
def writing (v : DWord) : State := arg { space := .debug, off := 0, v } few
theorem witness_DebugEvents_dbgctl : (!(writing 2).fw.recovery && (writing 2).arg.space == .debug && (writing 2).arg.off == 0) = true ∧
    ((2 : DWord).extractLsb' 1 2).toNat = 1 ∧ ((4 : DWord).extractLsb' 1 2).toNat = 2 ∧ ((6 : DWord).extractLsb' 1 2).toNat = 3 := by decide
def halted : State := stepOf (exec .debugHalt (debugging few))
theorem witness_DebugEvents_resume : halted.dbg.frozen = true ∧ halted.dbg.deferred = [] ∧
    hasLaunch (halted |> inLaunch (fun l => { l with drainAt := some 40 }) |> arg { lid := 1 }) (fun l => l.drainAt == some 40) = true := by decide
theorem witness_DebugEvents_step : halted.dbg.frozen = true ∧ halted.dbg.stepping = none ∧ halted.dbg.stopped[halted.dbg.srec]? = some (2, 0) := by decide
def stepped : State := let t := stepOf (exec .debugStep halted); { t with dbg := { t.dbg with stepDone := true } }
theorem witness_DebugEvents_stepped : stepped.dbg.stepping = some (2, 0) ∧ stepped.dbg.stepDone = true ∧ hasGroup stepped (fun w g _ => g.accs.isEmpty && (stepped.steppedWord w g).isSome) = true := by decide
def latching : State := { few with dtime := 5000, dbg := { few.dbg with serctl := 0xC01, sersize := 0x4000 } }
theorem witness_DebugEvents_series : latching.dbg.serctl.getLsbD 0 = true ∧ 10 ≤ latching.dbg.latchK ∧ latching.dbg.latchK ≤ 24 ∧ latching.dbg.seq < latching.dbg.latchesBy latching.dtime ∧
    64 ≤ latching.dbg.sersize.toNat ∧ latching.msgs = [] := by decide

/-! ### Effects worked out by hand from the rules: v2 to v9 hold 10n + lane, s2 to s9 hold n, EXEC lanes 0 and 5 -/

/-- Without tangents. -/
def plain : State := few |> withWord 0x198 0
theorem test_IADD_lanes : ran plain (.iadd { d := 10, a := 3, b := 4, md := 0x40 }) (fun g => (g.v 10 0).at 0 == 70 && (g.v 10 0).at 5 == 80 && (g.v 10 0).at 1 == 0) = true := by decide
theorem test_IADD_self : ran plain (.iadd { d := 3, a := 3, b := 3, md := 0x40 }) (fun g => (g.v 3 0).at 5 == 70 && (g.v 3 0).at 4 == 34) = true := by decide
theorem test_ISUB_wraps : ran plain (.isub { d := 10, a := 2, b := 9, md := 0x40 }) (fun g => (g.v 10 0).at 0 == 0xFFFFFFBA) = true := by decide
theorem test_ISUB_saturates : ran plain (.isub { d := 10, a := 2, b := 9, md := 0x41 }) (fun g => (g.v 10 0).at 0 == 0) = true := by decide
theorem test_IMAD : ran plain (.imad { d := 10, a := 3, b := 4, c := 5, md := 0x40 }) (fun g => (g.v 10 0).at 0 == 1250) = true := by decide
theorem test_MOVI_scalar : ran plain (.movi { s := true, d := 10, imm := 0x80000000 }) (fun g => g.s 10 0 == 0x80000000 && g.s 11 0 == 0) = true := by decide
theorem test_MOV_s_zero : ran plain (.movi { s := true, d := 64, imm := 7 }) (fun g => g.sregs == [(2, 2), (3, 3), (4, 4), (5, 5), (6, 6), (7, 7), (8, 8), (9, 9)]) = true := by decide
theorem test_SHL_lost : ran plain (.shl { d := 10, a := 3, b := 4 }) (fun g => (g.v 10 0).at 0 == 0) = true := by decide
theorem test_SHLI : ran plain (.shlImm { d := 10, a := 3, imm := 31 }) (fun g => (g.v 10 0).at 0 == 0 && (g.v 10 0).at 5 == 0x80000000) = true := by decide
theorem test_POPC : ran plain (.popc { d := 10, a := 3 }) (fun g => (g.v 10 0).at 5 == 3) = true := by decide
theorem test_CLZ : ran plain (.clz { d := 10, a := 3 }) (fun g => (g.v 10 0).at 5 == 26) = true := by decide
theorem test_ICMP_LT : ran plain (.icmpImm { d := 0x23, a := 3, imm := 33 }) (fun g => g.mask 3 == 1) = true := by decide
theorem test_BALLOT : ran plain (.ballot { d := 10, a := 3 }) (fun g => g.s 10 0 == 0x21 && g.s 11 0 == 0) = true := by decide
theorem test_BRA_backward : ran (inFrag (fun f => { f with f := 0x21 }) plain) (.bra { imm := 0xFFFFFFFE }) (fun g => (g.frag? 0).any fun f => f.pc == 0xFFFFFFFFFFFFFFF0) = true := by decide
theorem test_CALL_link : ran plain (.call { imm := 2 }) (fun g => (g.frag? 0).any fun f => f.pc == 16 && f.link == 8) = true := by decide
theorem test_FADD_one : ran (plain |> inGroup fun g => { g with vregs := [(3, Lanes.const 0x3F800000)] }) (.fadd { d := 10, a := 3, b := 3, md := 0x200 }) (fun g =>
    (g.v 10 0).at 5 == 0x40000000 && g.flags == 0) = true := by decide
/-- ta × 2^(2^-31) × ln 2 for ta = 14427697.0 lies above 10000517.5. -/
theorem test_EXP2_tangent_tiny : (TFn.exp2.tangent false 0x30000000 0x4B5C2631).1 = 0x4B189886 := by decide
theorem test_STS_bytes : after (exec (.sts { d := 3, a := 4, b := 12 }) mm) (fun t => hasGroup t fun w _ _ => w.spad.byte 0x40 == 30 && w.spad.byte 0x41 == 0) = true := by decide
theorem test_withFetchWord : after (step (State.reset.withFetchWord 64 0x481002003F800000)) (fun t => (t.group? 2 0).any fun g => g.v 1 0 == Lanes.const 0x3F800000) = true := by decide

/-! ### Completion: a word or an event of each clause, whose hypotheses are those of the witnesses above -/

def completes (s : State) (i : Instr) : Bool := ran s i fun h => match s.group? 2 0 with | some g => h.lclk == g.lclk + 1 | none => false
theorem witness_WordsComplete_words : ∀ i ∈ [Instr.wrsr { d := 0x14, a := 4 }, .nop {}, .yield {}, .sleep { a := 4 }, .sleepImm { imm := 9 }, .bkpt {}, .bkptImm { imm := 7 },
    .exp2 { d := 10, a := 3, md := 0x200 }, .log2 { d := 10, a := 3, md := 0x200 }, .rcp { d := 10, a := 3, md := 0x200 }, .rsqrt { d := 10, a := 3, md := 0x200 },
    .sqrt { d := 10, a := 3, md := 0x200 }, .sin { d := 10, a := 3, md := 0x200 }, .cos { d := 10, a := 3, md := 0x200 }, .tanh { d := 10, a := 3, md := 0x200 }], completes few i = true := by decide
theorem witness_WordsComplete_control : ∀ i ∈ [Instr.bra { pm := 2, imm := 8 }, .braReg { pm := 2, a := 4 }, .brc { a := 2, imm := 8 }, .brcReg { a := 4, b := 2 }, .call { imm := 2 },
    .callReg { a := 4 }, .ret {}, .jset { d := 3, a := 1 }, .join { d := 3 }, .jarv { d := 3 }, .waitc { a := 64 }, .become { a := 3 }, .sigchk { imm := 0xFFFFFFFF }], completes few i = true := by decide
theorem witness_WordsComplete_memory : ∀ i ∈ [Instr.ld { d := 14, a := 2, b := 12 }, .ldu { d := 14, a := 2, b := 4, md := 2 }, .lds { d := 14, a := 4, b := 12 }, .st { d := 3, a := 2, b := 12 },
    .sts { d := 3, a := 4, b := 12 }, .pref { a := 2, b := 12 }, .waitm { d := 10, a := 2, b := 8 }, .fence {}, .atom { d := 14, a := 2, b := 12, c := 3, md := 1 },
    .red { a := 2, b := 12, c := 3, md := 1 }, .atoms { d := 14, a := 4, b := 12, c := 3, md := 1 }, .ldx { d := 14, a := 2, b := 12 }, .stx { d := 3, a := 2, b := 12, md := 0x800 },
    .ldxs { d := 14, a := 4, b := 13, md := 0x800 }, .stxs { d := 3, a := 4, b := 13, md := 0x800 }, .probe { d := 3, a := 2, b := 12 }, .unpin {}], completes mm i = true := by decide
theorem witness_WordsComplete_queues : completes qm (.qbind { a := 64, md := 0x1000 }) = true ∧ completes qinitState (.qinitMem { a := 2, b := 4, c := 6, md := 0x10 }) = true ∧
    completes ql (.qpush { a := 4, b := 10 }) = true ∧ completes qlFull (.qstat { sub := 1, d := 12 }) = true ∧ completes mm (.binit { a := 8, b := 8, md := 0x300 }) = true ∧
    completes (barred { phase := 4, expm := 3 } mm) (.bwait { a := 8, b := 10, md := 0x300 }) = true ∧ completes few (.mzero { a := 4, b := 5 }) = true ∧
    completes few (.mfence { d := 10 }) = true ∧ completes few (.mwait { a := 4 }) = true ∧ completes few (.mread { d := 10, a := 4, b := 5, md := 7 }) = true ∧
    completes tiled (.mma { a := 2, b := 3, c := 4 }) = true ∧ completes (inHandler few) (.rett {}) = true := by decide

def gives (s : State) (i : Instr) (ok : State → Bool) : Bool := after (exec i s) ok
def fragIn (t : State) (e : Nat) : Option Frag := (t.group? 2 0).bind fun g => g.frag? e
theorem witness_EventsComplete_fragments :
    gives (few |> sleeping (.sleep 100) |> atTime 100 |> arg target) .sleepExpiry (fun t => (fragIn t 0).any fun f => f.st == .ready) = true ∧
    gives (few |> sleeping (.yield 35 5) |> atTime 99 |> arg target) .yieldExpiry (fun t => (fragIn t 0).any fun f => f.st == .ready) = true ∧
    gives (monitoring (some 99)) .waitmTimeout (fun t => (fragIn t 0).any fun f => f.st == .ready) = true ∧
    gives (few |> withFrags [fragAt 1 .ready, fragAt 3 .ready, fragAt 9 .ready] |> arg { target with ent := 9 }) .splitTableSwap (fun t => (fragIn t 2).any fun f => f.fid == 109) = true ∧
    gives stuck .joinStuckRelease (fun t => (t.group? 2 0).any fun g => g.lostj) = true ∧
    gives hurried .urgencyPrediction (fun t => (t.group? 2 0).any fun g => g.urgent) = true ∧
    gives leased .leaseExpiry (fun t => (t.core 0).l1.length == 1) = true ∧
    gives (atTime 100000 remote) .remoteLineCopyDrop (fun t => (t.l2? remote.arg.line).isNone) = true ∧
    gives (arg { withheld := 1 } few) .powerGovernorAdjust (fun t => t.dev.withheld == 1) = true ∧
    gives pendingResult .longLatencyComplete (fun t => (t.group? 2 0).any fun g => g.longs == []) = true := by decide
theorem witness_EventsComplete_memory :
    gives (issued loading) .translationWalk (fun t => (t.lane? t.arg.src).any fun q => q.p.st == .walked) = true ∧
    gives (walked loading) .acceptanceArrival (fun t => (t.lane? t.arg.src).any fun q => q.p.accepted) = true ∧
    gives (walked loading) .homeFill (fun t => (t.lane? t.arg.src).any fun q => q.p.st == .served) = true ∧
    gives (walked storing) .homeWriteArrival (fun t => (t.home 2).queue.length == 1) = true ∧
    gives stored .writeAcknowledgement (fun t => (t.group? 2 0).any fun g => g.accs == []) = true ∧
    gives (queuedAt storing 0) .homeWriteApply (fun t => (t.home 2).queue == []) = true ∧
    gives (returning id) .loadReturn (fun t => (t.group? 2 0).any fun g => g.accs == []) = true ∧
    gives gathering .gatherWindowClose (fun t => (t.core 0).window == []) = true ∧
    gives (faulted false) .faultResolveReplay (fun t => (t.group? 2 0).any fun g => g.accs.all (·.replay)) = true ∧
    gives (frozen few) .faultResolveAbort (fun t => t.dbg.deferred.length == 1) = true ∧
    gives (faulted true) .faultReplayResend (fun t => (t.lane? t.arg.src).any fun q => q.p.st == .issued) = true ∧
    gives poisonTier .errorResponse (fun t => t.logs.faults.length == 1) = true ∧
    gives (mapping 1) .translationInvalidate (fun t => t.xlat.invals.contains (0x250000, false)) = true ∧
    gives (mapping 1) .translationInvalidateComplete (fun t => t.xlat.invals == []) = true ∧
    gives (mapping 1) .translationEntryWrite (fun t => Map.look 0 t.xlat.lev1 1 == 0x300003) = true ∧
    gives building .translationEntryWrite (fun t => t.mem.le 0x9018 8 == 0x300003) = true ∧
    gives (arg { site := .hbm 9, flag := true } few) .arrayError (fun t => t.logs.errors.length == 1) = true ∧
    gives (arg { port := 3 } few) .linkIsolate (fun t => t.dev.isolated.contains 3) = true := by decide
theorem witness_EventsComplete_queues :
    gives waitingPush .queuePushGrant (fun t => (t.qctl (.mem 0x4000)).pushW == []) = true ∧
    gives waitingPop .queuePopGrant (fun t => (t.qctl (.mem 0x4000)).popW == []) = true ∧
    gives readPop .queuePopCommit (fun t => (t.qctl (.mem 0x4000)).pop.isNone) = true ∧
    gives writtenPush .queueTailAdvance (fun t => (t.qctl (.mem 0x4000)).pushes == []) = true ∧
    gives (arriving []) .barrierArrival (fun t => (t.group? 2 0).any fun g => g.barvs == []) = true ∧
    gives (regrouping []) .regroup (fun t => (t.wg? 2).any fun w => w.life == .retiring) = true ∧
    gives (few |> pressed [clearing 1 0 4] false 0) .pressOperationStart (fun t => (t.core 0).running) = true ∧
    gives (few |> pressed [clearing 1 0 4] true 50 |> atTime 50) .pressOperationComplete (fun t => (t.core 0).press == []) = true ∧
    gives (copyAt 0 id) .copyFetch (fun t => ((t.core 0).chan 1).st == .move) = true ∧
    gives (copyAt 1 fun x => { x with st := .claim, record := template 1, claims := [(18, 55)], claimedW := 55 }) .copyClaimsComplete (fun t => ((t.core 0).chan 1).st == .move) = true ∧
    gives (landed .signal) .copyChunkLand (fun t => ((t.core 0).chan 1).done == 5) = true ∧
    gives finishing .engineLineFinish (fun t => ((t.core 0).chan 1).pending == []) = true ∧
    gives circle .copyCycleFault (fun t => ((t.core 0).chan 1).done == 5) = true := by decide
/-- The launch's phase after an event. -/
def phaseOf (n : Nat) (t : State) : Option Phase := (t.launch? n).map (·.phase)
theorem witness_EventsComplete_launches :
    gives (queued fitting) .launchAccept (fun t => (t.launch? (queued fitting).fresh).any fun l => l.lq == 16) = true ∧
    gives (launched .waiting pkg) .launchWaitsSatisfied (fun t => phaseOf 1 t == some .counting) = true ∧
    gives (launched .counting pkg) .indirectCountRead (fun t => phaseOf 1 t == some .holding) = true ∧
    gives (launched .holding pkg) .launchStartTime (fun t => phaseOf 1 t == some .placing) = true ∧
    gives placing .workgroupPlace (fun t => (t.wg? placing.fresh).any fun w => w.life == .running) = true ∧
    gives (completing id |> withWord 0x1A8 0x840) .launchComplete (fun t => phaseOf 1 t == some .recording) = true ∧
    gives (recording 50) .completionCounterBump (fun t => (t.launch? 1).isNone) = true ∧
    gives (drained 1100 .ready) .graceExpiry (fun t => (t.wg? 2).all fun w => w.life == .killed) = true ∧
    gives (drained 1000 .ready) .preemptRequestAtCore (fun t => (t.wg? 2).any fun w => w.life == .draining) = true ∧
    gives (pressing 5000) .class0PreemptTimeout (fun t => phaseOf 1 t == some .draining) = true ∧
    gives (requested .waiting) .launchctlPreempt (fun t => phaseOf 1 t == some .completing) = true ∧
    gives (requested .waiting) .launchctlCancel (fun t => phaseOf 1 t == some .completing) = true ∧
    gives (ended .retiring false) .workgroupRetire (fun t => (t.wg? 2).isNone) = true ∧
    gives (ended .killed false) .workgroupKillRelease (fun t => (t.wg? 2).isNone) = true ∧
    gives full .holdReserveRollback (fun t => (t.wg? 2).any fun w => w.rolled) = true ∧
    gives (settling 0) .redundantCompare (fun t => (t.launch? 1).any fun l => l.ndone == 1) = true ∧
    gives (clocked 5) .syncOperationTurn (fun t => (t.group? 2 0).any fun g => g.turn) = true ∧
    gives atQuantumEnd .quantumEnd (fun t => (t.launch? 1).any fun l => !l.ending) = true := by decide
theorem witness_EventsComplete_package :
    (∀ i ∈ [Instr.powerOnReset, .reset], gives pkg i (fun t => t.wgs.isEmpty && t.launches.isEmpty && t.msgs.isEmpty) = true) ∧
    gives (arg { port := 3 } pkg) .droppedWriteLogClear (fun t => t.logs.drops.all fun d => d.1 != 3 || d.2.2.2.isEmpty) = true ∧
    gives pkg .runtimeMeasurementFailure (fun t => t.fw.recovery) = true ∧
    gives pkg .stage (fun t => t.fw.result == 0) = true ∧
    gives (arg { flag := true, dom := 1, row := { clusters := [2], slices := [3], groups := [4], hold := 0, latency := false } } pkg) .domainTableWrite
      (fun t => t.row 1 == { clusters := [2], slices := [3], groups := [4], hold := 0, latency := false }) = true ∧
    gives (atBar2 0x28 0 true) .hostAtomicop (fun t => t.dev.answers.length == 1) = true ∧
    gives (atBar2 0x75 200 false) .hostBar2Read (fun t => t.dev.answers.length == 1) = true ∧
    gives (arg { off := 0x77, bytes := bytes300 } pkg) .hostBar2Write (fun t => t.msgs.length == 4) = true ∧
    gives (arg { num := 7, v := 9 } pkg) .completionCounterWrite (fun t => Map.look 0 t.dev.counters 7 == 9) = true ∧
    gives (arg { num := 7, word := 3, v := 128 } pkg) .classifierEntryWrite (fun t => t.entryWord 7 3 == 128) = true ∧
    gives (arg { num := 7, word := 1, v := 9 } pkg) .transmitQueueRegisterWrite (fun t => Map.look 0 t.dev.txregs 15 == 9) = true ∧
    gives (arg { space := .debug, off := 0xC8, v := 9 } pkg) .registerWrite (fun t => t.dbg.trbase == 9) = true ∧
    gives (arg { off := 0x10090, bytes := bytes300.take 8 } pkg) .hostBar0QueueWrite (fun t => t.msgs.length == 1) = true ∧
    gives (arg { port := 3 } pkg) .linkRestore (fun t => !t.dev.isolated.contains 3) = true ∧
    gives (arg { num := 16 } cachedQueue) .launchQueueReinit (fun t => (t.qctl (.mem (t.lqBlock 16))).frozen == 0) = true ∧
    gives (debugging few) .debugHalt (fun t => t.dbg.frozen) = true ∧
    gives (arg { space := .debug, off := 0, v := 2 } (debugging few)) .registerWrite (fun t => t.dbg.frozen) = true ∧
    gives halted .debugResume (fun t => !t.dbg.frozen) = true ∧
    gives halted .debugStep (fun t => t.dbg.stepping == some (2, 0)) = true ∧
    gives stepped .debugStepComplete (fun t => t.dbg.stepping.isNone) = true ∧
    gives latching .seriesLatch (fun t => t.dbg.seq == latching.dbg.seq + 1) = true ∧
    gives receiving .frameArrival (fun t => (t.qctl (.mem 0x50000)).pushes.length == 1) = true ∧
    gives sending .frameTransmit (fun t => t.dev.sent.length == 1) = true ∧
    gives (arg { port := 1 } pkg) .ptpEventTimestamp (fun t => t.ptp.stamps.length == 1) = true ∧
    gives { arg { v := 70 } pkg with ptp := { pkg.ptp with servo := true } } .ptpFirstLock (fun t => t.ptp.ever && t.dtime == 70) = true ∧
    gives { arg { word32 := 70 } pkg with ptp := { pkg.ptp with servo := true } } .ptpServoUpdate (fun t => t.ptp.offs == 70) = true ∧
    gives pkg .ptpMasterLoss (fun t => !t.ptp.lock) = true := by decide

end Sys2Proof.Tests
end

section
/-! The proofs of O54 (host and register writes) and O59 (debug events): what posted stores leave as it was, where the pieces
of a span lie, then a lemma for each event of the two statements. -/

namespace Sys2Proof.Machine

/-! ### Posted stores: only the messages, their identities and the debug block change -/

/-- `t` differs from `s` in messages, identity numbers and the debug block only. -/
def State.OnlyPosts (s t : State) : Prop := ∃ fresh msgs dbg, t = { s with fresh, msgs, dbg }

/-- `t` differs from `s` by messages that left, in whose `key`s `ms` lists them in their order. -/
def State.Sends {β : Type} (key : Msg → β) (s t : State) (ms : List β) : Prop :=
  s.OnlyPosts t ∧ t.msgs.map key = s.msgs.map key ++ ms

/-- What a home sees of a posted write: whose it is, its address and its data. -/
def Msg.sent (m : Msg) : MsgUse × Nat × Nat := (m.use_, m.part.ia, m.part.dat)

theorem State.OnlyPosts.refl (s : State) : s.OnlyPosts s := ⟨_, _, _, rfl⟩

theorem State.OnlyPosts.trans {s t u : State} (h : s.OnlyPosts t) (k : t.OnlyPosts u) : s.OnlyPosts u := by
  obtain ⟨_, _, _, rfl⟩ := h
  obtain ⟨fresh, msgs, dbg, rfl⟩ := k
  exact ⟨fresh, msgs, dbg, rfl⟩

theorem State.OnlyPosts.foldl {α : Type} (step : State → α → State) (h : ∀ t x, State.OnlyPosts t (step t x)) (xs : List α)
    (s : State) : s.OnlyPosts (xs.foldl step s) :=
  List.foldlRecOn xs step (.refl s) fun t ht x _ => ht.trans (h t x)

section
variable {s t : State} (h : s.OnlyPosts t)
include h

theorem State.OnlyPosts.arg_eq : t.arg = s.arg := by obtain ⟨_, _, _, rfl⟩ := h; rfl
theorem State.OnlyPosts.mem_eq : t.mem = s.mem := by obtain ⟨_, _, _, rfl⟩ := h; rfl
theorem State.OnlyPosts.bad_eq : t.bad = s.bad := by obtain ⟨_, _, _, rfl⟩ := h; rfl
theorem State.OnlyPosts.dev_eq : t.dev = s.dev := by obtain ⟨_, _, _, rfl⟩ := h; rfl
theorem State.OnlyPosts.wgs_eq : t.wgs = s.wgs := by obtain ⟨_, _, _, rfl⟩ := h; rfl

theorem State.OnlyPosts.regionAt_eq (ia : Nat) : t.regionAt ia = s.regionAt ia := by rw [State.regionAt, State.regionAt, h.dev_eq]

theorem State.OnlyPosts.l2?_eq (line : Nat) : t.l2? line = s.l2? line := by obtain ⟨_, _, _, rfl⟩ := h; rfl

theorem State.OnlyPosts.reservedPa_eq (ia : Nat) : t.reservedPa ia = s.reservedPa ia := by
  rw [State.reservedPa, State.reservedPa, h.dev_eq]

theorem State.OnlyPosts.pinnedAt_eq (ia : Nat) : t.pinnedAt ia = s.pinnedAt ia := by obtain ⟨_, _, _, rfl⟩ := h; rfl

theorem State.OnlyPosts.walkEntries_eq (cached : Bool) (ia : Nat) : t.walkEntries cached ia = s.walkEntries cached ia := by
  obtain ⟨_, _, _, rfl⟩ := h; rfl

theorem State.OnlyPosts.walk_eq (cached : Bool) (ia : Nat) : t.walk cached ia = s.walk cached ia := by
  rw [State.walk, State.walk, h.pinnedAt_eq, h.walkEntries_eq]

theorem State.OnlyPosts.key_eq (ia : Nat) : t.key ia = s.key ia := by
  simp only [State.key, State.place, h.l2?_eq, h.reservedPa_eq, h.walk_eq]

theorem State.OnlyPosts.ownerDom_eq (ia : Nat) : t.ownerDom ia = s.ownerDom ia := by
  simp only [State.ownerDom, h.dev_eq, h.regionAt_eq, h.key_eq]

theorem State.OnlyPosts.xlatFault_eq (ia : Nat) : t.xlatFault ia = s.xlatFault ia := by
  simp only [State.xlatFault, h.l2?_eq, h.walk_eq]

/-- Whether the host may write a line does not turn on the messages under way. -/
theorem State.OnlyPosts.hostLine_eq (ia : Nat) : t.hostLine ia = s.hostLine ia := by
  simp only [State.hostLine, h.regionAt_eq, h.xlatFault_eq, h.ownerDom_eq]
end

theorem State.onlyPosts_post (s : State) (use_ : MsgUse) (ia : Nat) (bs : List Byte) (red : Option (Nat × Nat)) (comm bad : Bool)
    (hint fill : Nat) : s.OnlyPosts (s.post use_ ia bs red comm bad hint fill) := ⟨_, _, _, rfl⟩

theorem State.sends_post (s : State) (use_ : MsgUse) (ia : Nat) (bs : List Byte) (bad : Bool) :
    s.Sends Msg.sent (s.post use_ ia bs none false bad) [(use_, ia, leNat bs)] :=
  ⟨s.onlyPosts_post .., by simp [State.post, State.new, Msg.sent]⟩

section
variable {α β : Type} {key : Msg → β}

/-- One message for each element of a list. -/
theorem State.Sends.foldl (step : State → α → State) (f : α → β) (xs : List α) :
    ∀ s : State, (∀ t, s.OnlyPosts t → ∀ x ∈ xs, t.Sends key (step t x) [f x]) → s.Sends key (xs.foldl step s) (xs.map f) := by
  induction xs with
  | nil => intro s _; exact ⟨.refl s, by simp⟩
  | cons x xs ih =>
    intro s h
    obtain ⟨hx, ex⟩ := h s (.refl s) x (by simp)
    obtain ⟨hxs, exs⟩ := ih (step s x) fun t ht y hy => h t (hx.trans ht) y (by simp [hy])
    exact ⟨hx.trans hxs, by simp [exs, ex]⟩

/-- The messages that left stand behind those that were there. -/
theorem State.Sends.drop {s t : State} {ms : List β} (h : s.Sends key t ms) : (t.msgs.drop s.msgs.length).map key = ms := by
  rw [List.map_drop, h.2, ← List.length_map key, List.drop_left]
end

/-! ### The pieces of a span -/

theorem mem_cutLines (fuel : Nat) : ∀ {ia n : Nat} {x : Nat × Nat × Nat}, x ∈ cutLines ia n fuel →
    x.1 = ia + x.2.1 ∧ x.2.1 + x.2.2 ≤ n := by
  induction fuel with
  | zero => intro ia n x h; simp [cutLines] at h
  | succ fuel ih =>
    intro ia n x h
    rw [cutLines] at h
    split at h
    · simp at h
    · rcases List.mem_cons.mp h with rfl | h
      · exact ⟨rfl, by dsimp only; omega⟩
      · obtain ⟨y, hy, rfl⟩ := List.mem_map.mp h
        obtain ⟨_, _⟩ := ih hy
        simp only
        omega

theorem mem_spanLines {ia n : Nat} {x : Nat × Nat × Nat} (h : x ∈ spanLines ia n) : x.1 = ia + x.2.1 ∧ x.2.1 + x.2.2 ≤ n :=
  mem_cutLines _ h

theorem Memory.getElem_read (m : Memory) (a n i : Nat) (h : i < (m.read a n).length) : (m.read a n)[i] = m.byte (a + i) := by
  rw [← Memory.read_getD m a n i (by rwa [Memory.read_length] at h), List.getD_eq_getElem?_getD, List.getElem?_eq_getElem h,
    Option.getD_some]

/-- A piece of what is read from a span. -/
theorem Memory.read_piece (m : Memory) (a n i k : Nat) (h : i + k ≤ n) : ((m.read a n).drop i).take k = m.read (a + i) k :=
  List.ext_getElem (by simp only [List.length_take, List.length_drop, Memory.read_length]; omega) fun j _ _ => by simp [Memory.getElem_read, Nat.add_assoc]

theorem mem_sectorsOf {k n x : Nat} : x ∈ sectorsOf k n ↔ k / 16 ≤ x ∧ x < (k + n + 15) / 16 := by
  simp only [sectorsOf, List.mem_map, List.mem_range]
  constructor
  · rintro ⟨i, hi, rfl⟩; omega
  · rintro ⟨h1, h2⟩; exact ⟨x - k / 16, by omega, by omega⟩

/-- A piece of a span without poison has none. -/
theorem isPoisoned_piece {bad : List Nat} {a n i k : Nat} (h : isPoisoned bad a n = false) (hk : i + k ≤ n) :
    isPoisoned bad (a + i) k = false := by
  simp only [isPoisoned, List.any_eq_false, mem_sectorsOf] at h ⊢
  exact fun x hx => h x (by omega)

/-! ### Posted writes of the host (R308-R310) -/

/-- What the posted writes of bytes at an IA carry: one for each line. -/
def hostPieces (ia : Nat) (bs : List Byte) : List (MsgUse × Nat × Nat) :=
  (spanLines ia bs.length).map fun x => (MsgUse.host, x.1, leNat ((bs.drop x.2.1).take x.2.2))

theorem State.sends_queueWrite (s : State) (ia : Nat) (bs : List Byte) : s.Sends Msg.sent (s.queueWrite ia bs) (hostPieces ia bs) :=
  State.Sends.foldl _ _ _ s fun t _ x _ => t.sends_post .host x.1 _ false

theorem State.sends_hostWrite (s : State) (ia : Nat) (bs : List Byte) (h : ∀ x ∈ spanLines ia bs.length, s.hostLine x.1 = true) :
    s.Sends Msg.sent (s.hostWrite ia bs) (hostPieces ia bs) := by
  refine State.Sends.foldl _ _ _ s fun t ht x hx => ?_
  rw [if_pos (by rw [ht.hostLine_eq, h x hx])]
  exact t.sends_post .host x.1 _ false

theorem State.hostLine_of_owned {s : State} {ia : Nat} (h : s.regionAt ia = .hbm ∧ s.ownerDom ia ≠ none) : s.hostLine ia = true := by
  simp [State.hostLine, h.1, Option.isSome_iff_ne_none.mpr h.2]

theorem hostBar2Write_fits {s : State} (hr : s.fw.recovery = false) (hn : s.arg.off + s.arg.bytes.length ≤ 2 ^ 36) :
    hostBar2Write s = s.hostWrite (s.dev.winbase.toNat + s.arg.off) s.arg.bytes := by
  simp only [hostBar2Write, hr, Bool.false_eq_true, if_false, if_neg (Nat.not_lt.mpr hn)]

theorem hostBar2Write_past {s : State} (hr : s.fw.recovery = false) (hn : 2 ^ 36 < s.arg.off + s.arg.bytes.length) :
    hostBar2Write s = s.unsupported false := by
  simp only [hostBar2Write, hr, Bool.false_eq_true, if_false, if_pos hn]

theorem hostBar0QueueWrite_early {s : State} (h : s.dev.ready ≠ 5) : hostBar0QueueWrite s = s := by
  rcases hq : s.queueIa s.arg.off with _ | ia
  · simp only [hostBar0QueueWrite, hq]
  · simp only [hostBar0QueueWrite, hq, bne_iff_ne.mpr h, if_true]

/-- Bytes that end inside their area are written whole. -/
theorem hostBar0QueueWrite_fits {s : State} {ia : Nat} (hq : s.queueIa s.arg.off = some ia) (h : s.dev.ready = 5)
    (hn : s.arg.off + s.arg.bytes.length ≤ if s.arg.off < 0x12000 then 0x12000 else 0x400000) :
    hostBar0QueueWrite s = s.queueWrite ia s.arg.bytes := by
  have room : s.arg.bytes.length ≤ if s.arg.off < 0x12000 then 0x12000 - s.arg.off else 0x400000 - s.arg.off := by
    split at hn <;> simp only [*, if_true, if_false] <;> omega
  simp [hostBar0QueueWrite, hq, h, List.take_of_length_le room]

/-! ### The save fetch (R390) -/

/-- One piece of a save fetch, `n` bytes at place `off` of the area at `pa`, leaves for its place at the event's IA. -/
def State.savePut (pa : Nat) (s : State) (off n : Nat) : State :=
  s.post .host (s.arg.ia + off) (s.mem.read (pa + off) n) none false (isPoisoned s.bad (pa + off) n)

/-- One line of a save fetch: whole, or sector by sector where it holds poison (R377). -/
def State.saveLine (pa : Nat) (s : State) (x : Nat × Nat × Nat) : State :=
  if isPoisoned s.bad (pa + x.2.1) x.2.2 then
    (sectorsOf (pa + x.2.1) x.2.2).foldl (fun s k =>
      let off := max (16 * k) (pa + x.2.1) - pa
      s.savePut pa off (min (16 * k + 16) (pa + x.2.1 + x.2.2) - pa - off)) s
  else s.savePut pa x.2.1 x.2.2

theorem State.onlyPosts_saveLine (s : State) (pa : Nat) (x : Nat × Nat × Nat) : s.OnlyPosts (s.saveLine pa x) := by
  unfold State.saveLine
  split
  · exact State.OnlyPosts.foldl _ (fun t _ => t.onlyPosts_post ..) _ s
  · exact s.onlyPosts_post ..

theorem State.sends_saveLines (s : State) (pa n : Nat) (h : isPoisoned s.bad pa n = false) :
    s.Sends Msg.sent ((spanLines s.arg.ia n).foldl (State.saveLine pa) s) (hostPieces s.arg.ia (s.mem.read pa n)) := by
  rw [hostPieces, Memory.read_length]
  refine State.Sends.foldl _ _ _ s fun t ht x hx => ?_
  obtain ⟨hia, hin⟩ := mem_spanLines hx
  rw [State.saveLine, ht.bad_eq, isPoisoned_piece h hin, if_neg (by simp), Memory.read_piece _ _ _ _ _ hin, hia, ← ht.mem_eq, ← ht.arg_eq]
  exact t.sends_post ..

/-- The save fetch is refused: nothing is copied, nothing cleared. -/
theorem saveFetch_refused {s : State} (h : s.serviceRuns = false ∨ s.windowed 1 s.arg.ia 40960 = false ∨
    ¬ (∀ x ∈ spanLines s.arg.ia 40960, s.fetchTakes x.1 = true) ∨ 64 ≤ s.arg.lq) : saveFetch s = s := by
  unfold saveFetch
  refine if_pos ?_
  rw [← List.all_eq_true, Bool.not_eq_true] at h
  rcases h with h | h | h | h <;> simp only [h, decide_true, Bool.not_false, Bool.or_true, Bool.true_or]

theorem saveFetch_taken {s : State} (hs : s.serviceRuns = true) (hw : s.windowed 1 s.arg.ia 40960 = true)
    (ht : ∀ x ∈ spanLines s.arg.ia 40960, s.fetchTakes x.1 = true) (hq : s.arg.lq < 64) :
    saveFetch s = ((spanLines s.arg.ia 40960).foldl (State.saveLine (altPa s.arg.lq)) s).writePa (altPa s.arg.lq)
      (List.replicate 40960 0) := by
  unfold saveFetch
  rw [if_neg]
  · rfl
  · rw [hs, hw, List.all_eq_true.mpr ht, decide_eq_false (Nat.not_le.mpr hq)]
    decide

theorem State.writePa_msgs (s : State) (pa : Nat) (bs : List Byte) : (s.writePa pa bs).msgs = s.msgs := rfl

/-- A write of zeros clears its bytes and no other. -/
theorem State.byte_writePa_zeros (s : State) (pa n x : Nat) :
    (s.writePa pa (List.replicate n 0)).mem.byte x = if pa ≤ x ∧ x < pa + n then 0 else s.mem.byte x := by
  rw [State.writePa, Memory.byte_write, List.length_replicate]
  split
  · rw [List.getD_eq_getElem?_getD, List.getElem?_replicate, if_pos (by omega), Option.getD_some]
  · rfl

/-! ### Register writes (R3, R308, R318, R321) -/

theorem State.look_counters_setCounter (s : State) {k : Nat} (v : DWord) (hk : k < 4096) (n : Nat) :
    Map.look 0 (s.setCounter k v).dev.counters n = if n = k then v &&& 0xFFFFFFFFFFFF else Map.look 0 s.dev.counters n := by
  rw [State.setCounter, if_pos hk]
  exact Map.look_put ..

/-- The place of a pair of digits to base `b` tells both of them. -/
theorem place_inj {b e w e' w' : Nat} (h : w < b) (h' : w' < b) : b * e + w = b * e' + w' ↔ e = e' ∧ w = w' := by
  refine ⟨fun k => ?_, fun ⟨he, hw⟩ => by rw [he, hw]⟩
  have hb : 0 < b := by omega
  have he : e = e' := by simpa [Nat.mul_add_div hb, Nat.div_eq_of_lt h, Nat.div_eq_of_lt h'] using congrArg (· / b) k
  subst he
  exact ⟨rfl, Nat.add_left_cancel k⟩

theorem State.entryWord_setClassifier (s : State) {k j : Nat} (v : DWord) (hk : k < 1024) (hj : j < 4) (e w : Nat) (hw : w < 4) :
    (s.setClassifier k j v).entryWord e w = if e = k ∧ w = j then v &&& classifierBits w else s.entryWord e w := by
  rw [State.setClassifier, if_pos ⟨hk, hj⟩, State.entryWord, Map.look_put, State.entryWord]
  simp only [place_inj hw hj]
  split
  · next h => rw [h.2]
  · rfl

theorem State.look_txregs_setTx (s : State) {k j : Nat} (v : DWord) (hk : k < 64) (hj : j < 2) (n : Nat) :
    Map.look 0 (s.setTx k j v).dev.txregs n
      = if n = 2 * k + j then v &&& 0xFFFFFFFFFFFFF else Map.look 0 s.dev.txregs n := by
  rw [State.setTx, if_pos ⟨hk, hj⟩]
  exact Map.look_put ..

theorem registerWrite_debug {s : State} (hr : s.fw.recovery = false) (hs : s.arg.space = .debug) :
    registerWrite s = s.debugBlockWrite s.arg.off s.arg.v := by
  simp only [registerWrite, hs, hr, Bool.false_eq_true, if_false]

theorem registerWrite_debug_field {s : State} (hr : s.fw.recovery = false) (hs : s.arg.space = .debug) (ho : s.arg.off ≠ 0) :
    registerWrite s = s.debugWrite s.arg.off s.arg.v := by
  rw [registerWrite_debug hr hs]
  exact if_neg (by simpa using ho)

/-- A register of the debug block other than DBGCTL and SERCTL takes its value, and nothing else changes. -/
theorem State.debugWrite_dbg (s : State) {off : Nat} (v : DWord) (h : off ≠ 0xE0) : (s.debugWrite off v).dbg = s.dbg.write off v :=
  if_neg (by simpa using h)

/-! ### Recovery mode (R16, R394) -/

theorem State.serviceRuns_recovery {s : State} (h : s.fw.recovery = true) : s.serviceRuns = false := by simp [State.serviceRuns, h]

/-- In recovery mode no register answers a read but those of the recovery mailbox. -/
theorem State.registerRead_recovery {s : State} (h : s.fw.recovery = true) (hs : s.arg.space ≠ .recovery) : s.registerRead = s := by
  have hrun := State.serviceRuns_recovery h
  simp only [State.registerRead, h, hrun, Bool.true_or, if_true, Bool.false_eq_true, if_false, Bool.true_and]
  split
  · rfl
  · rfl
  · exact if_pos (bne_iff_ne.mpr hs)

theorem hostBar2Read_recovery {s : State} (h : s.fw.recovery = true) (ha : s.arg.flag2 = false ∨ s.arg.space ≠ .recovery) :
    hostBar2Read s = s := by
  unfold hostBar2Read
  by_cases hf : s.arg.flag2 = true
  · rw [if_pos hf, State.registerRead_recovery h (ha.resolve_left (by simp [hf]))]
  · simp [hf, h]

/-- In recovery mode the device ignores what the host and the service firmware ask of it. -/
theorem recovery_ignores {s : State} (h : s.fw.recovery = true) (ha : s.arg.flag2 = false ∨ s.arg.space ≠ .recovery) :
    ∀ i ∈ [Instr.hostBar2Write, .hostBar2Read, .completionCounterWrite, .classifierEntryWrite, .transmitQueueRegisterWrite,
      .saveFetch, .domainTableWrite], exec i s = .next s := by
  have hrun := State.serviceRuns_recovery h
  simp only [List.forall_mem_cons]
  refine ⟨?_, ?_, ?_, ?_, ?_, ?_, ?_, by simp⟩ <;> refine congrArg Host.Outcome.next ?_
  · exact if_pos h
  · exact hostBar2Read_recovery h ha
  · exact if_pos h
  · exact if_pos h
  · exact if_pos h
  · exact saveFetch_refused (.inl hrun)
  · exact if_pos (by rw [hrun]; rfl)

/-- Nor does it take a write of a register of BAR0, of the debug block or of the service firmware. -/
theorem registerWrite_recovery {s : State} (h : s.fw.recovery = true) (hs : s.arg.space ∈ [RegSpace.bar0, .debug, .firmware]) :
    registerWrite s = s := by
  have hrun := State.serviceRuns_recovery h
  simp only [List.mem_cons, List.not_mem_nil, or_false] at hs
  rcases hs with hs | hs | hs <;> simp [registerWrite, hs, h, hrun]

/-! ### The domain table (R12) -/

/-- A row that the root firmware does not approve takes no effect. -/
theorem domainTableWrite_unapproved {s : State} (h : s.arg.flag = false) : (domainTableWrite s).dev.domains = s.dev.domains := by
  unfold domainTableWrite
  simp only [h, Bool.false_and, Bool.false_eq_true, if_false]
  split <;> rfl

/-- A row that is approved and fits takes effect, of its domain only. -/
theorem row_domainTableWrite {s : State} (hr : s.fw.recovery = false) (hb : 3 ≤ s.dev.ready) (hf : s.arg.flag = true)
    (hfit : s.rowFits s.arg.dom s.arg.row = true) (d : Nat) :
    (domainTableWrite s).row d = if d = s.arg.dom then s.arg.row else s.row d := by
  have hrun : s.serviceRuns = true := by simp [State.serviceRuns, hr, hb]
  simp only [domainTableWrite, hrun, hf, hfit, Bool.not_true, Bool.false_eq_true, if_false, Bool.and_self, if_true]
  exact Map.look_put ..

/-! ### O54 -/

/-- A posted write of the host to lines that some domain owns leaves, one message for each line. -/
theorem exec_hostBar2Write_owned {s : State} (hr : s.fw.recovery = false) (hn : s.arg.off + s.arg.bytes.length ≤ 2 ^ 36)
    (h : ∀ x ∈ spanLines (s.dev.winbase.toNat + s.arg.off) s.arg.bytes.length, s.regionAt x.1 = .hbm ∧ s.ownerDom x.1 ≠ none) :
    ∃ t, exec .hostBar2Write s = .next t ∧ t.mem = s.mem ∧ t.dev = s.dev ∧
      (t.msgs.drop s.msgs.length).map Msg.sent = hostPieces (s.dev.winbase.toNat + s.arg.off) s.arg.bytes := by
  have k := s.sends_hostWrite (s.dev.winbase.toNat + s.arg.off) s.arg.bytes fun x hx => State.hostLine_of_owned (h x hx)
  exact ⟨_, congrArg Host.Outcome.next (hostBar2Write_fits hr hn), k.1.mem_eq, k.1.dev_eq, k.drop⟩

theorem exec_hostBar0QueueWrite_fits {s : State} {ia : Nat} (hq : s.queueIa s.arg.off = some ia) (hb : s.dev.ready = 5)
    (hn : s.arg.off + s.arg.bytes.length ≤ if s.arg.off < 0x12000 then 0x12000 else 0x400000) :
    ∃ t, exec .hostBar0QueueWrite s = .next t ∧ t.mem = s.mem ∧
      (t.msgs.drop s.msgs.length).map Msg.sent = hostPieces ia s.arg.bytes := by
  have k := s.sends_queueWrite ia s.arg.bytes
  exact ⟨_, congrArg Host.Outcome.next (hostBar0QueueWrite_fits hq hb hn), k.1.mem_eq, k.drop⟩

/-- A save fetch that is taken clears the alternate area and, where no poison stands in it, sends its bytes. -/
theorem exec_saveFetch_taken {s : State} (hs : s.serviceRuns = true) (hw : s.windowed 1 s.arg.ia 40960 = true)
    (ht : ∀ x ∈ spanLines s.arg.ia 40960, s.fetchTakes x.1 = true) (hq : s.arg.lq < 64) :
    ∃ t, exec .saveFetch s = .next t ∧
      (∀ x, t.mem.byte x = if altPa s.arg.lq ≤ x ∧ x < altPa s.arg.lq + 40960 then 0 else s.mem.byte x) ∧
      (isPoisoned s.bad (altPa s.arg.lq) 40960 = false →
        (t.msgs.drop s.msgs.length).map Msg.sent = hostPieces s.arg.ia (s.mem.read (altPa s.arg.lq) 40960)) := by
  refine ⟨_, congrArg Host.Outcome.next (saveFetch_taken hs hw ht hq), fun x => ?_, fun hp => ?_⟩
  · rw [State.byte_writePa_zeros, (State.OnlyPosts.foldl _ (fun t y => t.onlyPosts_saveLine _ y) _ s).mem_eq]
  · rw [State.writePa_msgs]
    exact (s.sends_saveLines (altPa s.arg.lq) 40960 hp).drop

/-- A write of a register of the debug block changes that register only. -/
theorem exec_registerWrite_debug_field {s : State} (hr : s.fw.recovery = false) (hs : s.arg.space = .debug) (ho : s.arg.off ≠ 0) :
    ∃ t, exec .registerWrite s = .next t ∧ t.mem = s.mem ∧ t.dev = s.dev ∧ t.fw = s.fw ∧ t.wgs = s.wgs ∧
      (s.arg.off = 0xC8 → t.dbg = { s.dbg with trbase := s.arg.v }) ∧
      (s.arg.off = 0xC0 → t.dbg = { s.dbg with trctl := s.arg.v &&& 0xF1 }) ∧
      (s.arg.off = 0xD0 → t.dbg = { s.dbg with trsize := s.arg.v }) ∧ (s.arg.off = 0xD8 → t.dbg = { s.dbg with trptr := s.arg.v }) ∧
      (s.arg.off = 0x40 → ∀ n, Map.look 0 t.dbg.bps n = if n = 0 then s.arg.v &&& 0x81FFFFFFFFFFFFF8 else Map.look 0 s.dbg.bps n) := by
  refine ⟨_, congrArg Host.Outcome.next (registerWrite_debug_field hr hs ho), rfl, rfl, rfl, rfl, ?_, ?_, ?_, ?_, ?_⟩ <;> intro h <;>
    rw [State.debugWrite_dbg _ _ (by omega), h]
  · rfl
  · rfl
  · rfl
  · rfl
  · exact Map.look_put _ _ _ _

/-- Settles O54: each event is one of the lemmas above, by the posted writes that leave or by what the register's map holds. -/
theorem hostWrites : Obligations.HostWrites := by
  intro s
  refine ⟨recovery_ignores, fun hr hs => congrArg Host.Outcome.next (registerWrite_recovery hr hs),
    fun _ hb => congrArg Host.Outcome.next (hostBar0QueueWrite_early (by omega)), fun hr => ⟨?_, ?_, ?_, ?_, ?_, ?_, ?_, ?_, ?_⟩,
    fun ia hq => ⟨fun hb => congrArg Host.Outcome.next (hostBar0QueueWrite_early hb), exec_hostBar0QueueWrite_fits hq⟩⟩
  · exact exec_hostBar2Write_owned hr
  · exact fun hn => congrArg Host.Outcome.next (hostBar2Write_past hr hn)
  · intro hk
    exact ⟨_, congrArg Host.Outcome.next (if_neg (by simp [hr])), by rw [State.setCounter, if_pos hk],
      s.look_counters_setCounter _ hk⟩
  · intro hk hj
    exact ⟨_, congrArg Host.Outcome.next (if_neg (by simp [hr])), by rw [State.setClassifier, if_pos ⟨hk, hj⟩],
      s.entryWord_setClassifier _ hk hj⟩
  · intro hk hj
    exact ⟨_, congrArg Host.Outcome.next (if_neg (by simp [hr])), by rw [State.setTx, if_pos ⟨hk, hj⟩], s.look_txregs_setTx _ hk hj⟩
  · exact exec_registerWrite_debug_field hr
  · exact ⟨fun h => congrArg Host.Outcome.next (saveFetch_refused h), exec_saveFetch_taken⟩
  · exact fun hf => ⟨_, rfl, domainTableWrite_unapproved hf⟩
  · intro hf hb hfit
    have row := row_domainTableWrite hr hb hf hfit
    exact ⟨_, rfl, by rw [row, if_pos rfl], fun d hd => by rw [row, if_neg hd]⟩

/-! ### Stop records (R329, R330) -/

theorem span_loop_append {α : Type} (p : α → Bool) (xs : List α) :
    ∀ acc, (List.span.loop p xs acc).1 ++ (List.span.loop p xs acc).2 = acc.reverse ++ xs := by
  induction xs with
  | nil => intro acc; rfl
  | cons x xs ih =>
    intro acc
    rw [List.span.loop]
    cases p x with
    | true => exact (ih (x :: acc)).trans (by rw [List.reverse_cons, List.append_assoc, List.singleton_append])
    | false => rfl

/-- The two parts that a list is cut into make it up. -/
theorem span_append {α : Type} (p : α → Bool) (xs : List α) : (xs.span p).1 ++ (xs.span p).2 = xs := span_loop_append p xs []

/-- A 17th record is not kept. -/
theorem Debug.addStop_stops_full {d : Debug} (h : 16 ≤ d.stops.length) (who : Nat × Nat) (r : List DWord) :
    (d.addStop who r).stops = d.stops := by
  simp only [Debug.addStop, h, if_true]

/-- Another is put in its place among those that stand. -/
theorem Debug.addStop_stops_room {d : Debug} (h : ¬ 16 ≤ d.stops.length) (who : Nat × Nat) (r : List DWord) :
    ∃ lo hi, lo ++ hi = d.stops ∧ (d.addStop who r).stops = lo ++ [r] ++ hi := by
  simp only [Debug.addStop, h, if_false]
  exact ⟨_, _, span_append _ _, rfl⟩

theorem Debug.addStop_stops_length (d : Debug) (who : Nat × Nat) (r : List DWord) :
    (d.addStop who r).stops.length = if 16 ≤ d.stops.length then d.stops.length else d.stops.length + 1 := by
  split
  · next h => rw [Debug.addStop_stops_full h]
  · next h =>
    obtain ⟨lo, hi, parts, e⟩ := Debug.addStop_stops_room h who r
    rw [e, ← parts]
    simp only [List.length_append, List.length_singleton]
    omega

theorem Debug.addStop_stops_nil {d : Debug} (h : d.stops = []) (who : Nat × Nat) (r : List DWord) : (d.addStop who r).stops = [r] := by
  obtain ⟨lo, hi, parts, e⟩ := Debug.addStop_stops_room (d := d) (by rw [h]; decide) who r
  obtain ⟨rfl, rfl⟩ := List.append_eq_nil_iff.mp (parts.trans h)
  exact e

/-- Records that are added take what room there is. -/
theorem Debug.addStops_length (d : Debug) (xs : List ((Nat × Nat) × List DWord)) :
    d.stops.length ≤ (xs.foldl (fun d x => d.addStop x.1 x.2) d).stops.length ∧
      (xs.foldl (fun d x => d.addStop x.1 x.2) d).stops.length ≤ max 16 d.stops.length := by
  refine List.foldlRecOn xs _ (motive := fun e : Debug => d.stops.length ≤ e.stops.length ∧ e.stops.length ≤ max 16 d.stops.length)
    (by omega) fun e he x _ => ?_
  rw [Debug.addStop_stops_length]
  split <;> omega

/-- The word of a stop record that names its cause and its PC. -/
theorem State.stopRecord_cause (s : State) (w : Workgroup) (g : Group) (ent : Nat) (f : Frag) (cause : Nat) (pc hit : DWord)
    (code : Word) (addr : Nat) :
    (s.stopRecord w g ent f cause pc hit code addr).getD 1 0 = fields [(60, cause), (0, (pc &&& 0x1FFFFFFFFFFFFFF).toNat)] := rfl

theorem Debug.setStop_stops (d : Debug) (who : Nat × Nat) (r : List DWord) (i : Nat) :
    (d.setStop who r).stops[i]? = if d.stopped[i]? = some who then (d.stops[i]?).map (fun _ => r) else d.stops[i]? := by
  simp only [Debug.setStop, List.getElem?_mapIdx, beq_iff_eq]
  split <;> simp

/-! ### Halt, resume and step (R325, R328, R329) -/

/-- HALT of an enabled block that is not frozen. -/
theorem debugHalt_enabled {s : State} (he : s.dbg.en = true) (hf : s.dbg.frozen = false) (hr : s.fw.recovery = false) :
    debugHalt s = { s with dbg := { s.haltRecords.foldl (fun d x => d.addStop x.1 x.2) s.dbg with
      frozen := true, frozenAt := s.dtime, unfrozen := false } } := by
  simp only [debugHalt, he, hf, hr, Bool.not_true, Bool.or_self, Bool.false_eq_true, if_false]

theorem debugHalt_disabled {s : State} (he : s.dbg.en = false) : debugHalt s = s := by
  simp only [debugHalt, he, Bool.not_false, Bool.true_or, if_true]

/-- The record of a package's one group. -/
theorem State.haltRecords_single {s : State} {w : Workgroup} {g : Group} {x : Nat × Frag} (hw : s.wgs = [w]) (hg : w.groups = [g])
    (hx : g.nextWord (s.detOf w) = some x) :
    s.haltRecords = [((w.run, g.grp), s.stopRecord w g x.1 x.2 4 x.2.pc 0 0 0)] := by
  simp [State.haltRecords, hw, hg, hx]

theorem exec_debugHalt_enabled {s : State} (he : s.dbg.en = true) (hf : s.dbg.frozen = false) (hr : s.fw.recovery = false) :
    ∃ t, exec .debugHalt s = .next t ∧ t.mem = s.mem ∧ t.wgs = s.wgs ∧ t.dbg.frozen = true ∧ t.dbg.frozenAt = s.dtime ∧
      s.dbg.stops.length ≤ t.dbg.stops.length ∧ t.dbg.stops.length ≤ max 16 s.dbg.stops.length ∧
      ∀ w g x, s.wgs = [w] → w.groups = [g] → g.nextWord (s.detOf w) = some x → s.dbg.stops = [] → ∃ r, t.dbg.stops = [r] ∧
        r.getD 1 0 = fields [(60, 4), (0, (x.2.pc &&& 0x1FFFFFFFFFFFFFF).toNat)] := by
  obtain ⟨low, high⟩ := s.dbg.addStops_length s.haltRecords
  refine ⟨_, congrArg Host.Outcome.next (debugHalt_enabled he hf hr), rfl, rfl, rfl, rfl, low, high, ?_⟩
  intro w g x hw hg hx hs
  refine ⟨_, ?_, s.stopRecord_cause w g x.1 x.2 4 x.2.pc 0 0 0⟩
  rw [State.haltRecords_single hw hg hx]
  exact Debug.addStop_stops_nil hs _ _

/-- RESUME where no command waits for it. -/
theorem debugResume_frozen {s : State} (hf : s.dbg.frozen = true) (hr : s.fw.recovery = false) (hd : s.dbg.deferred = []) :
    debugResume s = { s with
      launches := s.launches.map fun l => l.thaw s.dbg.frozenAt s.dtime
      dbg := { s.dbg with
        frozen := false, unfrozen := false, stops := [], stopped := [], halted := [], stepping := none, stepDone := false,
        stepFid := none, deferred := [] } } := by
  simp only [debugResume, hf, hr, hd, Bool.not_true, Bool.or_self, Bool.false_eq_true, if_false, List.foldl_nil]

/-- A change of every launch that keeps its number. -/
theorem find?_map_lid (f : Launch → Launch) (hf : ∀ l, (f l).lid = l.lid) (ls : List Launch) (lid : Nat) :
    (ls.map f).find? (fun l => l.lid == lid) = (ls.find? fun l => l.lid == lid).map f := by
  simp only [List.find?_map, Function.comp_def, hf]

theorem exec_debugResume_frozen {s : State} (hf : s.dbg.frozen = true) (hr : s.fw.recovery = false) (hd : s.dbg.deferred = []) :
    ∃ t, exec .debugResume s = .next t ∧ t.mem = s.mem ∧ t.wgs = s.wgs ∧ t.dbg.frozen = false ∧ t.dbg.stops = [] ∧
      t.dbg.stepping = none ∧ ∀ l x, s.launch? l.lid = some l → l.drainAt = some x → ∃ l', t.launch? l.lid = some l' ∧
        l'.drainAt = some (x + (s.dtime - max s.dbg.frozenAt x)) := by
  refine ⟨_, congrArg Host.Outcome.next (debugResume_frozen hf hr hd), rfl, rfl, rfl, rfl, rfl, fun l x hl hx => ?_⟩
  refine ⟨l.thaw s.dbg.frozenAt s.dtime, ?_, by simp [Launch.thaw, hx]⟩
  exact (find?_map_lid (fun l => l.thaw s.dbg.frozenAt s.dtime) (fun _ => rfl) s.launches l.lid).trans (congrArg (Option.map _) hl)

/-- STEP of the group whose record SREC names. -/
theorem debugStep_frozen {s : State} (hf : s.dbg.frozen = true) (hr : s.fw.recovery = false) (hn : s.dbg.stepping = none) :
    debugStep s = { s with dbg := { s.dbg with
      stepping := s.dbg.stopped[s.dbg.srec]?, stepDone := false, stepFid := none, stepFrom := s.fresh, unfrozen := false } } := by
  simp only [debugStep, hf, hr, hn, Bool.not_true, Option.isSome_none, Bool.or_self, Bool.false_eq_true, if_false]

/-- The step ends once its word has issued, or none can, and the homes have served its accesses. -/
theorem debugStepComplete_ends {s : State} {run grp : Nat} {w : Workgroup} {g : Group} {x : Nat × Frag}
    (hs : s.dbg.stepping = some (run, grp)) (hw : s.wg? run = some w) (hg : w.group? grp = some g)
    (hi : s.dbg.stepDone = true ∨ g.frags.any (g.mayGo (s.detOf w)) = false)
    (ha : ∀ a ∈ g.accs, a.id < s.dbg.stepFrom ∨ a.served = true) (hx : s.steppedWord w g = some x) :
    debugStepComplete s = { s with dbg := s.dbg.setStop (run, grp) (s.stopRecord w g x.1 x.2 5 x.2.pc 0 0 0) } := by
  have group : s.group? run grp = some g := by rw [State.group?, hw]; exact hg
  have served : s.stepServed run grp = true := by
    simp only [State.stepServed, group, List.all_eq_true, Bool.or_eq_true, decide_eq_true_eq]
    exact ha
  have ended : (s.dbg.stepDone || !(g.frags.any (g.mayGo (s.detOf w)))) = true := by
    rcases hi with hi | hi <;> rw [hi] <;> simp
  simp only [debugStepComplete, hs, hw, group, served, ended, Bool.and_self, if_true, State.stepEnds, hx]

/-! ### Commands of DBGCTL (R3, R324) -/

theorem registerWrite_dbgctl {s : State} (hr : s.fw.recovery = false) (hs : s.arg.space = .debug) (ho : s.arg.off = 0) :
    registerWrite s = ({ s with dbg := { s.dbg with
      ovf := s.dbg.ovf && !s.arg.v.getLsbD 12, srec := (s.arg.v.extractLsb' 8 4).toNat } } : State).debugCommand
        (s.arg.v.extractLsb' 1 2).toNat := by
  rw [registerWrite_debug hr hs, ho]
  rfl

/-- A command is the event that it names. -/
theorem State.debugCommand_exec (u : State) (cmd : Nat) : Host.Outcome.next (u.debugCommand cmd) = (match cmd with
    | 1 => exec .debugHalt u
    | 2 => exec .debugResume u
    | 3 => exec .debugStep u
    | _ => .next u) := by
  match cmd with
  | 0 | 1 | 2 | 3 | _ + 4 => rfl

/-! ### The performance series (R332, R333) -/

theorem State.seriesRecord_length (s : State) (n idx : Nat) (u : Nat × Nat × Nat) : (s.seriesRecord n idx u).length = 64 := by
  simp only [State.seriesRecord, List.length_append, List.length_flatMap, leBytes_length]
  rfl

/-- The record of one unit leaves, and the place of the next moves on. -/
def State.seriesPost (n : Nat) (base size : DWord) (s : State) (u : (Nat × Nat × Nat) × Nat) : State :=
  let next := s.dbg.serpos + 64
  let r := s.seriesRecord n u.2 u.1
  { s with dbg := { s.dbg with serpos := if size.toNat < next + 64 then 0 else next } }.post .series (base.toNat + s.dbg.serpos) r

theorem State.sends_seriesPost (n : Nat) (base size : DWord) (s : State) (u : (Nat × Nat × Nat) × Nat) :
    s.Sends (fun m => (m.use_, m.part.size)) (s.seriesPost n base size u) [(MsgUse.series, 64)] :=
  ⟨⟨_, _, _, rfl⟩, by simp [State.seriesPost, State.post, State.new, State.seriesRecord_length]⟩

theorem State.sends_series (n : Nat) (base size : DWord) (s : State) :
    s.Sends (fun m => (m.use_, m.part.size)) (seriesUnits.zipIdx.foldl (State.seriesPost n base size) s)
      (List.replicate seriesUnits.length (MsgUse.series, 64)) := by
  have k := State.Sends.foldl (State.seriesPost n base size) (fun _ => (MsgUse.series, 64)) seriesUnits.zipIdx s
    fun t _ u _ => t.sends_seriesPost n base size u
  rwa [List.map_const', List.length_zipIdx] at k

/-- The latch that is due, where no record of the one before waits. -/
theorem seriesLatch_due {s : State} (hen : s.dbg.serctl.getLsbD 0 = true) (hlo : 10 ≤ s.dbg.latchK) (hhi : s.dbg.latchK ≤ 24)
    (hdue : s.dbg.seq < s.dbg.latchesBy s.dtime) (hsz : 64 ≤ s.dbg.sersize.toNat) (hm : ∀ m ∈ s.msgs, m.use_ ≠ .series) :
    ∃ t : State, s.Sends (fun m => (m.use_, m.part.size)) t (List.replicate seriesUnits.length (MsgUse.series, 64)) ∧
      seriesLatch s = { t with dbg := { t.dbg with seq := s.dbg.seq + 1, perf := [], latchCyc := t.cyc } } := by
  refine ⟨_, s.sends_series s.dbg.seq s.dbg.serbase s.dbg.sersize, ?_⟩
  have kept : (s.msgs.filter fun m => !(m.use_ == MsgUse.series && m.part.unanswered)) = s.msgs :=
    List.filter_eq_self.mpr fun m h => by simp [hm m h]
  unfold seriesLatch
  generalize seriesUnits.zipIdx = us
  simp only [kept]
  rw [if_neg]
  · rfl
  · simp only [hen, Bool.not_true, Bool.false_or, Bool.or_eq_true, decide_eq_true_eq]
    omega

theorem exec_seriesLatch_due {s : State} (hen : s.dbg.serctl.getLsbD 0 = true) (hlo : 10 ≤ s.dbg.latchK) (hhi : s.dbg.latchK ≤ 24)
    (hdue : s.dbg.seq < s.dbg.latchesBy s.dtime) (hsz : 64 ≤ s.dbg.sersize.toNat) (hm : ∀ m ∈ s.msgs, m.use_ ≠ .series) :
    ∃ t, exec .seriesLatch s = .next t ∧ t.mem = s.mem ∧ t.wgs = s.wgs ∧ t.dbg.seq = s.dbg.seq + 1 ∧ t.dbg.perf = [] ∧
      t.msgs.length = s.msgs.length + seriesUnits.length ∧
      ∀ m ∈ t.msgs.drop s.msgs.length, m.use_ = .series ∧ m.part.size = 64 := by
  obtain ⟨t, k, e⟩ := seriesLatch_due hen hlo hhi hdue hsz hm
  refine ⟨_, congrArg Host.Outcome.next e, k.1.mem_eq, k.1.wgs_eq, rfl, rfl, ?_, fun m hm => ?_⟩
  · simpa using congrArg List.length k.2
  · have h := List.mem_map_of_mem (f := fun m : Msg => (m.use_, m.part.size)) hm
    exact Prod.mk.inj (List.eq_of_mem_replicate (k.drop ▸ h))

/-! ### O59 -/

/-- Settles O59: each event is one of the lemmas above. -/
theorem debugEvents : Obligations.DebugEvents := by
  intro s
  refine ⟨exec_debugHalt_enabled, fun he => congrArg Host.Outcome.next (debugHalt_disabled he), fun hr hs ho => ?_,
    exec_debugResume_frozen, fun hf hr hn x hx => ?_, fun run grp w g x hs hw hg hi ha hx => ?_, exec_seriesLatch_due⟩
  · exact (congrArg Host.Outcome.next (registerWrite_dbgctl hr hs ho)).trans (State.debugCommand_exec _ _)
  · exact ⟨_, congrArg Host.Outcome.next (debugStep_frozen hf hr hn), rfl, rfl, hf, hx, rfl, rfl⟩
  · exact ⟨_, _, congrArg Host.Outcome.next (debugStepComplete_ends hs hw hg hi ha hx), rfl, rfl, rfl,
      Debug.setStop_stops _ _ _, State.stopRecord_cause ..⟩

end Sys2Proof.Machine
end

section
/-! The proofs of O19 (floating words), O22 (conversions) and O60 (FMIN and FMAX): a lane-wise word that is ready delivers its
operation, the components of a converted dual one by one, and which operand FMIN and FMAX return. -/

namespace Sys2Proof.Machine

/-! ### Words whose body is lane-wise -/

section
variable {s : State} {c : Ctx} {i : Instr} {body : Ctx → Out}

/-- A ready word whose body is lane-wise completes, and its working lanes deliver that operation. -/
theorem exec_lanewise {fn : Nat → Dual × FFlags} (he : exec i s = .next (runWord i.form body s)) (hb : body c = c.lanewise fn)
    (hr : s.ready i.form = some c) : ∃ t, exec i s = .next t ∧ c.WroteLanes t fn := by
  refine ⟨_, he, ?_⟩
  rw [runWord_ready body hr, hb]
  exact Ctx.wrote_lanewise hr fn

/-- A ready floating word delivers its operation on the sources of each lane. -/
theorem exec_float {op : Dual → Dual → Dual → Dual × FFlags} (he : exec i s = .next (runWord i.form body s))
    (hb : body c = c.float op) (hr : s.ready i.form = some c) :
    ∃ t, exec i s = .next t ∧ c.WroteLanes t fun i => op (c.src 0 i) (c.src 1 i) (c.src 2 i) :=
  exec_lanewise he hb hr

/-- A ready packed word delivers its operation on both elements of the sources, with the flags of both. -/
theorem exec_packed {op : Dual → Dual → Dual → Dual × FFlags} (he : exec i s = .next (runWord i.form body s))
    (hb : body c = c.float (packed op)) (hr : s.ready i.form = some c) : ∃ t, exec i s = .next t ∧ c.WroteLanes t fun i =>
      let lo := op ((c.src 0 i).elem 0) ((c.src 1 i).elem 0) ((c.src 2 i).elem 0)
      let hi := op ((c.src 0 i).elem 1) ((c.src 1 i).elem 1) ((c.src 2 i).elem 1)
      (lo.1.both hi.1, lo.2 ||| hi.2) :=
  exec_float (op := packed op) he hb hr

/-- A ready word whose body writes one value with zero tangents completes with that value. -/
theorem exec_values {fn : Nat → DWord} (he : exec i s = .next (runWord i.form body s)) (hb : body c = c.values fn)
    (hr : s.ready i.form = some c) : ∃ t, exec i s = .next t ∧ c.WroteValue t fn := by
  refine ⟨_, he, ?_⟩
  rw [runWord_ready body hr, hb]
  exact Ctx.wrote_values hr fn

end

/-! ### O19 -/

/-- Settles O19: every word of the list is a floating word of its operation; the packed words apply theirs to each element. -/
theorem floatWords : Obligations.FloatWords := by
  refine ⟨fun f g s c => ?_, fun f s c => ⟨?_, exec_float rfl rfl, exec_values rfl rfl⟩⟩
  · simp only [List.forall_mem_cons, List.not_mem_nil, false_implies, implies_true, and_true]
    exact ⟨⟨exec_float rfl rfl, exec_float rfl rfl⟩, ⟨exec_float rfl rfl, exec_float rfl rfl⟩, ⟨exec_float rfl rfl, exec_float rfl rfl⟩,
      exec_float rfl rfl, exec_float rfl rfl,
      ⟨exec_float rfl rfl, exec_float rfl rfl⟩, ⟨exec_float rfl rfl, exec_float rfl rfl⟩,
      exec_float rfl rfl, exec_float rfl rfl, exec_float rfl rfl, exec_float rfl rfl, exec_float rfl rfl⟩
  · simp only [List.forall_mem_cons, List.not_mem_nil, false_implies, implies_true, and_true]
    exact ⟨exec_packed rfl rfl, exec_packed rfl rfl, exec_packed rfl rfl, exec_packed rfl rfl, exec_packed rfl rfl, exec_packed rfl rfl⟩

/-! ### Conversions: the value and the tangents alike (R129) -/

/-- The dual whose component `j` is what `fn j` gives, with the flags of the value and of all `k` components. -/
def byComponent (k : Nat) (fn : Nat → Nat × FFlags) : Dual × FFlags :=
  ({ v := BitVec.ofNat 64 (fn 0).1, t := (List.range k).map fun j => BitVec.ofNat 64 (fn (j + 1)).1 },
    (List.range (k + 1)).foldl (fun x j => x ||| (fn j).2) 0)

/-- The dual of a list of results, that of the value first, as the bodies of the conversions build it. -/
def ofResults (rs : List (Nat × FFlags)) : Dual × FFlags :=
  ({ v := BitVec.ofNat 64 ((rs.map (·.1)).headD 0), t := (rs.drop 1).map fun r => BitVec.ofNat 64 r.1 },
    rs.foldl (fun f r => f ||| r.2) 0)

theorem ofResults_map (k : Nat) (fn : Nat → Nat × FFlags) : ofResults ((List.range (k + 1)).map fn) = byComponent k fn := by
  simp [ofResults, byComponent, List.foldl_map, List.range_succ_eq_map]

/-- Results that raise no flag leave the flags as they are. -/
theorem foldl_no_flags (js : List Nat) (fl : FFlags) : js.foldl (fun (x : FFlags) _ => x ||| 0) fl = fl := by
  induction js with
  | nil => rfl
  | cons j js ih => exact (congrArg (js.foldl _) BitVec.or_zero).trans ih

/-- Moving bits component by component raises no flag. -/
theorem byComponent_words (k : Nat) (w : Nat → DWord) : byComponent k (fun j => ((w j).toNat, 0))
    = ({ v := w 0, t := (List.range k).map fun j => w (j + 1) }, 0) := by
  simp only [byComponent, BitVec.ofNat_toNat, BitVec.setWidth_eq, foldl_no_flags]

section
variable {s : State} {c : Ctx} {i : Instr} {body : Ctx → Out}

/-- A ready word that lists the results of all components delivers them component by component. -/
theorem exec_results (fn : Nat → Nat → Nat × FFlags) (he : exec i s = .next (runWord i.form body s))
    (hb : body c = c.lanewise fun l => ofResults ((List.range (c.k + 1)).map (fn l))) (hr : s.ready i.form = some c) :
    ∃ t, exec i s = .next t ∧ c.WroteLanes t fun l => byComponent c.k (fn l) := by
  simpa only [ofResults_map] using exec_lanewise he hb hr

/-- A ready word that moves the bits of each component delivers them with no flag. -/
theorem exec_words (w : Nat → Nat → DWord) (he : exec i s = .next (runWord i.form body s))
    (hb : body c = c.lanewise fun l => ({ v := w l 0, t := (List.range c.k).map fun j => w l (j + 1) }, 0))
    (hr : s.ready i.form = some c) :
    ∃ t, exec i s = .next t ∧ c.WroteLanes t fun l => byComponent c.k fun j => ((w l j).toNat, 0) := by
  simpa only [byComponent_words] using exec_lanewise he hb hr

end

/-- The field sub that a body reads is that of the word. -/
theorem Ctx.subn_of_ready {s : State} {c : Ctx} {code : Nat} {f : FR} (hr : s.ready (.fr code f) = some c) : c.subn = f.subn := by
  obtain ⟨-, -, -, -, -, -, -, hfm, -⟩ := State.ctx?_spec (State.ready_ctx hr).1
  rw [Ctx.subn, hfm]

/-! ### O22 -/

/-- Settles O22: CVT, CVTQ and CVTD list the results of all components; PACK and UNPK move the bits of each. -/
theorem conversions : Obligations.Conversions := by
  intro f s c
  refine ⟨fun h => ?_, fun h => ?_, fun h => ?_, fun h => ?_, fun h => ?_⟩
  · have sub : c.subn = f.subn := Ctx.subn_of_ready h
    exact exec_results (fun l j => cvtF c.ty f.subn c.rnd c.ftz (c.opx.testBit 0) ((c.src 0 l).comp j).toNat) rfl (sub ▸ rfl) h
  · have sub : c.subn = f.subn := Ctx.subn_of_ready h
    exact exec_results (fun l j => cvtqLane (Slot.ofWord (c.l.slot f.subn)) c.sel (fun i => ((c.src 0 i).comp j).toNat) l) rfl
      (sub ▸ rfl) h
  · have sub : c.subn = f.subn := Ctx.subn_of_ready h
    exact exec_results (fun l j => (Slot.ofWord (c.l.slot f.subn)).decodeScaled ((c.src 0 l).comp j).toNat) rfl (sub ▸ rfl) h
  · exact exec_words (fun l j => packWords c.ty ((c.src 0 l).comp j) ((c.src 1 l).comp j)) rfl rfl h
  · exact exec_words (fun l j => unpkWord c.ty ((c.src 1 l).w.toNat % 8) ((c.src 0 l).comp j)) rfl rfl h

/-! ### FMIN and FMAX (R117) -/

namespace Fmt

@[simp] theorem flush_false (m : Fmt) (x : Nat) : m.flush false x = x := by simp [flush]

theorem flush_le (m : Fmt) (ftz : Bool) (x : Nat) : m.flush ftz x ≤ x := by
  unfold flush
  split
  · exact Nat.div_mul_le_self ..
  · exact Nat.le_refl x

section
variable {m : Fmt} {a b : Nat}

/-- Of two numbers the greater key, under FMAX, or the lesser, under FMIN, is picked. -/
theorem pick_numbers (isMax : Bool) (ha : (m.value a).isNan = false) (hb : (m.value b).isNan = false) :
    m.pick isMax a b = if isMax then (if m.key b ≤ m.key a then 0 else 1) else (if m.key a ≤ m.key b then 0 else 1) := by
  simp [pick, ha, hb]

theorem pick_nan_left (isMax : Bool) (ha : (m.value a).isNan = true) (hb : (m.value b).isNan = false) : m.pick isMax a b = 1 := by
  simp [pick, ha, hb]

theorem pick_nan_right (isMax : Bool) (ha : (m.value a).isNan = false) (hb : (m.value b).isNan = true) : m.pick isMax a b = 0 := by
  simp [pick, ha, hb]

theorem pick_nans (isMax : Bool) (ha : (m.value a).isNan = true) (hb : (m.value b).isNan = true) : m.pick isMax a b = 2 := by
  simp [pick, ha, hb]

end

/-- FMIN and FMAX give an operand, as `.FTZ` reads it, or the canonical NaN. -/
theorem minmaxF_mem (m : Fmt) (isMax ftz : Bool) (a b : Nat) :
    (m.minmaxF isMax ftz a b).1 ∈ [m.flush ftz a, m.flush ftz b, m.nan] := by
  unfold minmaxF
  dsimp only
  split <;> simp

theorem minmaxF_fst_of_pick {m : Fmt} {isMax : Bool} {a b n : Nat} (h : m.pick isMax a b = n) :
    (m.minmaxF isMax false a b).1 = if n = 0 then a else if n = 1 then b else m.nan := by
  subst h
  simp only [minmaxF, flush_false]
  split
  · rename_i h; simp [h]
  · rename_i h; simp [h]
  · rename_i h0 h1
    rw [if_neg h0, if_neg h1]

/-- NV is raised by a signalling operand, and no other flag. -/
theorem minmaxF_false_snd (m : Fmt) (isMax : Bool) (a b : Nat) : (m.minmaxF isMax false a b).2
    = if (m.value a).isSNan = true ∨ (m.value b).isSNan = true then fNV else 0 := by
  simp [minmaxF, nvOf]

/-- The place of an encoding in the order of R106, as one difference. -/
theorem key_eq (m : Fmt) (x : Nat) : m.key x = if m.signBit ≤ x then (m.signBit : Int) - 1 - x else x := by
  unfold key
  split <;> omega

/-- Of two numbers the greater under FMAX, the lesser under FMIN, in the order of `key`. -/
theorem minmaxF_numbers {m : Fmt} {a b : Nat} (isMax : Bool) (ha : (m.value a).isNan = false) (hb : (m.value b).isNan = false) :
    let r := (m.minmaxF isMax false a b).1
    (r = a ∨ r = b) ∧ if isMax then m.key a ≤ m.key r ∧ m.key b ≤ m.key r else m.key r ≤ m.key a ∧ m.key r ≤ m.key b := by
  dsimp only
  rw [minmaxF_fst_of_pick (pick_numbers isMax ha hb)]
  cases isMax
  · by_cases h : m.key a ≤ m.key b
    · simp [h]
    · simp [h, Int.le_of_lt (Int.not_le.mp h)]
  · by_cases h : m.key b ≤ m.key a
    · simp [h]
    · simp [h, Int.le_of_lt (Int.not_le.mp h)]

/-- The encodings of the formats of R97 fit in 32 bits. -/
theorem nan_lt_and_signBit_le {m : Fmt} (hm : m ∈ [fp32, fp16, bf16]) : m.nan < 2 ^ 32 ∧ 2 * m.signBit ≤ 2 ^ 32 := by
  revert m
  decide

theorem minmaxF_lt {m : Fmt} (hm : m ∈ [fp32, fp16, bf16]) (isMax ftz : Bool) {a b : Nat} (ha : a < 2 * m.signBit)
    (hb : b < 2 * m.signBit) : (m.minmaxF isMax ftz a b).1 < 2 ^ 32 := by
  obtain ⟨hnan, hsign⟩ := nan_lt_and_signBit_le hm
  have fa := m.flush_le ftz a
  have fb := m.flush_le ftz b
  have mem := m.minmaxF_mem isMax ftz a b
  simp only [List.mem_cons, List.not_mem_nil, or_false] at mem
  omega

end Fmt

/-! ### O60 -/

/-- Settles O60: by which operands are NaNs; the words deliver the operation's value, which fits in 64 bits. -/
theorem minMax : Obligations.MinMax := by
  refine ⟨fun m isMax a b _ _ _ => ⟨fun ha hb => ?_, fun ha hb => ?_, fun ha hb => ?_, fun ha hb => ?_, m.minmaxF_false_snd isMax a b⟩,
    fun m k ftz isMax x y z hm hx hy => ?_⟩
  · simpa only [Fmt.key_eq] using Fmt.minmaxF_numbers isMax ha hb
  · exact Fmt.minmaxF_fst_of_pick (Fmt.pick_nan_left isMax ha hb)
  · exact Fmt.minmaxF_fst_of_pick (Fmt.pick_nan_right isMax ha hb)
  · exact Fmt.minmaxF_fst_of_pick (Fmt.pick_nans isMax ha hb)
  · have lt : (m.minmaxF isMax ftz x.v.toNat y.v.toNat).1 < 2 ^ 64 :=
      Nat.lt_trans (Fmt.minmaxF_lt hm isMax ftz hx hy) (by decide)
    exact Nat.mod_eq_of_lt lt

end Sys2Proof.Machine
end
